-- ==== Sys2Proof/Word.lean ====
section
/-! DEFINITION. The word types of the unit (spec/00_scope.md R5, R6). -/

namespace Sys2Proof

/-- One byte of memory, of a stream, of a palette table (20_memory.md R40). -/
abbrev Byte := BitVec 8

/-- A 16-bit quantity: a `PAL16` entry, a dirty row bound, a screen size (10_state.md R20, R25, R30). -/
abbrev Half := BitVec 16

/-- A 32-bit register or command word (10_state.md R11, R12). -/
abbrev Word := BitVec 32

end Sys2Proof
end

