-- ==== Sys2Proof/Syntax.lean ====
section
/-! DEFINITION. The instruction set: one constructor per row of spec/opcode_table.json (30_encoding.md R61 to R77). -/

namespace Sys2Proof

/-- The commands of the unit and the codes of the streams they read. Every command carries the `VS` field of its
word, also where the unit ignores it (30_encoding.md R60, R61). -/
inductive Instr where
  /-- VS_INIT (43_virtual_screen.md R150) -/
  | vsInit (vs : BitVec 2)
  /-- DECODE_STRIP (40_bitmap_codec.md R90) -/
  | decodeStrip (vs : BitVec 2)
  /-- DECODE_MASK (41_mask_codec.md R130) -/
  | decodeMask (vs : BitVec 2)
  /-- DECODE_MASK_OR (41_mask_codec.md R132) -/
  | decodeMaskOr (vs : BitVec 2)
  /-- MARK_DIRTY (42_dirty_tracker.md R141) -/
  | markDirty (vs : BitVec 2)
  /-- FLUSH (42_dirty_tracker.md R144) -/
  | flush (vs : BitVec 2)
  /-- RESTORE_BG (43_virtual_screen.md R154) -/
  | restoreBg (vs : BitVec 2)
  /-- COPY8COL (44_compositor.md R160) -/
  | copy8col (vs : BitVec 2)
  /-- CLEAR8COL (44_compositor.md R161) -/
  | clear8col (vs : BitVec 2)
  /-- COMPOSE_STRIP (44_compositor.md R162) -/
  | composeStrip (vs : BitVec 2)
  /-- STRIP_LOOKUP (44_compositor.md R163) -/
  | stripLookup (vs : BitVec 2)
  /-- BLIT_MASKED (44_compositor.md R166) -/
  | blitMasked (vs : BitVec 2)
  /-- GET_PIXELS (43_virtual_screen.md R152) -/
  | getPixels (vs : BitVec 2)
  /-- GET_BACK_PIXELS (43_virtual_screen.md R153) -/
  | getBackPixels (vs : BitVec 2)
  /-- descriptor 1: RAW (40_bitmap_codec.md R100) -/
  | descRaw1
  /-- descriptor 8: RLE8 (40_bitmap_codec.md R106) -/
  | descRle8_8
  /-- descriptor 9: RLE8 (40_bitmap_codec.md R106) -/
  | descRle8_9
  /-- descriptor 10: EGA_RLE (40_bitmap_codec.md R107) -/
  | descEgaRle10
  /-- descriptor 14: ZIGZAG_V (40_bitmap_codec.md R102) -/
  | descZigzagV14
  /-- descriptor 15: ZIGZAG_V (40_bitmap_codec.md R102) -/
  | descZigzagV15
  /-- descriptor 16: ZIGZAG_V (40_bitmap_codec.md R102) -/
  | descZigzagV16
  /-- descriptor 17: ZIGZAG_V (40_bitmap_codec.md R102) -/
  | descZigzagV17
  /-- descriptor 18: ZIGZAG_V (40_bitmap_codec.md R102) -/
  | descZigzagV18
  /-- descriptor 24: ZIGZAG_H (40_bitmap_codec.md R103) -/
  | descZigzagH24
  /-- descriptor 25: ZIGZAG_H (40_bitmap_codec.md R103) -/
  | descZigzagH25
  /-- descriptor 26: ZIGZAG_H (40_bitmap_codec.md R103) -/
  | descZigzagH26
  /-- descriptor 27: ZIGZAG_H (40_bitmap_codec.md R103) -/
  | descZigzagH27
  /-- descriptor 28: ZIGZAG_H (40_bitmap_codec.md R103) -/
  | descZigzagH28
  /-- descriptor 34: ZIGZAG_V (40_bitmap_codec.md R102) -/
  | descZigzagV34
  /-- descriptor 35: ZIGZAG_V (40_bitmap_codec.md R102) -/
  | descZigzagV35
  /-- descriptor 36: ZIGZAG_V (40_bitmap_codec.md R102) -/
  | descZigzagV36
  /-- descriptor 37: ZIGZAG_V (40_bitmap_codec.md R102) -/
  | descZigzagV37
  /-- descriptor 38: ZIGZAG_V (40_bitmap_codec.md R102) -/
  | descZigzagV38
  /-- descriptor 44: ZIGZAG_H (40_bitmap_codec.md R103) -/
  | descZigzagH44
  /-- descriptor 45: ZIGZAG_H (40_bitmap_codec.md R103) -/
  | descZigzagH45
  /-- descriptor 46: ZIGZAG_H (40_bitmap_codec.md R103) -/
  | descZigzagH46
  /-- descriptor 47: ZIGZAG_H (40_bitmap_codec.md R103) -/
  | descZigzagH47
  /-- descriptor 48: ZIGZAG_H (40_bitmap_codec.md R103) -/
  | descZigzagH48
  /-- descriptor 64: MAJMIN_RUN (40_bitmap_codec.md R104) -/
  | descMajminRun64
  /-- descriptor 65: MAJMIN_RUN (40_bitmap_codec.md R104) -/
  | descMajminRun65
  /-- descriptor 66: MAJMIN_RUN (40_bitmap_codec.md R104) -/
  | descMajminRun66
  /-- descriptor 67: MAJMIN_RUN (40_bitmap_codec.md R104) -/
  | descMajminRun67
  /-- descriptor 68: MAJMIN_RUN (40_bitmap_codec.md R104) -/
  | descMajminRun68
  /-- descriptor 84: MAJMIN_RUN (40_bitmap_codec.md R104) -/
  | descMajminRun84
  /-- descriptor 85: MAJMIN_RUN (40_bitmap_codec.md R104) -/
  | descMajminRun85
  /-- descriptor 86: MAJMIN_RUN (40_bitmap_codec.md R104) -/
  | descMajminRun86
  /-- descriptor 87: MAJMIN_RUN (40_bitmap_codec.md R104) -/
  | descMajminRun87
  /-- descriptor 88: MAJMIN_RUN (40_bitmap_codec.md R104) -/
  | descMajminRun88
  /-- descriptor 104: MAJMIN_RUN (40_bitmap_codec.md R104) -/
  | descMajminRun104
  /-- descriptor 105: MAJMIN_RUN (40_bitmap_codec.md R104) -/
  | descMajminRun105
  /-- descriptor 106: MAJMIN_RUN (40_bitmap_codec.md R104) -/
  | descMajminRun106
  /-- descriptor 107: MAJMIN_RUN (40_bitmap_codec.md R104) -/
  | descMajminRun107
  /-- descriptor 108: MAJMIN_RUN (40_bitmap_codec.md R104) -/
  | descMajminRun108
  /-- descriptor 124: MAJMIN_RUN (40_bitmap_codec.md R104) -/
  | descMajminRun124
  /-- descriptor 125: MAJMIN_RUN (40_bitmap_codec.md R104) -/
  | descMajminRun125
  /-- descriptor 126: MAJMIN_RUN (40_bitmap_codec.md R104) -/
  | descMajminRun126
  /-- descriptor 127: MAJMIN_RUN (40_bitmap_codec.md R104) -/
  | descMajminRun127
  /-- descriptor 128: MAJMIN_RUN (40_bitmap_codec.md R104) -/
  | descMajminRun128
  /-- descriptor 134: MAJMIN_DELTA (40_bitmap_codec.md R105) -/
  | descMajminDelta134
  /-- descriptor 135: MAJMIN_DELTA (40_bitmap_codec.md R105) -/
  | descMajminDelta135
  /-- descriptor 136: MAJMIN_DELTA (40_bitmap_codec.md R105) -/
  | descMajminDelta136
  /-- descriptor 137: MAJMIN_DELTA (40_bitmap_codec.md R105) -/
  | descMajminDelta137
  /-- descriptor 138: MAJMIN_DELTA (40_bitmap_codec.md R105) -/
  | descMajminDelta138
  /-- descriptor 144: MAJMIN_DELTA (40_bitmap_codec.md R105) -/
  | descMajminDelta144
  /-- descriptor 145: MAJMIN_DELTA (40_bitmap_codec.md R105) -/
  | descMajminDelta145
  /-- descriptor 146: MAJMIN_DELTA (40_bitmap_codec.md R105) -/
  | descMajminDelta146
  /-- descriptor 147: MAJMIN_DELTA (40_bitmap_codec.md R105) -/
  | descMajminDelta147
  /-- descriptor 148: MAJMIN_DELTA (40_bitmap_codec.md R105) -/
  | descMajminDelta148
  /-- descriptor 149: RAW (40_bitmap_codec.md R100) -/
  | descRaw149
  /-- a descriptor byte that is not in `DESC_MAP` (30_encoding.md R68) -/
  | descUnrecognised (d : Byte)
  /-- mask control byte, `REP = 1` (30_encoding.md R76) -/
  | maskRun (count : BitVec 7)
  /-- mask control byte, `REP = 0` (30_encoding.md R76) -/
  | maskLit (count : BitVec 7)
  /-- RLE8 packet, `RUN = 1`, `LEN + 1` pixels (30_encoding.md R74) -/
  | rle8Run (len : BitVec 7)
  /-- RLE8 packet, `RUN = 0`, `LEN + 1` pixels (30_encoding.md R74) -/
  | rle8Lit (len : BitVec 7)
  /-- EGA_RLE run of one colour (30_encoding.md R75) -/
  | egaRun (count : BitVec 3) (colour : BitVec 4)
  /-- EGA_RLE copy of the left neighbours (30_encoding.md R75) -/
  | egaCopyleft (count : BitVec 6)
  /-- EGA_RLE run of two alternating colours (30_encoding.md R75) -/
  | egaDither (count : BitVec 6)
  /-- ZIGZAG `0` (30_encoding.md R71) -/
  | zzKeep
  /-- ZIGZAG `10` and `shift` bits (30_encoding.md R71) -/
  | zzLiteral (shift : Nat) (value : Byte)
  /-- ZIGZAG `110` (30_encoding.md R71) -/
  | zzStep
  /-- ZIGZAG `111` (30_encoding.md R71) -/
  | zzTurn
  /-- MAJMIN_RUN `0` (30_encoding.md R72) -/
  | mmrKeep
  /-- MAJMIN_RUN `10` and `shift` bits (30_encoding.md R72) -/
  | mmrLiteral (shift : Nat) (value : Byte)
  /-- MAJMIN_RUN `11` and 3 bits other than 4 (30_encoding.md R72) -/
  | mmrDelta (v : BitVec 3)
  /-- MAJMIN_RUN `11`, 3 bits holding 4, 8 bits of run count (30_encoding.md R72) -/
  | mmrRun (n : Byte)
  /-- MAJMIN_DELTA `0` (30_encoding.md R73) -/
  | mmdKeep
  /-- MAJMIN_DELTA `10` and `shift` bits (30_encoding.md R73) -/
  | mmdLiteral (shift : Nat) (value : Byte)
  /-- MAJMIN_DELTA `11` and a 3-bit index (30_encoding.md R73) -/
  | mmdDelta (i : BitVec 3)
  deriving DecidableEq, Repr

end Sys2Proof
end

