-- ==== Sys2Proof/WellFormed.lean ====
section
/-! DEFINITION. Which terms of Instr stand for a code of the spec's tables (30_encoding.md R61 to R77). -/

namespace Sys2Proof

/-- The 55 descriptor values of `DESC_MAP` (30_encoding.md R67). PRESUMED by the spec's author, log 13. -/
def admittedDescriptors : List Nat :=
  [1, 8, 9, 10] ++ [14, 15, 16, 17, 18] ++ [24, 25, 26, 27, 28] ++ [34, 35, 36, 37, 38] ++ [44, 45, 46, 47, 48]
    ++ [64, 65, 66, 67, 68] ++ [84, 85, 86, 87, 88] ++ [104, 105, 106, 107, 108] ++ [124, 125, 126, 127, 128]
    ++ [134, 135, 136, 137, 138] ++ [144, 145, 146, 147, 148] ++ [149]

/-- A literal of a bit-coded payload has the width its descriptor gives, 4 to 8 bits, and a value of that width
(30_encoding.md R65, R67). -/
def literalFits (shift : Nat) (value : Byte) : Bool :=
  4 ≤ shift && shift ≤ 8 && value.toNat < 2 ^ shift

/-- The checks beyond the operands' types: an unrecognised descriptor is outside `DESC_MAP` (30_encoding.md R68), a
literal fits its width (R65), and the MAJMIN_RUN delta code does not hold 4, which is the run code (R72). -/
def Instr.wf : Instr → Bool
  | .descUnrecognised d => !(admittedDescriptors.contains d.toNat)
  | .zzLiteral shift value => literalFits shift value
  | .mmrLiteral shift value => literalFits shift value
  | .mmdLiteral shift value => literalFits shift value
  | .mmrDelta v => v != 4#3
  | .vsInit _ => true
  | .decodeStrip _ => true
  | .decodeMask _ => true
  | .decodeMaskOr _ => true
  | .markDirty _ => true
  | .flush _ => true
  | .restoreBg _ => true
  | .copy8col _ => true
  | .clear8col _ => true
  | .composeStrip _ => true
  | .stripLookup _ => true
  | .blitMasked _ => true
  | .getPixels _ => true
  | .getBackPixels _ => true
  | .descRaw1 => true
  | .descRle8_8 => true
  | .descRle8_9 => true
  | .descEgaRle10 => true
  | .descZigzagV14 => true
  | .descZigzagV15 => true
  | .descZigzagV16 => true
  | .descZigzagV17 => true
  | .descZigzagV18 => true
  | .descZigzagH24 => true
  | .descZigzagH25 => true
  | .descZigzagH26 => true
  | .descZigzagH27 => true
  | .descZigzagH28 => true
  | .descZigzagV34 => true
  | .descZigzagV35 => true
  | .descZigzagV36 => true
  | .descZigzagV37 => true
  | .descZigzagV38 => true
  | .descZigzagH44 => true
  | .descZigzagH45 => true
  | .descZigzagH46 => true
  | .descZigzagH47 => true
  | .descZigzagH48 => true
  | .descMajminRun64 => true
  | .descMajminRun65 => true
  | .descMajminRun66 => true
  | .descMajminRun67 => true
  | .descMajminRun68 => true
  | .descMajminRun84 => true
  | .descMajminRun85 => true
  | .descMajminRun86 => true
  | .descMajminRun87 => true
  | .descMajminRun88 => true
  | .descMajminRun104 => true
  | .descMajminRun105 => true
  | .descMajminRun106 => true
  | .descMajminRun107 => true
  | .descMajminRun108 => true
  | .descMajminRun124 => true
  | .descMajminRun125 => true
  | .descMajminRun126 => true
  | .descMajminRun127 => true
  | .descMajminRun128 => true
  | .descMajminDelta134 => true
  | .descMajminDelta135 => true
  | .descMajminDelta136 => true
  | .descMajminDelta137 => true
  | .descMajminDelta138 => true
  | .descMajminDelta144 => true
  | .descMajminDelta145 => true
  | .descMajminDelta146 => true
  | .descMajminDelta147 => true
  | .descMajminDelta148 => true
  | .descRaw149 => true
  | .maskRun _ => true
  | .maskLit _ => true
  | .rle8Run _ => true
  | .rle8Lit _ => true
  | .egaRun _ _ => true
  | .egaCopyleft _ => true
  | .egaDither _ => true
  | .zzKeep => true
  | .zzStep => true
  | .zzTurn => true
  | .mmrKeep => true
  | .mmrRun _ => true
  | .mmdKeep => true
  | .mmdDelta _ => true

end Sys2Proof
end

