-- ==== Sys2Proof/Decode.lean ====
section
/-! DEFINITION. Decoding and encoding of command words and stream codes (spec/30_encoding.md R60 to R77), and the
bit-order helpers they use (20_memory.md R43). -/

namespace Sys2Proof

/-- Which code table the bits being read belong to. The bit patterns of the tables overlap; what the unit is reading
decides the table (30_encoding.md, opening). -/
inductive Space where
  /-- a word written to `CMD` (R60) -/
  | command
  /-- the first byte of a bitmap stream (R64) -/
  | descriptor
  /-- a control byte of a mask stream (R76) -/
  | maskControl
  /-- a control byte of an RLE8 packet (R74) -/
  | rle8Control
  /-- a control byte of an EGA_RLE packet (R75) -/
  | egaControl
  /-- the bit stream of a ZIGZAG payload with literals of `shift` bits (R71) -/
  | zigzag (shift : Nat)
  /-- the bit stream of a MAJMIN_RUN payload (R72) -/
  | majminRun (shift : Nat)
  /-- the bit stream of a MAJMIN_DELTA payload (R73) -/
  | majminDelta (shift : Nat)
  deriving DecidableEq, Repr

/-- Why bits do not decode. -/
inductive DecodeError where
  /-- the bits end inside a code of the space -/
  | truncated (sp : Space)
  /-- a command word outside the table of R61, or with a bit of 31:10 set (R62) -/
  | illegalCommand (w : Word)
  deriving DecidableEq, Repr

/-- The low `n` bits of `w` in the order a bit reader takes them, least significant first (20_memory.md R43). -/
def bitsOf : Nat → Nat → List Bool
  | 0, _ => []
  | n + 1, w => (w % 2 == 1) :: bitsOf n (w / 2)

/-- The number whose bit `i` is the `i`-th bit of the list (20_memory.md R43). -/
def natOfBits : List Bool → Nat
  | [] => 0
  | b :: bs => b.toNat + 2 * natOfBits bs

/-- A lazy reader of a bit stream: it asks for one bit at a time and for none it does not need
(20_memory.md R43, 40_bitmap_codec.md R97). -/
inductive Reader (α : Type) where
  | done (a : α)
  | bit (next : Bool → Reader α)

/-- `readBits(n)`: the first bit read is the least significant (20_memory.md R43). -/
def readBits {α : Type} : Nat → (Nat → Reader α) → Reader α
  | 0, k => k 0
  | n + 1, k => .bit fun b => readBits n fun v => k (b.toNat + 2 * v)

/-- Run a reader on a list of bits; none if the list ends first. -/
def runReaderOnBits {α : Type} : Reader α → List Bool → Option (α × List Bool)
  | .done a, bs => some (a, bs)
  | .bit _, [] => none
  | .bit next, b :: bs => runReaderOnBits (next b) bs

/-- The ZIGZAG codes (30_encoding.md R71). -/
def zigzagReader (shift : Nat) : Reader Instr :=
  .bit fun b0 => if b0 then
    .bit fun b1 => if b1 then
      .bit fun b2 => .done (if b2 then .zzTurn else .zzStep)
    else readBits shift fun v => .done (.zzLiteral shift (BitVec.ofNat 8 v))
  else .done .zzKeep

/-- The MAJMIN_RUN codes (30_encoding.md R72). -/
def majminRunReader (shift : Nat) : Reader Instr :=
  .bit fun b0 => if b0 then
    .bit fun b1 => if b1 then
      readBits 3 fun v =>
        if v = 4 then readBits 8 fun n => .done (.mmrRun (BitVec.ofNat 8 n))
        else .done (.mmrDelta (BitVec.ofNat 3 v))
    else readBits shift fun v => .done (.mmrLiteral shift (BitVec.ofNat 8 v))
  else .done .mmrKeep

/-- The MAJMIN_DELTA codes (30_encoding.md R73). -/
def majminDeltaReader (shift : Nat) : Reader Instr :=
  .bit fun b0 => if b0 then
    .bit fun b1 => if b1 then
      readBits 3 fun i => .done (.mmdDelta (BitVec.ofNat 3 i))
    else readBits shift fun v => .done (.mmdLiteral shift (BitVec.ofNat 8 v))
  else .done .mmdKeep

/-- The command a word encodes, none for an illegal word (30_encoding.md R60 to R62). -/
def decodeCommand (w : Word) : Option Instr :=
  if w.toNat / 2 ^ 10 = 0 then
    let vs := w.extractLsb' 8 2
    match w.toNat % 2 ^ 8 with
    | 0x01 => some (.vsInit vs)
    | 0x10 => some (.decodeStrip vs)
    | 0x11 => some (.decodeMask vs)
    | 0x12 => some (.decodeMaskOr vs)
    | 0x20 => some (.markDirty vs)
    | 0x21 => some (.flush vs)
    | 0x30 => some (.restoreBg vs)
    | 0x31 => some (.copy8col vs)
    | 0x32 => some (.clear8col vs)
    | 0x33 => some (.composeStrip vs)
    | 0x34 => some (.stripLookup vs)
    | 0x35 => some (.blitMasked vs)
    | 0x40 => some (.getPixels vs)
    | 0x41 => some (.getBackPixels vs)
    | _ => none
  else none

/-- A codec family of a bitmap stream (30_encoding.md R66, R67). ZIGZAG_V and ZIGZAG_H are one family in the two pixel
orders (40_bitmap_codec.md R103). -/
inductive Family where
  | raw
  | rle8
  | egaRle
  | zigzag
  | majminRun
  | majminDelta
  /-- a family the spec does not admit, its body supplied (93_implementation_defined.md G3) -/
  | added (n : Nat)
  deriving DecidableEq, Repr

/-- The order in which a decode fills its strip (00_scope.md R8). -/
inductive PixelOrder where
  /-- pixel `k` at `x = k % 8`, `y = k / 8` -/
  | row
  /-- pixel `k` at `x = k / height`, `y = k % height` -/
  | column
  deriving DecidableEq, Repr

/-- An entry of `DESC_MAP`: what a descriptor value selects (30_encoding.md R67). The literal width is the value's units
digit: `literalWidth`. -/
structure DescEntry where
  value : Byte
  family : Family
  order : PixelOrder
  /-- the transparency flag `T` (40_bitmap_codec.md R92) -/
  transparent : Bool
  deriving DecidableEq, Repr

/-- `shift = d % 10` (30_encoding.md R65). -/
def literalWidth (d : Byte) : Nat := d.toNat % 10

/-- What a table gives a descriptor byte; none for an unrecognised one (30_encoding.md R68). -/
def descEntry (m : List DescEntry) (d : Byte) : Option DescEntry := m.find? fun e => e.value == d

/-- The entries of five descriptor values in a row, from `first` on. -/
def fiveEntries (first : Nat) (f : Family) (o : PixelOrder) (t : Bool) : List DescEntry :=
  (List.range 5).map fun i => ⟨BitVec.ofNat 8 (first + i), f, o, t⟩

/-- The default of `DESC_MAP`: the table of 30_encoding.md R67, which the spec marks as from general knowledge (log 13). -/
def defaultDescMap : List DescEntry :=
  [⟨1, .raw, .row, false⟩, ⟨8, .rle8, .row, true⟩, ⟨9, .rle8, .row, false⟩, ⟨10, .egaRle, .column, false⟩]
    ++ fiveEntries 14 .zigzag .column false ++ fiveEntries 24 .zigzag .row false
    ++ fiveEntries 34 .zigzag .column true ++ fiveEntries 44 .zigzag .row true
    ++ fiveEntries 64 .majminRun .row false ++ fiveEntries 84 .majminRun .row true
    ++ fiveEntries 104 .majminRun .row false ++ fiveEntries 124 .majminRun .row true
    ++ fiveEntries 134 .majminDelta .row false ++ fiveEntries 144 .majminDelta .row true
    ++ [⟨149, .raw, .row, true⟩]

/-- The instruction a descriptor byte is, named by its row of the default table. What it does is what the machine's
`DESC_MAP` gives the byte (30_encoding.md R67, R68). -/
def decodeDescriptor (d : Byte) : Instr :=
  match d.toNat with
  | 1 => .descRaw1
  | 8 => .descRle8_8
  | 9 => .descRle8_9
  | 10 => .descEgaRle10
  | 14 => .descZigzagV14
  | 15 => .descZigzagV15
  | 16 => .descZigzagV16
  | 17 => .descZigzagV17
  | 18 => .descZigzagV18
  | 24 => .descZigzagH24
  | 25 => .descZigzagH25
  | 26 => .descZigzagH26
  | 27 => .descZigzagH27
  | 28 => .descZigzagH28
  | 34 => .descZigzagV34
  | 35 => .descZigzagV35
  | 36 => .descZigzagV36
  | 37 => .descZigzagV37
  | 38 => .descZigzagV38
  | 44 => .descZigzagH44
  | 45 => .descZigzagH45
  | 46 => .descZigzagH46
  | 47 => .descZigzagH47
  | 48 => .descZigzagH48
  | 64 => .descMajminRun64
  | 65 => .descMajminRun65
  | 66 => .descMajminRun66
  | 67 => .descMajminRun67
  | 68 => .descMajminRun68
  | 84 => .descMajminRun84
  | 85 => .descMajminRun85
  | 86 => .descMajminRun86
  | 87 => .descMajminRun87
  | 88 => .descMajminRun88
  | 104 => .descMajminRun104
  | 105 => .descMajminRun105
  | 106 => .descMajminRun106
  | 107 => .descMajminRun107
  | 108 => .descMajminRun108
  | 124 => .descMajminRun124
  | 125 => .descMajminRun125
  | 126 => .descMajminRun126
  | 127 => .descMajminRun127
  | 128 => .descMajminRun128
  | 134 => .descMajminDelta134
  | 135 => .descMajminDelta135
  | 136 => .descMajminDelta136
  | 137 => .descMajminDelta137
  | 138 => .descMajminDelta138
  | 144 => .descMajminDelta144
  | 145 => .descMajminDelta145
  | 146 => .descMajminDelta146
  | 147 => .descMajminDelta147
  | 148 => .descMajminDelta148
  | 149 => .descRaw149
  | _ => .descUnrecognised d

/-- A mask control byte: `REP` in bit 7, `COUNT` in 6:0 (30_encoding.md R76). -/
def decodeMaskControl (c : Byte) : Instr :=
  if c.getLsbD 7 then .maskRun (c.extractLsb' 0 7) else .maskLit (c.extractLsb' 0 7)

/-- An RLE8 control byte: `RUN` in bit 0, `LEN` in 7:1 (30_encoding.md R74). -/
def decodeRle8Control (c : Byte) : Instr :=
  if c.getLsbD 0 then .rle8Run (c.extractLsb' 1 7) else .rle8Lit (c.extractLsb' 1 7)

/-- An EGA_RLE control byte (30_encoding.md R75). -/
def decodeEgaControl (c : Byte) : Instr :=
  if c.getLsbD 7 then
    if c.getLsbD 6 then .egaDither (c.extractLsb' 0 6) else .egaCopyleft (c.extractLsb' 0 6)
  else .egaRun (c.extractLsb' 4 3) (c.extractLsb' 0 4)

/-- Decode one byte of a byte-coded space taken from the front of a list of bits. -/
def decodeByteOf (sp : Space) (f : Byte → Instr) (bs : List Bool) : Except DecodeError (Instr × List Bool) :=
  match runReaderOnBits (readBits 8 .done) bs with
  | some (v, rest) => .ok (f (BitVec.ofNat 8 v), rest)
  | none => .error (.truncated sp)

/-- Decode one code of a bit-coded space. -/
def decodeBitsOf (sp : Space) (r : Reader Instr) (bs : List Bool) : Except DecodeError (Instr × List Bool) :=
  match runReaderOnBits r bs with
  | some x => .ok x
  | none => .error (.truncated sp)

/-- Decode the code at the front of a list of bits, in the code space `sp`; total, and rejecting by name. -/
def decode (sp : Space) (bs : List Bool) : Except DecodeError (Instr × List Bool) :=
  match sp with
  | .command =>
    match runReaderOnBits (readBits 32 .done) bs with
    | some (v, rest) =>
      match decodeCommand (BitVec.ofNat 32 v) with
      | some i => .ok (i, rest)
      | none => .error (.illegalCommand (BitVec.ofNat 32 v))
    | none => .error (.truncated .command)
  | .descriptor => decodeByteOf sp decodeDescriptor bs
  | .maskControl => decodeByteOf sp decodeMaskControl bs
  | .rle8Control => decodeByteOf sp decodeRle8Control bs
  | .egaControl => decodeByteOf sp decodeEgaControl bs
  | .zigzag shift => decodeBitsOf sp (zigzagReader shift) bs
  | .majminRun shift => decodeBitsOf sp (majminRunReader shift) bs
  | .majminDelta shift => decodeBitsOf sp (majminDeltaReader shift) bs

/-- The instruction of the first `nbits` bits of `w`. Four code spaces of the table are single bytes with overlapping
patterns; a lone byte is read as the first byte of a bitmap stream (log 5). -/
def decodeTableWord (nbits w : Nat) : Option Instr :=
  if nbits ≤ 8 then
    match decode .descriptor (bitsOf 8 (w % 2 ^ nbits)) with
    | .ok (i, _) => some i
    | .error _ => none
  else
    match decode .command (bitsOf 32 (w % 2 ^ nbits)) with
    | .ok (i, _) => some i
    | .error _ => none

/-! The encoder, from the same tables. -/

/-- A command word: `OP` in 7:0, `VS` in 9:8, zeros above (30_encoding.md R60). -/
def commandWord (op : Nat) (vs : BitVec 2) : Word :=
  BitVec.ofNat 32 (op + 2 ^ 8 * vs.toNat)

/-- The bits of a code whose first bits are `lead` and whose last are a `shift`-bit literal. -/
def encodeLiteral (shift : Nat) (value : Byte) : List Bool :=
  [true, false] ++ bitsOf shift value.toNat

/-- The bits of an instruction in the order read (30_encoding.md R60 to R77). -/
def encode : Instr → List Bool
  | .vsInit vs => bitsOf 32 (commandWord 0x01 vs).toNat
  | .decodeStrip vs => bitsOf 32 (commandWord 0x10 vs).toNat
  | .decodeMask vs => bitsOf 32 (commandWord 0x11 vs).toNat
  | .decodeMaskOr vs => bitsOf 32 (commandWord 0x12 vs).toNat
  | .markDirty vs => bitsOf 32 (commandWord 0x20 vs).toNat
  | .flush vs => bitsOf 32 (commandWord 0x21 vs).toNat
  | .restoreBg vs => bitsOf 32 (commandWord 0x30 vs).toNat
  | .copy8col vs => bitsOf 32 (commandWord 0x31 vs).toNat
  | .clear8col vs => bitsOf 32 (commandWord 0x32 vs).toNat
  | .composeStrip vs => bitsOf 32 (commandWord 0x33 vs).toNat
  | .stripLookup vs => bitsOf 32 (commandWord 0x34 vs).toNat
  | .blitMasked vs => bitsOf 32 (commandWord 0x35 vs).toNat
  | .getPixels vs => bitsOf 32 (commandWord 0x40 vs).toNat
  | .getBackPixels vs => bitsOf 32 (commandWord 0x41 vs).toNat
  | .descRaw1 => bitsOf 8 1
  | .descRle8_8 => bitsOf 8 8
  | .descRle8_9 => bitsOf 8 9
  | .descEgaRle10 => bitsOf 8 10
  | .descZigzagV14 => bitsOf 8 14
  | .descZigzagV15 => bitsOf 8 15
  | .descZigzagV16 => bitsOf 8 16
  | .descZigzagV17 => bitsOf 8 17
  | .descZigzagV18 => bitsOf 8 18
  | .descZigzagH24 => bitsOf 8 24
  | .descZigzagH25 => bitsOf 8 25
  | .descZigzagH26 => bitsOf 8 26
  | .descZigzagH27 => bitsOf 8 27
  | .descZigzagH28 => bitsOf 8 28
  | .descZigzagV34 => bitsOf 8 34
  | .descZigzagV35 => bitsOf 8 35
  | .descZigzagV36 => bitsOf 8 36
  | .descZigzagV37 => bitsOf 8 37
  | .descZigzagV38 => bitsOf 8 38
  | .descZigzagH44 => bitsOf 8 44
  | .descZigzagH45 => bitsOf 8 45
  | .descZigzagH46 => bitsOf 8 46
  | .descZigzagH47 => bitsOf 8 47
  | .descZigzagH48 => bitsOf 8 48
  | .descMajminRun64 => bitsOf 8 64
  | .descMajminRun65 => bitsOf 8 65
  | .descMajminRun66 => bitsOf 8 66
  | .descMajminRun67 => bitsOf 8 67
  | .descMajminRun68 => bitsOf 8 68
  | .descMajminRun84 => bitsOf 8 84
  | .descMajminRun85 => bitsOf 8 85
  | .descMajminRun86 => bitsOf 8 86
  | .descMajminRun87 => bitsOf 8 87
  | .descMajminRun88 => bitsOf 8 88
  | .descMajminRun104 => bitsOf 8 104
  | .descMajminRun105 => bitsOf 8 105
  | .descMajminRun106 => bitsOf 8 106
  | .descMajminRun107 => bitsOf 8 107
  | .descMajminRun108 => bitsOf 8 108
  | .descMajminRun124 => bitsOf 8 124
  | .descMajminRun125 => bitsOf 8 125
  | .descMajminRun126 => bitsOf 8 126
  | .descMajminRun127 => bitsOf 8 127
  | .descMajminRun128 => bitsOf 8 128
  | .descMajminDelta134 => bitsOf 8 134
  | .descMajminDelta135 => bitsOf 8 135
  | .descMajminDelta136 => bitsOf 8 136
  | .descMajminDelta137 => bitsOf 8 137
  | .descMajminDelta138 => bitsOf 8 138
  | .descMajminDelta144 => bitsOf 8 144
  | .descMajminDelta145 => bitsOf 8 145
  | .descMajminDelta146 => bitsOf 8 146
  | .descMajminDelta147 => bitsOf 8 147
  | .descMajminDelta148 => bitsOf 8 148
  | .descRaw149 => bitsOf 8 149
  | .descUnrecognised d => bitsOf 8 d.toNat
  | .maskRun count => bitsOf 7 count.toNat ++ [true]
  | .maskLit count => bitsOf 7 count.toNat ++ [false]
  | .rle8Run len => [true] ++ bitsOf 7 len.toNat
  | .rle8Lit len => [false] ++ bitsOf 7 len.toNat
  | .egaRun count colour => bitsOf 4 colour.toNat ++ bitsOf 3 count.toNat ++ [false]
  | .egaCopyleft count => bitsOf 6 count.toNat ++ [false, true]
  | .egaDither count => bitsOf 6 count.toNat ++ [true, true]
  | .zzKeep => [false]
  | .zzLiteral shift value => encodeLiteral shift value
  | .zzStep => [true, true, false]
  | .zzTurn => [true, true, true]
  | .mmrKeep => [false]
  | .mmrLiteral shift value => encodeLiteral shift value
  | .mmrDelta v => [true, true] ++ bitsOf 3 v.toNat
  | .mmrRun n => [true, true] ++ bitsOf 3 4 ++ bitsOf 8 n.toNat
  | .mmdKeep => [false]
  | .mmdLiteral shift value => encodeLiteral shift value
  | .mmdDelta i => [true, true] ++ bitsOf 3 i.toNat

/-- The code space of an instruction; a bit code that is no literal belongs to its family's space at every width, so
the width in use is given. -/
def spaceOf (shift : Nat) : Instr → Space
  | .vsInit _ => .command
  | .decodeStrip _ => .command
  | .decodeMask _ => .command
  | .decodeMaskOr _ => .command
  | .markDirty _ => .command
  | .flush _ => .command
  | .restoreBg _ => .command
  | .copy8col _ => .command
  | .clear8col _ => .command
  | .composeStrip _ => .command
  | .stripLookup _ => .command
  | .blitMasked _ => .command
  | .getPixels _ => .command
  | .getBackPixels _ => .command
  | .descRaw1 => .descriptor
  | .descRle8_8 => .descriptor
  | .descRle8_9 => .descriptor
  | .descEgaRle10 => .descriptor
  | .descZigzagV14 => .descriptor
  | .descZigzagV15 => .descriptor
  | .descZigzagV16 => .descriptor
  | .descZigzagV17 => .descriptor
  | .descZigzagV18 => .descriptor
  | .descZigzagH24 => .descriptor
  | .descZigzagH25 => .descriptor
  | .descZigzagH26 => .descriptor
  | .descZigzagH27 => .descriptor
  | .descZigzagH28 => .descriptor
  | .descZigzagV34 => .descriptor
  | .descZigzagV35 => .descriptor
  | .descZigzagV36 => .descriptor
  | .descZigzagV37 => .descriptor
  | .descZigzagV38 => .descriptor
  | .descZigzagH44 => .descriptor
  | .descZigzagH45 => .descriptor
  | .descZigzagH46 => .descriptor
  | .descZigzagH47 => .descriptor
  | .descZigzagH48 => .descriptor
  | .descMajminRun64 => .descriptor
  | .descMajminRun65 => .descriptor
  | .descMajminRun66 => .descriptor
  | .descMajminRun67 => .descriptor
  | .descMajminRun68 => .descriptor
  | .descMajminRun84 => .descriptor
  | .descMajminRun85 => .descriptor
  | .descMajminRun86 => .descriptor
  | .descMajminRun87 => .descriptor
  | .descMajminRun88 => .descriptor
  | .descMajminRun104 => .descriptor
  | .descMajminRun105 => .descriptor
  | .descMajminRun106 => .descriptor
  | .descMajminRun107 => .descriptor
  | .descMajminRun108 => .descriptor
  | .descMajminRun124 => .descriptor
  | .descMajminRun125 => .descriptor
  | .descMajminRun126 => .descriptor
  | .descMajminRun127 => .descriptor
  | .descMajminRun128 => .descriptor
  | .descMajminDelta134 => .descriptor
  | .descMajminDelta135 => .descriptor
  | .descMajminDelta136 => .descriptor
  | .descMajminDelta137 => .descriptor
  | .descMajminDelta138 => .descriptor
  | .descMajminDelta144 => .descriptor
  | .descMajminDelta145 => .descriptor
  | .descMajminDelta146 => .descriptor
  | .descMajminDelta147 => .descriptor
  | .descMajminDelta148 => .descriptor
  | .descRaw149 => .descriptor
  | .descUnrecognised _ => .descriptor
  | .maskRun _ => .maskControl
  | .maskLit _ => .maskControl
  | .rle8Run _ => .rle8Control
  | .rle8Lit _ => .rle8Control
  | .egaRun _ _ => .egaControl
  | .egaCopyleft _ => .egaControl
  | .egaDither _ => .egaControl
  | .zzKeep => .zigzag shift
  | .zzLiteral own _ => .zigzag own
  | .zzStep => .zigzag shift
  | .zzTurn => .zigzag shift
  | .mmrKeep => .majminRun shift
  | .mmrLiteral own _ => .majminRun own
  | .mmrDelta _ => .majminRun shift
  | .mmrRun _ => .majminRun shift
  | .mmdKeep => .majminDelta shift
  | .mmdLiteral own _ => .majminDelta own
  | .mmdDelta _ => .majminDelta shift

end Sys2Proof
end

