-- ==== Sys2Proof/Config.lean ====
section
/-! DEFINITION. What an implementation fixes (spec/00_scope.md R4) and the free values the spec leaves open. -/

namespace Sys2Proof

/-- The OPEN parameters of 00_scope.md R4. A machine carries one choice of them in its state (log 6), so that a statement
about every state holds for every choice. `LegacyCodec`, and the bodies of `suppliedBodies`, are free values below. -/
structure Params where
  /-- `AW`: bits of a memory address (20_memory.md R40, D4). -/
  addressBits : Nat
  /-- `MAX_STRIPS`: entries of each dirty array (10_state.md R25, D38). -/
  maxStrips : Nat
  /-- `NUM_ZPLANES`: host-side layout; no rule of the unit reads it (00_scope.md R4, D37). -/
  numZPlanes : Nat
  /-- `DESC_MAP`: the descriptor values the unit recognises (30_encoding.md R67, D8). -/
  descMap : List DescEntry
  /-- `CodecBody`: the families whose body is replaced by a supplied one; every other family has the body of
  40_bitmap_codec.md R100 to R107 (D11). -/
  suppliedBodies : List Family
  /-- `VS_INIT_DIRTY = full`: a new screen starts wholly dirty (43_virtual_screen.md R150, D29). -/
  initDirty : Bool
  /-- `OUTSIDE_RECT_POLICY = clamp`: a rectangle horizontally off the screen marks the edge strip
  (42_dirty_tracker.md R142 case c, D16). -/
  clampOutside : Bool
  /-- `TRANSP_SKIP` (40_bitmap_codec.md R108, D10). -/
  transpSkip : Bool
  /-- `TRANSP_COLOUR`, used only under `TRANSP_SKIP` (40_bitmap_codec.md R108). -/
  transpColour : Byte
  /-- The complement of `MemMap`: (base, size) of each range of addresses that holds no memory
  (20_memory.md R57, D35). -/
  holes : List (Nat × Nat)
  deriving DecidableEq, Repr

/-- The spec's defaults of the OPEN parameters (00_scope.md R4). `TRANSP_COLOUR` has none (91_not_in_source.md N8);
it is read only when `TRANSP_SKIP` is true. DESIGN CHOICE (log 6), unsafe only for that unused colour. -/
def Config.params : Params where
  addressBits := 32
  maxStrips := 160
  numZPlanes := 9
  descMap := defaultDescMap
  suppliedBodies := []
  initDirty := false
  clampOutside := false
  transpSkip := false
  transpColour := 0
  holes := []

/-- The byte the `n`-th read outside `MemMap` gives: "a fresh unconstrained byte each time" (20_memory.md R57).
A free value: it has no body. (log 7, safe) -/
opaque Config.freeByte : Nat → Byte

/-- Everything a supplied codec may depend on, and nothing else (40_bitmap_codec.md R109 (c)): the operands, `BPP`, the
profile, the palette table in use, and the memory it reads. -/
structure CodecArgs where
  profile : BitVec 3
  dst : Nat
  pitch : Nat
  bytes : Nat
  src : Nat
  height : Nat
  palette : Vector Half 256
  mem : List (Nat × Byte)
  deriving DecidableEq, Repr

/-- The stored value that `LegacyCodec` gives pixel `k`, in row order (40_bitmap_codec.md R98); the low
`8 * bytes` bits are stored. A free value: it has no body. (log 8, safe) -/
opaque Config.legacyPixel : CodecArgs → Nat → Half

/-- The transparency flag that `LegacyCodec` answers (40_bitmap_codec.md R98). A free value. (log 8, safe) -/
opaque Config.legacyFlag : CodecArgs → Bool

/-- The colour that the supplied body of a family, with its pixel order and literal width, gives pixel `k` in that order:
an "uninterpreted function that obeys rules R91 to R94" (40_bitmap_codec.md, opening). A free value. (log 13, safe) -/
opaque Config.suppliedColour : Family → PixelOrder → Nat → CodecArgs → Nat → Byte

/-- What `RESULT` holds of an address that needs more than its 32 bits, which an `AW` above 32 allows (10_state.md R13,
43_virtual_screen.md R152): the spec does not say. A free value. (log 30, safe) -/
opaque Config.wideAddress : Nat → Word

end Sys2Proof
end

