-- ==== Sys2Proof/Machine/State.lean ====
section
/-! DEFINITION. The state of the unit and of its boundary, as plain data (spec/10_state.md, 70_reset_and_hazards.md R218). -/

namespace Sys2Proof.Machine

/-- The memory space (20_memory.md R40) as (address, byte) pairs in one canonical form: see `Memory.wf` in Ops. -/
abbrev Memory := List Host.Cell

/-- The pixel format of a screen: `VS[v].BPP` 1 or 2 (10_state.md R20). -/
inductive PixelFormat where
  /-- 8-bit indexed, `BPP = 1` -/
  | indexed8
  /-- 16-bit RGB, `BPP = 2` -/
  | rgb16
  deriving DecidableEq, Repr

/-- Which code the decode in progress reads next (10_state.md R15, R33). -/
inductive Phase where
  /-- DECODE_STRIP has started and reads its descriptor byte (30_encoding.md R64) -/
  | descriptor
  /-- DECODE_MASK, or DECODE_MASK_OR when `merge`, reads a control byte (41_mask_codec.md R131) -/
  | mask (merge : Bool)
  /-- an RLE8 packet (40_bitmap_codec.md R106) -/
  | rle8
  /-- an EGA_RLE packet (40_bitmap_codec.md R107) -/
  | ega
  /-- a ZIGZAG code, either order (40_bitmap_codec.md R102, R103) -/
  | zigzag
  /-- a MAJMIN_RUN code (40_bitmap_codec.md R104) -/
  | majminRun
  /-- a MAJMIN_DELTA code (40_bitmap_codec.md R105) -/
  | majminDelta
  deriving DecidableEq, Repr

/-- The state that exists only inside one decode command (10_state.md R15, R33): the stream cursor, the operands
latched at the start, and the decoder's working values. -/
structure Decode where
  phase : Phase
  /-- byte address of the stream cursor (10_state.md R15) -/
  p : Nat
  /-- bit index 0 to 7 of the bit reader (20_memory.md R43); 0 in byte-coded streams -/
  b : Nat
  /-- address of the first pixel or mask byte -/
  dst : Nat
  /-- bytes between rows: `dstPitch` or `stride` -/
  pitch : Nat
  format : PixelFormat
  /-- rows to produce -/
  height : Nat
  order : PixelOrder
  /-- width of a colour literal (30_encoding.md R65) -/
  shift : Nat
  /-- the transparency flag `T` of the descriptor (40_bitmap_codec.md R92) -/
  transparent : Bool
  /-- pixels (bitmap) or rows (mask) produced so far -/
  k : Nat
  /-- the current colour (40_bitmap_codec.md R93) -/
  colour : Byte
  /-- the zig-zag increment, -1 or +1 modulo 256 (40_bitmap_codec.md R102) -/
  inc : Byte
  deriving DecidableEq, Repr

/-- The registers of one virtual screen (10_state.md R20) and its dirty arrays (R25). -/
structure VScreen where
  width : Half
  height : Half
  pitch : Word
  format : PixelFormat
  xstart : Half
  pix : Word
  back : Word
  valid : Bool
  hasBack : Bool
  tdirty : List Half
  bdirty : List Half
  deriving DecidableEq, Repr

/-- One call of the display port with the bytes the display reads at that point: `h` rows of `w * BPP` bytes
(44_compositor.md R168, 20_memory.md R55). -/
structure DisplayEvent where
  screen : BitVec 2
  buffer : Nat
  pitch : Nat
  x : Nat
  y : Nat
  w : Nat
  h : Nat
  rows : List (List Byte)
  deriving DecidableEq, Repr

/-- What the host can do to the unit and its memory, between commands (70_reset_and_hazards.md R218). -/
inductive HostAction where
  /-- apply reset (R210) -/
  | reset
  /-- write a register; at offset 0 (`CMD`) this issues a command (10_state.md R12, R27) -/
  | write (offset value : Word)
  /-- read a register (10_state.md R27) -/
  | read (offset : Word)
  /-- store a byte to memory, at any address the space has, whatever `AW` (20_memory.md R40, R54) -/
  | store (addr : Nat) (byte : Byte)
  deriving DecidableEq, Repr

/-- The causes of a fault of the unit, which the unit records and which are no stop of the model
(60_exceptions.md R190). Code 3 is reserved for a host model and never raised. -/
inductive FaultCode where
  | unknownDescriptor
  | offsetOutOfRange
  | unknownTransition
  | illegalCommand
  | configError
  deriving DecidableEq, Repr

/-- Why the model stops with a fault. -/
inductive Fault where
  /-- An access at or above `2^AW`, or below 0: raised by every read and write of memory by a command. The spec gives no
  next address there (93_implementation_defined.md U12, 10_state.md R15). Safe. (log 9) -/
  | addressWrap
  deriving DecidableEq, Repr

/-- Why the model refuses. -/
inductive Refusal where
  /-- An instruction with no meaning yet: raised by `exec` alone. Safe. -/
  | notModelled (mnemonic : String)
  /-- DECODE_STRIP with `height = 0`: "undefined" (40_bitmap_codec.md R96, U2). Raised by DECODE_STRIP. Safe. (log 10) -/
  | heightZero
  /-- A mask control byte with count 0: reserved (41_mask_codec.md R136, U5). Raised by MASK_RUN, MASK_LIT. Safe. (log 11) -/
  | maskCountZero
  /-- An EGA_RLE packet that would pass the end of the strip (40_bitmap_codec.md R107, U6). Raised by the three EGA codes.
  Safe. (log 12) -/
  | egaOverrun
  /-- A stream code where no decode that reads its code table is in progress: it is no instruction there. Raised by the
  stream codes; no step from a state between commands raises it. Safe. (log 4) -/
  | codeOutsideDecode
  /-- The step bound of a decode ran out. The bound is never reached (log 20). Safe. -/
  | decodeOutOfFuel
  deriving DecidableEq, Repr

/-- Everything the spec gives the unit, its memory, its output, and the host's pending actions (INVENTORY.md, State). -/
structure State where
  /-- `STATUS.FAULT` (10_state.md R17) -/
  fault : Bool
  /-- `STATUS.CODE` (10_state.md R17) -/
  code : Byte
  /-- `RESULT` (10_state.md R13) -/
  result : Word
  /-- `FAULT_INFO` (10_state.md R18) -/
  faultInfo : Word
  /-- `CTRL.PROFILE` (10_state.md R19) -/
  profile : BitVec 3
  /-- `CTRL.LIGHTS` (10_state.md R19) -/
  lights : Bool
  /-- `A0` .. `A7` (10_state.md R11) -/
  a : Vector Word 8
  /-- the four virtual screens (10_state.md R20) -/
  screens : Vector VScreen 4
  /-- `ROOM_PAL` (10_state.md R28) -/
  roomPal : Vector Byte 256
  /-- `VERB_PAL`, which no rule reads (10_state.md R29) -/
  verbPal : Vector Byte 256
  /-- `PAL16` (10_state.md R30) -/
  pal16 : Vector Half 256
  /-- the memory space (10_state.md R32) -/
  mem : Memory
  /-- the decode in progress; absent between commands (10_state.md R15) -/
  dec : Option Decode
  /-- the display port's output, oldest first (44_compositor.md R168) -/
  display : List DisplayEvent
  /-- the host's pending actions, oldest first; the model's own (log 3) -/
  inbox : List HostAction
  /-- what the last register read gave the host; the model's own (log 3) -/
  readData : Word
  /-- how many free bytes have been drawn; the model's own (log 7) -/
  freeCount : Nat
  /-- the OPEN parameters; no step changes them (log 6) -/
  par : Params
  deriving DecidableEq, Repr

/-- A screen after reset: `FLAGS` 0 (10_state.md R35); the other values are unspecified. DESIGN CHOICE zero (`BPP` 1),
unsafe (log 2). -/
def VScreen.reset (maxStrips : Nat) : VScreen where
  width := 0
  height := 0
  pitch := 0
  format := .indexed8
  xstart := 0
  pix := 0
  back := 0
  valid := false
  hasBack := false
  tdirty := List.replicate maxStrips 0
  bdirty := List.replicate maxStrips 0

/-- The machine right after reset (10_state.md R35, 70_reset_and_hazards.md R210): `STATUS`, `RESULT`, `FAULT_INFO` 0,
`PROFILE` 0, `LIGHTS` 1, no screen valid. What R35 calls unspecified holds a value named in logs 1 and 2
(DESIGN CHOICE, unsafe). -/
def State.reset : State where
  fault := false
  code := 0
  result := 0
  faultInfo := 0
  profile := 0
  lights := true
  a := Vector.replicate 8 0
  screens := Vector.replicate 4 (VScreen.reset Config.params.maxStrips)
  roomPal := Vector.replicate 256 0
  verbPal := Vector.replicate 256 0
  pal16 := Vector.replicate 256 0
  mem := []
  dec := none
  display := []
  inbox := []
  readData := 0
  freeCount := 0
  par := Config.params

end Sys2Proof.Machine
end

