-- ==== Sys2Proof/Machine/Ops.lean ====
section
/-! DEFINITION. The named operations over registers and memory that the meanings share, taking a fault among them
(spec/20_memory.md, 60_exceptions.md R194, 10_state.md). -/

namespace Sys2Proof.Machine

/-! Running a meaning -/

/-- Why a computation stops the model. -/
inductive Stop where
  | fault (f : Fault)
  | refusal (r : Refusal)
  deriving DecidableEq, Repr

/-- What a meaning answers: a next state, a fault or a refusal. -/
abbrev Answer := Host.Outcome State Fault Refusal

/-- A computation over the machine's state that may stop. -/
abbrev M := StateT State (Except Stop)

/-- The outcome of a computation that stopped. -/
def stopOutcome (e : Stop) : Answer :=
  match e with
  | .fault f => .fault f
  | .refusal r => .refused r

/-- The outcome of a whole computation. -/
def runM (m : M Unit) (s : State) : Answer :=
  match m.run s with
  | .ok (_, t) => .next t
  | .error e => stopOutcome e

/-- Go on from a next state; a stop stays. -/
def andThen (o : Answer) (f : State → Answer) : Answer :=
  match o with
  | .next s => f s
  | .fault r => .fault r
  | .refused r => .refused r

/-- `f i`, then `f (i + 1)`, … : `n` times. -/
def loopFrom (f : Nat → M Unit) : Nat → Nat → M Unit
  | _, 0 => pure ()
  | i, n + 1 => do
    f i
    loopFrom f (i + 1) n

/-! Memory (20_memory.md) -/

/-- What a byte that nothing has written reads as. The spec leaves memory after reset unspecified (10_state.md R35).
DESIGN CHOICE 0, unsafe (log 1). -/
def unwrittenByte : Byte := 0

/-- The byte a memory holds at an address. -/
def readByte : Memory → Nat → Byte
  | [], _ => unwrittenByte
  | (k, b) :: m, a => if a = k then b else readByte m a

/-- Write one byte, keeping the canonical form: the list stays sorted and lists no byte equal to `unwrittenByte`. -/
def writeByte : Memory → Nat → Byte → Memory
  | [], a, v => if v = unwrittenByte then [] else [(a, v)]
  | (k, b) :: m, a, v =>
    if a < k then (if v = unwrittenByte then (k, b) :: m else (a, v) :: (k, b) :: m)
    else if a = k then (if v = unwrittenByte then m else (a, v) :: m)
    else (k, b) :: writeByte m a v

/-- Every listed address is at least `lo`, addresses rise strictly, and no listed byte is `unwrittenByte`. -/
def wfFrom : Nat → Memory → Bool
  | _, [] => true
  | lo, (k, b) :: m => decide (lo ≤ k) && decide (b ≠ unwrittenByte) && wfFrom (k + 1) m

/-- The canonical form of a memory: equal memories are equal lists. -/
def Memory.wf (m : Memory) : Bool := wfFrom 0 m

/-- Whether an address holds memory: the parameter `MemMap` (20_memory.md R40, R57). -/
def mapped (par : Params) (a : Nat) : Bool :=
  par.holes.all fun h => decide (a < h.1) || decide (h.1 + h.2 ≤ a)

/-- `MemRead(a, 1)`: outside `MemMap` a fresh free byte (20_memory.md R57, log 7); past `2^AW - 1` a stop
(93_implementation_defined.md U12, log 9). -/
def loadByte (a : Nat) : M Byte := fun s =>
  if a < 2 ^ s.par.addressBits then
    if mapped s.par a then .ok (readByte s.mem a, s)
    else .ok (Config.freeByte s.freeCount, { s with freeCount := s.freeCount + 1 })
  else .error (.fault .addressWrap)

/-- `MemWrite(a, 1, v)`: outside `MemMap` the write is dropped (20_memory.md R57); past `2^AW - 1` a stop (log 9). -/
def storeByte (a : Nat) (v : Byte) : M Unit := fun s =>
  if a < 2 ^ s.par.addressBits then
    if mapped s.par a then .ok ((), { s with mem := writeByte s.mem a v })
    else .ok ((), s)
  else .error (.fault .addressWrap)

/-- `MemRead(a, n)`: little-endian, byte accesses at ascending addresses (00_scope.md R6, 20_memory.md R41, R45). -/
def load : Nat → Nat → M Nat
  | 0, _ => pure 0
  | n + 1, a => do
    let lo ← loadByte a
    let hi ← load n (a + 1)
    pure (lo.toNat + 2 ^ 8 * hi)

/-- `MemWrite(a, n, v)`: the low `8n` bits of `v`, little-endian, byte accesses at ascending addresses
(00_scope.md R6, 20_memory.md R41, R45). -/
def store : Nat → Nat → Nat → M Unit
  | 0, _, _ => pure ()
  | n + 1, a, v => do
    storeByte a (BitVec.ofNat 8 v)
    store n (a + 1) (v / 2 ^ 8)

/-- Copy one byte. -/
def copyByte (dst src : Nat) : M Unit := do
  let b ← loadByte src
  storeByte dst b

/-- Copy `n` bytes in ascending order, each read and then written (20_memory.md R56). -/
def copyBytes (n dst src : Nat) : M Unit :=
  loopFrom (fun j => copyByte (dst + j) (src + j)) 0 n

/-- Write 0 to `n` bytes (44_compositor.md R161). -/
def clearBytes (n dst : Nat) : M Unit :=
  loopFrom (fun j => storeByte (dst + j) 0) 0 n

/-- The `n` bytes from `a`, in ascending order. -/
def loadBytes : Nat → Nat → M (List Byte)
  | 0, _ => pure []
  | n + 1, a => do
    let b ← loadByte a
    let bs ← loadBytes n (a + 1)
    pure (b :: bs)

/-- `h` rows of `n` bytes, `pitch` apart (20_memory.md R55). -/
def loadRows (n pitch : Nat) : Nat → Nat → M (List (List Byte))
  | 0, _ => pure []
  | h + 1, a => do
    let row ← loadBytes n a
    let rows ← loadRows n pitch h (a + pitch)
    pure (row :: rows)

/-! Registers -/

/-- Bytes per pixel: `BPP` (10_state.md R20). -/
def bytesPerPixel (f : PixelFormat) : Nat :=
  match f with
  | .indexed8 => 1
  | .rgb16 => 2

/-- The registers of screen `v` (10_state.md R20). -/
def State.screen (s : State) (v : BitVec 2) : VScreen := s.screens[v.toNat]'v.isLt

/-- Replace the registers of screen `v`. -/
def State.setScreen (s : State) (v : BitVec 2) (x : VScreen) : State :=
  { s with screens := s.screens.set v.toNat x v.isLt }

/-- `A<i>` (10_state.md R11). -/
def State.operand (s : State) (i : Fin 8) : Word := s.a[i.val]

/-- `RESULT <- w` (10_state.md R13). -/
def State.setResult (s : State) (w : Word) : State := { s with result := w }

/-- Replace the decode in progress (10_state.md R15). -/
def State.setDec (s : State) (d : Option Decode) : State := { s with dec := d }

/-- Append one call to the display port's output (44_compositor.md R168). -/
def State.addEvent (s : State) (e : DisplayEvent) : State := { s with display := s.display ++ [e] }

/-- The number of a fault code in `STATUS.CODE` (60_exceptions.md R190). -/
def faultNumber (c : FaultCode) : Byte :=
  match c with
  | .unknownDescriptor => 1
  | .offsetOutOfRange => 2
  | .unknownTransition => 3
  | .illegalCommand => 4
  | .configError => 5

/-- Taking a fault: `STATUS.CODE`, `FAULT_INFO`, `STATUS.FAULT` are written, the command ends (a decode in progress is
discarded, 10_state.md R15), and nothing else changes (60_exceptions.md R194). There is no return from a fault: only
reset leaves the faulted state (60_exceptions.md R195). -/
def State.raised (s : State) (c : FaultCode) (info : Word) : State :=
  { s with code := faultNumber c, faultInfo := info, fault := true, dec := none }

/-- `raise Fault(c, info)` (60_exceptions.md R194). -/
def raise (c : FaultCode) (info : Word) : M Unit := modify fun s => s.raised c info

/-- The check every command that uses `VS` makes first (30_encoding.md R62, 60_exceptions.md R193): an invalid screen
raises `ConfigError` with the command word `w`. -/
def withScreen (v : BitVec 2) (w : Word) (body : VScreen → M Unit) : M Unit := do
  let s ← get
  if (s.screen v).valid then body (s.screen v) else raise .configError w

/-- Reset, the only way out of a fault (70_reset_and_hazards.md R210, 60_exceptions.md R195): every register takes its
reset value, memory is untouched and no event is emitted. The host's pending actions, what it has read, the display
output and the parameters are no registers of the unit and stay (log 17). -/
def State.resetUnit (s : State) : State :=
  { State.reset with
    screens := Vector.replicate 4 (VScreen.reset s.par.maxStrips)
    mem := s.mem
    display := s.display
    inbox := s.inbox
    readData := s.readData
    freeCount := s.freeCount
    par := s.par }

/-! The stream cursor (10_state.md R15, 00_scope.md R7) -/

/-- The decode in progress; a stream code outside one is no instruction (log 4). -/
def currentDecode : M Decode := fun s =>
  match s.dec with
  | some d => .ok (d, s)
  | none => .error (.refusal .codeOutsideDecode)

/-- Set the values of the decode in progress. -/
def setDecode (d : Decode) : M Unit := modify fun s => s.setDec (some d)

/-- `next8`: the byte at the cursor, which moves past it (00_scope.md R7). -/
def nextByte : M Byte := do
  let d ← currentDecode
  let v ← loadByte d.p
  setDecode { d with p := d.p + 1 }
  pure v

/-- `readBit`: bit `b` of the byte at the cursor; after bit 7 comes bit 0 of the next byte (20_memory.md R43). -/
def readBit : M Bool := do
  let d ← currentDecode
  let v ← loadByte d.p
  setDecode (if d.b = 7 then { d with b := 0, p := d.p + 1 } else { d with b := d.b + 1 })
  pure (v.getLsbD d.b)

/-- Run a bit reader at the cursor, fetching a byte only when a bit of it is needed (20_memory.md R43). -/
def runReader {α : Type} : Reader α → M α
  | .done x => pure x
  | .bit next => do
    let b ← readBit
    runReader (next b)

/-- `writeRoomColor(addr, c)`: through `ROOM_PAL` on an 8-bit screen, through `PAL16` on a 16-bit screen
(40_bitmap_codec.md R94). -/
def writeRoomColor (f : PixelFormat) (addr : Nat) (c : Byte) : M Unit := do
  let s ← get
  match f with
  | .indexed8 => store 1 addr (s.roomPal[c.toNat]'c.isLt).toNat
  | .rgb16 => store 2 addr (s.pal16[c.toNat]'c.isLt).toNat

end Sys2Proof.Machine
end

