-- ==== Sys2Proof/Machine/Operands.lean ====
section
/-! DEFINITION. How commands read their operands, and the address functions (spec/30_encoding.md R63,
43_virtual_screen.md R151, 00_scope.md R8, 20_memory.md R50). -/

namespace Sys2Proof.Machine

/-- An address operand: the `u32` in the register, truncated to `AW` bits (30_encoding.md R63). -/
def State.addrOperand (s : State) (i : Fin 8) : Nat := (s.operand i).toNat % 2 ^ s.par.addressBits

/-- A count or size operand: the `u32` in the register (30_encoding.md R63). -/
def State.countOperand (s : State) (i : Fin 8) : Nat := (s.operand i).toNat

/-- A coordinate operand: the register as `i32`, a mathematical integer from here on (30_encoding.md R63, 00_scope.md R5). -/
def State.coordOperand (s : State) (i : Fin 8) : Int := (s.operand i).toInt

/-- BLIT_MASKED `A4[15:0]` (30_encoding.md R63). -/
def spriteWidth (a4 : Word) : Nat := a4.toNat % 2 ^ 16

/-- BLIT_MASKED `A4[31:16]` (30_encoding.md R63). -/
def spriteHeight (a4 : Word) : Nat := a4.toNat / 2 ^ 16

/-- BLIT_MASKED `A7[16]`, `MASK_EN` (30_encoding.md R63). -/
def maskEnabled (a7 : Word) : Bool := a7.getLsbD 16

/-- BLIT_MASKED `A7[17]`, `KEY_EN` (30_encoding.md R63). -/
def keyEnabled (a7 : Word) : Bool := a7.getLsbD 17

/-- The low `8 * BPP` bits of a register: a key colour (44_compositor.md R166) or a fill colour
(43_virtual_screen.md R154). -/
def pixelOperand (f : PixelFormat) (w : Word) : Nat := w.toNat % 2 ^ (8 * bytesPerPixel f)

/-- `nstrips(v)` (10_state.md R24). -/
def stripCount (x : VScreen) : Nat := x.width.toNat / 8

/-- The byte offset of the pixel `(x, y)` of a screen from its buffer (43_virtual_screen.md R151, 20_memory.md R51). -/
def pixelOffset (sc : VScreen) (x y : Int) : Int :=
  y * sc.pitch.toNat + (sc.xstart.toNat + x) * bytesPerPixel sc.format

/-- `PixAddr(v, x, y)`, modulo `2^AW` (43_virtual_screen.md R151). -/
def pixAddr (par : Params) (sc : VScreen) (x y : Int) : Nat :=
  ((sc.pix.toNat + pixelOffset sc x y) % (2 ^ par.addressBits : Nat)).toNat

/-- `BackAddr(v, x, y)`, modulo `2^AW` (43_virtual_screen.md R151). -/
def backAddr (par : Params) (sc : VScreen) (x y : Int) : Nat :=
  ((sc.back.toNat + pixelOffset sc x y) % (2 ^ par.addressBits : Nat)).toNat

/-- The column and row of pixel `k` of a strip decode (00_scope.md R8). -/
def position (o : PixelOrder) (height k : Nat) : Nat × Nat :=
  match o with
  | .row => (k % 8, k / 8)
  | .column => (k / height, k % height)

/-- The address of pixel `k` of the decode in progress: `dst + y * dstPitch + x * BPP` (00_scope.md R8,
40_bitmap_codec.md R91). -/
def pixelAddr (d : Decode) (k : Nat) : Nat :=
  d.dst + (position d.order d.height k).2 * d.pitch + (position d.order d.height k).1 * bytesPerPixel d.format

/-- The address of the mask byte of the pixel in column `x`, row `y` of a screen: column `XSTART + x` of the mask
store (44_compositor.md R166, R167 (c), 20_memory.md R50). -/
def maskAddr (mask stride : Nat) (sc : VScreen) (x y : Nat) : Nat :=
  mask + y * stride + (sc.xstart.toNat + x) / 8

/-- The bit of a mask byte that belongs to the pixel in column `x`: bit 7 is the leftmost (44_compositor.md R167 (b)). -/
def maskBit (sc : VScreen) (x : Nat) (m : Byte) : Bool :=
  m.getLsbD (7 - (sc.xstart.toNat + x) % 8)

end Sys2Proof.Machine
end

