-- ==== Sys2Proof/Machine/Flags.lean ====
section
/-! DEFINITION. The one-bit pieces of state as the host sees them, and the transparency flag (spec/10_state.md R16 to R20,
40_bitmap_codec.md R92). -/

namespace Sys2Proof.Machine

/-- `STATUS`: `BUSY` in bit 0 (1 while a decode command is in progress), `FAULT` in bit 1, `CODE` in 15:8
(10_state.md R17). -/
def statusWord (s : State) : Word :=
  BitVec.ofNat 32 (s.dec.isSome.toNat + 2 * s.fault.toNat + 2 ^ 8 * s.code.toNat)

/-- `CTRL`: `PROFILE` in 2:0, `LIGHTS` in bit 8, the rest 0 (10_state.md R19). -/
def ctrlWord (s : State) : Word :=
  BitVec.ofNat 32 (s.profile.toNat + 2 ^ 8 * s.lights.toNat)

/-- A write of `CTRL`: reserved bits are ignored; an illegal profile is stored as written (10_state.md R19, R31). -/
def State.setCtrl (s : State) (w : Word) : State :=
  { s with profile := w.extractLsb' 0 3, lights := w.getLsbD 8 }

/-- `VS[v].FLAGS`: `VALID` in bit 0, `HASBACK` in bit 1 (10_state.md R20). -/
def flagsWord (x : VScreen) : Word :=
  BitVec.ofNat 32 (x.valid.toNat + 2 * x.hasBack.toNat)

/-- `RESULT` after DECODE_STRIP: bit 0 the transparency flag, bits 31:1 zero (40_bitmap_codec.md R90, R92). -/
def transparencyResult (t : Bool) : Word := BitVec.ofNat 32 t.toNat

/-- The profiles that decode by descriptor byte: Default 0 and HE 5 (40_bitmap_codec.md R95). -/
def profileByDescriptor (p : BitVec 3) : Bool := p == 0#3 || p == 5#3

/-- The reserved profiles 6 and 7 (10_state.md R19). -/
def profileReserved (p : BitVec 3) : Bool := 6 ≤ p.toNat

/-- A strip is clean when it holds the sentinel (42_dirty_tracker.md R140). -/
def stripClean (x : VScreen) (i : Nat) : Bool :=
  x.tdirty.getD i 0 == x.height && x.bdirty.getD i 0 == 0

/-- A strip has a dirty span when `TDIRTY < BDIRTY` (42_dirty_tracker.md R140). -/
def stripDirty (x : VScreen) (i : Nat) : Bool :=
  (x.tdirty.getD i 0).toNat < (x.bdirty.getD i 0).toNat

end Sys2Proof.Machine
end

