-- ==== Sys2Proof/Machine/Dirty.lean ====
section
/-! DEFINITION. DirtyRegionTracker: MARK_DIRTY and FLUSH (spec/42_dirty_tracker.md). -/

namespace Sys2Proof.Machine

/-- `TDIRTY[i] <- min(TDIRTY[i], t)` for `lo <= i <= hi` (42_dirty_tracker.md R141). -/
def lowerTops (lo hi t : Nat) (xs : List Half) : List Half :=
  xs.mapIdx fun i x => if lo ≤ i ∧ i ≤ hi ∧ t < x.toNat then BitVec.ofNat 16 t else x

/-- `BDIRTY[i] <- max(BDIRTY[i], b)` for `lo <= i <= hi` (42_dirty_tracker.md R141). -/
def raiseBottoms (lo hi b : Nat) (xs : List Half) : List Half :=
  xs.mapIdx fun i x => if lo ≤ i ∧ i ≤ hi ∧ x.toNat < b then BitVec.ofNat 16 b else x

/-- Give the first `n` entries of an array one value. -/
def setFirst (n : Nat) (v : Half) (xs : List Half) : List Half :=
  xs.mapIdx fun i x => if i < n then v else x

/-- `MARK(v, left, right, top, bottom)`: clip to the screen, clamp the strip indices, widen the span of every strip in
between (42_dirty_tracker.md R141, R142). Under `OUTSIDE_RECT_POLICY = clamp` a rectangle horizontally off the screen
marks the edge strip; how the index is then formed is DEDUCED (log 15). -/
def markRegion (s : State) (v : BitVec 2) (left right top bottom : Int) : State :=
  let x := s.screen v
  let n := stripCount x
  let l := max left 0
  let r := min right ((x.width.toNat : Int) - 1)
  let t := max top 0
  let b := min bottom (x.height.toNat : Int)
  if left > right ∨ top > bottom then s
  else if (l > r ∧ s.par.clampOutside = false) ∨ t > b ∨ n = 0 then s
  else
    let lo := min (l.toNat / 8) (n - 1)
    let hi := min (r.toNat / 8) (n - 1)
    s.setScreen v { x with
      tdirty := lowerTops lo hi t.toNat x.tdirty
      bdirty := raiseBottoms lo hi b.toNat x.bdirty }

/-- MARK_DIRTY (42_dirty_tracker.md R141). -/
def execMarkDirty (vs : BitVec 2) (s : State) : Answer :=
  runM (withScreen vs (commandWord 0x20 vs) fun _ => modify fun s =>
    markRegion s vs (s.coordOperand 0) (s.coordOperand 1) (s.coordOperand 2) (s.coordOperand 3)) s

/-- A maximal run of adjacent strips with one dirty span: its first strip, its length, its rows (42_dirty_tracker.md
R144). -/
structure DirtyRun where
  first : Nat
  len : Nat
  top : Nat
  bottom : Nat
  deriving DecidableEq, Repr

/-- The pairs `(TDIRTY[v][i], BDIRTY[v][i])` of the strips of a screen, in strip order. -/
def dirtyPairs (x : VScreen) : List (Nat × Nat) :=
  (List.range (stripCount x)).map fun i => ((x.tdirty.getD i 0).toNat, (x.bdirty.getD i 0).toNat)

/-- Put strip `i` in front of the runs of the strips after it: it joins the first of them if that run starts at the
next strip and has the identical pair. -/
def joinRun (i top bottom : Nat) (rs : List DirtyRun) : List DirtyRun :=
  match rs with
  | [] => [⟨i, 1, top, bottom⟩]
  | r :: rest =>
    if r.first = i + 1 ∧ r.top = top ∧ r.bottom = bottom then ⟨i, r.len + 1, top, bottom⟩ :: rest
    else ⟨i, 1, top, bottom⟩ :: r :: rest

/-- The runs FLUSH blits, in ascending strip order, each maximal; a strip with no dirty span gives none
(42_dirty_tracker.md R144, R145). The first pair of the list is strip `i`'s. (log 24) -/
def coalesce : Nat → List (Nat × Nat) → List DirtyRun
  | _, [] => []
  | i, (top, bottom) :: rest =>
    if top < bottom then joinRun i top bottom (coalesce (i + 1) rest)
    else coalesce (i + 1) rest

/-- `emit CopyRectToScreen` for one run: the display reads the rectangle's bytes at this point
(42_dirty_tracker.md R144, 44_compositor.md R168, 20_memory.md R55). -/
def emitRun (v : BitVec 2) (x : VScreen) (r : DirtyRun) : M Unit := do
  let s ← get
  let buffer := pixAddr s.par x (8 * r.first : Nat) r.top
  let rows ← loadRows (8 * r.len * bytesPerPixel x.format) x.pitch.toNat (r.bottom - r.top) buffer
  modify fun s => s.addEvent
    { screen := v, buffer := buffer, pitch := x.pitch.toNat, x := 8 * r.first, y := r.top,
      w := 8 * r.len, h := r.bottom - r.top, rows := rows }

/-- The calls of a FLUSH in order. -/
def emitRuns (v : BitVec 2) (x : VScreen) : List DirtyRun → M Unit
  | [] => pure ()
  | r :: rest => do
    emitRun v x r
    emitRuns v x rest

/-- A screen whose strips are all clean: the sentinel `(H, 0)` (42_dirty_tracker.md R144). -/
def cleanScreen (x : VScreen) : VScreen :=
  { x with
    tdirty := setFirst (stripCount x) x.height x.tdirty
    bdirty := setFirst (stripCount x) 0 x.bdirty }

/-- FLUSH (42_dirty_tracker.md R144). -/
def execFlush (vs : BitVec 2) (s : State) : Answer :=
  runM (withScreen vs (commandWord 0x21 vs) fun x => do
    let runs := coalesce 0 (dirtyPairs x)
    emitRuns vs x runs
    modify fun s => (s.setScreen vs (cleanScreen x)).setResult (BitVec.ofNat 32 runs.length)) s

end Sys2Proof.Machine
end

