-- ==== Sys2Proof/Machine/Compositor.lean ====
section
/-! DEFINITION. Compositor: COPY8COL, CLEAR8COL, COMPOSE_STRIP, STRIP_LOOKUP, BLIT_MASKED (spec/44_compositor.md). -/

namespace Sys2Proof.Machine

/-- Copy `height` rows of `n` bytes (44_compositor.md R160). -/
def copyRows (n pitch dst src height : Nat) : M Unit :=
  loopFrom (fun y => copyBytes n (dst + y * pitch) (src + y * pitch)) 0 height

/-- Zero `height` rows of `n` bytes (44_compositor.md R161). -/
def clearRows (n pitch dst height : Nat) : M Unit :=
  loopFrom (fun y => clearBytes n (dst + y * pitch)) 0 height

/-- COPY8COL (44_compositor.md R160). -/
def execCopy8col (vs : BitVec 2) (s : State) : Answer :=
  runM (withScreen vs (commandWord 0x31 vs) fun x =>
    copyRows (8 * bytesPerPixel x.format) (s.countOperand 1) (s.addrOperand 0) (s.addrOperand 2) (s.countOperand 3)) s

/-- CLEAR8COL (44_compositor.md R161). -/
def execClear8col (vs : BitVec 2) (s : State) : Answer :=
  runM (withScreen vs (commandWord 0x32 vs) fun x =>
    clearRows (8 * bytesPerPixel x.format) (s.countOperand 1) (s.addrOperand 0) (s.countOperand 2)) s

/-- COMPOSE_STRIP (44_compositor.md R162). -/
def execComposeStrip (vs : BitVec 2) (s : State) : Answer :=
  runM (withScreen vs (commandWord 0x33 vs) fun x =>
    if x.hasBack then
      let d := pixAddr s.par x (8 * s.countOperand 0 : Nat) (s.countOperand 1)
      let b := backAddr s.par x (8 * s.countOperand 0 : Nat) (s.countOperand 1)
      if s.lights then copyRows (8 * bytesPerPixel x.format) x.pitch.toNat d b (s.countOperand 2)
      else clearRows (8 * bytesPerPixel x.format) x.pitch.toNat d (s.countOperand 2)
    else pure ()) s

/-- STRIP_LOOKUP past its operand checks: read entry `index` and compare it with `limit` (44_compositor.md R163). -/
def lookupEntry (table index entryWidth limit : Nat) : M Unit := do
  let off ← load entryWidth (table + index * entryWidth)
  if limit ≤ off then raise .offsetOutOfRange (BitVec.ofNat 32 off)
  else modify fun s => s.setResult (BitVec.ofNat 32 off)

/-- STRIP_LOOKUP; the `VS` field is ignored, and is part of the word a fault reports (44_compositor.md R163). -/
def execStripLookup (vs : BitVec 2) (s : State) : Answer :=
  runM (
    if s.countOperand 2 ≠ 2 ∧ s.countOperand 2 ≠ 4 then raise .configError (commandWord 0x34 vs)
    else if s.countOperand 3 ≤ s.countOperand 1 then raise .offsetOutOfRange (s.operand 1)
    else lookupEntry (s.addrOperand 0) (s.countOperand 1) (s.countOperand 2) (s.countOperand 4)) s

/-- The operands of BLIT_MASKED (44_compositor.md R166). -/
structure Blit where
  src : Nat
  srcPitch : Nat
  x : Int
  y : Int
  mask : Nat
  stride : Nat
  control : Word
  deriving DecidableEq, Repr

/-- One pixel of BLIT_MASKED: the key test, then the mask test, then the write (44_compositor.md R166, R167). -/
def blitPixel (sc : VScreen) (o : Blit) (y x : Nat) : M Unit := do
  let s ← get
  let n := bytesPerPixel sc.format
  let p ← load n (o.src + ((y : Int) - o.y).toNat * o.srcPitch + ((x : Int) - o.x).toNat * n)
  if keyEnabled o.control ∧ p = pixelOperand sc.format o.control then pure ()
  else if maskEnabled o.control then do
    let m ← loadByte (maskAddr o.mask o.stride sc x y)
    if maskBit sc x m then pure () else store n (pixAddr s.par sc x y) p
  else store n (pixAddr s.par sc x y) p

/-- BLIT_MASKED on a valid screen: clip, select per pixel, mark (44_compositor.md R166, R167). -/
def blitMasked (vs : BitVec 2) (sc : VScreen) : M Unit := do
  let s ← get
  let o : Blit := { src := s.addrOperand 0, srcPitch := s.countOperand 1, x := s.coordOperand 2, y := s.coordOperand 3,
                    mask := s.addrOperand 5, stride := s.countOperand 6, control := s.operand 7 }
  let x0 := max o.x 0
  let y0 := max o.y 0
  let x1 := min (o.x + spriteWidth (s.operand 4)) (sc.width.toNat : Int)
  let y1 := min (o.y + spriteHeight (s.operand 4)) (sc.height.toNat : Int)
  if x0 ≥ x1 ∨ y0 ≥ y1 then pure ()
  else do
    loopFrom (fun y => loopFrom (blitPixel sc o y) x0.toNat (x1 - x0).toNat) y0.toNat (y1 - y0).toNat
    modify fun s => markRegion s vs x0 (x1 - 1) y0 y1

/-- BLIT_MASKED (44_compositor.md R166). -/
def execBlitMasked (vs : BitVec 2) (s : State) : Answer :=
  runM (withScreen vs (commandWord 0x35 vs) (blitMasked vs)) s

end Sys2Proof.Machine
end

