-- ==== Sys2Proof/Machine/Stream.lean ====
section
/-! DEFINITION. What every stream code does alike: placing pixels and mask bytes, moving on, ending the decode, fetching
the next code (spec/40_bitmap_codec.md R91, R101; 41_mask_codec.md R131; 10_state.md R15). -/

namespace Sys2Proof.Machine

/-- The palette table in use: `PAL16` on a 16-bit screen, `ROOM_PAL` on an 8-bit one (40_bitmap_codec.md R94). -/
def paletteInUse (s : State) (f : PixelFormat) : Vector Half 256 :=
  match f with
  | .indexed8 => s.roomPal.map fun c => c.zeroExtend 16
  | .rgb16 => s.pal16

/-- What a supplied codec is given: the operands as arguments, the rest from the state (40_bitmap_codec.md R109 (c)). -/
def codecArgs (s : State) (f : PixelFormat) (dst pitch src height : Nat) : CodecArgs where
  profile := s.profile
  dst := dst
  pitch := pitch
  bytes := bytesPerPixel f
  src := src
  height := height
  palette := paletteInUse s f
  mem := s.mem

/-- A decode that starts at `src` in phase `ph` (10_state.md R15, R33). -/
def newDecode (ph : Phase) (f : PixelFormat) (dst pitch src height : Nat) : Decode where
  phase := ph
  p := src
  b := 0
  dst := dst
  pitch := pitch
  format := f
  height := height
  order := .row
  shift := 0
  transparent := false
  k := 0
  colour := 0
  inc := 0xFF#8

/-- How many pixels (bitmap, 40_bitmap_codec.md R91) or rows (mask, 41_mask_codec.md R131) the decode produces. -/
def decodeTotal (d : Decode) : Nat :=
  match d.phase with
  | .mask _ => d.height
  | _ => 8 * d.height

/-- The decode in progress, where it reads codes of `ph` and has not produced everything; elsewhere the code is no
instruction (log 4). -/
def decodeIn (ph : Phase) : M Decode := do
  let d ← currentDecode
  if d.phase = ph ∧ d.k < decodeTotal d then pure d else throw (.refusal .codeOutsideDecode)

/-- The mask decode in progress, and whether it merges (41_mask_codec.md R130, R132). -/
def maskDecodeIn : M (Decode × Bool) := do
  let d ← currentDecode
  match d.phase with
  | .mask merge => if d.k < decodeTotal d then pure (d, merge) else throw (.refusal .codeOutsideDecode)
  | _ => throw (.refusal .codeOutsideDecode)

/-- Whether `TRANSP_SKIP` suppresses the store of colour `c` (40_bitmap_codec.md R108). -/
def skipsStore (par : Params) (d : Decode) (c : Byte) : Bool :=
  par.transpSkip && d.transparent && c == par.transpColour

/-- Write pixel `k` of the strip with colour `c` (40_bitmap_codec.md R91, R94, R108). -/
def putPixel (d : Decode) (c : Byte) (k : Nat) : M Unit := do
  let s ← get
  if skipsStore s.par d c then pure () else writeRoomColor d.format (pixelAddr d k) c

/-- The command ends: the cursor and the working values are discarded (10_state.md R15), and DECODE_STRIP leaves the
transparency flag in `RESULT` (40_bitmap_codec.md R92). -/
def State.decodeEnded (s : State) (d : Decode) : State :=
  match d.phase with
  | .mask _ => s.setDec none
  | _ => (s.setResult (transparencyResult d.transparent)).setDec none

/-- `n` more pixels or rows are done; after the last the command ends. -/
def advance (n : Nat) : M Unit := do
  let d ← currentDecode
  let d' := { d with k := d.k + n }
  if d'.k < decodeTotal d' then setDecode d' else modify fun s => s.decodeEnded d'

/-- How many of `n` pixels or rows are still wanted (40_bitmap_codec.md R104, R106; 41_mask_codec.md R134). -/
def cutShort (d : Decode) (n : Nat) : Nat := min n (decodeTotal d - d.k)

/-- A code that changes the colour (and the increment) and lets one pixel follow (40_bitmap_codec.md R101, R104). -/
def colourCode (ph : Phase) (f : Decode → Decode) : M Unit := do
  let d ← decodeIn ph
  setDecode (f d)
  putPixel (f d) (f d).colour d.k
  advance 1

/-- Fetch the code at the stream cursor, in the code table of the decode in progress (30_encoding.md R64 to R77). -/
def fetchCode : M Instr := do
  let d ← currentDecode
  match d.phase with
  | .descriptor => do
    let c ← nextByte
    pure (decodeDescriptor c)
  | .mask _ => do
    let c ← nextByte
    pure (decodeMaskControl c)
  | .rle8 => do
    let c ← nextByte
    pure (decodeRle8Control c)
  | .ega => do
    let c ← nextByte
    pure (decodeEgaControl c)
  | .zigzag => runReader (zigzagReader d.shift)
  | .majminRun => runReader (majminRunReader d.shift)
  | .majminDelta => runReader (majminDeltaReader d.shift)

end Sys2Proof.Machine
end

