-- ==== Sys2Proof/Machine/Bitmap.lean ====
section
/-! DEFINITION. BitmapCodec: the codes inside a bitmap payload, family by family (spec/40_bitmap_codec.md R101 to R107). -/

namespace Sys2Proof.Machine

/-! ZIGZAG, either order (40_bitmap_codec.md R102, R103; 30_encoding.md R71) -/

/-- ZZ_KEEP: keep the colour. -/
def execZzKeep (s : State) : Answer :=
  runM (colourCode .zigzag fun d => d) s

/-- ZZ_LITERAL: the literal, and the increment becomes -1. -/
def execZzLiteral (value : Byte) (s : State) : Answer :=
  runM (colourCode .zigzag fun d => { d with colour := value, inc := 0xFF#8 }) s

/-- ZZ_STEP: add the increment, modulo 256 (40_bitmap_codec.md R93). -/
def execZzStep (s : State) : Answer :=
  runM (colourCode .zigzag fun d => { d with colour := d.colour + d.inc }) s

/-- ZZ_TURN: negate the increment, then add it. -/
def execZzTurn (s : State) : Answer :=
  runM (colourCode .zigzag fun d => { d with colour := d.colour + -d.inc, inc := -d.inc }) s

/-! MAJMIN_RUN (40_bitmap_codec.md R104; 30_encoding.md R72) -/

/-- MMR_KEEP: keep the colour. -/
def execMmrKeep (s : State) : Answer :=
  runM (colourCode .majminRun fun d => d) s

/-- MMR_LITERAL: the literal. -/
def execMmrLiteral (value : Byte) (s : State) : Answer :=
  runM (colourCode .majminRun fun d => { d with colour := value }) s

/-- MMR_DELTA: add `v - 4`, modulo 256. -/
def execMmrDelta (v : BitVec 3) (s : State) : Answer :=
  runM (colourCode .majminRun fun d => { d with colour := d.colour + (v.zeroExtend 8 - 4#8) }) s

/-- MMR_RUN: `n` pixels of the current colour, 0 standing for 256, cut at the end of the strip; another code is read
before the next pixel. -/
def execMmrRun (n : Byte) (s : State) : Answer :=
  runM (do
    let d ← decodeIn .majminRun
    let reps := cutShort d (if n = 0 then 256 else n.toNat)
    loopFrom (putPixel d d.colour) d.k reps
    advance reps) s

/-! MAJMIN_DELTA (40_bitmap_codec.md R105; 30_encoding.md R73) -/

/-- The source's delta table `{-4, -3, -2, -1, 1, 2, 3, 4}`, modulo 256 (30_encoding.md R73). -/
def deltaTable (i : BitVec 3) : Byte :=
  match i.toNat with
  | 0 => 0xFC#8
  | 1 => 0xFD#8
  | 2 => 0xFE#8
  | 3 => 0xFF#8
  | 4 => 1#8
  | 5 => 2#8
  | 6 => 3#8
  | _ => 4#8

/-- MMD_KEEP: keep the colour. -/
def execMmdKeep (s : State) : Answer :=
  runM (colourCode .majminDelta fun d => d) s

/-- MMD_LITERAL: the literal. -/
def execMmdLiteral (value : Byte) (s : State) : Answer :=
  runM (colourCode .majminDelta fun d => { d with colour := value }) s

/-- MMD_DELTA: add the table's delta, modulo 256. -/
def execMmdDelta (i : BitVec 3) (s : State) : Answer :=
  runM (colourCode .majminDelta fun d => { d with colour := d.colour + deltaTable i }) s

/-! RLE8 (40_bitmap_codec.md R106; 30_encoding.md R74) -/

/-- RLE8_RUN: one colour byte for `LEN + 1` pixels, cut at the end of the strip. -/
def execRle8Run (len : BitVec 7) (s : State) : Answer :=
  runM (do
    let d ← decodeIn .rle8
    let c ← nextByte
    loopFrom (putPixel d c) d.k (cutShort d (len.toNat + 1))
    advance (cutShort d (len.toNat + 1))) s

/-- RLE8_LIT: `LEN + 1` literal colours, cut at the end of the strip with the rest unread. -/
def execRle8Lit (len : BitVec 7) (s : State) : Answer :=
  runM (do
    let d ← decodeIn .rle8
    loopFrom (fun k => do
      let c ← nextByte
      putPixel d c k) d.k (cutShort d (len.toNat + 1))
    advance (cutShort d (len.toNat + 1))) s

/-! EGA_RLE (40_bitmap_codec.md R107; 30_encoding.md R75) -/

/-- A count field, or the next byte where the field is 0. -/
def extendedCount (field : Nat) : M Nat :=
  if field = 0 then do
    let c ← nextByte
    pure c.toNat
  else pure field

/-- `cnt` pixels, the `z`-th by `put z`; a packet that would pass the end of the strip has no meaning
(40_bitmap_codec.md R107, log 12). -/
def egaPacket (d : Decode) (cnt : Nat) (put : Nat → M Unit) : M Unit :=
  if decodeTotal d < d.k + cnt then throw (.refusal .egaOverrun)
  else do
    loopFrom put 0 cnt
    advance cnt

/-- Copy the stored pixel on the left onto pixel `k`; an address below 0 is a stop (log 26). -/
def copyLeft (d : Decode) (k : Nat) : M Unit :=
  let n := bytesPerPixel d.format
  if pixelAddr d k < n then throw (.fault .addressWrap)
  else do
    let p ← load n (pixelAddr d k - n)
    store n (pixelAddr d k) p

/-- The colour of pixel `z` of a dithered run: the high nibble on even pixels, the low nibble on odd ones. -/
def ditherColour (pair : Byte) (z : Nat) : Byte :=
  if z % 2 = 1 then pair &&& 0x0F#8 else pair >>> 4

/-- EGA_RUN: a run of one 4-bit colour. -/
def execEgaRun (count : BitVec 3) (colour : BitVec 4) (s : State) : Answer :=
  runM (do
    let d ← decodeIn .ega
    let cnt ← extendedCount count.toNat
    egaPacket d cnt fun z => putPixel d (colour.zeroExtend 8) (d.k + z)) s

/-- EGA_COPYLEFT: each pixel from its left neighbour. -/
def execEgaCopyleft (count : BitVec 6) (s : State) : Answer :=
  runM (do
    let d ← decodeIn .ega
    let cnt ← extendedCount count.toNat
    egaPacket d cnt fun z => copyLeft d (d.k + z)) s

/-- EGA_DITHER: two alternating 4-bit colours; the colour byte comes before an extended count. -/
def execEgaDither (count : BitVec 6) (s : State) : Answer :=
  runM (do
    let d ← decodeIn .ega
    let pair ← nextByte
    let cnt ← extendedCount count.toNat
    egaPacket d cnt fun z => putPixel d (ditherColour pair z) (d.k + z)) s

end Sys2Proof.Machine
end

