-- ==== Sys2Proof/Machine/Descriptors.lean ====
section
/-! DEFINITION. The descriptor byte of a bitmap stream: each row of `DESC_MAP` starts the body of its family
(spec/30_encoding.md R67, R68; 40_bitmap_codec.md R90, R100 to R107). -/

namespace Sys2Proof.Machine

/-- The code a family's payload starts with; RAW and a supplied body have none, so they are done in the descriptor's own
step (40_bitmap_codec.md R100 to R107). -/
def familyPhase (f : Family) : Phase :=
  match f with
  | .raw => .descriptor
  | .rle8 => .rle8
  | .egaRle => .ega
  | .zigzag => .zigzag
  | .majminRun => .majminRun
  | .majminDelta => .majminDelta
  | .added _ => .descriptor

/-- The decode in progress once `DESC_MAP` has given its descriptor an entry: the family, the pixel order, `T` and the
literal width (30_encoding.md R65, R67). -/
def describedBy (d : Decode) (e : DescEntry) : Decode :=
  { d with phase := familyPhase e.family, order := e.order, transparent := e.transparent, shift := literalWidth e.value, b := 0 }

/-- Whether a family's body is a supplied one: the parameter `CodecBody` (00_scope.md R4). -/
def bodySupplied (par : Params) (f : Family) : Bool :=
  match f with
  | .added _ => true
  | f => par.suppliedBodies.contains f

/-- RAW: `8 * height` payload bytes, one colour a pixel; the whole payload (40_bitmap_codec.md R100). -/
def rawBody (d : Decode) : M Unit := do
  setDecode d
  loopFrom (fun k => do
    let c ← nextByte
    putPixel d c k) d.k (decodeTotal d - d.k)
  advance (decodeTotal d - d.k)

/-- A family whose payload starts with a packet: nothing is written yet (40_bitmap_codec.md R106, R107). -/
def packetBody (d : Decode) : M Unit := setDecode d

/-- A bit-coded family: the initial colour is a whole byte, unmasked; the first pixel takes it; the increment starts at
-1; the bit reader starts at the next byte (40_bitmap_codec.md R101, R102, R104). -/
def bitBody (d : Decode) : M Unit := do
  let c ← nextByte
  setDecode { d with p := d.p + 1, colour := c, inc := 0xFF#8 }
  putPixel d c d.k
  advance 1

/-- A supplied body: the whole strip, each pixel once and in order, with the colours of the parameter, through the palette
(40_bitmap_codec.md, opening, R91 to R94, R108). (log 13) -/
def suppliedBody (f : Family) (d : Decode) : M Unit := do
  let s ← get
  let g := codecArgs s d.format d.dst d.pitch d.p d.height
  setDecode d
  loopFrom (fun k => putPixel d (Config.suppliedColour f d.order d.shift g k) k) d.k (decodeTotal d - d.k)
  advance (decodeTotal d - d.k)

/-- The body of a family, over the decode that its descriptor describes (40_bitmap_codec.md R90). -/
def familyBody (par : Params) (f : Family) (d : Decode) : M Unit :=
  if bodySupplied par f then suppliedBody f d
  else
    match f with
    | .raw => rawBody d
    | .rle8 => packetBody d
    | .egaRle => packetBody d
    | .zigzag => bitBody d
    | .majminRun => bitBody d
    | .majminDelta => bitBody d
    | .added _ => suppliedBody f d

/-- A descriptor byte: `DESC_MAP` selects the body, and a byte it does not hold raises the fault before any pixel
(40_bitmap_codec.md R90, 30_encoding.md R68, 60_exceptions.md R190). -/
def descriptorBody (b : Byte) : M Unit := do
  let d ← decodeIn .descriptor
  let s ← get
  match descEntry s.par.descMap b with
  | some e => familyBody s.par e.family (describedBy d e)
  | none => raise .unknownDescriptor (b.zeroExtend 32)

/-! The descriptor bytes. Each is named by its row of the default `DESC_MAP` (30_encoding.md R67), which is what it does
where the parameters are the defaults. -/

/-- A byte that the default `DESC_MAP` does not hold: the fault, unless a substituted table holds it (30_encoding.md R68,
60_exceptions.md R190). -/
def execDescUnrecognised (b : Byte) (s : State) : Answer := runM (descriptorBody b) s

/-- Descriptor 1: RAW, row order, `T = 0` (30_encoding.md R67, 40_bitmap_codec.md R100). -/
def execDescRaw1 (s : State) : Answer := runM (descriptorBody 1) s

/-- Descriptor 8: RLE8, row order, `T = 1` (30_encoding.md R67, 40_bitmap_codec.md R106). -/
def execDescRle8_8 (s : State) : Answer := runM (descriptorBody 8) s

/-- Descriptor 9: RLE8, row order, `T = 0` (30_encoding.md R67, 40_bitmap_codec.md R106). -/
def execDescRle8_9 (s : State) : Answer := runM (descriptorBody 9) s

/-- Descriptor 10: EGA_RLE, column order, `T = 0` (30_encoding.md R67, 40_bitmap_codec.md R107). -/
def execDescEgaRle10 (s : State) : Answer := runM (descriptorBody 10) s

/-- Descriptor 14: ZIGZAG_V, column order, `T = 0`, literals of 4 bits (30_encoding.md R67, 40_bitmap_codec.md R102). -/
def execDescZigzagV14 (s : State) : Answer := runM (descriptorBody 14) s

/-- Descriptor 15: ZIGZAG_V, column order, `T = 0`, literals of 5 bits (30_encoding.md R67, 40_bitmap_codec.md R102). -/
def execDescZigzagV15 (s : State) : Answer := runM (descriptorBody 15) s

/-- Descriptor 16: ZIGZAG_V, column order, `T = 0`, literals of 6 bits (30_encoding.md R67, 40_bitmap_codec.md R102). -/
def execDescZigzagV16 (s : State) : Answer := runM (descriptorBody 16) s

/-- Descriptor 17: ZIGZAG_V, column order, `T = 0`, literals of 7 bits (30_encoding.md R67, 40_bitmap_codec.md R102). -/
def execDescZigzagV17 (s : State) : Answer := runM (descriptorBody 17) s

/-- Descriptor 18: ZIGZAG_V, column order, `T = 0`, literals of 8 bits (30_encoding.md R67, 40_bitmap_codec.md R102). -/
def execDescZigzagV18 (s : State) : Answer := runM (descriptorBody 18) s

/-- Descriptor 24: ZIGZAG_H, row order, `T = 0`, literals of 4 bits (30_encoding.md R67, 40_bitmap_codec.md R103). -/
def execDescZigzagH24 (s : State) : Answer := runM (descriptorBody 24) s

/-- Descriptor 25: ZIGZAG_H, row order, `T = 0`, literals of 5 bits (30_encoding.md R67, 40_bitmap_codec.md R103). -/
def execDescZigzagH25 (s : State) : Answer := runM (descriptorBody 25) s

/-- Descriptor 26: ZIGZAG_H, row order, `T = 0`, literals of 6 bits (30_encoding.md R67, 40_bitmap_codec.md R103). -/
def execDescZigzagH26 (s : State) : Answer := runM (descriptorBody 26) s

/-- Descriptor 27: ZIGZAG_H, row order, `T = 0`, literals of 7 bits (30_encoding.md R67, 40_bitmap_codec.md R103). -/
def execDescZigzagH27 (s : State) : Answer := runM (descriptorBody 27) s

/-- Descriptor 28: ZIGZAG_H, row order, `T = 0`, literals of 8 bits (30_encoding.md R67, 40_bitmap_codec.md R103). -/
def execDescZigzagH28 (s : State) : Answer := runM (descriptorBody 28) s

/-- Descriptor 34: ZIGZAG_V, column order, `T = 1`, literals of 4 bits (30_encoding.md R67, 40_bitmap_codec.md R102). -/
def execDescZigzagV34 (s : State) : Answer := runM (descriptorBody 34) s

/-- Descriptor 35: ZIGZAG_V, column order, `T = 1`, literals of 5 bits (30_encoding.md R67, 40_bitmap_codec.md R102). -/
def execDescZigzagV35 (s : State) : Answer := runM (descriptorBody 35) s

/-- Descriptor 36: ZIGZAG_V, column order, `T = 1`, literals of 6 bits (30_encoding.md R67, 40_bitmap_codec.md R102). -/
def execDescZigzagV36 (s : State) : Answer := runM (descriptorBody 36) s

/-- Descriptor 37: ZIGZAG_V, column order, `T = 1`, literals of 7 bits (30_encoding.md R67, 40_bitmap_codec.md R102). -/
def execDescZigzagV37 (s : State) : Answer := runM (descriptorBody 37) s

/-- Descriptor 38: ZIGZAG_V, column order, `T = 1`, literals of 8 bits (30_encoding.md R67, 40_bitmap_codec.md R102). -/
def execDescZigzagV38 (s : State) : Answer := runM (descriptorBody 38) s

/-- Descriptor 44: ZIGZAG_H, row order, `T = 1`, literals of 4 bits (30_encoding.md R67, 40_bitmap_codec.md R103). -/
def execDescZigzagH44 (s : State) : Answer := runM (descriptorBody 44) s

/-- Descriptor 45: ZIGZAG_H, row order, `T = 1`, literals of 5 bits (30_encoding.md R67, 40_bitmap_codec.md R103). -/
def execDescZigzagH45 (s : State) : Answer := runM (descriptorBody 45) s

/-- Descriptor 46: ZIGZAG_H, row order, `T = 1`, literals of 6 bits (30_encoding.md R67, 40_bitmap_codec.md R103). -/
def execDescZigzagH46 (s : State) : Answer := runM (descriptorBody 46) s

/-- Descriptor 47: ZIGZAG_H, row order, `T = 1`, literals of 7 bits (30_encoding.md R67, 40_bitmap_codec.md R103). -/
def execDescZigzagH47 (s : State) : Answer := runM (descriptorBody 47) s

/-- Descriptor 48: ZIGZAG_H, row order, `T = 1`, literals of 8 bits (30_encoding.md R67, 40_bitmap_codec.md R103). -/
def execDescZigzagH48 (s : State) : Answer := runM (descriptorBody 48) s

/-- Descriptor 64: MAJMIN_RUN, row order, `T = 0`, literals of 4 bits (30_encoding.md R67, 40_bitmap_codec.md R104). -/
def execDescMajminRun64 (s : State) : Answer := runM (descriptorBody 64) s

/-- Descriptor 65: MAJMIN_RUN, row order, `T = 0`, literals of 5 bits (30_encoding.md R67, 40_bitmap_codec.md R104). -/
def execDescMajminRun65 (s : State) : Answer := runM (descriptorBody 65) s

/-- Descriptor 66: MAJMIN_RUN, row order, `T = 0`, literals of 6 bits (30_encoding.md R67, 40_bitmap_codec.md R104). -/
def execDescMajminRun66 (s : State) : Answer := runM (descriptorBody 66) s

/-- Descriptor 67: MAJMIN_RUN, row order, `T = 0`, literals of 7 bits (30_encoding.md R67, 40_bitmap_codec.md R104). -/
def execDescMajminRun67 (s : State) : Answer := runM (descriptorBody 67) s

/-- Descriptor 68: MAJMIN_RUN, row order, `T = 0`, literals of 8 bits (30_encoding.md R67, 40_bitmap_codec.md R104). -/
def execDescMajminRun68 (s : State) : Answer := runM (descriptorBody 68) s

/-- Descriptor 84: MAJMIN_RUN, row order, `T = 1`, literals of 4 bits (30_encoding.md R67, 40_bitmap_codec.md R104). -/
def execDescMajminRun84 (s : State) : Answer := runM (descriptorBody 84) s

/-- Descriptor 85: MAJMIN_RUN, row order, `T = 1`, literals of 5 bits (30_encoding.md R67, 40_bitmap_codec.md R104). -/
def execDescMajminRun85 (s : State) : Answer := runM (descriptorBody 85) s

/-- Descriptor 86: MAJMIN_RUN, row order, `T = 1`, literals of 6 bits (30_encoding.md R67, 40_bitmap_codec.md R104). -/
def execDescMajminRun86 (s : State) : Answer := runM (descriptorBody 86) s

/-- Descriptor 87: MAJMIN_RUN, row order, `T = 1`, literals of 7 bits (30_encoding.md R67, 40_bitmap_codec.md R104). -/
def execDescMajminRun87 (s : State) : Answer := runM (descriptorBody 87) s

/-- Descriptor 88: MAJMIN_RUN, row order, `T = 1`, literals of 8 bits (30_encoding.md R67, 40_bitmap_codec.md R104). -/
def execDescMajminRun88 (s : State) : Answer := runM (descriptorBody 88) s

/-- Descriptor 104: MAJMIN_RUN, row order, `T = 0`, literals of 4 bits (30_encoding.md R67, 40_bitmap_codec.md R104). -/
def execDescMajminRun104 (s : State) : Answer := runM (descriptorBody 104) s

/-- Descriptor 105: MAJMIN_RUN, row order, `T = 0`, literals of 5 bits (30_encoding.md R67, 40_bitmap_codec.md R104). -/
def execDescMajminRun105 (s : State) : Answer := runM (descriptorBody 105) s

/-- Descriptor 106: MAJMIN_RUN, row order, `T = 0`, literals of 6 bits (30_encoding.md R67, 40_bitmap_codec.md R104). -/
def execDescMajminRun106 (s : State) : Answer := runM (descriptorBody 106) s

/-- Descriptor 107: MAJMIN_RUN, row order, `T = 0`, literals of 7 bits (30_encoding.md R67, 40_bitmap_codec.md R104). -/
def execDescMajminRun107 (s : State) : Answer := runM (descriptorBody 107) s

/-- Descriptor 108: MAJMIN_RUN, row order, `T = 0`, literals of 8 bits (30_encoding.md R67, 40_bitmap_codec.md R104). -/
def execDescMajminRun108 (s : State) : Answer := runM (descriptorBody 108) s

/-- Descriptor 124: MAJMIN_RUN, row order, `T = 1`, literals of 4 bits (30_encoding.md R67, 40_bitmap_codec.md R104). -/
def execDescMajminRun124 (s : State) : Answer := runM (descriptorBody 124) s

/-- Descriptor 125: MAJMIN_RUN, row order, `T = 1`, literals of 5 bits (30_encoding.md R67, 40_bitmap_codec.md R104). -/
def execDescMajminRun125 (s : State) : Answer := runM (descriptorBody 125) s

/-- Descriptor 126: MAJMIN_RUN, row order, `T = 1`, literals of 6 bits (30_encoding.md R67, 40_bitmap_codec.md R104). -/
def execDescMajminRun126 (s : State) : Answer := runM (descriptorBody 126) s

/-- Descriptor 127: MAJMIN_RUN, row order, `T = 1`, literals of 7 bits (30_encoding.md R67, 40_bitmap_codec.md R104). -/
def execDescMajminRun127 (s : State) : Answer := runM (descriptorBody 127) s

/-- Descriptor 128: MAJMIN_RUN, row order, `T = 1`, literals of 8 bits (30_encoding.md R67, 40_bitmap_codec.md R104). -/
def execDescMajminRun128 (s : State) : Answer := runM (descriptorBody 128) s

/-- Descriptor 134: MAJMIN_DELTA, row order, `T = 0`, literals of 4 bits (30_encoding.md R67, 40_bitmap_codec.md R105). -/
def execDescMajminDelta134 (s : State) : Answer := runM (descriptorBody 134) s

/-- Descriptor 135: MAJMIN_DELTA, row order, `T = 0`, literals of 5 bits (30_encoding.md R67, 40_bitmap_codec.md R105). -/
def execDescMajminDelta135 (s : State) : Answer := runM (descriptorBody 135) s

/-- Descriptor 136: MAJMIN_DELTA, row order, `T = 0`, literals of 6 bits (30_encoding.md R67, 40_bitmap_codec.md R105). -/
def execDescMajminDelta136 (s : State) : Answer := runM (descriptorBody 136) s

/-- Descriptor 137: MAJMIN_DELTA, row order, `T = 0`, literals of 7 bits (30_encoding.md R67, 40_bitmap_codec.md R105). -/
def execDescMajminDelta137 (s : State) : Answer := runM (descriptorBody 137) s

/-- Descriptor 138: MAJMIN_DELTA, row order, `T = 0`, literals of 8 bits (30_encoding.md R67, 40_bitmap_codec.md R105). -/
def execDescMajminDelta138 (s : State) : Answer := runM (descriptorBody 138) s

/-- Descriptor 144: MAJMIN_DELTA, row order, `T = 1`, literals of 4 bits (30_encoding.md R67, 40_bitmap_codec.md R105). -/
def execDescMajminDelta144 (s : State) : Answer := runM (descriptorBody 144) s

/-- Descriptor 145: MAJMIN_DELTA, row order, `T = 1`, literals of 5 bits (30_encoding.md R67, 40_bitmap_codec.md R105). -/
def execDescMajminDelta145 (s : State) : Answer := runM (descriptorBody 145) s

/-- Descriptor 146: MAJMIN_DELTA, row order, `T = 1`, literals of 6 bits (30_encoding.md R67, 40_bitmap_codec.md R105). -/
def execDescMajminDelta146 (s : State) : Answer := runM (descriptorBody 146) s

/-- Descriptor 147: MAJMIN_DELTA, row order, `T = 1`, literals of 7 bits (30_encoding.md R67, 40_bitmap_codec.md R105). -/
def execDescMajminDelta147 (s : State) : Answer := runM (descriptorBody 147) s

/-- Descriptor 148: MAJMIN_DELTA, row order, `T = 1`, literals of 8 bits (30_encoding.md R67, 40_bitmap_codec.md R105). -/
def execDescMajminDelta148 (s : State) : Answer := runM (descriptorBody 148) s

/-- Descriptor 149: RAW, row order, `T = 1` (30_encoding.md R67, 40_bitmap_codec.md R100). -/
def execDescRaw149 (s : State) : Answer := runM (descriptorBody 149) s

end Sys2Proof.Machine
end

