-- ==== Sys2Proof/Machine/MaskCodec.lean ====
section
/-! DEFINITION. MaskCodec: the two control codes of a mask stream (spec/41_mask_codec.md). -/

namespace Sys2Proof.Machine

/-- `store(a, v)`: overwrite (41_mask_codec.md R130), or OR into the byte there (R132). -/
def storeMask (merge : Bool) (a : Nat) (v : Byte) : M Unit :=
  if merge then do
    let old ← loadByte a
    storeByte a (old ||| v)
  else storeByte a v

/-- The address of the mask byte of row `r` (41_mask_codec.md R131). -/
def maskRowAddr (d : Decode) (r : Nat) : Nat := d.dst + r * d.pitch

/-- MASK_RUN: one byte for `count` rows, cut at the last row (41_mask_codec.md R131, R134, R136). -/
def execMaskRun (count : BitVec 7) (s : State) : Answer :=
  runM (do
    let (d, merge) ← maskDecodeIn
    if count = 0 then throw (.refusal .maskCountZero)
    else do
      let v ← nextByte
      loopFrom (fun r => storeMask merge (maskRowAddr d r) v) d.k (cutShort d count.toNat)
      advance (cutShort d count.toNat)) s

/-- MASK_LIT: `count` literal bytes, one a row, cut at the last row with the rest unread (41_mask_codec.md R131, R134,
R136). -/
def execMaskLit (count : BitVec 7) (s : State) : Answer :=
  runM (do
    let (d, merge) ← maskDecodeIn
    if count = 0 then throw (.refusal .maskCountZero)
    else do
      loopFrom (fun r => do
        let v ← nextByte
        storeMask merge (maskRowAddr d r) v) d.k (cutShort d count.toNat)
      advance (cutShort d count.toNat)) s

end Sys2Proof.Machine
end

