-- ==== Sys2Proof/Machine/Codes.lean ====
section
/-! DEFINITION. Running the codes of a stream to the end of the command that reads it (spec/10_state.md R12, R15;
40_bitmap_codec.md R90; 41_mask_codec.md R131). -/

namespace Sys2Proof.Machine

/-- The meaning of a stream code; a command word is none (log 4). -/
def execCode (i : Instr) (s : State) : Answer :=
  match i with
  | .vsInit _ => .refused .codeOutsideDecode
  | .decodeStrip _ => .refused .codeOutsideDecode
  | .decodeMask _ => .refused .codeOutsideDecode
  | .decodeMaskOr _ => .refused .codeOutsideDecode
  | .markDirty _ => .refused .codeOutsideDecode
  | .flush _ => .refused .codeOutsideDecode
  | .restoreBg _ => .refused .codeOutsideDecode
  | .copy8col _ => .refused .codeOutsideDecode
  | .clear8col _ => .refused .codeOutsideDecode
  | .composeStrip _ => .refused .codeOutsideDecode
  | .stripLookup _ => .refused .codeOutsideDecode
  | .blitMasked _ => .refused .codeOutsideDecode
  | .getPixels _ => .refused .codeOutsideDecode
  | .getBackPixels _ => .refused .codeOutsideDecode
  | .descRaw1 => execDescRaw1 s
  | .descRle8_8 => execDescRle8_8 s
  | .descRle8_9 => execDescRle8_9 s
  | .descEgaRle10 => execDescEgaRle10 s
  | .descZigzagV14 => execDescZigzagV14 s
  | .descZigzagV15 => execDescZigzagV15 s
  | .descZigzagV16 => execDescZigzagV16 s
  | .descZigzagV17 => execDescZigzagV17 s
  | .descZigzagV18 => execDescZigzagV18 s
  | .descZigzagH24 => execDescZigzagH24 s
  | .descZigzagH25 => execDescZigzagH25 s
  | .descZigzagH26 => execDescZigzagH26 s
  | .descZigzagH27 => execDescZigzagH27 s
  | .descZigzagH28 => execDescZigzagH28 s
  | .descZigzagV34 => execDescZigzagV34 s
  | .descZigzagV35 => execDescZigzagV35 s
  | .descZigzagV36 => execDescZigzagV36 s
  | .descZigzagV37 => execDescZigzagV37 s
  | .descZigzagV38 => execDescZigzagV38 s
  | .descZigzagH44 => execDescZigzagH44 s
  | .descZigzagH45 => execDescZigzagH45 s
  | .descZigzagH46 => execDescZigzagH46 s
  | .descZigzagH47 => execDescZigzagH47 s
  | .descZigzagH48 => execDescZigzagH48 s
  | .descMajminRun64 => execDescMajminRun64 s
  | .descMajminRun65 => execDescMajminRun65 s
  | .descMajminRun66 => execDescMajminRun66 s
  | .descMajminRun67 => execDescMajminRun67 s
  | .descMajminRun68 => execDescMajminRun68 s
  | .descMajminRun84 => execDescMajminRun84 s
  | .descMajminRun85 => execDescMajminRun85 s
  | .descMajminRun86 => execDescMajminRun86 s
  | .descMajminRun87 => execDescMajminRun87 s
  | .descMajminRun88 => execDescMajminRun88 s
  | .descMajminRun104 => execDescMajminRun104 s
  | .descMajminRun105 => execDescMajminRun105 s
  | .descMajminRun106 => execDescMajminRun106 s
  | .descMajminRun107 => execDescMajminRun107 s
  | .descMajminRun108 => execDescMajminRun108 s
  | .descMajminRun124 => execDescMajminRun124 s
  | .descMajminRun125 => execDescMajminRun125 s
  | .descMajminRun126 => execDescMajminRun126 s
  | .descMajminRun127 => execDescMajminRun127 s
  | .descMajminRun128 => execDescMajminRun128 s
  | .descMajminDelta134 => execDescMajminDelta134 s
  | .descMajminDelta135 => execDescMajminDelta135 s
  | .descMajminDelta136 => execDescMajminDelta136 s
  | .descMajminDelta137 => execDescMajminDelta137 s
  | .descMajminDelta138 => execDescMajminDelta138 s
  | .descMajminDelta144 => execDescMajminDelta144 s
  | .descMajminDelta145 => execDescMajminDelta145 s
  | .descMajminDelta146 => execDescMajminDelta146 s
  | .descMajminDelta147 => execDescMajminDelta147 s
  | .descMajminDelta148 => execDescMajminDelta148 s
  | .descRaw149 => execDescRaw149 s
  | .descUnrecognised b => execDescUnrecognised b s
  | .maskRun count => execMaskRun count s
  | .maskLit count => execMaskLit count s
  | .rle8Run len => execRle8Run len s
  | .rle8Lit len => execRle8Lit len s
  | .egaRun count colour => execEgaRun count colour s
  | .egaCopyleft count => execEgaCopyleft count s
  | .egaDither count => execEgaDither count s
  | .zzKeep => execZzKeep s
  | .zzLiteral _ value => execZzLiteral value s
  | .zzStep => execZzStep s
  | .zzTurn => execZzTurn s
  | .mmrKeep => execMmrKeep s
  | .mmrLiteral _ value => execMmrLiteral value s
  | .mmrDelta v => execMmrDelta v s
  | .mmrRun n => execMmrRun n s
  | .mmdKeep => execMmdKeep s
  | .mmdLiteral _ value => execMmdLiteral value s
  | .mmdDelta i => execMmdDelta i s

/-- Fetch one code and do what it says. -/
def codeStep (s : State) : Answer :=
  match fetchCode.run s with
  | .ok (i, t) => execCode i t
  | .error e => stopOutcome e

/-- Codes until the command has ended, at most `fuel` of them. -/
def runCodes : Nat → State → Answer
  | 0, s =>
    match s.dec with
    | none => .next s
    | some _ => .refused .decodeOutOfFuel
  | fuel + 1, s =>
    match s.dec with
    | none => .next s
    | some _ => andThen (codeStep s) (runCodes fuel)

/-- A number of codes no decode needs: each code produces a pixel or a row or moves the cursor (log 20). -/
def codeFuel (s : State) : Nat :=
  match s.dec with
  | none => 0
  | some d => (decodeTotal d - d.k) + (2 ^ s.par.addressBits - d.p) + 1

/-- Run the command in progress to its end. -/
def finishDecode (s : State) : Answer := runCodes (codeFuel s) s

end Sys2Proof.Machine
end

