-- ==== Sys2Proof/Machine/Decoders.lean ====
section
/-! DEFINITION. The commands that read a stream: DECODE_STRIP, DECODE_MASK, DECODE_MASK_OR (spec/40_bitmap_codec.md R90
to R99, 41_mask_codec.md R130, R132). -/

namespace Sys2Proof.Machine

/-- What `LegacyCodec` is given (40_bitmap_codec.md R98). -/
def legacyArgs (s : State) (f : PixelFormat) : CodecArgs :=
  codecArgs s f (s.addrOperand 0) (s.countOperand 1) (s.addrOperand 2) (s.countOperand 3)

/-- DECODE_STRIP under V1, V2, NES or PCEngine: exactly the `8 * height` pixels are written (40_bitmap_codec.md R91), with
the stored values and the flag of the open parameter `LegacyCodec` (R98). (log 8) -/
def legacyDecode (f : PixelFormat) : M Unit := do
  let s ← get
  let g := legacyArgs s f
  loopFrom (fun k =>
    store g.bytes (g.dst + k / 8 * g.pitch + k % 8 * g.bytes) (Config.legacyPixel g k).toNat) 0 (8 * g.height)
  modify fun s => s.setResult (transparencyResult (Config.legacyFlag g))

/-- DECODE_STRIP up to its first stream byte: the checks in their order, then the decode in progress
(40_bitmap_codec.md R90, R96, R98, R99). -/
def beginDecodeStrip (vs : BitVec 2) : M Unit :=
  withScreen vs (commandWord 0x10 vs) fun x => do
    let s ← get
    if profileReserved s.profile then raise .illegalCommand (commandWord 0x10 vs)
    else if s.countOperand 3 = 0 then throw (.refusal .heightZero)
    else if profileByDescriptor s.profile then
      setDecode (newDecode .descriptor x.format (s.addrOperand 0) (s.countOperand 1) (s.addrOperand 2) (s.countOperand 3))
    else legacyDecode x.format

/-- A mask decode up to its first stream byte; height 0 is no decode at all (41_mask_codec.md R130, R135). -/
def beginDecodeMask (merge : Bool) : M Unit := do
  let s ← get
  if s.countOperand 3 = 0 then pure ()
  else
    let d := newDecode (.mask merge) .indexed8 (s.addrOperand 0) (s.countOperand 1) (s.addrOperand 2) (s.countOperand 3)
    setDecode d

/-- DECODE_STRIP (40_bitmap_codec.md R90): the checks, then the codes of the stream to the end of the strip, in one
indivisible step (10_state.md R12). -/
def execDecodeStrip (vs : BitVec 2) (s : State) : Answer :=
  andThen (runM (beginDecodeStrip vs) (s.setDec none)) finishDecode

/-- DECODE_MASK (41_mask_codec.md R130); the `VS` field is ignored. -/
def execDecodeMask (_vs : BitVec 2) (s : State) : Answer :=
  andThen (runM (beginDecodeMask false) (s.setDec none)) finishDecode

/-- DECODE_MASK_OR (41_mask_codec.md R132); the `VS` field is ignored. -/
def execDecodeMaskOr (_vs : BitVec 2) (s : State) : Answer :=
  andThen (runM (beginDecodeMask true) (s.setDec none)) finishDecode

end Sys2Proof.Machine
end

