-- ==== Sys2Proof/Machine/VirtualScreen.lean ====
section
/-! DEFINITION. VirtualScreen: VS_INIT, GET_PIXELS, GET_BACK_PIXELS, RESTORE_BG (spec/43_virtual_screen.md). -/

namespace Sys2Proof.Machine

/-- The pixel format of an operand `bpp`; none unless it is 1 or 2 (43_virtual_screen.md R150). -/
def formatOf (bpp : Nat) : Option PixelFormat :=
  match bpp with
  | 1 => some .indexed8
  | 2 => some .rgb16
  | _ => none

/-- The geometry VS_INIT accepts, `bpp` apart (43_virtual_screen.md R150, 10_state.md R21). -/
def geometryOk (maxStrips width height pitch bytes : Nat) : Bool :=
  width ≤ 65535 && height ≤ 65535 && width % 8 == 0 && width / 8 ≤ maxStrips && width * bytes ≤ pitch

/-- The screen VS_INIT creates in place of `old`; entries of the dirty arrays past its strips keep their values
(43_virtual_screen.md R150, 10_state.md R25). -/
def createdScreen (s : State) (f : PixelFormat) (old : VScreen) : VScreen where
  width := BitVec.ofNat 16 (s.countOperand 0)
  height := BitVec.ofNat 16 (s.countOperand 1)
  pitch := s.operand 2
  format := f
  xstart := 0
  pix := BitVec.ofNat 32 (s.addrOperand 4)
  back := BitVec.ofNat 32 (s.addrOperand 5)
  valid := true
  hasBack := (s.operand 6).getLsbD 0
  tdirty := setFirst (s.countOperand 0 / 8) (if s.par.initDirty then 0 else BitVec.ofNat 16 (s.countOperand 1)) old.tdirty
  bdirty := setFirst (s.countOperand 0 / 8) (if s.par.initDirty then BitVec.ofNat 16 (s.countOperand 1) else 0) old.bdirty

/-- VS_INIT (43_virtual_screen.md R150). -/
def execVsInit (vs : BitVec 2) (s : State) : Answer :=
  match formatOf (s.countOperand 3) with
  | none => runM (raise .configError (commandWord 0x01 vs)) s
  | some f =>
    if geometryOk s.par.maxStrips (s.countOperand 0) (s.countOperand 1) (s.countOperand 2) (bytesPerPixel f) then
      .next (s.setScreen vs (createdScreen s f (s.screen vs)))
    else runM (raise .configError (commandWord 0x01 vs)) s

/-- An address as `RESULT` holds it (10_state.md R13). The spec gives `RESULT` 32 bits and `AW` no bound: of an address
that does not fit, the value is free. DESIGN CHOICE (log 30). -/
def addressResult (a : Nat) : Word :=
  if a < 2 ^ 32 then BitVec.ofNat 32 a else Config.wideAddress a

/-- GET_PIXELS (43_virtual_screen.md R152); an address past 32 bits leaves a free value in `RESULT`, DESIGN CHOICE
(log 30). -/
def execGetPixels (vs : BitVec 2) (s : State) : Answer :=
  runM (withScreen vs (commandWord 0x40 vs) fun x => modify fun s =>
    s.setResult (addressResult (pixAddr s.par x (s.coordOperand 0) (s.coordOperand 1)))) s

/-- GET_BACK_PIXELS, also where the screen has no back buffer (43_virtual_screen.md R153, log 18); an address past 32 bits
leaves a free value in `RESULT`, DESIGN CHOICE (log 30). -/
def execGetBackPixels (vs : BitVec 2) (s : State) : Answer :=
  runM (withScreen vs (commandWord 0x41 vs) fun x => modify fun s =>
    s.setResult (addressResult (backAddr s.par x (s.coordOperand 0) (s.coordOperand 1)))) s

/-- The copy arm of RESTORE_BG for row `y`, columns from `l`, `w` pixels (43_virtual_screen.md R154). -/
def restoreRow (par : Params) (x : VScreen) (l w y : Nat) : M Unit :=
  copyBytes (w * bytesPerPixel x.format) (pixAddr par x l y) (backAddr par x l y)

/-- The fill arm of RESTORE_BG for row `y`, columns from `l`, `w` pixels (43_virtual_screen.md R154). -/
def fillRow (par : Params) (x : VScreen) (fill l w y : Nat) : M Unit :=
  loopFrom (fun c => store (bytesPerPixel x.format) (pixAddr par x c y) fill) l w

/-- RESTORE_BG on a valid screen: clip, copy or fill, mark (43_virtual_screen.md R154, R155). -/
def restoreBackground (vs : BitVec 2) (x : VScreen) : M Unit := do
  let s ← get
  let l := max (s.coordOperand 0) 0
  let t := max (s.coordOperand 1) 0
  let r := min (s.coordOperand 2) (x.width.toNat : Int)
  let b := min (s.coordOperand 3) (x.height.toNat : Int)
  if l ≥ r ∨ t ≥ b then pure ()
  else do
    if x.hasBack && s.lights then
      loopFrom (restoreRow s.par x l.toNat (r - l).toNat) t.toNat (b - t).toNat
    else
      loopFrom (fillRow s.par x (pixelOperand x.format (s.operand 4)) l.toNat (r - l).toNat) t.toNat (b - t).toNat
    modify fun s => markRegion s vs l (r - 1) t b

/-- RESTORE_BG (43_virtual_screen.md R154). -/
def execRestoreBg (vs : BitVec 2) (s : State) : Answer :=
  runM (withScreen vs (commandWord 0x30 vs) (restoreBackground vs)) s

end Sys2Proof.Machine
end

