-- ==== Sys2Proof/Machine/Dispatch.lean ====
section
/-! DEFINITION. One arm per constructor of Instr: the meaning of each row of spec/opcode_table.json. -/

namespace Sys2Proof.Machine

def exec (i : Instr) (s : State) : Host.Outcome State Fault Refusal :=
  match i with
  | .vsInit vs => Sys2Proof.Machine.execVsInit vs s
  | .decodeStrip vs => Sys2Proof.Machine.execDecodeStrip vs s
  | .decodeMask vs => Sys2Proof.Machine.execDecodeMask vs s
  | .decodeMaskOr vs => Sys2Proof.Machine.execDecodeMaskOr vs s
  | .markDirty vs => Sys2Proof.Machine.execMarkDirty vs s
  | .flush vs => Sys2Proof.Machine.execFlush vs s
  | .restoreBg vs => Sys2Proof.Machine.execRestoreBg vs s
  | .copy8col vs => Sys2Proof.Machine.execCopy8col vs s
  | .clear8col vs => Sys2Proof.Machine.execClear8col vs s
  | .composeStrip vs => Sys2Proof.Machine.execComposeStrip vs s
  | .stripLookup vs => Sys2Proof.Machine.execStripLookup vs s
  | .blitMasked vs => Sys2Proof.Machine.execBlitMasked vs s
  | .getPixels vs => Sys2Proof.Machine.execGetPixels vs s
  | .getBackPixels vs => Sys2Proof.Machine.execGetBackPixels vs s
  | .descRaw1 => Sys2Proof.Machine.execDescRaw1 s
  | .descRle8_8 => Sys2Proof.Machine.execDescRle8_8 s
  | .descRle8_9 => Sys2Proof.Machine.execDescRle8_9 s
  | .descEgaRle10 => Sys2Proof.Machine.execDescEgaRle10 s
  | .descZigzagV14 => Sys2Proof.Machine.execDescZigzagV14 s
  | .descZigzagV15 => Sys2Proof.Machine.execDescZigzagV15 s
  | .descZigzagV16 => Sys2Proof.Machine.execDescZigzagV16 s
  | .descZigzagV17 => Sys2Proof.Machine.execDescZigzagV17 s
  | .descZigzagV18 => Sys2Proof.Machine.execDescZigzagV18 s
  | .descZigzagH24 => Sys2Proof.Machine.execDescZigzagH24 s
  | .descZigzagH25 => Sys2Proof.Machine.execDescZigzagH25 s
  | .descZigzagH26 => Sys2Proof.Machine.execDescZigzagH26 s
  | .descZigzagH27 => Sys2Proof.Machine.execDescZigzagH27 s
  | .descZigzagH28 => Sys2Proof.Machine.execDescZigzagH28 s
  | .descZigzagV34 => Sys2Proof.Machine.execDescZigzagV34 s
  | .descZigzagV35 => Sys2Proof.Machine.execDescZigzagV35 s
  | .descZigzagV36 => Sys2Proof.Machine.execDescZigzagV36 s
  | .descZigzagV37 => Sys2Proof.Machine.execDescZigzagV37 s
  | .descZigzagV38 => Sys2Proof.Machine.execDescZigzagV38 s
  | .descZigzagH44 => Sys2Proof.Machine.execDescZigzagH44 s
  | .descZigzagH45 => Sys2Proof.Machine.execDescZigzagH45 s
  | .descZigzagH46 => Sys2Proof.Machine.execDescZigzagH46 s
  | .descZigzagH47 => Sys2Proof.Machine.execDescZigzagH47 s
  | .descZigzagH48 => Sys2Proof.Machine.execDescZigzagH48 s
  | .descMajminRun64 => Sys2Proof.Machine.execDescMajminRun64 s
  | .descMajminRun65 => Sys2Proof.Machine.execDescMajminRun65 s
  | .descMajminRun66 => Sys2Proof.Machine.execDescMajminRun66 s
  | .descMajminRun67 => Sys2Proof.Machine.execDescMajminRun67 s
  | .descMajminRun68 => Sys2Proof.Machine.execDescMajminRun68 s
  | .descMajminRun84 => Sys2Proof.Machine.execDescMajminRun84 s
  | .descMajminRun85 => Sys2Proof.Machine.execDescMajminRun85 s
  | .descMajminRun86 => Sys2Proof.Machine.execDescMajminRun86 s
  | .descMajminRun87 => Sys2Proof.Machine.execDescMajminRun87 s
  | .descMajminRun88 => Sys2Proof.Machine.execDescMajminRun88 s
  | .descMajminRun104 => Sys2Proof.Machine.execDescMajminRun104 s
  | .descMajminRun105 => Sys2Proof.Machine.execDescMajminRun105 s
  | .descMajminRun106 => Sys2Proof.Machine.execDescMajminRun106 s
  | .descMajminRun107 => Sys2Proof.Machine.execDescMajminRun107 s
  | .descMajminRun108 => Sys2Proof.Machine.execDescMajminRun108 s
  | .descMajminRun124 => Sys2Proof.Machine.execDescMajminRun124 s
  | .descMajminRun125 => Sys2Proof.Machine.execDescMajminRun125 s
  | .descMajminRun126 => Sys2Proof.Machine.execDescMajminRun126 s
  | .descMajminRun127 => Sys2Proof.Machine.execDescMajminRun127 s
  | .descMajminRun128 => Sys2Proof.Machine.execDescMajminRun128 s
  | .descMajminDelta134 => Sys2Proof.Machine.execDescMajminDelta134 s
  | .descMajminDelta135 => Sys2Proof.Machine.execDescMajminDelta135 s
  | .descMajminDelta136 => Sys2Proof.Machine.execDescMajminDelta136 s
  | .descMajminDelta137 => Sys2Proof.Machine.execDescMajminDelta137 s
  | .descMajminDelta138 => Sys2Proof.Machine.execDescMajminDelta138 s
  | .descMajminDelta144 => Sys2Proof.Machine.execDescMajminDelta144 s
  | .descMajminDelta145 => Sys2Proof.Machine.execDescMajminDelta145 s
  | .descMajminDelta146 => Sys2Proof.Machine.execDescMajminDelta146 s
  | .descMajminDelta147 => Sys2Proof.Machine.execDescMajminDelta147 s
  | .descMajminDelta148 => Sys2Proof.Machine.execDescMajminDelta148 s
  | .descRaw149 => Sys2Proof.Machine.execDescRaw149 s
  | .descUnrecognised b => Sys2Proof.Machine.execDescUnrecognised b s
  | .maskRun count => Sys2Proof.Machine.execMaskRun count s
  | .maskLit count => Sys2Proof.Machine.execMaskLit count s
  | .rle8Run len => Sys2Proof.Machine.execRle8Run len s
  | .rle8Lit len => Sys2Proof.Machine.execRle8Lit len s
  | .egaRun count colour => Sys2Proof.Machine.execEgaRun count colour s
  | .egaCopyleft count => Sys2Proof.Machine.execEgaCopyleft count s
  | .egaDither count => Sys2Proof.Machine.execEgaDither count s
  | .zzKeep => Sys2Proof.Machine.execZzKeep s
  | .zzLiteral _ value => Sys2Proof.Machine.execZzLiteral value s
  | .zzStep => Sys2Proof.Machine.execZzStep s
  | .zzTurn => Sys2Proof.Machine.execZzTurn s
  | .mmrKeep => Sys2Proof.Machine.execMmrKeep s
  | .mmrLiteral _ value => Sys2Proof.Machine.execMmrLiteral value s
  | .mmrDelta v => Sys2Proof.Machine.execMmrDelta v s
  | .mmrRun n => Sys2Proof.Machine.execMmrRun n s
  | .mmdKeep => Sys2Proof.Machine.execMmdKeep s
  | .mmdLiteral _ value => Sys2Proof.Machine.execMmdLiteral value s
  | .mmdDelta j => Sys2Proof.Machine.execMmdDelta j s

end Sys2Proof.Machine
end

