-- ==== Sys2Proof/Machine/HostPort.lean ====
section
/-! DEFINITION. The register space and what the host does to it and to memory (spec/10_state.md R27, R31;
70_reset_and_hazards.md R218). -/

namespace Sys2Proof.Machine

/-- A register of the space of 10_state.md R27. -/
inductive Register where
  | cmd
  | status
  | result
  | faultInfo
  | ctrl
  | operand (i : Fin 8)
  | width (v : BitVec 2)
  | height (v : BitVec 2)
  | pitch (v : BitVec 2)
  | bpp (v : BitVec 2)
  | xstart (v : BitVec 2)
  | pix (v : BitVec 2)
  | back (v : BitVec 2)
  | flags (v : BitVec 2)
  | tdirty (v : BitVec 2) (i : Nat)
  | bdirty (v : BitVec 2) (i : Nat)
  | roomPal (c : Byte)
  | verbPal (c : Byte)
  | pal16 (c : Byte)
  /-- any other offset: reads 0, writes are ignored -/
  | reserved
  deriving DecidableEq, Repr

/-- The register in the block of screen `v` at byte offset `o` from the block (10_state.md R27). -/
def screenRegister (v : BitVec 2) (o : Nat) : Register :=
  match o with
  | 0x00 => .width v
  | 0x04 => .height v
  | 0x08 => .pitch v
  | 0x0C => .bpp v
  | 0x10 => .xstart v
  | 0x14 => .pix v
  | 0x18 => .back v
  | 0x1C => .flags v
  | _ => .reserved

/-- The register at a byte offset; registers are aligned 32-bit words, so an offset that is no multiple of 4 is reserved
(10_state.md R27). The window of a dirty array holds 256 entries (log 25). -/
def registerAt (maxStrips offset : Nat) : Register :=
  if offset % 4 ≠ 0 then .reserved
  else if offset = 0x000 then .cmd
  else if offset = 0x004 then .status
  else if offset = 0x008 then .result
  else if offset = 0x00C then .faultInfo
  else if offset = 0x010 then .ctrl
  else if h : 0x020 ≤ offset ∧ offset < 0x040 then .operand ⟨(offset - 0x020) / 4, by omega⟩
  else if 0x100 ≤ offset ∧ offset < 0x200 then
    screenRegister (BitVec.ofNat 2 ((offset - 0x100) / 0x40)) ((offset - 0x100) % 0x40)
  else if 0x1000 ≤ offset ∧ offset < 0x2000 ∧ (offset - 0x1000) % 0x400 / 4 < maxStrips then
    .tdirty (BitVec.ofNat 2 ((offset - 0x1000) / 0x400)) ((offset - 0x1000) % 0x400 / 4)
  else if 0x2000 ≤ offset ∧ offset < 0x3000 ∧ (offset - 0x2000) % 0x400 / 4 < maxStrips then
    .bdirty (BitVec.ofNat 2 ((offset - 0x2000) / 0x400)) ((offset - 0x2000) % 0x400 / 4)
  else if 0x3000 ≤ offset ∧ offset < 0x3400 then .roomPal (BitVec.ofNat 8 ((offset - 0x3000) / 4))
  else if 0x3400 ≤ offset ∧ offset < 0x3800 then .verbPal (BitVec.ofNat 8 ((offset - 0x3400) / 4))
  else if 0x3800 ≤ offset ∧ offset < 0x3C00 then .pal16 (BitVec.ofNat 8 ((offset - 0x3800) / 4))
  else .reserved

/-- What a register reads as: narrower registers are zero-extended, `CMD` and reserved offsets read 0 (10_state.md R12,
R27). -/
def readRegister (s : State) (r : Register) : Word :=
  match r with
  | .cmd => 0
  | .status => statusWord s
  | .result => s.result
  | .faultInfo => s.faultInfo
  | .ctrl => ctrlWord s
  | .operand i => s.operand i
  | .width v => (s.screen v).width.zeroExtend 32
  | .height v => (s.screen v).height.zeroExtend 32
  | .pitch v => (s.screen v).pitch
  | .bpp v => BitVec.ofNat 32 (bytesPerPixel (s.screen v).format)
  | .xstart v => (s.screen v).xstart.zeroExtend 32
  | .pix v => (s.screen v).pix
  | .back v => (s.screen v).back
  | .flags v => flagsWord (s.screen v)
  | .tdirty v i => ((s.screen v).tdirty.getD i 0).zeroExtend 32
  | .bdirty v i => ((s.screen v).bdirty.getD i 0).zeroExtend 32
  | .roomPal c => (s.roomPal[c.toNat]'c.isLt).zeroExtend 32
  | .verbPal c => (s.verbPal[c.toNat]'c.isLt).zeroExtend 32
  | .pal16 c => (s.pal16[c.toNat]'c.isLt).zeroExtend 32
  | .reserved => 0

/-- What a host write to a register other than `CMD` does: a writable register takes the value cut to its width, every
other write is ignored (10_state.md R27, R31). `CMD` is in `Fetch`. -/
def writeRegister (s : State) (r : Register) (w : Word) : State :=
  match r with
  | .cmd => s
  | .status => s
  | .result => s
  | .faultInfo => s
  | .ctrl => s.setCtrl w
  | .operand i => { s with a := s.a.set i.val w }
  | .width _ => s
  | .height _ => s
  | .pitch _ => s
  | .bpp _ => s
  | .xstart v => s.setScreen v { s.screen v with xstart := w.truncate 16 }
  | .pix _ => s
  | .back _ => s
  | .flags _ => s
  | .tdirty _ _ => s
  | .bdirty _ _ => s
  | .roomPal c => { s with roomPal := s.roomPal.set c.toNat (w.truncate 8) c.isLt }
  | .verbPal c => { s with verbPal := s.verbPal.set c.toNat (w.truncate 8) c.isLt }
  | .pal16 c => { s with pal16 := s.pal16.set c.toNat (w.truncate 16) c.isLt }
  | .reserved => s

/-- A store of the host to memory, which every later read of the unit sees (20_memory.md R54); a byte outside `MemMap` is
dropped (R57). Addresses have `AW` bits (R40); that an address past them is taken modulo `2^AW` is a DESIGN CHOICE
(log 9). -/
def hostStore (s : State) (addr : Nat) (v : Byte) : State :=
  if mapped s.par (addr % 2 ^ s.par.addressBits) then
    { s with mem := writeByte s.mem (addr % 2 ^ s.par.addressBits) v }
  else s

end Sys2Proof.Machine
end

