-- ==== Sys2Proof/Machine/Fetch.lean ====
section
/-! DEFINITION. Where the next instruction comes from: the host's next action, or, inside a decode, the stream
(spec/10_state.md R12, R14, R15; 70_reset_and_hazards.md R218). -/

namespace Sys2Proof.Machine

/-- What a step finds to do. -/
inductive Fetched where
  /-- run an instruction at a state -/
  | run (i : Instr) (s : State)
  /-- nothing to run: the step ends at a state -/
  | done (s : State)
  /-- the fetch itself stops -/
  | stop (e : Stop)
  deriving DecidableEq, Repr

/-- A write to `CMD`: ignored while `STATUS.FAULT` is 1, else the command the word encodes, or `IllegalCommand` with the
word (10_state.md R12; 30_encoding.md R62; 60_exceptions.md R195). -/
def issueCommand (s : State) (w : Word) : Fetched :=
  if s.fault then .done s
  else
    match decodeCommand w with
    | some i => .run i s
    | none => .done (s.raised .illegalCommand w)

/-- One action of the host (70_reset_and_hazards.md R218). -/
def hostAct (s : State) (act : HostAction) : Fetched :=
  match act with
  | .reset => .done s.resetUnit
  | .write offset w =>
    if registerAt s.par.maxStrips offset.toNat = .cmd then issueCommand s w
    else .done (writeRegister s (registerAt s.par.maxStrips offset.toNat) w)
  | .read offset => .done { s with readData := readRegister s (registerAt s.par.maxStrips offset.toNat) }
  | .store addr v => .done (hostStore s addr v)

/-- Inside a decode the next code of the stream; between commands the host's next action; with none pending the unit does
nothing (70_reset_and_hazards.md R211). -/
def fetchInstr (s : State) : Fetched :=
  match s.dec with
  | some _ =>
    match fetchCode.run s with
    | .ok (i, t) => .run i t
    | .error e => .stop e
  | none =>
    match s.inbox with
    | [] => .done s
    | act :: rest => hostAct { s with inbox := rest } act

/-- A command word as the host's next action, to a unit that is not faulted and runs nothing. -/
def placeCommand (s : State) (w : Nat) : State :=
  { s with dec := none, fault := false, inbox := .write 0 (BitVec.ofNat 32 w) :: s.inbox }

/-- A byte as the descriptor that DECODE_STRIP is about to read, at the address in `A2`, for a strip of at least one row
(log 5). -/
def placeDescriptor (s : State) (w : Nat) : State :=
  let src := s.addrOperand 2
  { s with
    mem := writeByte s.mem src (BitVec.ofNat 8 w)
    dec := some (newDecode .descriptor (s.screen 0).format (s.addrOperand 0) (s.countOperand 1) src
      (max 1 (s.countOperand 3))) }

/-- The first `nbits` bits of `w`, stored where the next step fetches (log 5). -/
def placeWord (s : State) (nbits w : Nat) : State :=
  if nbits ≤ 8 then placeDescriptor s (w % 2 ^ nbits) else placeCommand s (w % 2 ^ nbits)

end Sys2Proof.Machine
end

