-- ==== Sys2Proof/Machine/Step.lean ====
section
/-! DEFINITION. One step of the machine (spec/10_state.md R12, 70_reset_and_hazards.md R218). -/

namespace Sys2Proof.Machine

/-- One step: the host's next action, a whole command included (10_state.md R12); or, at a state inside a decode, one
code of its stream. -/
def step (s : State) : Host.Outcome State Fault Refusal :=
  match fetchInstr s with
  | .run i t => exec i t
  | .done t => .next t
  | .stop e => stopOutcome e

/-- The state with one instruction's bits where the next step fetches (log 5). -/
def State.withFetchWord (s : State) (nbits w : Nat) : State := placeWord s nbits w

end Sys2Proof.Machine
end

