-- ==== Sys2Proof/Machine/HostProgram.lean ====
section
/-! DEFINITION. How a host writes a command down: the assembler's expansion and the two pseudo-commands, as lists of host
actions (spec/30_encoding.md R79, R80). None of it is a command of the unit. (log 27) -/

namespace Sys2Proof.Machine

/-- `SETA i, value` (30_encoding.md R79). -/
def setOperand (i : Nat) (value : Word) : HostAction := .write (BitVec.ofNat 32 (0x020 + 4 * i)) value

/-- The word of a command (30_encoding.md R60). -/
def wordOf (c : Instr) : Word := BitVec.ofNat 32 (natOfBits (encode c))

/-- `MNEMONIC.v name=value, …`: one write per operand in the order of the table, then the command word
(30_encoding.md R79). -/
def issue (c : Instr) (operands : List Word) : List HostAction :=
  (operands.zipIdx.map fun x => setOperand x.2 x.1) ++ [.write 0 (wordOf c)]

/-- `MARK_STRIP.v s, top, bottom` (30_encoding.md R80). -/
def markStrip (v : BitVec 2) (s top bottom : Nat) : List HostAction :=
  issue (.markDirty v) [BitVec.ofNat 32 (8 * s), BitVec.ofNat 32 (8 * s + 7), BitVec.ofNat 32 top, BitVec.ofNat 32 bottom]

/-- Step 4 of DRAW_STRIP for one mask plane: whether it merges, the byte of the plane for the strip's first row, the
stream; the stride is `nstrips(v)` (30_encoding.md R80). -/
def drawMask (x : VScreen) (height : Nat) (plane : Bool × Word × Word) : List HostAction :=
  issue (if plane.1 then .decodeMaskOr 0 else .decodeMask 0)
    [plane.2.1, BitVec.ofNat 32 (stripCount x), plane.2.2, BitVec.ofNat 32 height]

/-- `DRAW_STRIP.v s, top, height, table, offw, count, limit`, for a host that finds `off` in `RESULT` after step 2
(30_encoding.md R80, 44_compositor.md R170). -/
def drawStrip (par : Params) (v : BitVec 2) (x : VScreen) (s top height table offw count limit off : Nat)
    (planes : List (Bool × Word × Word)) : List HostAction :=
  if height = 0 then []
  else
    let dst := if x.hasBack then backAddr par x (8 * s : Nat) top else pixAddr par x (8 * s : Nat) top
    issue (.stripLookup 0)
        [BitVec.ofNat 32 table, BitVec.ofNat 32 s, BitVec.ofNat 32 offw, BitVec.ofNat 32 count, BitVec.ofNat 32 limit]
      ++ issue (.decodeStrip v) [BitVec.ofNat 32 dst, x.pitch, BitVec.ofNat 32 (table + off), BitVec.ofNat 32 height]
      ++ planes.flatMap (drawMask x height)
      ++ issue (.composeStrip v) [BitVec.ofNat 32 s, BitVec.ofNat 32 top, BitVec.ofNat 32 height]
      ++ markStrip v s top (top + height)

end Sys2Proof.Machine
end

