-- ==== Sys2Proof/Safety.lean ====
section
/-! DEFINITION. The terms in which claims are made: what a good state is, what a command leaves alone, what memory holds
after a list of writes, what a stream stands for, and the duties of a program (spec/10_state.md R21, R26;
40_bitmap_codec.md R91; 41_mask_codec.md R131; 70_reset_and_hazards.md R216). -/

namespace Sys2Proof.Machine

/-! Good states -/

/-- The geometry of a valid screen (10_state.md R21). -/
def screenGeometry (maxStrips : Nat) (x : VScreen) : Prop :=
  x.width.toNat % 8 = 0 ∧ stripCount x ≤ maxStrips ∧ x.width.toNat * bytesPerPixel x.format ≤ x.pitch.toNat

/-- The dirty invariant of a strip: clean, or `0 <= TDIRTY <= BDIRTY <= H` (10_state.md R26). -/
def stripSpanOk (x : VScreen) (i : Nat) : Prop :=
  (x.tdirty.getD i 0 = x.height ∧ x.bdirty.getD i 0 = 0)
    ∨ ((x.tdirty.getD i 0).toNat ≤ (x.bdirty.getD i 0).toNat ∧ (x.bdirty.getD i 0).toNat ≤ x.height.toNat)

/-- A screen as the unit keeps it: the arrays have their capacity (10_state.md R25), and where the screen is valid R21
and R26 hold. -/
def screenOk (maxStrips : Nat) (x : VScreen) : Prop :=
  x.tdirty.length = maxStrips ∧ x.bdirty.length = maxStrips
    ∧ (x.valid = true → screenGeometry maxStrips x ∧ ∀ i, i < stripCount x → stripSpanOk x i)

/-- A decode in progress has a bit index 0 to 7 (20_memory.md R43) and something left to produce. -/
def decodeOk (d : Decode) : Prop := d.b < 8 ∧ d.k < decodeTotal d

/-- The invariant of the machine: canonical memory, good screens, `CODE` and `FAULT_INFO` 0 until a fault (10_state.md
R17, R18), a code of 60_exceptions.md R190 after it, and a well-formed decode if one is in progress. -/
def goodState (s : State) : Prop :=
  Memory.wf s.mem = true
    ∧ (∀ v : BitVec 2, screenOk s.par.maxStrips (s.screen v))
    ∧ (s.fault = false → s.code = 0 ∧ s.faultInfo = 0)
    ∧ (s.fault = true → s.code ∈ [1#8, 2#8, 4#8, 5#8])
    ∧ (∀ d, s.dec = some d → decodeOk d)

/-! What is left alone -/

/-- Only memory, and the count of free bytes drawn, may differ. -/
def onlyMemory (s t : State) : Prop := t = { s with mem := t.mem, freeCount := t.freeCount }

/-- Only memory, the free-byte count, `RESULT` and the decode in progress may differ. -/
def onlyDecode (s t : State) : Prop :=
  t = { s with mem := t.mem, freeCount := t.freeCount, result := t.result, dec := t.dec }

/-- Only memory, the free-byte count and the dirty arrays of screen `v` may differ. -/
def onlyMemoryAndDirty (v : BitVec 2) (s t : State) : Prop :=
  t = { s.setScreen v { s.screen v with tdirty := (t.screen v).tdirty, bdirty := (t.screen v).bdirty } with
    mem := t.mem, freeCount := t.freeCount }

/-- Every byte whose address does not satisfy `written` reads as before. -/
def sameOutside (written : Nat → Prop) (s t : State) : Prop :=
  ∀ a, ¬ written a → readByte t.mem a = readByte s.mem a

/-- An outcome with its next state changed. -/
def mapNext (f : State → State) (o : Answer) : Answer :=
  match o with
  | .next s => .next (f s)
  | .fault r => .fault r
  | .refused r => .refused r

/-! Memory after writes -/

/-- Memory after a write of one byte, which is dropped outside `MemMap` (20_memory.md R57). -/
def pokeByte (par : Params) (m : Memory) (a : Nat) (v : Byte) : Memory :=
  if mapped par a then writeByte m a v else m

/-- Memory after byte writes at ascending addresses from `a` (20_memory.md R45). -/
def pokeBytes (par : Params) : Memory → Nat → List Byte → Memory
  | m, _, [] => m
  | m, a, v :: vs => pokeBytes par (pokeByte par m a v) (a + 1) vs

/-- The `n` low bytes of a number, least significant first (20_memory.md R41). -/
def bytesOf : Nat → Nat → List Byte
  | 0, _ => []
  | n + 1, v => BitVec.ofNat 8 v :: bytesOf n (v / 2 ^ 8)

/-- The number in the `n` bytes from `a` on, little-endian (20_memory.md R41). -/
def numberAt (m : Memory) (a : Nat) : Nat → Nat
  | 0 => 0
  | n + 1 => (readByte m a).toNat + 2 ^ 8 * numberAt m (a + 1) n

/-- The bytes `writeRoomColor` stores for a colour (40_bitmap_codec.md R94). -/
def colourBytes (s : State) (f : PixelFormat) (c : Byte) : List Byte :=
  match f with
  | .indexed8 => [s.roomPal[c.toNat]'c.isLt]
  | .rgb16 => bytesOf 2 (s.pal16[c.toNat]'c.isLt).toNat

/-- Byte `b` of the palette entry of a colour (40_bitmap_codec.md R94, 20_memory.md R41). -/
def paletteByte (s : State) (f : PixelFormat) (c : Byte) (b : Nat) : Byte :=
  match f with
  | .indexed8 => s.roomPal[c.toNat]'c.isLt
  | .rgb16 => (s.pal16[c.toNat]'c.isLt).extractLsb' (8 * b) 8

/-- Byte `b` of pixel `k` of a strip after the pixel was given colour `c`: the palette entry's, but where `TRANSP_SKIP`
leaves the byte `old` (40_bitmap_codec.md R94, R108). -/
def pixelByte (s : State) (d : Decode) (old : Byte) (c : Byte) (b : Nat) : Byte :=
  if s.par.transpSkip = true ∧ d.transparent = true ∧ c = s.par.transpColour then old else paletteByte s d.format c b

/-- Memory after pixel `k` of a strip took colour `c` (40_bitmap_codec.md R91, R94, R108). -/
def paintPixel (s : State) (d : Decode) (m : Memory) (k : Nat) (c : Byte) : Memory :=
  if skipsStore s.par d c then m else pokeBytes s.par m (pixelAddr d k) (colourBytes s d.format c)

/-- Memory after the pixels from `k` on took the colours of a list, one after the other. -/
def paintPixels (s : State) (d : Decode) : Memory → Nat → List Byte → Memory
  | m, _, [] => m
  | m, k, c :: cs => paintPixels s d (paintPixel s d m k c) (k + 1) cs

/-- The bytes of pixel `k` of a strip. -/
def pixelCovers (d : Decode) (k a : Nat) : Prop :=
  pixelAddr d k ≤ a ∧ a < pixelAddr d k + bytesPerPixel d.format

/-- The bytes of the pixels `k` to `k + n - 1` of a strip. -/
def pixelsCover (d : Decode) (k n a : Nat) : Prop := ∃ j, j < n ∧ pixelCovers d (k + j) a

/-- The pixels `k` to `k + n - 1` of a strip lie inside the address space (93_implementation_defined.md U12). -/
def pixelsFit (par : Params) (d : Decode) (k n : Nat) : Prop :=
  ∀ j, j < n → pixelAddr d (k + j) + bytesPerPixel d.format ≤ 2 ^ par.addressBits

/-- `n` bytes from `a` on lie inside the address space and hold memory. -/
def readable (par : Params) (a n : Nat) : Prop :=
  a + n ≤ 2 ^ par.addressBits ∧ ∀ j, j < n → mapped par (a + j) = true

/-- The address of the pixel in column `c`, row `r` of a screen whose buffer is at `base`, not reduced modulo `2^AW`
(20_memory.md R51). -/
def pixelAt (base : Nat) (x : VScreen) (c r : Nat) : Nat :=
  base + r * x.pitch.toNat + (x.xstart.toNat + c) * bytesPerPixel x.format

/-- The address `a` is one of the `n` bytes of row `y < h` of a block whose rows are `pitch` apart. -/
def blockCovers (dst pitch n h a : Nat) : Prop :=
  ∃ y, y < h ∧ dst + y * pitch ≤ a ∧ a < dst + y * pitch + n

/-- Every row of a block lies inside the address space. -/
def blockFits (par : Params) (dst pitch n h : Nat) : Prop :=
  ∀ y, y < h → dst + y * pitch + n ≤ 2 ^ par.addressBits

/-- Every row of a block lies inside the address space and holds memory. -/
def blockReadable (par : Params) (dst pitch n h : Nat) : Prop :=
  ∀ y, y < h → readable par (dst + y * pitch) n

/-- Two blocks of the same shape have no address in common (70_reset_and_hazards.md R216 e). -/
def blocksDisjoint (dst src pitch n h : Nat) : Prop :=
  ∀ a, blockCovers dst pitch n h a → ¬ blockCovers src pitch n h a

/-- The state after a code has produced `n` pixels or rows and left memory `m`: the decode goes on, or, after the last
of them, ends (40_bitmap_codec.md R92, 10_state.md R15). -/
def afterCode (s : State) (d : Decode) (n : Nat) (m : Memory) : State :=
  if d.k + n < decodeTotal d then { s with mem := m, dec := some { d with k := d.k + n } }
  else ({ s with mem := m } : State).decodeEnded d

/-- The state after a code has produced pixels of these colours. -/
def afterPixels (s : State) (d : Decode) (cs : List Byte) : State :=
  afterCode s d cs.length (paintPixels s d s.mem d.k cs)

/-- Memory after `n` pixels from `k` on were copied from their left neighbours, one after the other
(40_bitmap_codec.md R107). -/
def paintLeft (par : Params) (d : Decode) : Memory → Nat → Nat → Memory
  | m, _, 0 => m
  | m, k, n + 1 =>
    let b := bytesPerPixel d.format
    paintLeft par d (pokeBytes par m (pixelAddr d k) (bytesOf b (numberAt m (pixelAddr d k - b) b))) (k + 1) n

/-! The code tables, written once more from the spec -/

/-- A row of the default `DESC_MAP` (30_encoding.md R67) and the instruction its byte is. -/
structure DescRow where
  value : Nat
  instr : Instr
  family : Family
  order : PixelOrder
  transparent : Bool
  /-- the literal width, for the bit-coded families -/
  shift : Nat
  deriving DecidableEq, Repr

/-- The rows of the default `DESC_MAP` that have no literal width (30_encoding.md R67). -/
def plainRows : List DescRow :=
  [⟨1, .descRaw1, .raw, .row, false, 0⟩, ⟨8, .descRle8_8, .rle8, .row, true, 0⟩,
   ⟨9, .descRle8_9, .rle8, .row, false, 0⟩, ⟨10, .descEgaRle10, .egaRle, .column, false, 0⟩,
   ⟨149, .descRaw149, .raw, .row, true, 0⟩]

/-- The ZIGZAG rows of the default `DESC_MAP` (30_encoding.md R67). -/
def zigzagRows : List DescRow :=
  [⟨14, .descZigzagV14, .zigzag, .column, false, 4⟩, ⟨15, .descZigzagV15, .zigzag, .column, false, 5⟩,
   ⟨16, .descZigzagV16, .zigzag, .column, false, 6⟩, ⟨17, .descZigzagV17, .zigzag, .column, false, 7⟩,
   ⟨18, .descZigzagV18, .zigzag, .column, false, 8⟩, ⟨24, .descZigzagH24, .zigzag, .row, false, 4⟩,
   ⟨25, .descZigzagH25, .zigzag, .row, false, 5⟩, ⟨26, .descZigzagH26, .zigzag, .row, false, 6⟩,
   ⟨27, .descZigzagH27, .zigzag, .row, false, 7⟩, ⟨28, .descZigzagH28, .zigzag, .row, false, 8⟩,
   ⟨34, .descZigzagV34, .zigzag, .column, true, 4⟩, ⟨35, .descZigzagV35, .zigzag, .column, true, 5⟩,
   ⟨36, .descZigzagV36, .zigzag, .column, true, 6⟩, ⟨37, .descZigzagV37, .zigzag, .column, true, 7⟩,
   ⟨38, .descZigzagV38, .zigzag, .column, true, 8⟩, ⟨44, .descZigzagH44, .zigzag, .row, true, 4⟩,
   ⟨45, .descZigzagH45, .zigzag, .row, true, 5⟩, ⟨46, .descZigzagH46, .zigzag, .row, true, 6⟩,
   ⟨47, .descZigzagH47, .zigzag, .row, true, 7⟩, ⟨48, .descZigzagH48, .zigzag, .row, true, 8⟩]

/-- The MAJMIN_RUN rows of the default `DESC_MAP` (30_encoding.md R67). -/
def majminRunRows : List DescRow :=
  [⟨64, .descMajminRun64, .majminRun, .row, false, 4⟩, ⟨65, .descMajminRun65, .majminRun, .row, false, 5⟩,
   ⟨66, .descMajminRun66, .majminRun, .row, false, 6⟩, ⟨67, .descMajminRun67, .majminRun, .row, false, 7⟩,
   ⟨68, .descMajminRun68, .majminRun, .row, false, 8⟩, ⟨84, .descMajminRun84, .majminRun, .row, true, 4⟩,
   ⟨85, .descMajminRun85, .majminRun, .row, true, 5⟩, ⟨86, .descMajminRun86, .majminRun, .row, true, 6⟩,
   ⟨87, .descMajminRun87, .majminRun, .row, true, 7⟩, ⟨88, .descMajminRun88, .majminRun, .row, true, 8⟩,
   ⟨104, .descMajminRun104, .majminRun, .row, false, 4⟩, ⟨105, .descMajminRun105, .majminRun, .row, false, 5⟩,
   ⟨106, .descMajminRun106, .majminRun, .row, false, 6⟩, ⟨107, .descMajminRun107, .majminRun, .row, false, 7⟩,
   ⟨108, .descMajminRun108, .majminRun, .row, false, 8⟩, ⟨124, .descMajminRun124, .majminRun, .row, true, 4⟩,
   ⟨125, .descMajminRun125, .majminRun, .row, true, 5⟩, ⟨126, .descMajminRun126, .majminRun, .row, true, 6⟩,
   ⟨127, .descMajminRun127, .majminRun, .row, true, 7⟩, ⟨128, .descMajminRun128, .majminRun, .row, true, 8⟩]

/-- The MAJMIN_DELTA rows of the default `DESC_MAP` (30_encoding.md R67). -/
def majminDeltaRows : List DescRow :=
  [⟨134, .descMajminDelta134, .majminDelta, .row, false, 4⟩, ⟨135, .descMajminDelta135, .majminDelta, .row, false, 5⟩,
   ⟨136, .descMajminDelta136, .majminDelta, .row, false, 6⟩, ⟨137, .descMajminDelta137, .majminDelta, .row, false, 7⟩,
   ⟨138, .descMajminDelta138, .majminDelta, .row, false, 8⟩, ⟨144, .descMajminDelta144, .majminDelta, .row, true, 4⟩,
   ⟨145, .descMajminDelta145, .majminDelta, .row, true, 5⟩, ⟨146, .descMajminDelta146, .majminDelta, .row, true, 6⟩,
   ⟨147, .descMajminDelta147, .majminDelta, .row, true, 7⟩, ⟨148, .descMajminDelta148, .majminDelta, .row, true, 8⟩]

/-- The rows whose payload is bit-coded (30_encoding.md R70). -/
def bitRows : List DescRow := zigzagRows ++ majminRunRows ++ majminDeltaRows

/-- The 55 rows of the default `DESC_MAP` (30_encoding.md R67). -/
def descriptorRows : List DescRow := plainRows ++ bitRows

/-- The instruction `i` is the descriptor byte `b`: one of the 55 named bytes, or a byte without a name of its own
(30_encoding.md R67, R68). -/
def isDescriptor (i : Instr) (b : Byte) : Prop :=
  (∃ row ∈ descriptorRows, i = row.instr ∧ b.toNat = row.value) ∨ i = .descUnrecognised b

/-- The families whose payload is bit-coded (30_encoding.md R70). -/
def bitFamilies : List Family := [.zigzag, .majminRun, .majminDelta]

/-- The commands that use their `VS` field, but for VS_INIT, with their opcodes (30_encoding.md R61). -/
def screenCommands : List (Nat × (BitVec 2 → Instr)) :=
  [(0x10, .decodeStrip), (0x20, .markDirty), (0x21, .flush), (0x30, .restoreBg), (0x31, .copy8col), (0x32, .clear8col),
   (0x33, .composeStrip), (0x35, .blitMasked), (0x40, .getPixels), (0x41, .getBackPixels)]

/-- The commands that ignore their `VS` field, and VS_INIT, with their opcodes (30_encoding.md R61). -/
def otherCommands : List (Nat × (BitVec 2 → Instr)) :=
  [(0x01, .vsInit), (0x11, .decodeMask), (0x12, .decodeMaskOr), (0x34, .stripLookup)]

/-- The commands with their opcodes (30_encoding.md R61). -/
def commandTable : List (Nat × (BitVec 2 → Instr)) := screenCommands ++ otherCommands

/-- The code space a decode reads next (30_encoding.md R64 to R77). -/
def phaseSpace (d : Decode) : Space :=
  match d.phase with
  | .descriptor => .descriptor
  | .mask _ => .maskControl
  | .rle8 => .rle8Control
  | .ega => .egaControl
  | .zigzag => .zigzag d.shift
  | .majminRun => .majminRun d.shift
  | .majminDelta => .majminDelta d.shift

/-- Whether a decode reads whole bytes next (10_state.md R15). -/
def byteCoded (ph : Phase) : Bool :=
  match ph with
  | .zigzag => false
  | .majminRun => false
  | .majminDelta => false
  | _ => true

/-- The literal width of a bit-coded space; 8 stands in for the others. -/
def spaceWidth (sp : Space) : Nat :=
  match sp with
  | .zigzag shift => shift
  | .majminRun shift => shift
  | .majminDelta shift => shift
  | _ => 8

/-! The register map, written once more from the spec -/

/-- The offset of a register (10_state.md R27). -/
def offsetOf : Register → Nat
  | .cmd => 0x000
  | .status => 0x004
  | .result => 0x008
  | .faultInfo => 0x00C
  | .ctrl => 0x010
  | .operand i => 0x020 + 4 * i.val
  | .width v => 0x100 + 0x40 * v.toNat
  | .height v => 0x104 + 0x40 * v.toNat
  | .pitch v => 0x108 + 0x40 * v.toNat
  | .bpp v => 0x10C + 0x40 * v.toNat
  | .xstart v => 0x110 + 0x40 * v.toNat
  | .pix v => 0x114 + 0x40 * v.toNat
  | .back v => 0x118 + 0x40 * v.toNat
  | .flags v => 0x11C + 0x40 * v.toNat
  | .tdirty v i => 0x1000 + 0x400 * v.toNat + 4 * i
  | .bdirty v i => 0x2000 + 0x400 * v.toNat + 4 * i
  | .roomPal c => 0x3000 + 4 * c.toNat
  | .verbPal c => 0x3400 + 4 * c.toNat
  | .pal16 c => 0x3800 + 4 * c.toNat
  | .reserved => 0

/-- Whether the map has the register: a dirty entry is one of `MAX_STRIPS` and of the window's 256 (10_state.md R27,
log 25). -/
def registerPresent (maxStrips : Nat) : Register → Prop
  | .tdirty _ i => i < maxStrips ∧ i < 256
  | .bdirty _ i => i < maxStrips ∧ i < 256
  | .reserved => False
  | _ => True

/-- What a writable register reads as after a write of `w`; none where the host may not write, or where a write is a
command (10_state.md R19, R27, R31). -/
def writtenValue (w : Word) : Register → Option Word
  | .ctrl => some (w &&& 0x107#32)
  | .operand _ => some w
  | .xstart _ => some (w &&& 0xFFFF#32)
  | .roomPal _ => some (w &&& 0xFF#32)
  | .verbPal _ => some (w &&& 0xFF#32)
  | .pal16 _ => some (w &&& 0xFFFF#32)
  | _ => none

/-! Display events -/

/-- The event of one run of strips of screen `v` whose registers are `x` (42_dirty_tracker.md R144, 44_compositor.md
R168, 20_memory.md R55). -/
def flushEvent (s : State) (v : BitVec 2) (x : VScreen) (r : DirtyRun) : DisplayEvent :=
  let buffer := pixAddr s.par x (8 * r.first : Nat) r.top
  { screen := v, buffer := buffer, pitch := x.pitch.toNat, x := 8 * r.first, y := r.top, w := 8 * r.len,
    h := r.bottom - r.top,
    rows := (List.range (r.bottom - r.top)).map fun y =>
      (List.range (8 * r.len * bytesPerPixel x.format)).map fun j => readByte s.mem (buffer + y * x.pitch.toNat + j) }

/-! What streams stand for -/

/-- The mask bytes of a stream, one a row, `height` of them: the pairs of 30_encoding.md R76 cut at the last row
(41_mask_codec.md R131, R134); none if the list ends first or a count is 0 (R136). The first argument bounds the pairs. -/
def maskRows : Nat → Nat → List Byte → Option (List Byte)
  | _, 0, _ => some []
  | 0, _ + 1, _ => none
  | _ + 1, _ + 1, [] => none
  | fuel + 1, height + 1, c :: rest =>
    let n := c.toNat % 128
    let m := min n (height + 1)
    if n = 0 then none
    else if 128 ≤ c.toNat then
      match rest with
      | [] => none
      | v :: rest' => (maskRows fuel (height + 1 - m) rest').map (List.replicate m v ++ ·)
    else if rest.length < m then none
    else (maskRows fuel (height + 1 - m) (rest.drop m)).map (rest.take m ++ ·)

/-- Memory after the mask bytes of a list went to rows `r` on, `stride` apart; OR keeps the bits already there
(41_mask_codec.md R131, R132). -/
def pokeRows (par : Params) (merge : Bool) (dst stride : Nat) : Memory → Nat → List Byte → Memory
  | m, _, [] => m
  | m, r, v :: vs =>
    pokeRows par merge dst stride
      (pokeByte par m (dst + r * stride) (if merge then readByte m (dst + r * stride) ||| v else v)) (r + 1) vs

/-- The colour and the increment after a ZIGZAG code (30_encoding.md R71). -/
def zigzagAfter (x : Byte × Byte) (i : Instr) : Byte × Byte :=
  match i with
  | .zzLiteral _ value => (value, 0xFF#8)
  | .zzStep => (x.1 + x.2, x.2)
  | .zzTurn => (x.1 - x.2, -x.2)
  | _ => x

/-- The colours of the pixels that follow one another under a list of ZIGZAG codes, the first included
(40_bitmap_codec.md R101, R102). -/
def zigzagColours : Byte × Byte → List Instr → List Byte
  | x, [] => [x.1]
  | x, i :: is => x.1 :: zigzagColours (zigzagAfter x i) is

/-- The count of an EGA_RLE packet, and the bytes after it: the field, or the next byte where the field is 0
(30_encoding.md R75). -/
def egaCount (field : Nat) (bytes : List Byte) : Option (Nat × List Byte) :=
  if field ≠ 0 then some (field, bytes)
  else
    match bytes with
    | [] => none
    | c :: rest => some (c.toNat, rest)

/-- The pixels of the EGA_RLE packet at the front of a list, and the bytes after it: a colour each, or none for a copy of
the left neighbour (30_encoding.md R75, 40_bitmap_codec.md R107). -/
def egaPacketPixels : List Byte → Option (List (Option Byte) × List Byte)
  | [] => none
  | c :: rest =>
    if c.toNat < 128 then
      (egaCount (c.toNat / 16) rest).map fun x => (List.replicate x.1 (some (BitVec.ofNat 8 (c.toNat % 16))), x.2)
    else if c.toNat < 192 then (egaCount (c.toNat % 64) rest).map fun x => (List.replicate x.1 none, x.2)
    else
      match rest with
      | [] => none
      | pair :: rest' => (egaCount (c.toNat % 64) rest').map fun x =>
          ((List.range x.1).map fun z =>
            some (BitVec.ofNat 8 (if z % 2 = 1 then pair.toNat % 16 else pair.toNat / 16)), x.2)

/-- The `room` pixels of an EGA_RLE payload, packet by packet; none if the list ends first or a packet passes the last
pixel (40_bitmap_codec.md R107). The first argument bounds the packets. -/
def egaPixels : Nat → Nat → List Byte → Option (List (Option Byte))
  | _, 0, _ => some []
  | 0, _ + 1, _ => none
  | fuel + 1, room + 1, bytes =>
    match egaPacketPixels bytes with
    | none => none
    | some (ps, rest) =>
      if room + 1 < ps.length then none else (egaPixels fuel (room + 1 - ps.length) rest).map (ps ++ ·)

/-- Memory after the pixels of an EGA_RLE payload from `k` on, one after the other (40_bitmap_codec.md R107). -/
def paintEga (s : State) (d : Decode) : Memory → Nat → List (Option Byte) → Memory
  | m, _, [] => m
  | m, k, some c :: ps => paintEga s d (paintPixel s d m k c) (k + 1) ps
  | m, k, none :: ps => paintEga s d (paintLeft s.par d m k 1) (k + 1) ps

/-- The bits at the bit reader `(p, b)`, least significant bit of each byte first, begin with `bits` (20_memory.md
R43). -/
def bitsAt (m : Memory) (p b : Nat) (bits : List Bool) : Prop :=
  ∀ n, n < bits.length → (readByte m (p + (b + n) / 8)).getLsbD ((b + n) % 8) = bits.getD n false

/-! Duties of a program (70_reset_and_hazards.md R216) -/

/-- R216 a: a destination of `h` rows of `n` bytes stays inside a buffer of `size` bytes at `base`. -/
def insideBuffer (base size dst pitch n h : Nat) : Prop :=
  ∀ a, blockCovers dst pitch n h a → base ≤ a ∧ a < base + size

/-- R216 a for COMPOSE_STRIP: the strip and the rows are on the screen. -/
def stripOnScreen (x : VScreen) (strip top height : Nat) : Prop :=
  8 * strip + 8 ≤ x.width.toNat ∧ top + height ≤ x.height.toNat

/-- R216 d: the scroll offset keeps every row inside its pitch. -/
def scrollOk (x : VScreen) : Prop :=
  (x.xstart.toNat + x.width.toNat) * bytesPerPixel x.format ≤ x.pitch.toNat

/-- R216 e: two ranges of bytes have no address in common. -/
def disjointRanges (a n b m : Nat) : Prop := a + n ≤ b ∨ b + m ≤ a

/-- R216 f: the stride of a mask plane is the strip count of its screen. -/
def strideOk (x : VScreen) (stride : Nat) : Prop := stride = stripCount x

end Sys2Proof.Machine
end

