-- ==== Sys2Proof/Certificates/Slice0/Obligations.lean ====
section
/-! DEFINITION. The statements, from the numbered rules of spec/. The helper definitions they use are in Safety.lean. -/

open Sys2Proof Sys2Proof.Machine

/-! ## Encoding (30_encoding.md) -/

/-- O1. Decoding an encoded well-formed instruction, whatever bits follow, gives it back and leaves the rest: all 88
constructors, every operand, every literal width in use (R60 to R76). -/
def Obligations.DecodeEncode : Prop :=
  ∀ (i : Instr) (shift : Nat) (rest : List Bool), i.wf = true →
    decode (spaceOf shift i) (encode i ++ rest) = .ok (i, rest)

/-- O2. The decoder accepts nothing but encodings: what it answers is well-formed, belongs to the space asked, and encodes
to exactly the bits consumed (R60 to R76). -/
def Obligations.DecodeAcceptsOnlyEncodings : Prop :=
  ∀ (sp : Space) (bs rest : List Bool) (i : Instr), 4 ≤ spaceWidth sp → spaceWidth sp ≤ 8 →
    decode sp bs = .ok (i, rest) →
      i.wf = true ∧ spaceOf (spaceWidth sp) i = sp ∧ encode i ++ rest = bs

/-- O3. Command words of the tables, and control bytes and bit codes of the spec's worked examples, decode to the
instructions they stand for (R60, R61; the stream codes are the spec's default tables, log 13). -/
def Obligations.SpecWordsDecode : Prop :=
  decodeCommand 0x00000210#32 = some (.decodeStrip 2) ∧ decodeCommand 0x00000335#32 = some (.blitMasked 3)
    ∧ decodeMaskControl 0x83#8 = .maskRun 3 ∧ decodeMaskControl 0x02#8 = .maskLit 2
    ∧ decodeRle8Control 0x0B#8 = .rle8Run 5 ∧ decodeRle8Control 0x02#8 = .rle8Lit 1
    ∧ decodeEgaControl 0x35#8 = .egaRun 3 5 ∧ decodeEgaControl 0x83#8 = .egaCopyleft 3
    ∧ decodeEgaControl 0xC4#8 = .egaDither 4
    ∧ decode (.zigzag 4) [true, false, false, true, false, true] = .ok (.zzLiteral 4 10, [])
    ∧ decode (.majminRun 4) ([true, true] ++ [false, false, true] ++ [true, true, false, false, false, false, false, false])
        = .ok (.mmrRun 3, [])
    ∧ decode (.majminDelta 5) [true, true, true, true, true] = .ok (.mmdDelta 7, [])

/-- O4. Each of the 55 bytes of the default `DESC_MAP` decodes to its row's descriptor, and the default table gives it the
row's family, pixel order and `T`; the literal width of a bit-coded row is the decimal units digit; every other byte has no
name and no entry (R65, R67, R68; the table is the spec's default, log 13). -/
def Obligations.DescriptorBytesDecode : Prop :=
  (∀ row ∈ descriptorRows, decodeDescriptor (BitVec.ofNat 8 row.value) = row.instr
    ∧ descEntry Config.params.descMap (BitVec.ofNat 8 row.value)
        = some ⟨BitVec.ofNat 8 row.value, row.family, row.order, row.transparent⟩)
    ∧ (∀ row ∈ bitRows, row.shift = row.value % 10 ∧ literalWidth (BitVec.ofNat 8 row.value) = row.shift)
    ∧ ∀ b : Byte, b.toNat ∉ descriptorRows.map DescRow.value →
        decodeDescriptor b = .descUnrecognised b ∧ descEntry Config.params.descMap b = none

/-! ## Stepping (10_state.md R12, R15; 70_reset_and_hazards.md R218) -/

/-- O5. When the host's next action writes `CMD` of a unit that is not faulted, and the word decodes to `i`, the step is
`exec i`, with that action taken off the host's list (R12; the list is the model's, log 3). -/
def Obligations.StepRunsIssuedCommand : Prop :=
  ∀ (s : State) (w : Word) (rest : List HostAction) (i : Instr),
    s.dec = none → s.fault = false → s.inbox = .write 0 w :: rest →
    decode .command (bitsOf 32 w.toNat) = .ok (i, []) →
      step s = exec i { s with inbox := rest }

/-- O6. Inside a decode, when the bits at the stream cursor are those of a well-formed code `i` of the code table in use,
the step is `exec i` with the cursor moved past exactly those bits: the fetch needs the bytes that hold them and no other
(20_memory.md R43; that a code is a step of its own is the model's choice, log 4). -/
def Obligations.StepRunsStreamCode : Prop :=
  ∀ (s : State) (d : Decode) (i : Instr),
    s.dec = some d → d.b < 8 → (byteCoded d.phase = true → d.b = 0) → i.wf = true → spaceOf d.shift i = phaseSpace d →
    bitsAt s.mem d.p d.b (encode i) → readable s.par d.p ((d.b + (encode i).length + 7) / 8) →
      step s = exec i (s.setDec (some { d with p := d.p + (d.b + (encode i).length) / 8,
                                               b := (d.b + (encode i).length) % 8 }))

/-- O7. A decode command is its checks followed by the codes of its stream, step by step, until no decode is in progress;
where the checks or a step stop, the command stops the same way. What is stated of a single code reaches every decode command
through this (the steps are the model's choice, log 4). -/
def Obligations.DecodeCommandsAreTheirSteps : Prop :=
  ∀ (v : BitVec 2) (s : State),
    ∀ x ∈ [(Instr.decodeStrip v, beginDecodeStrip v), (.decodeMask v, beginDecodeMask false),
        (.decodeMaskOr v, beginDecodeMask true)],
      (∀ t, exec x.1 s = .next t →
        ∃ u n, runM x.2 (s.setDec none) = .next u ∧ core.run n u = .next t ∧ t.dec = none)
      ∧ (∀ r, runM x.2 (s.setDec none) = .fault r → exec x.1 s = .fault r)
      ∧ (∀ r, runM x.2 (s.setDec none) = .refused r → exec x.1 s = .refused r)
      ∧ ∀ u, runM x.2 (s.setDec none) = .next u →
        (u.dec = none → exec x.1 s = .next u)
        ∧ ∀ (n : Nat) (w : State), core.run n u = .next w → w.dec ≠ none →
          (∀ t, step w = .next t → t.dec = none → exec x.1 s = .next t)
          ∧ (∀ r, step w = .fault r → exec x.1 s = .fault r)
          ∧ (∀ r, step w = .refused r → exec x.1 s = .refused r)

/-- O8. What the host's other actions do between commands, what every register reads as, which byte a store changes, and
that with no action pending the unit does nothing (10_state.md R12, R17, R20, R27; 20_memory.md R54, R57;
70_reset_and_hazards.md R211, R218; the list of actions is the model's, log 3; that a store at an address of `2^AW` or more
lands at the address modulo `2^AW` is the model's choice, which R54 and R57 do not say, log 9). -/
def Obligations.HostActionsHappen : Prop :=
  ∀ (s : State) (rest : List HostAction), s.dec = none →
    (s.inbox = [] → step s = .next s)
    ∧ (∀ o w, s.inbox = .write o w :: rest → registerAt s.par.maxStrips o.toNat ≠ .cmd →
        step s = .next (writeRegister { s with inbox := rest } (registerAt s.par.maxStrips o.toNat) w))
    ∧ (∀ o, s.inbox = .read o :: rest →
        step s = .next { s with inbox := rest, readData := readRegister s (registerAt s.par.maxStrips o.toNat) })
    ∧ (readRegister s .cmd = 0 ∧ readRegister s .reserved = 0 ∧ readRegister s .result = s.result
        ∧ readRegister s .faultInfo = s.faultInfo
        ∧ readRegister s .status = (if s.fault then 2#32 else 0#32) + 256#32 * s.code.zeroExtend 32
        ∧ readRegister s .ctrl = s.profile.zeroExtend 32 + (if s.lights then 256#32 else 0#32)
        ∧ (∀ i, readRegister s (.operand i) = s.a[i.val])
        ∧ (∀ c : Byte, readRegister s (.roomPal c) = s.roomPal[c.toNat].zeroExtend 32
            ∧ readRegister s (.verbPal c) = s.verbPal[c.toNat].zeroExtend 32
            ∧ readRegister s (.pal16 c) = s.pal16[c.toNat].zeroExtend 32)
        ∧ ∀ v, let x := s.screen v
            readRegister s (.width v) = x.width.zeroExtend 32 ∧ readRegister s (.height v) = x.height.zeroExtend 32
            ∧ readRegister s (.pitch v) = x.pitch ∧ readRegister s (.xstart v) = x.xstart.zeroExtend 32
            ∧ readRegister s (.bpp v) = (match x.format with | .indexed8 => 1#32 | .rgb16 => 2#32)
            ∧ readRegister s (.pix v) = x.pix ∧ readRegister s (.back v) = x.back
            ∧ readRegister s (.flags v) = (if x.valid then 1#32 else 0#32) + (if x.hasBack then 2#32 else 0#32)
            ∧ ∀ i, readRegister s (.tdirty v i) = (x.tdirty.getD i 0).zeroExtend 32
                ∧ readRegister s (.bdirty v i) = (x.bdirty.getD i 0).zeroExtend 32)
    ∧ ∀ a v, s.inbox = .store a v :: rest →
        let at_ := a % 2 ^ s.par.addressBits
        ∃ t, step s = .next t ∧ t = { s with inbox := rest, mem := t.mem }
          ∧ (mapped s.par at_ = true → Memory.wf s.mem = true → readByte t.mem at_ = v)
          ∧ (mapped s.par at_ = false → t.mem = s.mem)
          ∧ ∀ b, b ≠ at_ → readByte t.mem b = readByte s.mem b

/-! ## Registers (10_state.md R27, R31) -/

/-- O9. A write to a writable register reads back cut to the register's width, every other register reads as before, and
a write to a register that is not writable changes nothing (R19, R27, R31). -/
def Obligations.RegistersReadBack : Prop :=
  ∀ (s : State) (r : Register) (w : Word),
    (∀ x, writtenValue w r = some x → readRegister (writeRegister s r w) r = x)
    ∧ (∀ q, q ≠ r → readRegister (writeRegister s r w) q = readRegister s q)
    ∧ (writtenValue w r = none → writeRegister s r w = s)

/-- O10. The register at an offset is the one the map of R27 lists there, and no other offset has a register (a dirty entry
past the 256 of its window has no offset of its own, log 25). -/
def Obligations.RegisterMapMatches : Prop :=
  ∀ (maxStrips o : Nat) (r : Register), r ≠ .reserved →
    (registerAt maxStrips o = r ↔ registerPresent maxStrips r ∧ offsetOf r = o)

/-! ## Faults and reset (60_exceptions.md, 70_reset_and_hazards.md) -/

/-- O11. R62: a word with a bit of 31:10 set, or with an opcode outside the table, raises `IllegalCommand` with the word;
a command that uses `VS`, but for VS_INIT, and names an invalid screen raises `ConfigError` with its word. -/
def Obligations.IllegalCommandsFault : Prop :=
  (∀ (s : State) (w : Word) (rest : List HostAction),
    s.dec = none → s.fault = false → s.inbox = .write 0 w :: rest →
    (w.toNat / 2 ^ 10 ≠ 0 ∨ w.toNat % 2 ^ 8 ∉ commandTable.map Prod.fst) →
      step s = .next (({ s with inbox := rest } : State).raised .illegalCommand w))
  ∧ (∀ (s : State) (v : BitVec 2), ∀ c ∈ screenCommands, (s.screen v).valid = false →
      exec (c.2 v) s = .next (s.raised .configError (commandWord c.1 v)))

/-- O12. R194: taking a fault writes the code, the info and the fault bit, ends the command, and changes nothing else. -/
def Obligations.FaultEntry : Prop :=
  ∀ (s : State) (c : FaultCode) (info : Word),
    runM (raise c info) s
      = .next { s with code := faultNumber c, faultInfo := info, fault := true, dec := none }
    ∧ statusWord (s.raised c info) = 2#32 + 256#32 * (faultNumber c).zeroExtend 32
    ∧ [faultNumber .unknownDescriptor, faultNumber .offsetOutOfRange, faultNumber .unknownTransition,
        faultNumber .illegalCommand, faultNumber .configError] = [1#8, 2#8, 3#8, 4#8, 5#8]

/-- O13. R195: a faulted unit ignores every write to `CMD`; other register writes and reads work as usual; whatever the
host does but reset, the fault registers keep describing the first fault. -/
def Obligations.FaultedUnitIgnoresCommands : Prop :=
  ∀ (s : State) (rest : List HostAction), s.dec = none → s.fault = true →
    (∀ w, s.inbox = .write 0 w :: rest → step s = .next { s with inbox := rest })
    ∧ (∀ o w, s.inbox = .write o w :: rest → registerAt s.par.maxStrips o.toNat ≠ .cmd →
        step s = .next (writeRegister { s with inbox := rest } (registerAt s.par.maxStrips o.toNat) w))
    ∧ (∀ o, s.inbox = .read o :: rest →
        step s = .next { s with inbox := rest, readData := readRegister s (registerAt s.par.maxStrips o.toNat) })
    ∧ (∀ act t, s.inbox = act :: rest → act ≠ .reset → step s = .next t →
        t.fault = true ∧ t.code = s.code ∧ t.faultInfo = s.faultInfo)

/-- O14. R210: reset between commands sets `STATUS`, `RESULT`, `FAULT_INFO` and every `FLAGS` to 0, `PROFILE` to 0 and
`LIGHTS` to 1, and leaves memory and the display output alone. -/
def Obligations.ResetAction : Prop :=
  ∀ (s : State) (rest : List HostAction), s.dec = none → s.inbox = .reset :: rest →
    ∃ t, step s = .next t ∧ statusWord t = 0 ∧ t.result = 0 ∧ t.faultInfo = 0 ∧ ctrlWord t = 0x100#32
      ∧ (∀ v, flagsWord (t.screen v) = 0) ∧ t.dec = none ∧ t.mem = s.mem ∧ t.display = s.display ∧ t.inbox = rest

/-- O15. R35: the values the spec gives for reset hold in the reset state. -/
def Obligations.ResetValues : Prop :=
  statusWord State.reset = 0 ∧ State.reset.result = 0 ∧ State.reset.faultInfo = 0 ∧ ctrlWord State.reset = 0x100#32
    ∧ (∀ v, flagsWord (State.reset.screen v) = 0) ∧ State.reset.dec = none ∧ State.reset.display = []

/-! ## Invariants and rules of the whole machine -/

/-- O16. The reset state is good. -/
def Obligations.ResetIsGood : Prop := goodState State.reset

/-- O17. Every step from a good state that answers a next state gives a good state: memory keeps its canonical form, the
dirty arrays of valid screens keep R26 and screens keep R21, the fault registers keep R17, R18 and R190, and a decode in
progress has a bit index below 8 and something left to do (that a decode stands in the state, log 4, that memory is a list
in one form and that a dirty array has `MAX_STRIPS` entries, log 25, are the model's choices). -/
def Obligations.StepKeepsGoodState : Prop :=
  ∀ s t : State, goodState s → step s = .next t → goodState t

/-- O18. R12: between commands there is no decode in progress, and a step that starts there ends there. -/
def Obligations.CommandsAreIndivisible : Prop :=
  ∀ s t : State, s.dec = none → step s = .next t → t.dec = none

/-- O19. No instruction writes an operand register, a palette, `CTRL`, or anything of the host's (R11, R28 to R31). -/
def Obligations.ExecKeepsHostRegisters : Prop :=
  ∀ (i : Instr) (s t : State), exec i s = .next t →
    t.a = s.a ∧ t.roomPal = s.roomPal ∧ t.verbPal = s.verbPal ∧ t.pal16 = s.pal16 ∧ t.profile = s.profile
      ∧ t.lights = s.lights ∧ t.inbox = s.inbox ∧ t.readData = s.readData ∧ t.par = s.par

/-- O20. R168: only FLUSH emits display events, and events already emitted are never dropped, merged or reordered. -/
def Obligations.OnlyFlushEmits : Prop :=
  ∀ (i : Instr) (s t : State), exec i s = .next t →
    s.display <+: t.display ∧ ((∀ v, i ≠ .flush v) → t.display = s.display)

/-- O21. R13: the commands that are not DECODE_STRIP, GET_PIXELS, GET_BACK_PIXELS, STRIP_LOOKUP or FLUSH leave `RESULT`
unchanged, and so does every command that faults. -/
def Obligations.ResultWriters : Prop :=
  ∀ (v : BitVec 2) (s t : State), ∀ c ∈ commandTable, exec (c.2 v) s = .next t →
    (c.1 ∉ [0x10, 0x21, 0x34, 0x40, 0x41] → t.result = s.result)
    ∧ (s.fault = false → t.fault = true → t.result = s.result)

/-- O22. R198: an instruction that faults has written nothing: memory, the screens with their dirty arrays, `RESULT` and
the display output are as before. -/
def Obligations.FaultsArePrecise : Prop :=
  ∀ (i : Instr) (s t : State), s.fault = false → exec i s = .next t → t.fault = true →
    t.mem = s.mem ∧ t.screens = s.screens ∧ t.result = s.result ∧ t.display = s.display ∧ t.dec = none

/-- O23. R78, R109 (b): no decode runs out of steps, whatever the stream, the operands and the state (the bound on the steps
is the model's, log 20). -/
def Obligations.DecodesEnd : Prop :=
  ∀ (i : Instr) (s : State), exec i s ≠ .refused .decodeOutOfFuel

/-- O24. R29: no instruction reads `VERB_PAL`: with any other table there it does the same and leaves that table. -/
def Obligations.VerbPalIsUnread : Prop :=
  ∀ (i : Instr) (s : State) (p : Vector Byte 256),
    exec i { s with verbPal := p } = mapNext (fun t => { t with verbPal := p }) (exec i s)

/-! ## Memory (20_memory.md) -/

/-- O25. R41, R45: a number is stored in `n` bytes with the low byte first, reads back as its low `8 * n` bits, and every
byte outside those is as before. -/
def Obligations.StoredNumbersReadBack : Prop :=
  ∀ (s : State) (n a v : Nat), Memory.wf s.mem = true → readable s.par a n →
    ∃ t, StateT.run (store n a v) s = .ok ((), t) ∧ t = { s with mem := t.mem }
      ∧ StateT.run (load n a) t = .ok (v % 2 ^ (8 * n), t)
      ∧ (∀ j, j < n → readByte t.mem (a + j) = BitVec.ofNat 8 (v / 2 ^ (8 * j)))
      ∧ ∀ b, ¬ (a ≤ b ∧ b < a + n) → readByte t.mem b = readByte s.mem b

/-- O26. R57: outside `MemMap` a read gives a free byte and a write is dropped; at the end of the address space both stop
(93_implementation_defined.md U12, log 9). -/
def Obligations.AccessOutsideMemory : Prop :=
  ∀ (s : State) (a : Nat) (v : Byte),
    (a < 2 ^ s.par.addressBits → mapped s.par a = false →
      StateT.run (loadByte a) s = .ok (Config.freeByte s.freeCount, { s with freeCount := s.freeCount + 1 })
      ∧ StateT.run (storeByte a v) s = .ok ((), s))
    ∧ (2 ^ s.par.addressBits ≤ a →
      StateT.run (loadByte a) s = .error (.fault .addressWrap)
      ∧ StateT.run (storeByte a v) s = .error (.fault .addressWrap))

/-! ## Screens (43_virtual_screen.md) -/

/-- O27. R150: VS_INIT with operands that meet the conditions creates the screen, clean or fully dirty as the parameter
says, and changes nothing else; with any other operands it raises `ConfigError` and no screen changes. The buffer addresses are
the operands truncated to `AW` bits (R63; that `PIX` and `BACK` hold them so is the model's reading, log 21). -/
def Obligations.VsInitCreatesScreen : Prop :=
  ∀ (s : State) (v : BitVec 2), (s.screen v).tdirty.length = s.par.maxStrips → (s.screen v).bdirty.length = s.par.maxStrips →
    let W := s.countOperand 0
    let H := s.countOperand 1
    let P := s.countOperand 2
    let B := s.countOperand 3
    if (B = 1 ∨ B = 2) ∧ W ≤ 65535 ∧ H ≤ 65535 ∧ W % 8 = 0 ∧ W / 8 ≤ s.par.maxStrips ∧ W * B ≤ P then
      ∃ x, exec (.vsInit v) s = .next (s.setScreen v x)
        ∧ x.width.toNat = W ∧ x.height.toNat = H ∧ x.pitch.toNat = P ∧ bytesPerPixel x.format = B
        ∧ x.pix.toNat = s.addrOperand 4 ∧ x.back.toNat = s.addrOperand 5 ∧ x.xstart = 0 ∧ x.valid = true
        ∧ x.hasBack = (s.operand 6).getLsbD 0
        ∧ x.tdirty.length = s.par.maxStrips ∧ x.bdirty.length = s.par.maxStrips
        ∧ ∀ i, i < s.par.maxStrips →
          if i < W / 8 then
            (x.tdirty.getD i 0).toNat = (if s.par.initDirty then 0 else H)
              ∧ (x.bdirty.getD i 0).toNat = (if s.par.initDirty then H else 0)
          else x.tdirty.getD i 0 = (s.screen v).tdirty.getD i 0 ∧ x.bdirty.getD i 0 = (s.screen v).bdirty.getD i 0
    else exec (.vsInit v) s = .next (s.raised .configError (commandWord 0x01 v))

/-- O28. R151 to R153: on a valid screen GET_PIXELS and GET_BACK_PIXELS put the address of the pixel, modulo `2^AW`, in
`RESULT` and change nothing else, whatever `AW`, but that of an address past 32 bits they leave a free value (log 30);
GET_BACK_PIXELS computes so without a back buffer too, where the address means nothing to the host (R153;
93_implementation_defined.md U16; the model's reading, log 18). -/
def Obligations.PixelAddresses : Prop :=
  ∀ (s : State) (v : BitVec 2), (s.screen v).valid = true →
    let x := s.screen v
    let offset : Int := s.coordOperand 1 * x.pitch.toNat + (x.xstart.toNat + s.coordOperand 0) * bytesPerPixel x.format
    let pixel := (x.pix.toNat + offset) % (2 : Int) ^ s.par.addressBits
    let back := (x.back.toNat + offset) % (2 : Int) ^ s.par.addressBits
    (∃ w : Word, exec (.getPixels v) s = .next (s.setResult w) ∧ (pixel < 2 ^ 32 → (w.toNat : Int) = pixel))
    ∧ (∃ w : Word, exec (.getBackPixels v) s = .next (s.setResult w) ∧ (back < 2 ^ 32 → (w.toNat : Int) = back))

/-- O29. R154, R156: where a back buffer exists and the lights are on, RESTORE_BG copies the clipped rectangle from the
back buffer byte for byte, marks it, and changes nothing else. -/
def Obligations.RestoreBgCopies : Prop :=
  ∀ (s : State) (v : BitVec 2) (l t r b : Nat),
    let x := s.screen v
    let B := bytesPerPixel x.format
    let dst := pixelAt x.pix.toNat x l t
    let src := pixelAt x.back.toNat x l t
    Memory.wf s.mem = true → x.valid = true → screenGeometry s.par.maxStrips x → x.hasBack = true → s.lights = true →
    (l : Int) = max (s.coordOperand 0) 0 → (t : Int) = max (s.coordOperand 1) 0 →
    (r : Int) = min (s.coordOperand 2) x.width.toNat → (b : Int) = min (s.coordOperand 3) x.height.toNat →
    l < r → t < b →
    blockReadable s.par dst x.pitch.toNat ((r - l) * B) (b - t) →
    blockReadable s.par src x.pitch.toNat ((r - l) * B) (b - t) →
    blocksDisjoint dst src x.pitch.toNat ((r - l) * B) (b - t) →
      ∃ u, exec (.restoreBg v) s = .next u
        ∧ u = { markRegion s v l ((r : Int) - 1) t b with mem := u.mem }
        ∧ (∀ c y j, l ≤ c → c < r → t ≤ y → y < b → j < B →
            readByte u.mem (pixelAt x.pix.toNat x c y + j) = readByte s.mem (pixelAt x.back.toNat x c y + j))
        ∧ sameOutside (blockCovers dst x.pitch.toNat ((r - l) * B) (b - t)) s u

/-- O30. R154, R155: with no back buffer, or with the lights off, RESTORE_BG writes the low `8 * BPP` bits of the fill
colour, little-endian, to every pixel of the clipped rectangle, marks it, and changes nothing else. -/
def Obligations.RestoreBgFills : Prop :=
  ∀ (s : State) (v : BitVec 2) (l t r b : Nat),
    let x := s.screen v
    let B := bytesPerPixel x.format
    let dst := pixelAt x.pix.toNat x l t
    Memory.wf s.mem = true → x.valid = true → screenGeometry s.par.maxStrips x → (x.hasBack = false ∨ s.lights = false) →
    (l : Int) = max (s.coordOperand 0) 0 → (t : Int) = max (s.coordOperand 1) 0 →
    (r : Int) = min (s.coordOperand 2) x.width.toNat → (b : Int) = min (s.coordOperand 3) x.height.toNat →
    l < r → t < b →
    blockReadable s.par dst x.pitch.toNat ((r - l) * B) (b - t) →
      ∃ u, exec (.restoreBg v) s = .next u
        ∧ u = { markRegion s v l ((r : Int) - 1) t b with mem := u.mem }
        ∧ (∀ c y j, l ≤ c → c < r → t ≤ y → y < b → j < B →
            readByte u.mem (pixelAt x.pix.toNat x c y + j) = (s.operand 4).extractLsb' (8 * j) 8)
        ∧ sameOutside (blockCovers dst x.pitch.toNat ((r - l) * B) (b - t)) s u

/-- O31. R155 (c), R167 (h), R192: a RESTORE_BG or a BLIT_MASKED of a rectangle that is empty, or wholly off the screen,
changes nothing and marks nothing. -/
def Obligations.EmptyRectanglesDoNothing : Prop :=
  ∀ (s : State) (v : BitVec 2),
    let x := s.screen v
    x.valid = true →
    ((min (s.coordOperand 2) x.width.toNat ≤ max (s.coordOperand 0) 0
        ∨ min (s.coordOperand 3) x.height.toNat ≤ max (s.coordOperand 1) 0) →
      exec (.restoreBg v) s = .next s)
    ∧ ((min (s.coordOperand 2 + (s.operand 4).toNat % 2 ^ 16) (x.width.toNat : Int) ≤ max (s.coordOperand 2) 0
        ∨ min (s.coordOperand 3 + (s.operand 4).toNat / 2 ^ 16) (x.height.toNat : Int) ≤ max (s.coordOperand 3) 0) →
      exec (.blitMasked v) s = .next s)

/-! ## Dirty tracking (42_dirty_tracker.md) -/

/-- O32. R141, R142: MARK_DIRTY lowers `TDIRTY` to the clipped top and raises `BDIRTY` to the clipped bottom of exactly the
strips whose columns meet the rectangle, and changes nothing else; under `OUTSIDE_RECT_POLICY = clamp` for a rectangle that
is not horizontally off the screen (log 15 has the others). -/
def Obligations.MarkDirtyWidensSpans : Prop :=
  ∀ (s : State) (v : BitVec 2),
    let x := s.screen v
    let left := s.coordOperand 0
    let right := s.coordOperand 1
    let top := s.coordOperand 2
    let bottom := s.coordOperand 3
    let H : Int := x.height.toNat
    x.valid = true → screenOk s.par.maxStrips x →
    (s.par.clampOutside = false ∨ 0 ≤ right ∧ left < (x.width.toNat : Int)) →
      ∃ u ts bs, exec (.markDirty v) s = .next u ∧ u = s.setScreen v { x with tdirty := ts, bdirty := bs }
        ∧ ts.length = s.par.maxStrips ∧ bs.length = s.par.maxStrips
        ∧ ∀ i, i < s.par.maxStrips →
          if i < stripCount x ∧ left ≤ right ∧ top ≤ bottom ∧ left ≤ 8 * i + 7 ∧ 8 * i ≤ right ∧ 0 ≤ bottom ∧ top ≤ H then
            ((ts.getD i 0).toNat : Int) = min ((x.tdirty.getD i 0).toNat : Int) (max top 0)
              ∧ ((bs.getD i 0).toNat : Int) = max ((x.bdirty.getD i 0).toNat : Int) (min bottom H)
          else ts.getD i 0 = x.tdirty.getD i 0 ∧ bs.getD i 0 = x.bdirty.getD i 0

/-- O33. R142 (h): the order of marks does not matter, and a mark is idempotent, under either policy. -/
def Obligations.MarksCommute : Prop :=
  ∀ (s : State) (v w : BitVec 2) (l r t b l' r' t' b' : Int),
    markRegion (markRegion s v l r t b) w l' r' t' b' = markRegion (markRegion s w l' r' t' b') v l r t b
    ∧ markRegion (markRegion s v l r t b) v l r t b = markRegion s v l r t b

/-- O34. R144: on a valid screen whose dirty rectangles the display can read, FLUSH emits one event for each run, with the
bytes memory holds then, leaves every strip clean, puts the number of events in `RESULT`, and changes nothing else. -/
def Obligations.FlushEmitsRuns : Prop :=
  ∀ (s : State) (v : BitVec 2),
    let x := s.screen v
    let runs := coalesce 0 (dirtyPairs x)
    x.valid = true →
    (∀ r ∈ runs, blockReadable s.par (pixAddr s.par x (8 * r.first : Nat) r.top) x.pitch.toNat
      (8 * r.len * bytesPerPixel x.format) (r.bottom - r.top)) →
      exec (.flush v) s = .next { s.setScreen v (cleanScreen x) with
        display := s.display ++ runs.map (flushEvent s v x), result := BitVec.ofNat 32 runs.length }

/-- O35. R145, R147: the rectangles of a FLUSH are runs of strips with one dirty span, ascend without overlapping, cover
every strip that has a dirty span, are maximal, and lie inside the screen; `RESULT` counts them and every strip is left
clean. -/
def Obligations.FlushRectangles : Prop :=
  ∀ (s t : State) (v : BitVec 2),
    let x := s.screen v
    let n := stripCount x
    x.valid = true → screenOk s.par.maxStrips x → exec (.flush v) s = .next t →
      ∃ es, t.display = s.display ++ es ∧ t.result = BitVec.ofNat 32 es.length
        ∧ (∀ e ∈ es, e.screen = v ∧ e.pitch = x.pitch.toNat ∧ e.buffer = pixAddr s.par x (e.x : Nat) (e.y : Nat)
            ∧ 0 < e.w ∧ 0 < e.h ∧ e.x % 8 = 0 ∧ e.w % 8 = 0 ∧ e.x + e.w ≤ x.width.toNat ∧ e.y + e.h ≤ x.height.toNat
            ∧ e.rows.length = e.h ∧ (∀ row ∈ e.rows, row.length = e.w * bytesPerPixel x.format)
            ∧ ∀ i, e.x ≤ 8 * i → 8 * i < e.x + e.w →
                (x.tdirty.getD i 0).toNat = e.y ∧ (x.bdirty.getD i 0).toNat = e.y + e.h)
        ∧ es.Pairwise (fun e f => e.x + e.w ≤ f.x)
        ∧ (∀ i, i < n → stripDirty x i = true → ∃ e ∈ es, e.x ≤ 8 * i ∧ 8 * i < e.x + e.w)
        ∧ (∀ e ∈ es, ∀ f ∈ es, e.x + e.w = f.x → ¬ (e.y = f.y ∧ e.h = f.h))
        ∧ ∀ i, i < n → stripClean (t.screen v) i = true

/-- O36. R146: a FLUSH right after a FLUSH emits nothing, changes no strip, and only sets `RESULT` to 0. -/
def Obligations.FlushTwice : Prop :=
  ∀ (s t : State) (v : BitVec 2), (s.screen v).valid = true → exec (.flush v) s = .next t →
    exec (.flush v) t = .next (t.setResult 0)

/-! ## Compositor (44_compositor.md) -/

/-- O37. R160, R56: COPY8COL changes only the bytes of its destination block; where that does not meet the source and its
rows do not overlap, each of them becomes the byte of the source in the same place. -/
def Obligations.Copy8colCopies : Prop :=
  ∀ (s : State) (v : BitVec 2),
    let n := 8 * bytesPerPixel (s.screen v).format
    let dst := s.addrOperand 0
    let pitch := s.countOperand 1
    let src := s.addrOperand 2
    let h := s.countOperand 3
    (s.screen v).valid = true → blockFits s.par dst pitch n h → blockFits s.par src pitch n h →
      ∃ t, exec (.copy8col v) s = .next t ∧ onlyMemory s t ∧ sameOutside (blockCovers dst pitch n h) s t
        ∧ (Memory.wf s.mem = true → blockReadable s.par dst pitch n h → blockReadable s.par src pitch n h →
            blocksDisjoint dst src pitch n h → n ≤ pitch →
            ∀ y j, y < h → j < n → readByte t.mem (dst + y * pitch + j) = readByte s.mem (src + y * pitch + j))

/-- O38. R161: CLEAR8COL zeroes every byte of its block, and changes nothing else. -/
def Obligations.Clear8colClears : Prop :=
  ∀ (s : State) (v : BitVec 2),
    let n := 8 * bytesPerPixel (s.screen v).format
    let dst := s.addrOperand 0
    let pitch := s.countOperand 1
    let h := s.countOperand 2
    Memory.wf s.mem = true → (s.screen v).valid = true → blockReadable s.par dst pitch n h →
      ∃ t, exec (.clear8col v) s = .next t ∧ t = { s with mem := t.mem }
        ∧ (∀ a, blockCovers dst pitch n h a → readByte t.mem a = 0)
        ∧ sameOutside (blockCovers dst pitch n h) s t

/-- O39. R162: COMPOSE_STRIP does nothing without a back buffer; with one it refreshes the strip from the back buffer where
the lights are on, and clears it where they are off, and changes nothing else. -/
def Obligations.ComposeStripRefreshes : Prop :=
  ∀ (s : State) (v : BitVec 2),
    let x := s.screen v
    let n := 8 * bytesPerPixel x.format
    let pitch := x.pitch.toNat
    let d := pixAddr s.par x (8 * s.countOperand 0 : Nat) (s.countOperand 1)
    let b := backAddr s.par x (8 * s.countOperand 0 : Nat) (s.countOperand 1)
    let h := s.countOperand 2
    x.valid = true →
    (x.hasBack = false → exec (.composeStrip v) s = .next s)
    ∧ (x.hasBack = true → Memory.wf s.mem = true → blockReadable s.par d pitch n h →
        (s.lights = true → blockReadable s.par b pitch n h → blocksDisjoint d b pitch n h → n ≤ pitch →
          ∃ t, exec (.composeStrip v) s = .next t ∧ t = { s with mem := t.mem }
            ∧ (∀ y j, y < h → j < n → readByte t.mem (d + y * pitch + j) = readByte s.mem (b + y * pitch + j))
            ∧ sameOutside (blockCovers d pitch n h) s t)
        ∧ (s.lights = false →
          ∃ t, exec (.composeStrip v) s = .next t ∧ t = { s with mem := t.mem }
            ∧ (∀ a, blockCovers d pitch n h a → readByte t.mem a = 0)
            ∧ sameOutside (blockCovers d pitch n h) s t))

/-- O40. R162: COMPOSE_STRIP is COPY8COL or CLEAR8COL with the addresses computed by the unit, whatever they overlap. -/
def Obligations.ComposeStripIsCopyOrClear : Prop :=
  ∀ (s : State) (v : BitVec 2),
    let x := s.screen v
    let d := BitVec.ofNat 32 (pixAddr s.par x (8 * s.countOperand 0 : Nat) (s.countOperand 1))
    let b := BitVec.ofNat 32 (backAddr s.par x (8 * s.countOperand 0 : Nat) (s.countOperand 1))
    let h := s.operand 2
    x.valid = true → x.hasBack = true → s.par.addressBits ≤ 32 →
      exec (.composeStrip v) s = mapNext (fun t => { t with a := s.a })
        (if s.lights then exec (.copy8col v) { s with a := (((s.a.set 0 d).set 1 x.pitch).set 2 b).set 3 h }
         else exec (.clear8col v) { s with a := ((s.a.set 0 d).set 1 x.pitch).set 2 h })

/-- O41. R157, R216 (a), (d): a COMPOSE_STRIP whose strip and rows are on the screen, and whose scroll offset keeps rows
inside their pitch, writes inside the primary buffer only. -/
def Obligations.ComposeStripStaysInBuffer : Prop :=
  ∀ (s t : State) (v : BitVec 2),
    let x := s.screen v
    x.valid = true → scrollOk x → stripOnScreen x (s.countOperand 0) (s.countOperand 1) (s.countOperand 2) →
    x.pix.toNat + x.pitch.toNat * x.height.toNat ≤ 2 ^ s.par.addressBits → exec (.composeStrip v) s = .next t →
      onlyMemory s t
        ∧ sameOutside (fun a => x.pix.toNat ≤ a ∧ a < x.pix.toNat + x.pitch.toNat * x.height.toNat) s t

/-- O42. R163: STRIP_LOOKUP checks the entry width, then the index, then the offset it reads, each with its own fault, and
otherwise puts the offset in `RESULT`; the `VS` field is ignored but for the word a fault reports. -/
def Obligations.StripLookupChecks : Prop :=
  ∀ (s : State) (v : BitVec 2),
    let width := s.countOperand 2
    let index := s.countOperand 1
    let entry := s.addrOperand 0 + index * width
    let off := numberAt s.mem entry width
    if width ≠ 2 ∧ width ≠ 4 then exec (.stripLookup v) s = .next (s.raised .configError (commandWord 0x34 v))
    else if s.countOperand 3 ≤ index then exec (.stripLookup v) s = .next (s.raised .offsetOutOfRange (s.operand 1))
    else readable s.par entry width →
      if s.countOperand 4 ≤ off then
        exec (.stripLookup v) s = .next (s.raised .offsetOutOfRange (BitVec.ofNat 32 off))
      else exec (.stripLookup v) s = .next (s.setResult (BitVec.ofNat 32 off))

/-- O43. R166, R167: BLIT_MASKED gives each pixel of the clipped rectangle the sprite's pixel, but where that is the key
colour, or where the mask bit is 1, the pixel stays; the whole rectangle is marked; nothing else changes. -/
def Obligations.BlitMaskedSelects : Prop :=
  ∀ (s : State) (v : BitVec 2) (x0 y0 x1 y1 : Nat),
    let x := s.screen v
    let B := bytesPerPixel x.format
    let control := s.operand 7
    let sprite := fun c y : Nat =>
      s.addrOperand 0 + ((y : Int) - s.coordOperand 3).toNat * s.countOperand 1 + ((c : Int) - s.coordOperand 2).toNat * B
    let maskByte := fun c y : Nat => s.addrOperand 5 + y * s.countOperand 6 + (x.xstart.toNat + c) / 8
    let dst := pixelAt x.pix.toNat x x0 y0
    let written := blockCovers dst x.pitch.toNat ((x1 - x0) * B) (y1 - y0)
    Memory.wf s.mem = true → x.valid = true → screenGeometry s.par.maxStrips x →
    (x0 : Int) = max (s.coordOperand 2) 0 → (y0 : Int) = max (s.coordOperand 3) 0 →
    (x1 : Int) = min (s.coordOperand 2 + (s.operand 4).toNat % 2 ^ 16) (x.width.toNat : Int) →
    (y1 : Int) = min (s.coordOperand 3 + (s.operand 4).toNat / 2 ^ 16) (x.height.toNat : Int) →
    x0 < x1 → y0 < y1 →
    blockReadable s.par dst x.pitch.toNat ((x1 - x0) * B) (y1 - y0) →
    (∀ c y, x0 ≤ c → c < x1 → y0 ≤ y → y < y1 →
      readable s.par (sprite c y) B ∧ (∀ j, j < B → ¬ written (sprite c y + j))
        ∧ (control.getLsbD 16 = true → readable s.par (maskByte c y) 1 ∧ ¬ written (maskByte c y))) →
      ∃ u, exec (.blitMasked v) s = .next u
        ∧ u = { markRegion s v x0 ((x1 : Int) - 1) y0 y1 with mem := u.mem }
        ∧ (∀ c y j, x0 ≤ c → c < x1 → y0 ≤ y → y < y1 → j < B →
            readByte u.mem (pixelAt x.pix.toNat x c y + j) =
              if (control.getLsbD 17 = true ∧ numberAt s.mem (sprite c y) B = control.toNat % 2 ^ (8 * B))
                ∨ (control.getLsbD 16 = true
                  ∧ (readByte s.mem (maskByte c y)).getLsbD (7 - (x.xstart.toNat + c) % 8) = true)
              then readByte s.mem (pixelAt x.pix.toNat x c y + j)
              else readByte s.mem (sprite c y + j))
        ∧ sameOutside written s u

/-! ## Masks (41_mask_codec.md) -/

/-- O44. R130 to R135: DECODE_MASK and DECODE_MASK_OR run to the end on every stream that holds the rows asked for and no
zero count, store one byte a row, `stride` apart, overwriting or merging, and change nothing else. -/
def Obligations.MaskDecodesRefine : Prop :=
  ∀ (s : State) (v : BitVec 2) (merge : Bool) (stream rows : List Byte) (fuel : Nat),
    let dst := s.addrOperand 0
    let stride := s.countOperand 1
    let src := s.addrOperand 2
    let h := s.countOperand 3
    maskRows fuel h stream = some rows →
    readable s.par src stream.length → (∀ j, j < stream.length → readByte s.mem (src + j) = stream.getD j 0) →
    (∀ r, r < h → readable s.par (dst + r * stride) 1) →
    (∀ r j, r < h → j < stream.length → dst + r * stride ≠ src + j) →
      exec (if merge then .decodeMaskOr v else .decodeMask v) s
        = .next { s with mem := pokeRows s.par merge dst stride s.mem 0 rows, dec := none }
      ∧ rows.length = h
      ∧ ∀ a, (∀ r, r < h → a ≠ dst + r * stride) →
          readByte (pokeRows s.par merge dst stride s.mem 0 rows) a = readByte s.mem a

/-- O45. R132: a DECODE_MASK_OR done twice leaves the machine as once. The stream, the operands and the memory are those of
O44, and memory has its canonical form. -/
def Obligations.MaskOrTwice : Prop :=
  ∀ (s t : State) (v : BitVec 2) (stream rows : List Byte) (fuel : Nat),
    let dst := s.addrOperand 0
    let stride := s.countOperand 1
    let src := s.addrOperand 2
    let h := s.countOperand 3
    Memory.wf s.mem = true → maskRows fuel h stream = some rows →
    readable s.par src stream.length → (∀ j, j < stream.length → readByte s.mem (src + j) = stream.getD j 0) →
    (∀ r, r < h → readable s.par (dst + r * stride) 1) →
    (∀ r j, r < h → j < stream.length → dst + r * stride ≠ src + j) →
      exec (.decodeMaskOr v) s = .next t → exec (.decodeMaskOr v) t = .next t

/-- O46. R76, R131, R134, R136: what one mask control byte does inside a decode; a count of 0 is refused
(log 11). -/
def Obligations.MaskCodesRun : Prop :=
  ∀ (s : State) (d : Decode) (merge : Bool) (count : BitVec 7),
    let n := min count.toNat (d.height - d.k)
    let value := fun j => readByte s.mem (d.p + j)
    s.dec = some d → d.phase = .mask merge → d.k < d.height →
    (count = 0 → exec (.maskRun count) s = .refused .maskCountZero ∧ exec (.maskLit count) s = .refused .maskCountZero)
    ∧ (count ≠ 0 → (∀ r, r < n → readable s.par (d.dst + (d.k + r) * d.pitch) 1) →
        (readable s.par d.p 1 →
          exec (.maskRun count) s
            = .next (afterCode s { d with p := d.p + 1 } n
                (pokeRows s.par merge d.dst d.pitch s.mem d.k (List.replicate n (value 0)))))
        ∧ (readable s.par d.p n → (∀ r j, r < n → j < n → d.dst + (d.k + r) * d.pitch ≠ d.p + j) →
          exec (.maskLit count) s
            = .next (afterCode s { d with p := d.p + n } n
                (pokeRows s.par merge d.dst d.pitch s.mem d.k ((List.range n).map value))))
        ∧ ∀ a bs, bs.length = n → (∀ r, r < n → a ≠ d.dst + (d.k + r) * d.pitch) →
            readByte (pokeRows s.par merge d.dst d.pitch s.mem d.k bs) a = readByte s.mem a)

/-! ## Strips (40_bitmap_codec.md) -/

/-- O47. R96, R99, R68: on a valid screen DECODE_STRIP checks the profile, then the height, then the descriptor, and stops
at the first that fails: a reserved profile and a descriptor that is not in `DESC_MAP` fault, a height of 0 is refused (where
it stands between the two faults is the model's choice, log 10). -/
def Obligations.DecodeStripChecks : Prop :=
  ∀ (s : State) (v : BitVec 2),
    let src := s.addrOperand 2
    (s.screen v).valid = true →
    if 6 ≤ s.profile.toNat then exec (.decodeStrip v) s = .next (s.raised .illegalCommand (commandWord 0x10 v))
    else if s.countOperand 3 = 0 then exec (.decodeStrip v) s = .refused .heightZero
    else s.profile = 0 ∨ s.profile = 5 → readable s.par src 1 → descEntry s.par.descMap (readByte s.mem src) = none →
        exec (.decodeStrip v) s = .next (s.raised .unknownDescriptor ((readByte s.mem src).zeroExtend 32))

/-- O48. R90 to R94, R108, R109: under Default and HE, DECODE_STRIP of a stream whose descriptor is in `DESC_MAP` ends and
leaves the entry's `T` in `RESULT`. In every family but EGA_RLE, and under a supplied body, it does so whatever the stream
holds: each of the `8 * height` pixels has one colour, in the order of the entry, its bytes are the palette's where the pixels do
not overlap, and nothing else changes. In EGA_RLE it does so on every stream whose packets fit the strip, leaving the pixels the
packets say (the families' bodies are the spec's defaults, log 13; the bound on the stream's address in the first case is the
longest a strip of that height can need). -/
def Obligations.DecodeStripWritesStrip : Prop :=
  ∀ (s : State) (v : BitVec 2) (e : DescEntry),
    let x := s.screen v
    let w := bytesPerPixel x.format
    let h := s.countOperand 3
    let src := s.addrOperand 2
    let d := describedBy (newDecode .descriptor x.format (s.addrOperand 0) (s.countOperand 1) src h) e
    x.valid = true → (s.profile = 0 ∨ s.profile = 5) → 0 < h → readable s.par src 1 →
    descEntry s.par.descMap (readByte s.mem src) = some e → pixelsFit s.par d 0 (8 * h) →
      (e.family ≠ .egaRle ∨ bodySupplied s.par e.family = true → src + 2 + 16 * h ≤ 2 ^ s.par.addressBits →
        ∃ t cs, exec (.decodeStrip v) s = .next t ∧ cs.length = 8 * h
          ∧ t = { s with mem := paintPixels s d s.mem 0 cs, freeCount := t.freeCount,
                         result := transparencyResult e.transparent, dec := none }
          ∧ sameOutside (pixelsCover d 0 (8 * h)) s t
          ∧ (Memory.wf s.mem = true → (8 * w ≤ s.countOperand 1 ∨ h = 1) →
              (∀ k, k < 8 * h → readable s.par (pixelAddr d k) w) →
              ∀ k b, k < 8 * h → b < w → readByte t.mem (pixelAddr d k + b)
                = pixelByte s d (readByte s.mem (pixelAddr d k + b)) (cs.getD k 0) b))
      ∧ (e.family = .egaRle → bodySupplied s.par e.family = false →
        ∀ (fuel : Nat) (stream : List Byte) (pixels : List (Option Byte)), egaPixels fuel (8 * h) stream = some pixels →
          readable s.par (src + 1) stream.length →
          (∀ j, j < stream.length → readByte s.mem (src + 1 + j) = stream.getD j 0) →
          (∀ j, j < stream.length → ¬ pixelsCover d 0 (8 * h) (src + 1 + j)) →
          (∀ k, k < 8 * h → pixels.getD k none = none →
            w ≤ pixelAddr d k ∧ readable s.par (pixelAddr d k - w) w) →
            exec (.decodeStrip v) s = .next { s with mem := paintEga s d s.mem 0 pixels,
                                                     result := transparencyResult e.transparent, dec := none }
            ∧ pixels.length = 8 * h
            ∧ ∀ a, ¬ pixelsCover d 0 (8 * h) a → readByte (paintEga s d s.mem 0 pixels) a = readByte s.mem a)

/-- O49. R91, R109 (a): whatever the family or the profile, DECODE_STRIP changes no byte outside the strip's rows, and
besides memory and the free-byte count only `RESULT`, or the fault registers. -/
def Obligations.DecodeStripFrame : Prop :=
  ∀ (s t : State) (v : BitVec 2), exec (.decodeStrip v) s = .next t →
    t = { s with mem := t.mem, freeCount := t.freeCount, result := t.result, dec := none, fault := t.fault, code := t.code,
                 faultInfo := t.faultInfo }
    ∧ sameOutside (blockCovers (s.addrOperand 0) (s.countOperand 1) (8 * bytesPerPixel (s.screen v).format)
        (s.countOperand 3)) s t

/-- O50. R98: under V1, V2, NES and PCEngine DECODE_STRIP ends with a next state of which R91 holds: where the rows of the
strip hold memory and do not overlap, the bytes of pixel `k` are the low `BPP` bytes of the value the open parameter
`LegacyCodec` gives it, `RESULT` is the flag it gives, and nothing else changes (the values are free, log 8). -/
def Obligations.LegacyProfilesDecode : Prop :=
  ∀ (s : State) (v : BitVec 2),
    let x := s.screen v
    let w := bytesPerPixel x.format
    let dst := s.addrOperand 0
    let pitch := s.countOperand 1
    let h := s.countOperand 3
    let g := legacyArgs s x.format
    x.valid = true → 1 ≤ s.profile.toNat → s.profile.toNat ≤ 4 → 0 < h → blockFits s.par dst pitch (8 * w) h →
      ∃ t, exec (.decodeStrip v) s = .next t
        ∧ t = { s with mem := t.mem, dec := none, result := transparencyResult (Config.legacyFlag g) }
        ∧ sameOutside (blockCovers dst pitch (8 * w) h) s t
        ∧ (Memory.wf s.mem = true → (8 * w ≤ pitch ∨ h = 1) → blockReadable s.par dst pitch (8 * w) h →
            ∀ k b, k < 8 * h → b < w → readByte t.mem (dst + k / 8 * pitch + k % 8 * w + b)
              = (Config.legacyPixel g k).extractLsb' (8 * b) 8)

/-- O51. R69, R100: a descriptor byte that `DESC_MAP` gives the family RAW takes the whole payload, one colour a pixel in the
order of its entry; one whose family has a supplied body gives the pixels the colours of that body, which are free (log 13). -/
def Obligations.WholeStripDescriptors : Prop :=
  ∀ (s : State) (d : Decode) (i : Instr) (b : Byte) (e : DescEntry),
    let n := 8 * d.height - d.k
    let w := describedBy d e
    let raw := { w with p := d.p + n }
    isDescriptor i b → descEntry s.par.descMap b = some e → s.dec = some d → d.phase = .descriptor →
    d.k < 8 * d.height → pixelsFit s.par w d.k n →
      (e.family = .raw → bodySupplied s.par e.family = false → readable s.par d.p n →
        (∀ j, j < n → ¬ pixelsCover w d.k n (d.p + j)) →
        ∃ t, exec i s = .next t ∧ t = afterPixels s raw ((List.range n).map fun j => readByte s.mem (d.p + j))
          ∧ sameOutside (pixelsCover w d.k n) s t)
      ∧ (bodySupplied s.par e.family = true →
        ∃ t, exec i s = .next t
          ∧ t = afterPixels s w ((List.range' d.k n).map
              (Config.suppliedColour e.family e.order (literalWidth b)
                (codecArgs s d.format d.dst d.pitch d.p d.height)))
          ∧ sameOutside (pixelsCover w d.k n) s t)

/-- O52. R67, R68: a descriptor byte that `DESC_MAP` gives the family RLE8 or EGA_RLE only sets the family, the pixel order
and `T`; one that `DESC_MAP` does not hold takes the fault `UnknownDescriptor` with the byte (log 13). -/
def Obligations.OtherDescriptorsStart : Prop :=
  ∀ (s : State) (d : Decode) (i : Instr) (b : Byte), isDescriptor i b → s.dec = some d → d.phase = .descriptor →
    d.k < 8 * d.height →
      (∀ e, descEntry s.par.descMap b = some e → (e.family = .rle8 ∨ e.family = .egaRle) →
        bodySupplied s.par e.family = false → exec i s = .next (s.setDec (some (describedBy d e))))
      ∧ (descEntry s.par.descMap b = none → exec i s = .next (s.raised .unknownDescriptor (b.zeroExtend 32)))

/-- O53. R70, R101: a descriptor byte that `DESC_MAP` gives a bit-coded family reads the initial colour, gives it to the
first pixel, and leaves the bit reader at the byte after it, the increment at -1 (log 13). -/
def Obligations.BitDescriptorsStart : Prop :=
  ∀ (s : State) (d : Decode) (i : Instr) (b : Byte) (e : DescEntry),
    let c := readByte s.mem d.p
    let w := { describedBy d e with p := d.p + 1, colour := c, inc := 0xFF#8 }
    isDescriptor i b → descEntry s.par.descMap b = some e → e.family ∈ bitFamilies →
    bodySupplied s.par e.family = false → s.dec = some d → d.phase = .descriptor → d.k < 8 * d.height →
    readable s.par d.p 1 → pixelsFit s.par w d.k 1 →
      ∃ t, exec i s = .next t ∧ t = afterPixels s w [c] ∧ sameOutside (pixelsCover w d.k 1) s t

/-- O54. R71, R102, R103: each ZIGZAG code gives the next pixel the colour the table says and leaves the increment the
table says (log 13). -/
def Obligations.ZigzagCodesRun : Prop :=
  ∀ (s : State) (d : Decode) (i : Instr),
    let next := zigzagAfter (d.colour, d.inc) i
    let d' := { d with colour := next.1, inc := next.2 }
    (i = .zzKeep ∨ (∃ shift value, i = .zzLiteral shift value) ∨ i = .zzStep ∨ i = .zzTurn) →
    s.dec = some d → d.phase = .zigzag → d.k < 8 * d.height → pixelsFit s.par d d.k 1 →
      ∃ t, exec i s = .next t ∧ t = afterPixels s d' [next.1] ∧ sameOutside (pixelsCover d d.k 1) s t

/-- O55. R72, R104: each MAJMIN_RUN code gives the next pixel the colour the table says, or, for a run, the next `n` pixels
(256 for 0) the colour there is, cut at the end of the strip (log 13). -/
def Obligations.MajminRunCodesRun : Prop :=
  ∀ (s : State) (d : Decode), s.dec = some d → d.phase = .majminRun → d.k < 8 * d.height →
    (∀ i c, (i = .mmrKeep ∧ c = d.colour ∨ (∃ shift, i = .mmrLiteral shift c)
          ∨ ∃ v : BitVec 3, i = .mmrDelta v ∧ c = d.colour + BitVec.ofInt 8 ((v.toNat : Int) - 4)) →
        pixelsFit s.par d d.k 1 →
        ∃ t, exec i s = .next t ∧ t = afterPixels s { d with colour := c } [c] ∧ sameOutside (pixelsCover d d.k 1) s t)
    ∧ ∀ n : Byte,
        let reps := min (if n = 0 then 256 else n.toNat) (8 * d.height - d.k)
        pixelsFit s.par d d.k reps →
        ∃ t, exec (.mmrRun n) s = .next t ∧ t = afterPixels s d (List.replicate reps d.colour)
          ∧ sameOutside (pixelsCover d d.k reps) s t

/-- O56. R73, R105: each MAJMIN_DELTA code gives the next pixel the colour the table says (log 13). -/
def Obligations.MajminDeltaCodesRun : Prop :=
  ∀ (s : State) (d : Decode) (i : Instr) (c : Byte),
    (i = .mmdKeep ∧ c = d.colour ∨ (∃ shift, i = .mmdLiteral shift c)
      ∨ ∃ j : BitVec 3, i = .mmdDelta j
          ∧ c = d.colour + BitVec.ofInt 8 (([-4, -3, -2, -1, 1, 2, 3, 4] : List Int).getD j.toNat 0)) →
    s.dec = some d → d.phase = .majminDelta → d.k < 8 * d.height → pixelsFit s.par d d.k 1 →
      ∃ t, exec i s = .next t ∧ t = afterPixels s { d with colour := c } [c] ∧ sameOutside (pixelsCover d d.k 1) s t

/-- O57. R74, R106: an RLE8 run gives one colour byte to `LEN + 1` pixels, a literal packet `LEN + 1` colour bytes to as
many pixels, both cut at the end of the strip with no byte read beyond the need (log 13). -/
def Obligations.Rle8CodesRun : Prop :=
  ∀ (s : State) (d : Decode) (len : BitVec 7),
    let n := min (len.toNat + 1) (8 * d.height - d.k)
    s.dec = some d → d.phase = .rle8 → d.k < 8 * d.height → pixelsFit s.par d d.k n →
    (readable s.par d.p 1 →
      ∃ t, exec (.rle8Run len) s = .next t
        ∧ t = afterPixels s { d with p := d.p + 1 } (List.replicate n (readByte s.mem d.p))
        ∧ sameOutside (pixelsCover d d.k n) s t)
    ∧ (readable s.par d.p n → (∀ j, j < n → ¬ pixelsCover d d.k n (d.p + j)) →
      ∃ t, exec (.rle8Lit len) s = .next t
        ∧ t = afterPixels s { d with p := d.p + n } ((List.range n).map fun j => readByte s.mem (d.p + j))
        ∧ sameOutside (pixelsCover d d.k n) s t)

/-- O58. R75, R107: an EGA_RLE packet that fits the strip writes its pixels: one colour, two alternating colours, or copies
of the left neighbours; a count field of 0 takes the next byte as the count; a packet that would pass the end of the strip is
refused (93_implementation_defined.md U6, log 12; the packets are the spec's defaults, log 13). -/
def Obligations.EgaCodesRun : Prop :=
  ∀ (s : State) (d : Decode),
    let byte := fun j => readByte s.mem (d.p + j)
    let count := fun (field at_ : Nat) => if field = 0 then (byte at_).toNat else field
    let more := fun field : Nat => if field = 0 then 1 else 0
    let room := 8 * d.height - d.k
    s.dec = some d → d.phase = .ega → d.k < 8 * d.height →
    (∀ (f : BitVec 3) (colour : BitVec 4), readable s.par d.p (more f.toNat) →
      let n := count f.toNat 0
      let d' := { d with p := d.p + more f.toNat }
      if n ≤ room then pixelsFit s.par d d.k n →
        ∃ t, exec (.egaRun f colour) s = .next t ∧ t = afterPixels s d' (List.replicate n (colour.zeroExtend 8))
          ∧ sameOutside (pixelsCover d d.k n) s t
      else exec (.egaRun f colour) s = .refused .egaOverrun)
    ∧ (∀ f : BitVec 6, readable s.par d.p (more f.toNat) →
      let n := count f.toNat 0
      let d' := { d with p := d.p + more f.toNat }
      let w := bytesPerPixel d.format
      if n ≤ room then
        (∀ j, j < n → w ≤ pixelAddr d (d.k + j) ∧ readable s.par (pixelAddr d (d.k + j) - w) (2 * w)) →
        ∃ t, exec (.egaCopyleft f) s = .next t ∧ t = afterCode s d' n (paintLeft s.par d s.mem d.k n)
          ∧ sameOutside (pixelsCover d d.k n) s t
      else exec (.egaCopyleft f) s = .refused .egaOverrun)
    ∧ (∀ f : BitVec 6, readable s.par d.p (1 + more f.toNat) →
      let n := count f.toNat 1
      let d' := { d with p := d.p + 1 + more f.toNat }
      if n ≤ room then pixelsFit s.par d d.k n →
        ∃ t, exec (.egaDither f) s = .next t
          ∧ t = afterPixels s d' ((List.range n).map fun z =>
              BitVec.ofNat 8 (if z % 2 = 1 then (byte 0).toNat % 16 else (byte 0).toNat / 16))
          ∧ sameOutside (pixelsCover d d.k n) s t
      else exec (.egaDither f) s = .refused .egaOverrun)

/-- O59. R101 to R103, end to end: a strip whose stream is a descriptor that `DESC_MAP` gives the family ZIGZAG, an initial
colour and the encodings of `8 * height - 1` codes decodes to exactly the colours those codes stand for, in the entry's order
(log 13). -/
def Obligations.ZigzagStripDecodes : Prop :=
  ∀ (s : State) (v : BitVec 2) (e : DescEntry) (codes : List Instr),
    let x := s.screen v
    let h := s.countOperand 3
    let src := s.addrOperand 2
    let d := describedBy (newDecode .descriptor x.format (s.addrOperand 0) (s.countOperand 1) src h) e
    let bits := codes.flatMap encode
    let size := 2 + (bits.length + 7) / 8
    descEntry s.par.descMap (readByte s.mem src) = some e → e.family = .zigzag → bodySupplied s.par e.family = false →
    (∀ i ∈ codes, i.wf = true ∧ spaceOf d.shift i = .zigzag d.shift) → codes.length + 1 = 8 * h →
    x.valid = true → (s.profile = 0 ∨ s.profile = 5) → readable s.par src size → bitsAt s.mem (src + 2) 0 bits →
    pixelsFit s.par d 0 (8 * h) → (∀ j, j < size → ¬ pixelsCover d 0 (8 * h) (src + j)) →
      exec (.decodeStrip v) s = .next
        { s with mem := paintPixels s d s.mem 0 (zigzagColours (readByte s.mem (src + 1), 0xFF#8) codes),
                 result := transparencyResult e.transparent, dec := none }

/-- O60. R91, R94, R100, R108: a pixel of a strip takes the palette entry of its colour, `BPP` bytes of it, but where
`TRANSP_SKIP` leaves it as it was, and no other byte changes; and so, end to end, DECODE_STRIP of a RAW stream leaves in every
pixel the palette entry of its payload byte (log 13). -/
def Obligations.StripPixelsTakeTheirColours : Prop :=
  (∀ (s : State) (d : Decode) (c : Byte) (k : Nat),
    let w := bytesPerPixel d.format
    Memory.wf s.mem = true → readable s.par (pixelAddr d k) w →
      ∃ t, StateT.run (putPixel d c k) s = .ok ((), t) ∧ t = { s with mem := t.mem }
        ∧ (∀ b, b < w → readByte t.mem (pixelAddr d k + b) = pixelByte s d (readByte s.mem (pixelAddr d k + b)) c b)
        ∧ sameOutside (pixelCovers d k) s t)
  ∧ ∀ (s : State) (v : BitVec 2) (e : DescEntry),
    let x := s.screen v
    let w := bytesPerPixel x.format
    let h := s.countOperand 3
    let src := s.addrOperand 2
    let d := describedBy (newDecode .descriptor x.format (s.addrOperand 0) (s.countOperand 1) src h) e
    descEntry s.par.descMap (readByte s.mem src) = some e → e.family = .raw → bodySupplied s.par e.family = false →
    x.valid = true → (s.profile = 0 ∨ s.profile = 5) → 0 < h → Memory.wf s.mem = true →
    (8 * w ≤ s.countOperand 1 ∨ h = 1) → readable s.par src (1 + 8 * h) →
    (∀ k, k < 8 * h → readable s.par (pixelAddr d k) w) →
    (∀ j, j < 8 * h → ¬ pixelsCover d 0 (8 * h) (src + 1 + j)) →
      ∃ t, exec (.decodeStrip v) s = .next t
        ∧ t = { s with mem := t.mem, result := transparencyResult e.transparent, dec := none }
        ∧ (∀ k b, k < 8 * h → b < w → readByte t.mem (pixelAddr d k + b)
            = pixelByte s d (readByte s.mem (pixelAddr d k + b)) (readByte s.mem (src + 1 + k)) b)
        ∧ sameOutside (pixelsCover d 0 (8 * h)) s t
end

