-- ==== Sys2Proof/Laws/Run.lean ====
section
/-! SUPPORT. How computations over the state run: sequencing, branching, loops; what a computation keeps; and when it
answers. -/

namespace Sys2Proof.Machine

variable {α β : Type}

/-! One run -/

@[simp] theorem run_pure (x : α) (s : State) : StateT.run (pure x : M α) s = .ok (x, s) := rfl

@[simp] theorem run_get (s : State) : StateT.run (get : M State) s = .ok (s, s) := rfl

@[simp] theorem run_modify (f : State → State) (s : State) : StateT.run (modify f : M Unit) s = .ok ((), f s) := rfl

@[simp] theorem run_throw (e : Stop) (s : State) : StateT.run (throw e : M α) s = .error e := rfl

theorem run_bind (m : M α) (f : α → M β) (s : State) :
    StateT.run (m >>= f) s = match StateT.run m s with | .ok (x, t) => StateT.run (f x) t | .error e => .error e := by
  show Except.bind _ _ = _
  unfold Except.bind
  cases h : m s with
  | ok r => simp [StateT.run, h]
  | error e => simp [StateT.run, h]

@[simp] theorem run_get_bind (f : State → M β) (s : State) : StateT.run (get >>= f) s = StateT.run (f s) s := rfl

@[simp] theorem run_pure_bind (x : α) (f : α → M β) (s : State) :
    StateT.run ((pure x : M α) >>= f) s = StateT.run (f x) s := rfl

@[simp] theorem run_modify_bind (g : State → State) (f : Unit → M β) (s : State) :
    StateT.run ((modify g : M Unit) >>= f) s = StateT.run (f ()) (g s) := rfl

theorem run_bind_ok {m : M α} {s t : State} {x : α} (h : StateT.run m s = .ok (x, t)) (f : α → M β) :
    StateT.run (m >>= f) s = StateT.run (f x) t := by
  rw [run_bind, h]

/-- A sequence that answers went through an answer of its first part. -/
theorem run_bind_inv {m : M α} {f : α → M β} {s u : State} {y : β} (h : StateT.run (m >>= f) s = .ok (y, u)) :
    ∃ x t, StateT.run m s = .ok (x, t) ∧ StateT.run (f x) t = .ok (y, u) := by
  rw [run_bind] at h
  split at h
  · next x t hm => exact ⟨x, t, hm, h⟩
  · cases h

theorem runM_eq_next {m : M Unit} {s t : State} : runM m s = .next t ↔ StateT.run m s = .ok ((), t) := by
  rw [runM]
  split
  · next u hu => rw [hu]; simp
  · next e he => rw [he]; simp [stopOutcome]; cases e <;> simp

theorem runM_of_ok {m : M Unit} {s t : State} (h : StateT.run m s = .ok ((), t)) : runM m s = .next t :=
  runM_eq_next.mpr h

theorem runM_of_error {m : M Unit} {s : State} {e : Stop} (h : StateT.run m s = .error e) : runM m s = stopOutcome e := by
  rw [runM, h]

@[simp] theorem stopOutcome_ne_next (e : Stop) (t : State) : stopOutcome e ≠ .next t := by
  cases e <;> simp [stopOutcome]

theorem andThen_eq_next {o : Answer} {f : State → Answer} {t : State} :
    andThen o f = .next t ↔ ∃ s, o = .next s ∧ f s = .next t := by
  cases o <;> simp [andThen]

@[simp] theorem andThen_next (s : State) (f : State → Answer) : andThen (.next s) f = f s := rfl

/-! What a computation keeps: every answer is related to the state it started from. -/

/-- Every answer of `m` is related by `R` to the state `m` started from. -/
def Keeps (R : State → State → Prop) (m : M α) : Prop := ∀ s x t, StateT.run m s = .ok (x, t) → R s t

/-- A relation that a sequence of computations may keep. -/
structure Frame (R : State → State → Prop) : Prop where
  refl : ∀ s, R s s
  trans : ∀ {s t u}, R s t → R t u → R s u

/-- Equality of one part of the state is a frame. -/
theorem frame_part {γ : Type} (f : State → γ) : Frame (fun s t => f t = f s) :=
  ⟨fun _ => rfl, fun h g => g.trans h⟩

theorem Frame.and {R Q : State → State → Prop} (hR : Frame R) (hQ : Frame Q) : Frame (fun s t => R s t ∧ Q s t) :=
  ⟨fun s => ⟨hR.refl s, hQ.refl s⟩, fun h g => ⟨hR.trans h.1 g.1, hQ.trans h.2 g.2⟩⟩

/-- A property that holds after whenever it held before is a frame. -/
theorem frame_invariant (P : State → Prop) : Frame (fun s t => P s → P t) :=
  ⟨fun _ h => h, fun h g hs => g (h hs)⟩

section
variable {R : State → State → Prop}

theorem keeps_pure (hR : Frame R) (x : α) : Keeps R (pure x : M α) := by
  intro s y t h
  cases h
  exact hR.refl s

theorem keeps_get (hR : Frame R) : Keeps R (get : M State) := by
  intro s y t h
  cases h
  exact hR.refl s

theorem keeps_throw (e : Stop) : Keeps R (throw e : M α) := by
  intro s y t h
  cases h

theorem keeps_modify {f : State → State} (h : ∀ s, R s (f s)) : Keeps R (modify f : M Unit) := by
  intro s y t e
  cases e
  exact h s

theorem keeps_bind (hR : Frame R) {m : M α} {f : α → M β} (hm : Keeps R m) (hf : ∀ x, Keeps R (f x)) :
    Keeps R (m >>= f) := by
  intro s y u h
  obtain ⟨x, t, h1, h2⟩ := run_bind_inv h
  exact hR.trans (hm _ _ _ h1) (hf x _ _ _ h2)

/-- A read of the state only hands the state on. -/
theorem keeps_get_bind {f : State → M β} (hf : ∀ s, Keeps R (f s)) : Keeps R (get >>= f) := by
  intro s y t h
  exact hf s s y t h

theorem keeps_loopFrom (hR : Frame R) {f : Nat → M Unit} (hf : ∀ i, Keeps R (f i)) :
    ∀ n i, Keeps R (loopFrom f i n)
  | 0, _ => keeps_pure hR ()
  | n + 1, i => keeps_bind hR (hf i) fun _ => keeps_loopFrom hR hf n (i + 1)

theorem keeps_next {m : M Unit} (hm : Keeps R m) {s t : State} (h : runM m s = .next t) : R s t :=
  hm s () t (runM_eq_next.mp h)

theorem keeps_mono {Q : State → State → Prop} (h : ∀ s t, R s t → Q s t) {m : M α} (hm : Keeps R m) : Keeps Q m :=
  fun s x t e => h s t (hm s x t e)

end

/-! When a computation answers -/

/-- `m` answers from `s`, and its answer and next state meet `Q`. -/
def Answers (m : M α) (s : State) (Q : α → State → Prop) : Prop := ∃ x t, StateT.run m s = .ok (x, t) ∧ Q x t

theorem answers_pure {x : α} {s : State} {Q : α → State → Prop} (h : Q x s) : Answers (pure x : M α) s Q :=
  ⟨x, s, rfl, h⟩

theorem answers_modify {f : State → State} {s : State} {Q : Unit → State → Prop} (h : Q () (f s)) :
    Answers (modify f : M Unit) s Q :=
  ⟨(), f s, rfl, h⟩

theorem answers_bind {m : M α} {f : α → M β} {s : State} {P : α → State → Prop} {Q : β → State → Prop}
    (hm : Answers m s P) (hf : ∀ x t, P x t → Answers (f x) t Q) : Answers (m >>= f) s Q := by
  obtain ⟨x, t, h, hP⟩ := hm
  obtain ⟨y, u, h', hQ⟩ := hf x t hP
  exact ⟨y, u, by rw [run_bind_ok h, h'], hQ⟩

theorem answers_mono {m : M α} {s : State} {P Q : α → State → Prop} (h : Answers m s P) (hPQ : ∀ x t, P x t → Q x t) :
    Answers m s Q := by
  obtain ⟨x, t, e, hP⟩ := h
  exact ⟨x, t, e, hPQ x t hP⟩

theorem answers_next {m : M Unit} {s : State} {Q : State → Prop} (h : Answers m s fun _ t => Q t) :
    ∃ t, runM m s = .next t ∧ Q t := by
  obtain ⟨_, t, e, hQ⟩ := h
  exact ⟨t, runM_of_ok e, hQ⟩

/-- A loop answers if every round does while an invariant holds. -/
theorem answers_loopFrom {f : Nat → M Unit} (I : Nat → State → Prop) :
    ∀ (n i : Nat) {s : State}, I i s → (∀ j t, i ≤ j → j < i + n → I j t → Answers (f j) t fun _ u => I (j + 1) u) →
      Answers (loopFrom f i n) s fun _ t => I (i + n) t
  | 0, _, _, h, _ => answers_pure h
  | n + 1, i, s, h, hf => by
    refine answers_bind (hf i s (Nat.le_refl i) (by omega) h) fun _ t ht => ?_
    have := answers_loopFrom I n (i + 1) ht fun j t h1 h2 => hf j t (by omega) (by omega)
    rwa [show i + (n + 1) = i + 1 + n by omega]

end Sys2Proof.Machine
end

