-- ==== Sys2Proof/Laws/Memory.lean ====
section
/-! SUPPORT. Memory: reading after writing, the canonical form and who keeps it, and what each memory operation of the
unit does (spec/20_memory.md). -/

namespace Sys2Proof.Machine

/-! Bytes -/

@[simp] theorem readByte_nil (a : Nat) : readByte [] a = unwrittenByte := rfl

theorem readByte_cons (k : Nat) (b : Byte) (m : Memory) (a : Nat) :
    readByte ((k, b) :: m) a = if a = k then b else readByte m a := rfl

theorem wfFrom_mono {lo lo' : Nat} {m : Memory} (h : wfFrom lo m = true) (hl : lo' ≤ lo) : wfFrom lo' m = true := by
  cases m with
  | nil => rfl
  | cons c m =>
    obtain ⟨k, b⟩ := c
    simp only [wfFrom, Bool.and_eq_true, decide_eq_true_eq] at h ⊢
    exact ⟨⟨by omega, h.1.2⟩, h.2⟩

/-- Below the first listed address nothing is listed. -/
theorem readByte_below {lo : Nat} {m : Memory} (h : wfFrom lo m = true) {a : Nat} (ha : a < lo) :
    readByte m a = unwrittenByte := by
  induction m generalizing lo with
  | nil => rfl
  | cons c m ih =>
    obtain ⟨k, b⟩ := c
    simp only [wfFrom, Bool.and_eq_true, decide_eq_true_eq] at h
    rw [readByte_cons, if_neg (by omega)]
    exact ih h.2 (by omega)

/-- A write leaves every other address alone, whatever the form of the list. -/
theorem readByte_writeByte_ne (m : Memory) {a b : Nat} (v : Byte) (h : b ≠ a) :
    readByte (writeByte m a v) b = readByte m b := by
  induction m with
  | nil =>
    simp only [writeByte]
    split <;> simp [readByte_cons, h]
  | cons c m ih =>
    obtain ⟨k, x⟩ := c
    simp only [writeByte]
    split
    · split <;> simp [readByte_cons, h]
    · split
      · next hk => subst hk; split <;> simp [readByte_cons, h]
      · simp [readByte_cons, ih]

/-- A read of the address just written gives the value written. -/
theorem readByte_writeByte_self {lo : Nat} {m : Memory} (hm : wfFrom lo m = true) (a : Nat) (v : Byte) :
    readByte (writeByte m a v) a = v := by
  induction m generalizing lo with
  | nil =>
    simp only [writeByte]
    split <;> simp_all [readByte_cons]
  | cons c m ih =>
    obtain ⟨k, x⟩ := c
    simp only [wfFrom, Bool.and_eq_true, decide_eq_true_eq] at hm
    simp only [writeByte]
    split
    · split
      · next hv =>
        subst hv
        rw [readByte_cons, if_neg (by omega)]
        exact readByte_below hm.2 (by omega)
      · simp [readByte_cons]
    · split
      · split
        · next hv => subst hv; exact readByte_below hm.2 (by omega)
        · simp [readByte_cons]
      · next h1 h2 => rw [readByte_cons, if_neg h2]; exact ih hm.2

theorem readByte_writeByte {m : Memory} (hm : Memory.wf m = true) (a b : Nat) (v : Byte) :
    readByte (writeByte m a v) b = if b = a then v else readByte m b := by
  split
  · next h => subst h; exact readByte_writeByte_self hm b v
  · next h => exact readByte_writeByte_ne m v h

/-- A write keeps the canonical form. -/
theorem wfFrom_writeByte {lo : Nat} {m : Memory} (hm : wfFrom lo m = true) {a : Nat} (ha : lo ≤ a) (v : Byte) :
    wfFrom lo (writeByte m a v) = true := by
  induction m generalizing lo with
  | nil => simp only [writeByte]; split <;> simp_all [wfFrom]
  | cons c m ih =>
    obtain ⟨k, x⟩ := c
    simp only [wfFrom, Bool.and_eq_true, decide_eq_true_eq] at hm
    simp only [writeByte]
    split
    · split
      · simp [wfFrom, hm]
      · next h1 h2 =>
        simp only [wfFrom, Bool.and_eq_true, decide_eq_true_eq]
        exact ⟨⟨ha, h2⟩, ⟨by omega, hm.1.2⟩, hm.2⟩
    · split
      · next h2 =>
        split
        · exact wfFrom_mono hm.2 (by omega)
        · next h3 =>
          simp only [wfFrom, Bool.and_eq_true, decide_eq_true_eq]
          exact ⟨⟨ha, h3⟩, h2 ▸ hm.2⟩
      · simp only [wfFrom, Bool.and_eq_true, decide_eq_true_eq]
        exact ⟨hm.1, ih hm.2 (by omega)⟩

theorem wf_writeByte {m : Memory} (hm : Memory.wf m = true) (a : Nat) (v : Byte) : Memory.wf (writeByte m a v) = true :=
  wfFrom_writeByte hm (Nat.zero_le a) v

/-- Canonical memories that read alike are equal lists. -/
theorem wfFrom_ext {lo : Nat} {m n : Memory} (hm : wfFrom lo m = true) (hn : wfFrom lo n = true)
    (h : ∀ a, readByte m a = readByte n a) : m = n := by
  induction m generalizing lo n with
  | nil =>
    cases n with
    | nil => rfl
    | cons d n =>
      obtain ⟨k, x⟩ := d
      simp only [wfFrom, Bool.and_eq_true, decide_eq_true_eq] at hn
      have := h k
      simp [readByte_cons] at this
      exact absurd this.symm hn.1.2
  | cons c m ih =>
    obtain ⟨k, x⟩ := c
    have hm' := hm
    simp only [wfFrom, Bool.and_eq_true, decide_eq_true_eq] at hm
    cases n with
    | nil =>
      have := h k
      simp [readByte_cons] at this
      exact absurd this hm.1.2
    | cons d n =>
      obtain ⟨j, y⟩ := d
      have hn' := hn
      simp only [wfFrom, Bool.and_eq_true, decide_eq_true_eq] at hn
      have hkj : k = j := by
        rcases Nat.lt_trichotomy k j with hlt | heq | hgt
        · have e := h k
          rw [readByte_cons, if_pos rfl, readByte_cons, if_neg (by omega),
            readByte_below hn.2 (by omega)] at e
          exact absurd e hm.1.2
        · exact heq
        · have e := h j
          rw [readByte_cons, if_neg (by omega), readByte_below hm.2 (by omega), readByte_cons, if_pos rfl] at e
          exact absurd e.symm hn.1.2
      subst hkj
      have hxy : x = y := by simpa [readByte_cons] using h k
      subst hxy
      congr 1
      refine ih hm.2 hn.2 fun a => ?_
      rcases Nat.lt_or_ge a (k + 1) with ha | ha
      · rw [readByte_below hm.2 ha, readByte_below hn.2 ha]
      · have e := h a
        rwa [readByte_cons, if_neg (by omega), readByte_cons, if_neg (by omega)] at e

theorem wf_ext {m n : Memory} (hm : Memory.wf m = true) (hn : Memory.wf n = true)
    (h : ∀ a, readByte m a = readByte n a) : m = n := wfFrom_ext hm hn h

/-- The memory of a machine after reset is canonical. -/
theorem wf_reset : Memory.wf State.reset.mem = true := rfl

/-! Pokes: what a list of byte writes leaves -/

theorem wf_pokeByte {m : Memory} (par : Params) (hm : Memory.wf m = true) (a : Nat) (v : Byte) :
    Memory.wf (pokeByte par m a v) = true := by
  rw [pokeByte]
  split
  · exact wf_writeByte hm a v
  · exact hm

theorem wf_pokeBytes (par : Params) {m : Memory} (hm : Memory.wf m = true) (a : Nat) (vs : List Byte) :
    Memory.wf (pokeBytes par m a vs) = true := by
  induction vs generalizing m a with
  | nil => exact hm
  | cons v vs ih => exact ih (wf_pokeByte par hm a v) (a + 1)

theorem readByte_pokeByte_ne (par : Params) (m : Memory) {a b : Nat} (v : Byte) (h : b ≠ a) :
    readByte (pokeByte par m a v) b = readByte m b := by
  rw [pokeByte]
  split
  · exact readByte_writeByte_ne m v h
  · rfl

theorem readByte_pokeByte_self {par : Params} {m : Memory} (hm : Memory.wf m = true) {a : Nat}
    (ha : mapped par a = true) (v : Byte) : readByte (pokeByte par m a v) a = v := by
  rw [pokeByte, if_pos ha, readByte_writeByte_self hm]

/-- Bytes outside the range written read as before. -/
theorem readByte_pokeBytes_outside (par : Params) (m : Memory) (a : Nat) (vs : List Byte) {b : Nat}
    (h : b < a ∨ a + vs.length ≤ b) : readByte (pokeBytes par m a vs) b = readByte m b := by
  induction vs generalizing m a with
  | nil => rfl
  | cons v vs ih =>
    simp only [List.length_cons] at h
    rw [pokeBytes, ih _ _ (by omega), readByte_pokeByte_ne par m v (by omega)]

/-- Mapped bytes inside the range written read as written. -/
theorem readByte_pokeBytes_inside {par : Params} {m : Memory} (hm : Memory.wf m = true) (a : Nat) (vs : List Byte)
    {j : Nat} (hj : j < vs.length) (hmap : mapped par (a + j) = true) :
    readByte (pokeBytes par m a vs) (a + j) = vs[j] := by
  induction vs generalizing m a j with
  | nil => simp at hj
  | cons v vs ih =>
    rw [pokeBytes]
    cases j with
    | zero =>
      rw [readByte_pokeBytes_outside par _ _ _ (by omega)]
      exact readByte_pokeByte_self hm hmap v
    | succ j =>
      have e : a + (j + 1) = a + 1 + j := by omega
      simp only [e] at hmap ⊢
      rw [ih (wf_pokeByte par hm a v) (a + 1) (by simpa using hj) hmap]
      rfl

@[simp] theorem bytesOf_length (n v : Nat) : (bytesOf n v).length = n := by
  induction n generalizing v with
  | zero => rfl
  | succ n ih => simp [bytesOf, ih]

theorem pokeBytes_append (par : Params) (m : Memory) (a : Nat) (vs ws : List Byte) :
    pokeBytes par m a (vs ++ ws) = pokeBytes par (pokeBytes par m a vs) (a + vs.length) ws := by
  induction vs generalizing m a with
  | nil => simp [pokeBytes]
  | cons v vs ih =>
    simp only [List.cons_append, pokeBytes, ih, List.length_cons]
    rw [show a + 1 + vs.length = a + (vs.length + 1) by omega]

/-! One byte of memory, as the unit reads and writes it -/

theorem run_loadByte (a : Nat) (s : State) :
    StateT.run (loadByte a) s =
      if a < 2 ^ s.par.addressBits then
        if mapped s.par a then .ok (readByte s.mem a, s)
        else .ok (Config.freeByte s.freeCount, { s with freeCount := s.freeCount + 1 })
      else .error (.fault .addressWrap) := rfl

theorem run_storeByte (a : Nat) (v : Byte) (s : State) :
    StateT.run (storeByte a v) s =
      if a < 2 ^ s.par.addressBits then .ok ((), { s with mem := pokeByte s.par s.mem a v })
      else .error (.fault .addressWrap) := by
  show (if _ then (if _ then _ else _) else _) = _
  rw [pokeByte]
  split
  · split <;> rfl
  · rfl

theorem run_loadByte_mapped {a : Nat} {s : State} (h : a < 2 ^ s.par.addressBits) (hm : mapped s.par a = true) :
    StateT.run (loadByte a) s = .ok (readByte s.mem a, s) := by
  rw [run_loadByte, if_pos h, if_pos hm]

theorem run_storeByte_fits {a : Nat} {s : State} (h : a < 2 ^ s.par.addressBits) (v : Byte) :
    StateT.run (storeByte a v) s = .ok ((), { s with mem := pokeByte s.par s.mem a v }) := by
  rw [run_storeByte, if_pos h]

/-- A read answers exactly below the end of memory; it changes at most the count of free bytes. -/
theorem loadByte_spec {a : Nat} {s t : State} {v : Byte} (h : StateT.run (loadByte a) s = .ok (v, t)) :
    a < 2 ^ s.par.addressBits ∧
      ((mapped s.par a = true ∧ v = readByte s.mem a ∧ t = s) ∨
        (mapped s.par a = false ∧ v = Config.freeByte s.freeCount ∧ t = { s with freeCount := s.freeCount + 1 })) := by
  rw [run_loadByte] at h
  split at h
  · next ha =>
    refine ⟨ha, ?_⟩
    split at h
    · next hm => cases h; exact .inl ⟨hm, rfl, rfl⟩
    · next hm => cases h; exact .inr ⟨by simpa using hm, rfl, rfl⟩
  · cases h

/-- A write answers exactly below the end of memory. -/
theorem storeByte_spec {a : Nat} {v : Byte} {s t : State} (h : StateT.run (storeByte a v) s = .ok ((), t)) :
    a < 2 ^ s.par.addressBits ∧ t = { s with mem := pokeByte s.par s.mem a v } := by
  rw [run_storeByte] at h
  split at h
  · next ha => cases h; exact ⟨ha, rfl⟩
  · cases h

/-! Numbers of several bytes -/

theorem run_store_fits {n a v : Nat} {s : State} (h : a + n ≤ 2 ^ s.par.addressBits) :
    StateT.run (store n a v) s = .ok ((), { s with mem := pokeBytes s.par s.mem a (bytesOf n v) }) := by
  induction n generalizing a v s with
  | zero => rfl
  | succ n ih =>
    rw [store, run_bind_ok (run_storeByte_fits (by omega) _), ih (by simpa using by omega)]
    rfl

theorem store_spec {n a v : Nat} {s t : State} (h : StateT.run (store n a v) s = .ok ((), t)) :
    t = { s with mem := pokeBytes s.par s.mem a (bytesOf n v) } := by
  induction n generalizing a v s with
  | zero => cases h; rfl
  | succ n ih =>
    rw [store] at h
    obtain ⟨_, u, h1, h2⟩ := run_bind_inv h
    rw [ih h2, (storeByte_spec h1).2]
    rfl

theorem run_load_readable {n a : Nat} {s : State} (h : readable s.par a n) :
    StateT.run (load n a) s = .ok (numberAt s.mem a n, s) := by
  induction n generalizing a with
  | zero => rfl
  | succ n ih =>
    have h0 : mapped s.par a = true := by simpa using h.2 0 (by omega)
    have hr : readable s.par (a + 1) n := by
      refine ⟨by have := h.1; omega, fun j hj => ?_⟩
      have := h.2 (j + 1) (by omega)
      rwa [show a + (j + 1) = a + 1 + j by omega] at this
    have := h.1
    rw [load, run_bind_ok (run_loadByte_mapped (by omega) h0), run_bind_ok (ih hr)]
    rfl

theorem run_loadBytes_readable {n a : Nat} {s : State} (h : readable s.par a n) :
    StateT.run (loadBytes n a) s = .ok ((List.range n).map fun j => readByte s.mem (a + j), s) := by
  induction n generalizing a with
  | zero => rfl
  | succ n ih =>
    have h0 : mapped s.par a = true := by simpa using h.2 0 (by omega)
    have hr : readable s.par (a + 1) n := by
      refine ⟨by have := h.1; omega, fun j hj => ?_⟩
      have := h.2 (j + 1) (by omega)
      rwa [show a + (j + 1) = a + 1 + j by omega] at this
    have := h.1
    rw [loadBytes, run_bind_ok (run_loadByte_mapped (by omega) h0), run_bind_ok (ih hr), run_pure,
      List.range_succ_eq_map, List.map_cons, List.map_map]
    have e : (fun j => readByte s.mem (a + 1 + j)) = (fun j => readByte s.mem (a + j)) ∘ Nat.succ := by
      funext j
      simp [Nat.add_comm, Nat.add_left_comm]
    rw [e]
    rfl

/-- The rows a display reads, where they hold memory. -/
theorem run_loadRows_readable {n p : Nat} : ∀ {h a : Nat} {s : State}, blockReadable s.par a p n h →
    StateT.run (loadRows n p h a) s
      = .ok ((List.range h).map fun y => (List.range n).map fun j => readByte s.mem (a + y * p + j), s) := by
  intro h
  induction h with
  | zero => intro a s _; rfl
  | succ h ih =>
    intro a s hr
    have h0 : readable s.par a n := by simpa using hr 0 (by omega)
    have h1 : blockReadable s.par (a + p) p n h := fun y hy => by
      have := hr (y + 1) (by omega)
      rwa [show a + (y + 1) * p = a + p + y * p by ring] at this
    rw [loadRows, run_bind_ok (run_loadBytes_readable h0), run_bind_ok (ih h1)]
    show Except.ok _ = _
    rw [List.range_succ_eq_map]
    simp only [List.map_cons, List.map_map, Nat.zero_mul, Nat.add_zero]
    congr 4
    funext y
    simp only [Function.comp]
    congr 1
    funext j
    congr 1
    rw [Nat.succ_eq_add_one]
    ring

/-- A read changes at most the count of free bytes. -/
theorem loadByte_inv {a : Nat} {s t : State} {v : Byte} (h : StateT.run (loadByte a) s = .ok (v, t)) :
    t = { s with freeCount := t.freeCount } := by
  obtain ⟨_, ⟨_, _, rfl⟩ | ⟨_, _, rfl⟩⟩ := loadByte_spec h <;> rfl

/-- A read of `n` bytes gives `n` bytes and changes at most the count of free bytes. -/
theorem loadBytes_inv : ∀ {n a : Nat} {s t : State} {vs : List Byte}, StateT.run (loadBytes n a) s = .ok (vs, t) →
    vs.length = n ∧ t = { s with freeCount := t.freeCount } := by
  intro n
  induction n with
  | zero => intro a s t vs h; cases h; exact ⟨rfl, rfl⟩
  | succ n ih =>
    intro a s t vs h
    rw [loadBytes] at h
    obtain ⟨b, u, h1, h2⟩ := run_bind_inv h
    obtain ⟨bs, w, h3, h4⟩ := run_bind_inv h2
    cases h4
    obtain ⟨l, e⟩ := ih h3
    exact ⟨by simp [l], by rw [e, loadByte_inv h1]⟩

/-- A read of rows gives rows of their length and changes at most the count of free bytes. -/
theorem loadRows_inv {n p : Nat} : ∀ {h a : Nat} {s t : State} {rows : List (List Byte)},
    StateT.run (loadRows n p h a) s = .ok (rows, t) →
      rows.length = h ∧ (∀ row ∈ rows, row.length = n) ∧ t = { s with freeCount := t.freeCount } := by
  intro h
  induction h with
  | zero => intro a s t rows h; cases h; exact ⟨rfl, fun _ h => (by cases h), rfl⟩
  | succ h ih =>
    intro a s t rows e
    rw [loadRows] at e
    obtain ⟨b, u, h1, h2⟩ := run_bind_inv e
    obtain ⟨bs, w, h3, h4⟩ := run_bind_inv h2
    cases h4
    obtain ⟨l, r, e⟩ := ih h3
    obtain ⟨l', e'⟩ := loadBytes_inv h1
    refine ⟨by simp [l], fun row hr => ?_, by rw [e, e']⟩
    rcases List.mem_cons.1 hr with rfl | hr
    · exact l'
    · exact r row hr

/-- A read of several bytes answers whenever it stays below the end of memory. -/
theorem load_answers {n a : Nat} {s : State} (h : a + n ≤ 2 ^ s.par.addressBits) :
    Answers (load n a) s fun _ t => t = { s with freeCount := t.freeCount } := by
  induction n generalizing a s with
  | zero => exact answers_pure rfl
  | succ n ih =>
    rw [load]
    refine answers_bind (P := fun _ t => t = { s with freeCount := t.freeCount }) ?_ fun x t ht => ?_
    · by_cases hm : mapped s.par a = true
      · exact ⟨_, s, run_loadByte_mapped (by omega) hm, rfl⟩
      · exact ⟨_, _, by rw [run_loadByte, if_pos (by omega), if_neg hm], rfl⟩
    · have hp : t.par = s.par := by rw [ht]
      refine answers_bind (ih (s := t) (a := a + 1) (by rw [hp]; omega)) fun y u hu => answers_pure ?_
      rw [hu, ht]

/-! What every memory operation keeps -/

section
variable {R : State → State → Prop}

theorem keeps_loadByte (hR : Frame R) (hf : ∀ s n, R s { s with freeCount := n }) (a : Nat) : Keeps R (loadByte a) := by
  intro s v t h
  obtain ⟨_, ⟨_, _, rfl⟩ | ⟨_, _, rfl⟩⟩ := loadByte_spec h
  · exact hR.refl _
  · exact hf s _

theorem keeps_storeByte (hm : ∀ s a v, R s { s with mem := pokeByte s.par s.mem a v }) (a : Nat) (v : Byte) :
    Keeps R (storeByte a v) := by
  intro s _ t h
  rw [(storeByte_spec h).2]
  exact hm s a v

theorem keeps_load (hR : Frame R) (hf : ∀ s n, R s { s with freeCount := n }) : ∀ n a, Keeps R (load n a)
  | 0, _ => keeps_pure hR 0
  | n + 1, a =>
    keeps_bind hR (keeps_loadByte hR hf a) fun _ => keeps_bind hR (keeps_load hR hf n (a + 1)) fun _ => keeps_pure hR _

theorem keeps_store (hR : Frame R) (hm : ∀ s a v, R s { s with mem := pokeByte s.par s.mem a v }) :
    ∀ n a v, Keeps R (store n a v)
  | 0, _, _ => keeps_pure hR ()
  | n + 1, a, _ => keeps_bind hR (keeps_storeByte hm a _) fun _ => keeps_store hR hm n (a + 1) _

theorem keeps_loadBytes (hR : Frame R) (hf : ∀ s n, R s { s with freeCount := n }) : ∀ n a, Keeps R (loadBytes n a)
  | 0, _ => keeps_pure hR []
  | n + 1, a =>
    keeps_bind hR (keeps_loadByte hR hf a) fun _ => keeps_bind hR (keeps_loadBytes hR hf n (a + 1)) fun _ => keeps_pure hR _

theorem keeps_loadRows (hR : Frame R) (hf : ∀ s n, R s { s with freeCount := n }) (n p : Nat) :
    ∀ h a, Keeps R (loadRows n p h a)
  | 0, _ => keeps_pure hR []
  | h + 1, a =>
    keeps_bind hR (keeps_loadBytes hR hf n a) fun _ =>
      keeps_bind hR (keeps_loadRows hR hf n p h (a + p)) fun _ => keeps_pure hR _

theorem keeps_copyBytes (hR : Frame R) (hf : ∀ s n, R s { s with freeCount := n })
    (hm : ∀ s a v, R s { s with mem := pokeByte s.par s.mem a v }) (n d a : Nat) : Keeps R (copyBytes n d a) :=
  keeps_loopFrom hR (fun j => keeps_bind hR (keeps_loadByte hR hf _) fun v => keeps_storeByte hm (d + j) v) n 0

theorem keeps_clearBytes (hR : Frame R) (hm : ∀ s a v, R s { s with mem := pokeByte s.par s.mem a v }) (n d : Nat) :
    Keeps R (clearBytes n d) :=
  keeps_loopFrom hR (fun j => keeps_storeByte hm (d + j) 0) n 0

end

/-! The canonical form is kept by every memory operation -/

/-- The canonical form of memory, as a thing to keep. -/
def KeepsWf {α : Type} (m : M α) : Prop := Keeps (fun s t => Memory.wf s.mem = true → Memory.wf t.mem = true) m

theorem frame_wf : Frame (fun s t => Memory.wf s.mem = true → Memory.wf t.mem = true) :=
  frame_invariant fun s => Memory.wf s.mem = true

theorem keepsWf_loadByte (a : Nat) : KeepsWf (loadByte a) := keeps_loadByte frame_wf (fun _ _ h => h) a

theorem keepsWf_storeByte (a : Nat) (v : Byte) : KeepsWf (storeByte a v) :=
  keeps_storeByte (fun s a v h => wf_pokeByte s.par h a v) a v

theorem keepsWf_load (n a : Nat) : KeepsWf (load n a) := keeps_load frame_wf (fun _ _ h => h) n a

theorem keepsWf_store (n a v : Nat) : KeepsWf (store n a v) :=
  keeps_store frame_wf (fun s a v h => wf_pokeByte s.par h a v) n a v

theorem keepsWf_loadBytes (n a : Nat) : KeepsWf (loadBytes n a) := keeps_loadBytes frame_wf (fun _ _ h => h) n a

theorem keepsWf_loadRows (n p h a : Nat) : KeepsWf (loadRows n p h a) := keeps_loadRows frame_wf (fun _ _ h => h) n p h a

theorem keepsWf_copyBytes (n d a : Nat) : KeepsWf (copyBytes n d a) :=
  keeps_copyBytes frame_wf (fun _ _ h => h) (fun s a v h => wf_pokeByte s.par h a v) n d a

theorem keepsWf_clearBytes (n d : Nat) : KeepsWf (clearBytes n d) :=
  keeps_clearBytes frame_wf (fun s a v h => wf_pokeByte s.par h a v) n d

theorem wf_hostStore {s : State} (h : Memory.wf s.mem = true) (addr : Nat) (v : Byte) :
    Memory.wf (hostStore s addr v).mem = true := by
  rw [hostStore]
  split
  · exact wf_writeByte h _ v
  · exact h

end Sys2Proof.Machine
end

