-- ==== Sys2Proof/Laws/Shapes.lean ====
section
/-! SUPPORT. What the stream codes are: each is one of a few bodies; and what a descriptor byte does. -/

namespace Sys2Proof.Machine

/-- What a change of the current colour may touch: the colour and the increment. -/
def RecoloursOnly (f : Decode → Decode) : Prop :=
  ∀ d, f d = { d with colour := (f d).colour, inc := (f d).inc }

/-- The bodies of the stream codes, by instruction. -/
inductive CodeShape (i : Instr) : Prop where
  | command (e : ∀ s, execCode i s = .refused .codeOutsideDecode)
  | descriptor (b : Byte) (e : ∀ s, execCode i s = runM (descriptorBody b) s)
  | colour (ph : Phase) (f : Decode → Decode) (hp : ph = .zigzag ∨ ph = .majminRun ∨ ph = .majminDelta)
      (hf : RecoloursOnly f) (e : ∀ s, execCode i s = runM (colourCode ph f) s)
  | maskRun (c : BitVec 7) (e : i = .maskRun c)
  | maskLit (c : BitVec 7) (e : i = .maskLit c)
  | rle8Run (n : BitVec 7) (e : i = .rle8Run n)
  | rle8Lit (n : BitVec 7) (e : i = .rle8Lit n)
  | egaRun (n : BitVec 3) (c : BitVec 4) (e : i = .egaRun n c)
  | egaCopyleft (n : BitVec 6) (e : i = .egaCopyleft n)
  | egaDither (n : BitVec 6) (e : i = .egaDither n)
  | mmrRun (n : Byte) (e : i = .mmrRun n)

theorem execCode_shape (i : Instr) : CodeShape i := by
  cases i
  case vsInit | decodeStrip | decodeMask | decodeMaskOr | markDirty | flush | restoreBg | copy8col |
      clear8col | composeStrip | stripLookup | blitMasked | getPixels | getBackPixels => exact .command fun _ => rfl
  case descRaw1 | descRaw149 | descRle8_8 | descRle8_9 | descEgaRle10 | descZigzagV14 | descZigzagV15 |
      descZigzagV16 | descZigzagV17 | descZigzagV18 | descZigzagH24 | descZigzagH25 | descZigzagH26 |
      descZigzagH27 | descZigzagH28 | descZigzagV34 | descZigzagV35 | descZigzagV36 | descZigzagV37 |
      descZigzagV38 | descZigzagH44 | descZigzagH45 | descZigzagH46 | descZigzagH47 | descZigzagH48 |
      descMajminRun64 | descMajminRun65 | descMajminRun66 | descMajminRun67 | descMajminRun68 | descMajminRun84 |
      descMajminRun85 | descMajminRun86 | descMajminRun87 | descMajminRun88 | descMajminRun104 |
      descMajminRun105 | descMajminRun106 | descMajminRun107 | descMajminRun108 | descMajminRun124 |
      descMajminRun125 | descMajminRun126 | descMajminRun127 | descMajminRun128 | descMajminDelta134 |
      descMajminDelta135 | descMajminDelta136 | descMajminDelta137 | descMajminDelta138 | descMajminDelta144 |
      descMajminDelta145 | descMajminDelta146 | descMajminDelta147 | descMajminDelta148 =>
    exact .descriptor _ fun _ => rfl
  case zzKeep | zzLiteral | zzStep | zzTurn | mmrKeep | mmrLiteral | mmrDelta | mmdKeep | mmdLiteral |
      mmdDelta =>
    exact .colour _ _ (by decide) (fun _ => rfl) fun _ => rfl
  case descUnrecognised b => exact .descriptor b fun _ => rfl
  case maskRun c => exact .maskRun c rfl
  case maskLit c => exact .maskLit c rfl
  case rle8Run n => exact .rle8Run n rfl
  case rle8Lit n => exact .rle8Lit n rfl
  case egaRun n c => exact .egaRun n c rfl
  case egaCopyleft n => exact .egaCopyleft n rfl
  case egaDither n => exact .egaDither n rfl
  case mmrRun n => exact .mmrRun n rfl

/-- The families and the bodies they may have: the shape of what a descriptor byte runs once its entry is found. -/
inductive BodyShape (par : Params) (f : Family) (d : Decode) : Prop where
  | supplied (hs : bodySupplied par f = true) (e : familyBody par f d = suppliedBody f d)
  | raw (hs : bodySupplied par f = false) (hf : f = .raw) (e : familyBody par f d = rawBody d)
  | packet (hs : bodySupplied par f = false) (hf : f = .rle8 ∨ f = .egaRle) (e : familyBody par f d = packetBody d)
  | bit (hs : bodySupplied par f = false) (hf : f ∈ bitFamilies) (e : familyBody par f d = bitBody d)

theorem familyBody_shape (par : Params) (f : Family) (d : Decode) : BodyShape par f d := by
  cases hs : bodySupplied par f with
  | true => exact .supplied hs (if_pos hs)
  | false =>
    have e : familyBody par f d = _ := if_neg (by simp [hs])
    cases f with
    | raw => exact .raw hs rfl e
    | rle8 => exact .packet hs (.inl rfl) e
    | egaRle => exact .packet hs (.inr rfl) e
    | zigzag => exact .bit hs (by decide) e
    | majminRun => exact .bit hs (by decide) e
    | majminDelta => exact .bit hs (by decide) e
    | added n => cases hs

/-- The instruction of a descriptor byte runs the body of that byte. -/
theorem exec_descriptor {i : Instr} {b : Byte} (h : isDescriptor i b) (s : State) : exec i s = runM (descriptorBody b) s := by
  rcases h with ⟨row, hr, rfl, hb⟩ | rfl
  · obtain rfl : b = BitVec.ofNat 8 row.value := BitVec.eq_of_toNat_eq (by rw [← hb]; simp)
    simp only [descriptorRows, plainRows, bitRows, zigzagRows, majminRunRows, majminDeltaRows, List.cons_append,
      List.nil_append, List.mem_cons, List.not_mem_nil, or_false] at hr
    rcases hr with rfl | rfl | rfl | rfl | rfl | rfl | rfl | rfl | rfl | rfl | rfl | rfl | rfl | rfl | rfl | rfl | rfl | rfl
      | rfl | rfl | rfl | rfl | rfl | rfl | rfl | rfl | rfl | rfl | rfl | rfl | rfl | rfl | rfl | rfl | rfl | rfl | rfl | rfl
      | rfl | rfl | rfl | rfl | rfl | rfl | rfl | rfl | rfl | rfl | rfl | rfl | rfl | rfl | rfl | rfl | rfl <;> rfl
  · rfl

/-- Outside a command, `exec` is the meaning of the code. -/
theorem exec_eq_execCode {i : Instr} (h : ∀ c ∈ commandTable, ∀ v, i ≠ c.2 v) (s : State) : exec i s = execCode i s := by
  cases i
  case vsInit v => exact absurd rfl (h (0x01, .vsInit) (by simp [commandTable, screenCommands, otherCommands]) v)
  case decodeStrip v => exact absurd rfl (h (0x10, .decodeStrip) (by simp [commandTable, screenCommands, otherCommands]) v)
  case decodeMask v => exact absurd rfl (h (0x11, .decodeMask) (by simp [commandTable, screenCommands, otherCommands]) v)
  case decodeMaskOr v => exact absurd rfl (h (0x12, .decodeMaskOr) (by simp [commandTable, screenCommands, otherCommands]) v)
  case markDirty v => exact absurd rfl (h (0x20, .markDirty) (by simp [commandTable, screenCommands, otherCommands]) v)
  case flush v => exact absurd rfl (h (0x21, .flush) (by simp [commandTable, screenCommands, otherCommands]) v)
  case restoreBg v => exact absurd rfl (h (0x30, .restoreBg) (by simp [commandTable, screenCommands, otherCommands]) v)
  case copy8col v => exact absurd rfl (h (0x31, .copy8col) (by simp [commandTable, screenCommands, otherCommands]) v)
  case clear8col v => exact absurd rfl (h (0x32, .clear8col) (by simp [commandTable, screenCommands, otherCommands]) v)
  case composeStrip v => exact absurd rfl (h (0x33, .composeStrip) (by simp [commandTable, screenCommands, otherCommands]) v)
  case stripLookup v => exact absurd rfl (h (0x34, .stripLookup) (by simp [commandTable, screenCommands, otherCommands]) v)
  case blitMasked v => exact absurd rfl (h (0x35, .blitMasked) (by simp [commandTable, screenCommands, otherCommands]) v)
  case getPixels v => exact absurd rfl (h (0x40, .getPixels) (by simp [commandTable, screenCommands, otherCommands]) v)
  case getBackPixels v => exact absurd rfl (h (0x41, .getBackPixels) (by simp [commandTable, screenCommands, otherCommands]) v)
  all_goals rfl

end Sys2Proof.Machine
end

