-- ==== Sys2Proof/Laws/State.lean ====
section
/-! SUPPORT. What each update of the state leaves in each field. -/

namespace Sys2Proof.Machine

variable (s : State)

/-! setScreen -/

@[simp] theorem setScreen_fault (v : BitVec 2) (x : VScreen) : (s.setScreen v x).fault = s.fault := rfl
@[simp] theorem setScreen_code (v : BitVec 2) (x : VScreen) : (s.setScreen v x).code = s.code := rfl
@[simp] theorem setScreen_result (v : BitVec 2) (x : VScreen) : (s.setScreen v x).result = s.result := rfl
@[simp] theorem setScreen_faultInfo (v : BitVec 2) (x : VScreen) : (s.setScreen v x).faultInfo = s.faultInfo := rfl
@[simp] theorem setScreen_profile (v : BitVec 2) (x : VScreen) : (s.setScreen v x).profile = s.profile := rfl
@[simp] theorem setScreen_lights (v : BitVec 2) (x : VScreen) : (s.setScreen v x).lights = s.lights := rfl
@[simp] theorem setScreen_a (v : BitVec 2) (x : VScreen) : (s.setScreen v x).a = s.a := rfl
@[simp] theorem setScreen_screens (v : BitVec 2) (x : VScreen) : (s.setScreen v x).screens = s.screens.set v.toNat x v.isLt := rfl
@[simp] theorem setScreen_roomPal (v : BitVec 2) (x : VScreen) : (s.setScreen v x).roomPal = s.roomPal := rfl
@[simp] theorem setScreen_verbPal (v : BitVec 2) (x : VScreen) : (s.setScreen v x).verbPal = s.verbPal := rfl
@[simp] theorem setScreen_pal16 (v : BitVec 2) (x : VScreen) : (s.setScreen v x).pal16 = s.pal16 := rfl
@[simp] theorem setScreen_mem (v : BitVec 2) (x : VScreen) : (s.setScreen v x).mem = s.mem := rfl
@[simp] theorem setScreen_dec (v : BitVec 2) (x : VScreen) : (s.setScreen v x).dec = s.dec := rfl
@[simp] theorem setScreen_display (v : BitVec 2) (x : VScreen) : (s.setScreen v x).display = s.display := rfl
@[simp] theorem setScreen_inbox (v : BitVec 2) (x : VScreen) : (s.setScreen v x).inbox = s.inbox := rfl
@[simp] theorem setScreen_readData (v : BitVec 2) (x : VScreen) : (s.setScreen v x).readData = s.readData := rfl
@[simp] theorem setScreen_freeCount (v : BitVec 2) (x : VScreen) : (s.setScreen v x).freeCount = s.freeCount := rfl
@[simp] theorem setScreen_par (v : BitVec 2) (x : VScreen) : (s.setScreen v x).par = s.par := rfl
@[simp] theorem setScreen_operand (v : BitVec 2) (x : VScreen) (i : Fin 8) : (s.setScreen v x).operand i = s.operand i := rfl
@[simp] theorem setScreen_addrOperand (v : BitVec 2) (x : VScreen) (i : Fin 8) : (s.setScreen v x).addrOperand i = s.addrOperand i := rfl
@[simp] theorem setScreen_countOperand (v : BitVec 2) (x : VScreen) (i : Fin 8) : (s.setScreen v x).countOperand i = s.countOperand i := rfl
@[simp] theorem setScreen_coordOperand (v : BitVec 2) (x : VScreen) (i : Fin 8) : (s.setScreen v x).coordOperand i = s.coordOperand i := rfl

/-! setResult -/

@[simp] theorem setResult_fault (w : Word) : (s.setResult w).fault = s.fault := rfl
@[simp] theorem setResult_code (w : Word) : (s.setResult w).code = s.code := rfl
@[simp] theorem setResult_result (w : Word) : (s.setResult w).result = w := rfl
@[simp] theorem setResult_faultInfo (w : Word) : (s.setResult w).faultInfo = s.faultInfo := rfl
@[simp] theorem setResult_profile (w : Word) : (s.setResult w).profile = s.profile := rfl
@[simp] theorem setResult_lights (w : Word) : (s.setResult w).lights = s.lights := rfl
@[simp] theorem setResult_a (w : Word) : (s.setResult w).a = s.a := rfl
@[simp] theorem setResult_screens (w : Word) : (s.setResult w).screens = s.screens := rfl
@[simp] theorem setResult_roomPal (w : Word) : (s.setResult w).roomPal = s.roomPal := rfl
@[simp] theorem setResult_verbPal (w : Word) : (s.setResult w).verbPal = s.verbPal := rfl
@[simp] theorem setResult_pal16 (w : Word) : (s.setResult w).pal16 = s.pal16 := rfl
@[simp] theorem setResult_mem (w : Word) : (s.setResult w).mem = s.mem := rfl
@[simp] theorem setResult_dec (w : Word) : (s.setResult w).dec = s.dec := rfl
@[simp] theorem setResult_display (w : Word) : (s.setResult w).display = s.display := rfl
@[simp] theorem setResult_inbox (w : Word) : (s.setResult w).inbox = s.inbox := rfl
@[simp] theorem setResult_readData (w : Word) : (s.setResult w).readData = s.readData := rfl
@[simp] theorem setResult_freeCount (w : Word) : (s.setResult w).freeCount = s.freeCount := rfl
@[simp] theorem setResult_par (w : Word) : (s.setResult w).par = s.par := rfl
@[simp] theorem setResult_operand (w : Word) (i : Fin 8) : (s.setResult w).operand i = s.operand i := rfl
@[simp] theorem setResult_addrOperand (w : Word) (i : Fin 8) : (s.setResult w).addrOperand i = s.addrOperand i := rfl
@[simp] theorem setResult_countOperand (w : Word) (i : Fin 8) : (s.setResult w).countOperand i = s.countOperand i := rfl
@[simp] theorem setResult_coordOperand (w : Word) (i : Fin 8) : (s.setResult w).coordOperand i = s.coordOperand i := rfl
@[simp] theorem setResult_screen (w : Word) (u : BitVec 2) : (s.setResult w).screen u = s.screen u := rfl

/-! setDec -/

@[simp] theorem setDec_fault (d : Option Decode) : (s.setDec d).fault = s.fault := rfl
@[simp] theorem setDec_code (d : Option Decode) : (s.setDec d).code = s.code := rfl
@[simp] theorem setDec_result (d : Option Decode) : (s.setDec d).result = s.result := rfl
@[simp] theorem setDec_faultInfo (d : Option Decode) : (s.setDec d).faultInfo = s.faultInfo := rfl
@[simp] theorem setDec_profile (d : Option Decode) : (s.setDec d).profile = s.profile := rfl
@[simp] theorem setDec_lights (d : Option Decode) : (s.setDec d).lights = s.lights := rfl
@[simp] theorem setDec_a (d : Option Decode) : (s.setDec d).a = s.a := rfl
@[simp] theorem setDec_screens (d : Option Decode) : (s.setDec d).screens = s.screens := rfl
@[simp] theorem setDec_roomPal (d : Option Decode) : (s.setDec d).roomPal = s.roomPal := rfl
@[simp] theorem setDec_verbPal (d : Option Decode) : (s.setDec d).verbPal = s.verbPal := rfl
@[simp] theorem setDec_pal16 (d : Option Decode) : (s.setDec d).pal16 = s.pal16 := rfl
@[simp] theorem setDec_mem (d : Option Decode) : (s.setDec d).mem = s.mem := rfl
@[simp] theorem setDec_dec (d : Option Decode) : (s.setDec d).dec = d := rfl
@[simp] theorem setDec_display (d : Option Decode) : (s.setDec d).display = s.display := rfl
@[simp] theorem setDec_inbox (d : Option Decode) : (s.setDec d).inbox = s.inbox := rfl
@[simp] theorem setDec_readData (d : Option Decode) : (s.setDec d).readData = s.readData := rfl
@[simp] theorem setDec_freeCount (d : Option Decode) : (s.setDec d).freeCount = s.freeCount := rfl
@[simp] theorem setDec_par (d : Option Decode) : (s.setDec d).par = s.par := rfl
@[simp] theorem setDec_operand (d : Option Decode) (i : Fin 8) : (s.setDec d).operand i = s.operand i := rfl
@[simp] theorem setDec_addrOperand (d : Option Decode) (i : Fin 8) : (s.setDec d).addrOperand i = s.addrOperand i := rfl
@[simp] theorem setDec_countOperand (d : Option Decode) (i : Fin 8) : (s.setDec d).countOperand i = s.countOperand i := rfl
@[simp] theorem setDec_coordOperand (d : Option Decode) (i : Fin 8) : (s.setDec d).coordOperand i = s.coordOperand i := rfl
@[simp] theorem setDec_screen (d : Option Decode) (u : BitVec 2) : (s.setDec d).screen u = s.screen u := rfl

/-! addEvent -/

@[simp] theorem addEvent_fault (e : DisplayEvent) : (s.addEvent e).fault = s.fault := rfl
@[simp] theorem addEvent_code (e : DisplayEvent) : (s.addEvent e).code = s.code := rfl
@[simp] theorem addEvent_result (e : DisplayEvent) : (s.addEvent e).result = s.result := rfl
@[simp] theorem addEvent_faultInfo (e : DisplayEvent) : (s.addEvent e).faultInfo = s.faultInfo := rfl
@[simp] theorem addEvent_profile (e : DisplayEvent) : (s.addEvent e).profile = s.profile := rfl
@[simp] theorem addEvent_lights (e : DisplayEvent) : (s.addEvent e).lights = s.lights := rfl
@[simp] theorem addEvent_a (e : DisplayEvent) : (s.addEvent e).a = s.a := rfl
@[simp] theorem addEvent_screens (e : DisplayEvent) : (s.addEvent e).screens = s.screens := rfl
@[simp] theorem addEvent_roomPal (e : DisplayEvent) : (s.addEvent e).roomPal = s.roomPal := rfl
@[simp] theorem addEvent_verbPal (e : DisplayEvent) : (s.addEvent e).verbPal = s.verbPal := rfl
@[simp] theorem addEvent_pal16 (e : DisplayEvent) : (s.addEvent e).pal16 = s.pal16 := rfl
@[simp] theorem addEvent_mem (e : DisplayEvent) : (s.addEvent e).mem = s.mem := rfl
@[simp] theorem addEvent_dec (e : DisplayEvent) : (s.addEvent e).dec = s.dec := rfl
@[simp] theorem addEvent_display (e : DisplayEvent) : (s.addEvent e).display = s.display ++ [e] := rfl
@[simp] theorem addEvent_inbox (e : DisplayEvent) : (s.addEvent e).inbox = s.inbox := rfl
@[simp] theorem addEvent_readData (e : DisplayEvent) : (s.addEvent e).readData = s.readData := rfl
@[simp] theorem addEvent_freeCount (e : DisplayEvent) : (s.addEvent e).freeCount = s.freeCount := rfl
@[simp] theorem addEvent_par (e : DisplayEvent) : (s.addEvent e).par = s.par := rfl
@[simp] theorem addEvent_operand (e : DisplayEvent) (i : Fin 8) : (s.addEvent e).operand i = s.operand i := rfl
@[simp] theorem addEvent_addrOperand (e : DisplayEvent) (i : Fin 8) : (s.addEvent e).addrOperand i = s.addrOperand i := rfl
@[simp] theorem addEvent_countOperand (e : DisplayEvent) (i : Fin 8) : (s.addEvent e).countOperand i = s.countOperand i := rfl
@[simp] theorem addEvent_coordOperand (e : DisplayEvent) (i : Fin 8) : (s.addEvent e).coordOperand i = s.coordOperand i := rfl
@[simp] theorem addEvent_screen (e : DisplayEvent) (u : BitVec 2) : (s.addEvent e).screen u = s.screen u := rfl

/-! raised -/

@[simp] theorem raised_fault (c : FaultCode) (info : Word) : (s.raised c info).fault = true := rfl
@[simp] theorem raised_code (c : FaultCode) (info : Word) : (s.raised c info).code = faultNumber c := rfl
@[simp] theorem raised_result (c : FaultCode) (info : Word) : (s.raised c info).result = s.result := rfl
@[simp] theorem raised_faultInfo (c : FaultCode) (info : Word) : (s.raised c info).faultInfo = info := rfl
@[simp] theorem raised_profile (c : FaultCode) (info : Word) : (s.raised c info).profile = s.profile := rfl
@[simp] theorem raised_lights (c : FaultCode) (info : Word) : (s.raised c info).lights = s.lights := rfl
@[simp] theorem raised_a (c : FaultCode) (info : Word) : (s.raised c info).a = s.a := rfl
@[simp] theorem raised_screens (c : FaultCode) (info : Word) : (s.raised c info).screens = s.screens := rfl
@[simp] theorem raised_roomPal (c : FaultCode) (info : Word) : (s.raised c info).roomPal = s.roomPal := rfl
@[simp] theorem raised_verbPal (c : FaultCode) (info : Word) : (s.raised c info).verbPal = s.verbPal := rfl
@[simp] theorem raised_pal16 (c : FaultCode) (info : Word) : (s.raised c info).pal16 = s.pal16 := rfl
@[simp] theorem raised_mem (c : FaultCode) (info : Word) : (s.raised c info).mem = s.mem := rfl
@[simp] theorem raised_dec (c : FaultCode) (info : Word) : (s.raised c info).dec = none := rfl
@[simp] theorem raised_display (c : FaultCode) (info : Word) : (s.raised c info).display = s.display := rfl
@[simp] theorem raised_inbox (c : FaultCode) (info : Word) : (s.raised c info).inbox = s.inbox := rfl
@[simp] theorem raised_readData (c : FaultCode) (info : Word) : (s.raised c info).readData = s.readData := rfl
@[simp] theorem raised_freeCount (c : FaultCode) (info : Word) : (s.raised c info).freeCount = s.freeCount := rfl
@[simp] theorem raised_par (c : FaultCode) (info : Word) : (s.raised c info).par = s.par := rfl
@[simp] theorem raised_operand (c : FaultCode) (info : Word) (i : Fin 8) : (s.raised c info).operand i = s.operand i := rfl
@[simp] theorem raised_addrOperand (c : FaultCode) (info : Word) (i : Fin 8) : (s.raised c info).addrOperand i = s.addrOperand i := rfl
@[simp] theorem raised_countOperand (c : FaultCode) (info : Word) (i : Fin 8) : (s.raised c info).countOperand i = s.countOperand i := rfl
@[simp] theorem raised_coordOperand (c : FaultCode) (info : Word) (i : Fin 8) : (s.raised c info).coordOperand i = s.coordOperand i := rfl
@[simp] theorem raised_screen (c : FaultCode) (info : Word) (u : BitVec 2) : (s.raised c info).screen u = s.screen u := rfl

/-! setCtrl -/

@[simp] theorem setCtrl_fault (w : Word) : (s.setCtrl w).fault = s.fault := rfl
@[simp] theorem setCtrl_code (w : Word) : (s.setCtrl w).code = s.code := rfl
@[simp] theorem setCtrl_result (w : Word) : (s.setCtrl w).result = s.result := rfl
@[simp] theorem setCtrl_faultInfo (w : Word) : (s.setCtrl w).faultInfo = s.faultInfo := rfl
@[simp] theorem setCtrl_profile (w : Word) : (s.setCtrl w).profile = w.extractLsb' 0 3 := rfl
@[simp] theorem setCtrl_lights (w : Word) : (s.setCtrl w).lights = w.getLsbD 8 := rfl
@[simp] theorem setCtrl_a (w : Word) : (s.setCtrl w).a = s.a := rfl
@[simp] theorem setCtrl_screens (w : Word) : (s.setCtrl w).screens = s.screens := rfl
@[simp] theorem setCtrl_roomPal (w : Word) : (s.setCtrl w).roomPal = s.roomPal := rfl
@[simp] theorem setCtrl_verbPal (w : Word) : (s.setCtrl w).verbPal = s.verbPal := rfl
@[simp] theorem setCtrl_pal16 (w : Word) : (s.setCtrl w).pal16 = s.pal16 := rfl
@[simp] theorem setCtrl_mem (w : Word) : (s.setCtrl w).mem = s.mem := rfl
@[simp] theorem setCtrl_dec (w : Word) : (s.setCtrl w).dec = s.dec := rfl
@[simp] theorem setCtrl_display (w : Word) : (s.setCtrl w).display = s.display := rfl
@[simp] theorem setCtrl_inbox (w : Word) : (s.setCtrl w).inbox = s.inbox := rfl
@[simp] theorem setCtrl_readData (w : Word) : (s.setCtrl w).readData = s.readData := rfl
@[simp] theorem setCtrl_freeCount (w : Word) : (s.setCtrl w).freeCount = s.freeCount := rfl
@[simp] theorem setCtrl_par (w : Word) : (s.setCtrl w).par = s.par := rfl
@[simp] theorem setCtrl_operand (w : Word) (i : Fin 8) : (s.setCtrl w).operand i = s.operand i := rfl
@[simp] theorem setCtrl_addrOperand (w : Word) (i : Fin 8) : (s.setCtrl w).addrOperand i = s.addrOperand i := rfl
@[simp] theorem setCtrl_countOperand (w : Word) (i : Fin 8) : (s.setCtrl w).countOperand i = s.countOperand i := rfl
@[simp] theorem setCtrl_coordOperand (w : Word) (i : Fin 8) : (s.setCtrl w).coordOperand i = s.coordOperand i := rfl
@[simp] theorem setCtrl_screen (w : Word) (u : BitVec 2) : (s.setCtrl w).screen u = s.screen u := rfl

/-! screen after setScreen -/

@[simp] theorem setScreen_screen (v : BitVec 2) (x : VScreen) : (s.setScreen v x).screen v = x := by
  simp [State.screen, State.setScreen]

theorem setScreen_screen_ne {u v : BitVec 2} (h : u ≠ v) (x : VScreen) : (s.setScreen v x).screen u = s.screen u := by
  have h' : v.toNat ≠ u.toNat := fun e => h (BitVec.eq_of_toNat_eq e.symm)
  simp only [State.screen, State.setScreen]
  exact Vector.getElem_set_ne (hi := v.isLt) (hj := u.isLt) (h := h')

@[simp] theorem setScreen_setScreen (v : BitVec 2) (x y : VScreen) : (s.setScreen v x).setScreen v y = s.setScreen v y := by
  simp [State.setScreen]

@[simp] theorem setScreen_self (v : BitVec 2) : s.setScreen v (s.screen v) = s := by
  simp [State.setScreen, State.screen]

theorem setScreen_comm {u v : BitVec 2} (h : u ≠ v) (x y : VScreen) :
    (s.setScreen u x).setScreen v y = (s.setScreen v y).setScreen u x := by
  have h' : u.toNat ≠ v.toNat := fun e => h (BitVec.eq_of_toNat_eq e)
  simp only [State.setScreen, State.mk.injEq, and_true, true_and]
  exact Vector.set_comm x y h'

/-! updates of one field after another -/

@[simp] theorem setDec_setDec (d e : Option Decode) : (s.setDec d).setDec e = s.setDec e := rfl
@[simp] theorem setResult_setResult (w u : Word) : (s.setResult w).setResult u = s.setResult u := rfl
@[simp] theorem raised_setDec (d : Option Decode) (c : FaultCode) (info : Word) :
    (s.setDec d).raised c info = s.raised c info := rfl

/-! decodeEnded -/

@[simp] theorem decodeEnded_fault (d : Decode) : (s.decodeEnded d).fault = s.fault := by
  cases d using Decode.casesOn; simp only [State.decodeEnded]; split <;> rfl
@[simp] theorem decodeEnded_code (d : Decode) : (s.decodeEnded d).code = s.code := by
  cases d using Decode.casesOn; simp only [State.decodeEnded]; split <;> rfl
@[simp] theorem decodeEnded_faultInfo (d : Decode) : (s.decodeEnded d).faultInfo = s.faultInfo := by
  cases d using Decode.casesOn; simp only [State.decodeEnded]; split <;> rfl
@[simp] theorem decodeEnded_profile (d : Decode) : (s.decodeEnded d).profile = s.profile := by
  cases d using Decode.casesOn; simp only [State.decodeEnded]; split <;> rfl
@[simp] theorem decodeEnded_lights (d : Decode) : (s.decodeEnded d).lights = s.lights := by
  cases d using Decode.casesOn; simp only [State.decodeEnded]; split <;> rfl
@[simp] theorem decodeEnded_a (d : Decode) : (s.decodeEnded d).a = s.a := by
  cases d using Decode.casesOn; simp only [State.decodeEnded]; split <;> rfl
@[simp] theorem decodeEnded_screens (d : Decode) : (s.decodeEnded d).screens = s.screens := by
  cases d using Decode.casesOn; simp only [State.decodeEnded]; split <;> rfl
@[simp] theorem decodeEnded_roomPal (d : Decode) : (s.decodeEnded d).roomPal = s.roomPal := by
  cases d using Decode.casesOn; simp only [State.decodeEnded]; split <;> rfl
@[simp] theorem decodeEnded_verbPal (d : Decode) : (s.decodeEnded d).verbPal = s.verbPal := by
  cases d using Decode.casesOn; simp only [State.decodeEnded]; split <;> rfl
@[simp] theorem decodeEnded_pal16 (d : Decode) : (s.decodeEnded d).pal16 = s.pal16 := by
  cases d using Decode.casesOn; simp only [State.decodeEnded]; split <;> rfl
@[simp] theorem decodeEnded_mem (d : Decode) : (s.decodeEnded d).mem = s.mem := by
  cases d using Decode.casesOn; simp only [State.decodeEnded]; split <;> rfl
@[simp] theorem decodeEnded_dec (d : Decode) : (s.decodeEnded d).dec = none := by
  cases d using Decode.casesOn; simp only [State.decodeEnded]; split <;> rfl
@[simp] theorem decodeEnded_display (d : Decode) : (s.decodeEnded d).display = s.display := by
  cases d using Decode.casesOn; simp only [State.decodeEnded]; split <;> rfl
@[simp] theorem decodeEnded_inbox (d : Decode) : (s.decodeEnded d).inbox = s.inbox := by
  cases d using Decode.casesOn; simp only [State.decodeEnded]; split <;> rfl
@[simp] theorem decodeEnded_readData (d : Decode) : (s.decodeEnded d).readData = s.readData := by
  cases d using Decode.casesOn; simp only [State.decodeEnded]; split <;> rfl
@[simp] theorem decodeEnded_freeCount (d : Decode) : (s.decodeEnded d).freeCount = s.freeCount := by
  cases d using Decode.casesOn; simp only [State.decodeEnded]; split <;> rfl
@[simp] theorem decodeEnded_par (d : Decode) : (s.decodeEnded d).par = s.par := by
  cases d using Decode.casesOn; simp only [State.decodeEnded]; split <;> rfl
@[simp] theorem decodeEnded_screen (d : Decode) (u : BitVec 2) : (s.decodeEnded d).screen u = s.screen u := by
  simp [State.screen]

theorem decodeEnded_mask {d : Decode} {merge : Bool} (h : d.phase = .mask merge) : s.decodeEnded d = s.setDec none := by
  simp [State.decodeEnded, h]

theorem decodeEnded_bitmap {d : Decode} (h : ∀ merge, d.phase ≠ .mask merge) :
    s.decodeEnded d = (s.setResult (transparencyResult d.transparent)).setDec none := by
  rw [State.decodeEnded]
  split
  · next m hm => exact absurd hm (h m)
  · rfl

end Sys2Proof.Machine
end

