-- ==== Sys2Proof/Laws/Frames.lean ====
section
/-! SUPPORT. What the meanings keep: one lemma for each shared operation and each meaning, for every relation that
tolerates the updates it makes. -/

namespace Sys2Proof.Machine

/-- A frame that tolerates drawing a free byte, a write to memory, and a write of `RESULT`. -/
structure ToleratesWrites (R : State → State → Prop) : Prop extends Frame R where
  free : ∀ s n, R s { s with freeCount := n }
  mem : ∀ s a v, R s { s with mem := pokeByte s.par s.mem a v }
  result : ∀ s w, R s (s.setResult w)

/-- A frame that tolerates what a stream code may do: it also moves the decode in progress. -/
structure Tolerates (R : State → State → Prop) : Prop extends ToleratesWrites R where
  dec : ∀ s d, R s (s.setDec d)

section
variable {R : State → State → Prop} (hR : ToleratesWrites R)
include hR

theorem keeps_byte (a : Nat) : Keeps R (loadByte a) := keeps_loadByte hR.toFrame hR.free a

theorem keeps_number (n a : Nat) : Keeps R (load n a) := keeps_load hR.toFrame hR.free n a

theorem keeps_poke (n a v : Nat) : Keeps R (store n a v) := keeps_store hR.toFrame hR.mem n a v

theorem keeps_writeRoomColor (f : PixelFormat) (a : Nat) (c : Byte) : Keeps R (writeRoomColor f a c) := by
  refine keeps_get_bind fun s => ?_
  cases f
  · exact keeps_poke hR 1 a _
  · exact keeps_poke hR 2 a _

theorem keeps_putPixel (d : Decode) (c : Byte) (k : Nat) : Keeps R (putPixel d c k) := by
  refine keeps_get_bind fun s => ?_
  split
  · exact keeps_pure hR.toFrame ()
  · exact keeps_writeRoomColor hR _ _ _

theorem keeps_storeMask (merge : Bool) (a : Nat) (v : Byte) : Keeps R (storeMask merge a v) := by
  rw [storeMask]
  split
  · exact keeps_bind hR.toFrame (keeps_byte hR a) fun _ => keeps_storeByte hR.mem a _
  · exact keeps_storeByte hR.mem a v

theorem keeps_copyLeft (d : Decode) (k : Nat) : Keeps R (copyLeft d k) := by
  rw [copyLeft]
  split
  · exact keeps_throw _
  · exact keeps_bind hR.toFrame (keeps_number hR _ _) fun _ => keeps_poke hR _ _ _

end

section
variable {R : State → State → Prop} (hR : Tolerates R)
include hR

/-! Shared operations of the stream codes -/

theorem keeps_setDecode (d : Decode) : Keeps R (setDecode d) := keeps_modify fun s => hR.dec s (some d)

theorem keeps_currentDecode : Keeps R currentDecode := by
  intro s d t h
  change (match s.dec with | some d => _ | none => _) = _ at h
  split at h
  · cases h; exact hR.refl s
  · cases h

theorem keeps_nextByte : Keeps R nextByte :=
  keeps_bind hR.toFrame (keeps_currentDecode hR) fun _ =>
    keeps_bind hR.toFrame (keeps_byte hR.toToleratesWrites _) fun _ =>
      keeps_bind hR.toFrame (keeps_setDecode hR _) fun _ => keeps_pure hR.toFrame _

theorem keeps_readBit : Keeps R readBit :=
  keeps_bind hR.toFrame (keeps_currentDecode hR) fun _ =>
    keeps_bind hR.toFrame (keeps_byte hR.toToleratesWrites _) fun _ =>
      keeps_bind hR.toFrame (keeps_setDecode hR _) fun _ => keeps_pure hR.toFrame _

theorem keeps_runReader {α : Type} : ∀ r : Reader α, Keeps R (runReader r)
  | .done x => keeps_pure hR.toFrame x
  | .bit next => keeps_bind hR.toFrame (keeps_readBit hR) fun b => keeps_runReader (next b)

theorem tolerates_decodeEnded (s : State) (d : Decode) : R s (s.decodeEnded d) := by
  rw [State.decodeEnded]
  split
  · exact hR.dec s none
  · exact hR.trans (hR.result s _) (hR.dec _ none)

theorem keeps_advance (n : Nat) : Keeps R (advance n) := by
  refine keeps_bind hR.toFrame (keeps_currentDecode hR) fun d => ?_
  dsimp only
  split
  · exact keeps_setDecode hR _
  · exact keeps_modify fun s => tolerates_decodeEnded hR s _

theorem keeps_decodeIn (ph : Phase) : Keeps R (decodeIn ph) := by
  refine keeps_bind hR.toFrame (keeps_currentDecode hR) fun d => ?_
  split
  · exact keeps_pure hR.toFrame d
  · exact keeps_throw _

theorem keeps_maskDecodeIn : Keeps R maskDecodeIn := by
  refine keeps_bind hR.toFrame (keeps_currentDecode hR) fun d => ?_
  split
  · split
    · exact keeps_pure hR.toFrame _
    · exact keeps_throw _
  · exact keeps_throw _

theorem keeps_fetchCode : Keeps R fetchCode := by
  refine keeps_bind hR.toFrame (keeps_currentDecode hR) fun d => ?_
  split
  iterate 4 exact keeps_bind hR.toFrame (keeps_nextByte hR) fun _ => keeps_pure hR.toFrame _
  iterate 3 exact keeps_runReader hR _

theorem keeps_colourCode (ph : Phase) (f : Decode → Decode) : Keeps R (colourCode ph f) :=
  keeps_bind hR.toFrame (keeps_decodeIn hR ph) fun _ =>
    keeps_bind hR.toFrame (keeps_setDecode hR _) fun _ =>
      keeps_bind hR.toFrame (keeps_putPixel hR.toToleratesWrites _ _ _) fun _ => keeps_advance hR 1

theorem keeps_extendedCount (n : Nat) : Keeps R (extendedCount n) := by
  rw [extendedCount]
  split
  · exact keeps_bind hR.toFrame (keeps_nextByte hR) fun _ => keeps_pure hR.toFrame _
  · exact keeps_pure hR.toFrame _

theorem keeps_egaPacket (d : Decode) (n : Nat) {put : Nat → M Unit} (hp : ∀ z, Keeps R (put z)) :
    Keeps R (egaPacket d n put) := by
  rw [egaPacket]
  split
  · exact keeps_throw _
  · exact keeps_bind hR.toFrame (keeps_loopFrom hR.toFrame hp n 0) fun _ => keeps_advance hR n

theorem keeps_rawBody (d : Decode) : Keeps R (rawBody d) :=
  keeps_bind hR.toFrame (keeps_setDecode hR _) fun _ =>
    keeps_bind hR.toFrame (keeps_loopFrom hR.toFrame
      (fun k => keeps_bind hR.toFrame (keeps_nextByte hR) fun c => keeps_putPixel hR.toToleratesWrites _ c k) _ _) fun _ =>
        keeps_advance hR _

theorem keeps_bitBody (d : Decode) : Keeps R (bitBody d) :=
  keeps_bind hR.toFrame (keeps_nextByte hR) fun _ =>
    keeps_bind hR.toFrame (keeps_setDecode hR _) fun _ =>
      keeps_bind hR.toFrame (keeps_putPixel hR.toToleratesWrites _ _ _) fun _ => keeps_advance hR 1

theorem keeps_suppliedBody (f : Family) (d : Decode) : Keeps R (suppliedBody f d) :=
  keeps_get_bind fun _ => keeps_bind hR.toFrame (keeps_setDecode hR _) fun _ =>
    keeps_bind hR.toFrame (keeps_loopFrom hR.toFrame (fun k => keeps_putPixel hR.toToleratesWrites _ _ k) _ _) fun _ =>
      keeps_advance hR _

theorem keeps_familyBody (par : Params) (f : Family) (d : Decode) : Keeps R (familyBody par f d) := by
  cases familyBody_shape par f d with
  | supplied _ e => rw [e]; exact keeps_suppliedBody hR f d
  | raw _ _ e => rw [e]; exact keeps_rawBody hR d
  | packet _ _ e => rw [e]; exact keeps_setDecode hR d
  | bit _ _ e => rw [e]; exact keeps_bitBody hR d

/-- A descriptor byte, where the relation tolerates the fault it may raise. -/
theorem keeps_descriptorBody (hf : ∀ s info, R s (s.raised .unknownDescriptor info)) (b : Byte) :
    Keeps R (descriptorBody b) :=
  keeps_bind hR.toFrame (keeps_decodeIn hR _) fun _ => keeps_get_bind fun s => by
    split
    · exact keeps_familyBody hR _ _ _
    · exact keeps_modify fun s => hf s _

/-- Every stream code that answers is tolerated. -/
theorem execCode_tolerated (hf : ∀ s info, R s (s.raised .unknownDescriptor info)) {i : Instr} {s t : State}
    (h : execCode i s = .next t) : R s t := by
  cases execCode_shape i with
  | command e => rw [e] at h; cases h
  | descriptor b e => rw [e] at h; exact keeps_next (keeps_descriptorBody hR hf b) h
  | colour ph f _ _ e => rw [e] at h; exact keeps_next (keeps_colourCode hR ph f) h
  | maskRun c e =>
    subst e
    refine keeps_next (keeps_bind hR.toFrame (keeps_maskDecodeIn hR) fun x => ?_) h
    dsimp only
    split
    · exact keeps_throw _
    · exact keeps_bind hR.toFrame (keeps_nextByte hR) fun _ =>
        keeps_bind hR.toFrame (keeps_loopFrom hR.toFrame (fun r => keeps_storeMask hR.toToleratesWrites _ _ _) _ _) fun _ => keeps_advance hR _
  | maskLit c e =>
    subst e
    refine keeps_next (keeps_bind hR.toFrame (keeps_maskDecodeIn hR) fun x => ?_) h
    dsimp only
    split
    · exact keeps_throw _
    · exact keeps_bind hR.toFrame (keeps_loopFrom hR.toFrame (fun r => keeps_bind hR.toFrame (keeps_nextByte hR) fun _ =>
        keeps_storeMask hR.toToleratesWrites _ _ _) _ _) fun _ => keeps_advance hR _
  | rle8Run n e =>
    subst e
    exact keeps_next (keeps_bind hR.toFrame (keeps_decodeIn hR _) fun _ => keeps_bind hR.toFrame (keeps_nextByte hR) fun _ =>
      keeps_bind hR.toFrame (keeps_loopFrom hR.toFrame (fun k => keeps_putPixel hR.toToleratesWrites _ _ k) _ _) fun _ => keeps_advance hR _) h
  | rle8Lit n e =>
    subst e
    exact keeps_next (keeps_bind hR.toFrame (keeps_decodeIn hR _) fun _ =>
      keeps_bind hR.toFrame (keeps_loopFrom hR.toFrame (fun k => keeps_bind hR.toFrame (keeps_nextByte hR) fun _ =>
        keeps_putPixel hR.toToleratesWrites _ _ k) _ _) fun _ => keeps_advance hR _) h
  | egaRun n c e =>
    subst e
    exact keeps_next (keeps_bind hR.toFrame (keeps_decodeIn hR _) fun _ =>
      keeps_bind hR.toFrame (keeps_extendedCount hR _) fun _ => keeps_egaPacket hR _ _ fun z => keeps_putPixel hR.toToleratesWrites _ _ _) h
  | egaCopyleft n e =>
    subst e
    exact keeps_next (keeps_bind hR.toFrame (keeps_decodeIn hR _) fun _ =>
      keeps_bind hR.toFrame (keeps_extendedCount hR _) fun _ => keeps_egaPacket hR _ _ fun z => keeps_copyLeft hR.toToleratesWrites _ _) h
  | egaDither n e =>
    subst e
    exact keeps_next (keeps_bind hR.toFrame (keeps_decodeIn hR _) fun _ => keeps_bind hR.toFrame (keeps_nextByte hR) fun _ =>
      keeps_bind hR.toFrame (keeps_extendedCount hR _) fun _ => keeps_egaPacket hR _ _ fun z => keeps_putPixel hR.toToleratesWrites _ _ _) h
  | mmrRun n e =>
    subst e
    exact keeps_next (keeps_bind hR.toFrame (keeps_decodeIn hR _) fun _ =>
      keeps_bind hR.toFrame (keeps_loopFrom hR.toFrame (fun k => keeps_putPixel hR.toToleratesWrites _ _ k) _ _) fun _ => keeps_advance hR _) h

end

end Sys2Proof.Machine
end

