-- ==== Sys2Proof/Laws/Blocks.lean ====
section
/-! SUPPORT. What copying and filling rows of bytes does, once for each loop; and when an address modulo `2^AW` is the plain
one. -/

namespace Sys2Proof.Machine

/-- Only memory changed, and it stays canonical. -/
def MemoryOnly (s t : State) : Prop := t = { s with mem := t.mem } ∧ Memory.wf t.mem = true

theorem memoryOnly_refl {s : State} (h : Memory.wf s.mem = true) : MemoryOnly s s := ⟨rfl, h⟩

theorem MemoryOnly.par {s t : State} (h : MemoryOnly s t) : t.par = s.par := by rw [h.1]

theorem memoryOnly_poke {s t : State} (h : MemoryOnly s t) (m : Memory) (hm : Memory.wf m = true) :
    MemoryOnly s { t with mem := m } := ⟨by rw [h.1], hm⟩

/-- One byte from a readable place to a place below the end of memory. -/
theorem run_copyByte {s : State} {dst src : Nat} (hs : readable s.par src 1) (hd : dst < 2 ^ s.par.addressBits) :
    StateT.run (copyByte dst src) s = .ok ((), { s with mem := pokeByte s.par s.mem dst (readByte s.mem src) }) := by
  have h := hs.1
  rw [copyByte, run_bind_ok (run_loadByte_mapped (by omega) (by simpa using hs.2 0 (by omega))), run_storeByte_fits hd]

theorem readable_sub {par : Params} {a n b m : Nat} (h : readable par a n) (h1 : a ≤ b) (h2 : b + m ≤ a + n) :
    readable par b m := by
  refine ⟨by have := h.1; omega, fun j hj => ?_⟩
  have := h.2 (b - a + j) (by omega)
  rwa [show a + (b - a + j) = b + j by omega] at this

/-- Copying `n` bytes between ranges that do not meet. -/
theorem copyBytes_spec {s : State} {n dst src : Nat} (hwf : Memory.wf s.mem = true) (hd : readable s.par dst n)
    (hs : readable s.par src n) (hne : ∀ j k, j < n → k < n → dst + j ≠ src + k) :
    Answers (copyBytes n dst src) s fun _ t => MemoryOnly s t
      ∧ (∀ j, j < n → readByte t.mem (dst + j) = readByte s.mem (src + j))
      ∧ ∀ a, ¬ (dst ≤ a ∧ a < dst + n) → readByte t.mem a = readByte s.mem a := by
  let I : Nat → State → Prop := fun i t => MemoryOnly s t
      ∧ (∀ j, j < i → readByte t.mem (dst + j) = readByte s.mem (src + j))
      ∧ ∀ a, ¬ (dst ≤ a ∧ a < dst + i) → readByte t.mem a = readByte s.mem a
  refine answers_mono (answers_loopFrom I n 0 ⟨memoryOnly_refl hwf, fun j h => by omega, fun _ _ => rfl⟩ ?_)
    fun _ t h => by simpa [I] using h
  rintro i t - hi ⟨hm, hc, ho⟩
  refine ⟨(), _, run_copyByte (by rw [hm.par]; exact readable_sub hs (by omega) (by omega)) (by rw [hm.par]; have := hd.1; omega), ?_⟩
  have hmap : mapped t.par (dst + i) = true := by rw [hm.par]; exact hd.2 i (by omega)
  refine ⟨memoryOnly_poke hm _ (wf_pokeByte _ hm.2 _ _), fun j hj => ?_, fun a ha => ?_⟩
  · by_cases h : j = i
    · subst h
      rw [readByte_pokeByte_self hm.2 hmap, ho _ (fun h => hne (src + j - dst) j (by omega) (by omega) (by omega))]
    · rw [readByte_pokeByte_ne _ _ _ (by omega), hc j (by omega)]
  · rw [readByte_pokeByte_ne _ _ _ (by omega), ho a (by omega)]

/-- Filling rows one after another: `f y` writes `val y j` to the `n` bytes from `D y` on, and nothing else. -/
theorem rows_spec {s : State} {f : Nat → M Unit} {n lo h : Nat} {D : Nat → Nat} {val : Nat → Nat → Byte}
    (hwf : Memory.wf s.mem = true)
    (apart : ∀ y z, lo ≤ y → y < z → z < lo + h → D y + n ≤ D z ∨ D z + n ≤ D y)
    (row : ∀ y t, lo ≤ y → y < lo + h → MemoryOnly s t →
      (∀ a, (∀ z, lo ≤ z → z < y → ¬ (D z ≤ a ∧ a < D z + n)) → readByte t.mem a = readByte s.mem a) →
      Answers (f y) t fun _ u => MemoryOnly t u ∧ (∀ j, j < n → readByte u.mem (D y + j) = val y j)
        ∧ ∀ a, ¬ (D y ≤ a ∧ a < D y + n) → readByte u.mem a = readByte t.mem a) :
    Answers (loopFrom f lo h) s fun _ t => MemoryOnly s t
      ∧ (∀ y j, lo ≤ y → y < lo + h → j < n → readByte t.mem (D y + j) = val y j)
      ∧ ∀ a, (∀ y, lo ≤ y → y < lo + h → ¬ (D y ≤ a ∧ a < D y + n)) → readByte t.mem a = readByte s.mem a := by
  let I : Nat → State → Prop := fun i t => MemoryOnly s t
      ∧ (∀ y j, lo ≤ y → y < i → j < n → readByte t.mem (D y + j) = val y j)
      ∧ ∀ a, (∀ y, lo ≤ y → y < i → ¬ (D y ≤ a ∧ a < D y + n)) → readByte t.mem a = readByte s.mem a
  refine answers_loopFrom I h lo ⟨memoryOnly_refl hwf, fun y j h1 h2 => by omega, fun _ _ => rfl⟩ ?_
  rintro i t hlo hi ⟨hm, hc, ho⟩
  refine answers_mono (row i t hlo hi hm ho) fun _ u hu => ?_
  obtain ⟨hu, hv, hw⟩ := hu
  refine ⟨⟨by rw [hu.1, hm.1], hu.2⟩, fun y j h1 h2 h3 => ?_, fun a ha => ?_⟩
  · by_cases h : y = i
    · subst h
      exact hv j h3
    · rw [hw _ (by have := apart y i h1 (by omega) hi; omega), hc y j h1 (by omega) h3]
  · rw [hw a (ha i hlo (by omega)), ho a fun y h1 h2 => ha y h1 (by omega)]

/-- Rows `pitch` apart do not overlap where they are no longer than the pitch. -/
theorem rows_apart {base pitch n : Nat} (h : n ≤ pitch) {y z : Nat} (hyz : y < z) : base + y * pitch + n ≤ base + z * pitch := by
  have := Nat.mul_le_mul_right pitch (Nat.succ_le_of_lt hyz)
  rw [Nat.succ_mul] at this
  omega

/-- Copying rows of `n` bytes from one block to another that it does not meet. -/
theorem copyRows_spec {s : State} {n pitch dst src h : Nat} (hwf : Memory.wf s.mem = true)
    (hd : blockReadable s.par dst pitch n h) (hs : blockReadable s.par src pitch n h)
    (hne : blocksDisjoint dst src pitch n h) (hn : n ≤ pitch) :
    Answers (copyRows n pitch dst src h) s fun _ t => MemoryOnly s t
      ∧ (∀ y j, y < h → j < n → readByte t.mem (dst + y * pitch + j) = readByte s.mem (src + y * pitch + j))
      ∧ sameOutside (blockCovers dst pitch n h) s t := by
  refine answers_mono (rows_spec (D := fun y => dst + y * pitch) (n := n)
    (val := fun y j => readByte s.mem (src + y * pitch + j)) hwf
    (fun y z _ hyz _ => .inl (rows_apart hn hyz)) fun y t _ hy hm ho => ?_) fun _ t ht => ?_
  · have hne' : ∀ z j k, z < h → j < n → k < n → dst + z * pitch + j ≠ src + y * pitch + k := fun z j k hz hj hk e =>
      hne (dst + z * pitch + j) ⟨z, hz, by omega, by omega⟩ ⟨y, by omega, by omega, by omega⟩
    refine answers_mono (copyBytes_spec hm.2 (by rw [hm.par]; exact hd y (by omega)) (by rw [hm.par]; exact hs y (by omega))
      fun j k hj hk => hne' y j k (by omega) hj hk) fun _ u hu => ⟨hu.1, fun j hj => ?_, hu.2.2⟩
    rw [hu.2.1 j hj, ho]
    rintro z - hz ⟨h1, h2⟩
    exact hne' z (src + y * pitch + j - (dst + z * pitch)) j (by omega) (by omega) hj (by omega)
  · refine ⟨ht.1, fun y j hy hj => ht.2.1 y j (by omega) (by omega) hj, fun a ha => ht.2.2 a fun y _ hy h2 => ha ⟨y, by omega, h2⟩⟩

/-- One byte between places below the end of memory. -/
theorem copyByte_answers {s : State} {dst src : Nat} (hs : src < 2 ^ s.par.addressBits) (hd : dst < 2 ^ s.par.addressBits) :
    Answers (copyByte dst src) s fun _ t => onlyMemory s t ∧ ∀ a, a ≠ dst → readByte t.mem a = readByte s.mem a := by
  refine answers_bind (P := fun _ t => t = { s with freeCount := t.freeCount }) ?_ fun v t ht => ?_
  · by_cases hm : mapped s.par src = true
    · exact ⟨_, s, run_loadByte_mapped hs hm, rfl⟩
    · exact ⟨_, _, by rw [run_loadByte, if_pos hs, if_neg hm], rfl⟩
  · have hp : t.par = s.par := by rw [ht]
    refine ⟨(), _, run_storeByte_fits (by rw [hp]; exact hd) v, ?_, fun a ha => ?_⟩
    · change _ = _
      rw [ht]
    · rw [readByte_pokeByte_ne _ _ _ ha, ht]

theorem onlyMemory_trans {s t u : State} (h : onlyMemory s t) (g : onlyMemory t u) : onlyMemory s u := by
  unfold onlyMemory at *
  rw [g, h]

/-- Copying `n` bytes anywhere below the end of memory, whatever overlaps. -/
theorem copyBytes_answers {s : State} {n dst src : Nat} (hs : src + n ≤ 2 ^ s.par.addressBits)
    (hd : dst + n ≤ 2 ^ s.par.addressBits) :
    Answers (copyBytes n dst src) s fun _ t => onlyMemory s t
      ∧ ∀ a, ¬ (dst ≤ a ∧ a < dst + n) → readByte t.mem a = readByte s.mem a := by
  let I : Nat → State → Prop := fun _ t => onlyMemory s t
      ∧ ∀ a, ¬ (dst ≤ a ∧ a < dst + n) → readByte t.mem a = readByte s.mem a
  refine answers_loopFrom I n 0 ⟨rfl, fun _ _ => rfl⟩ ?_
  rintro i t - hi ⟨hm, ho⟩
  have hp : t.par = s.par := by rw [hm]
  refine answers_mono (copyByte_answers (by rw [hp]; omega) (by rw [hp]; omega)) fun _ u hu => ?_
  exact ⟨onlyMemory_trans hm hu.1, fun a ha => by rw [hu.2 a (by omega), ho a ha]⟩

/-- Copying rows anywhere below the end of memory, whatever overlaps. -/
theorem copyRows_answers {s : State} {n pitch dst src h : Nat} (hs : blockFits s.par src pitch n h)
    (hd : blockFits s.par dst pitch n h) :
    Answers (copyRows n pitch dst src h) s fun _ t => onlyMemory s t ∧ sameOutside (blockCovers dst pitch n h) s t := by
  let I : Nat → State → Prop := fun _ t => onlyMemory s t ∧ sameOutside (blockCovers dst pitch n h) s t
  refine answers_loopFrom I h 0 ⟨rfl, fun _ _ => rfl⟩ ?_
  rintro i t - hi ⟨hm, ho⟩
  have hp : t.par = s.par := by rw [hm]
  refine answers_mono (copyBytes_answers (by rw [hp]; exact hs i (by omega)) (by rw [hp]; exact hd i (by omega))) fun _ u hu => ?_
  exact ⟨onlyMemory_trans hm hu.1, fun a ha => by rw [hu.2 a fun h => ha ⟨i, by omega, h⟩, ho a ha]⟩

/-- Zeroing `n` bytes. -/
theorem clearBytes_spec {s : State} {n dst : Nat} (hwf : Memory.wf s.mem = true) (hd : readable s.par dst n) :
    Answers (clearBytes n dst) s fun _ t => MemoryOnly s t ∧ (∀ j, j < n → readByte t.mem (dst + j) = 0)
      ∧ ∀ a, ¬ (dst ≤ a ∧ a < dst + n) → readByte t.mem a = readByte s.mem a := by
  let I : Nat → State → Prop := fun i t => MemoryOnly s t ∧ (∀ j, j < i → readByte t.mem (dst + j) = 0)
      ∧ ∀ a, ¬ (dst ≤ a ∧ a < dst + i) → readByte t.mem a = readByte s.mem a
  refine answers_mono (answers_loopFrom I n 0 ⟨memoryOnly_refl hwf, fun j h => by omega, fun _ _ => rfl⟩ ?_)
    fun _ t h => by simpa [I] using h
  rintro i t - hi ⟨hm, hc, ho⟩
  refine ⟨(), _, run_storeByte_fits (by rw [hm.par]; have := hd.1; omega) 0, ?_⟩
  have hmap : mapped t.par (dst + i) = true := by rw [hm.par]; exact hd.2 i (by omega)
  refine ⟨memoryOnly_poke hm _ (wf_pokeByte _ hm.2 _ _), fun j hj => ?_, fun a ha => ?_⟩
  · by_cases h : j = i
    · subst h
      exact readByte_pokeByte_self hm.2 hmap 0
    · rw [readByte_pokeByte_ne _ _ _ (by omega), hc j (by omega)]
  · rw [readByte_pokeByte_ne _ _ _ (by omega), ho a (by omega)]

/-- Zeroing rows of `n` bytes; they may overlap. -/
theorem clearRows_spec {s : State} {n pitch dst h : Nat} (hwf : Memory.wf s.mem = true)
    (hd : blockReadable s.par dst pitch n h) :
    Answers (clearRows n pitch dst h) s fun _ t => MemoryOnly s t
      ∧ (∀ a, blockCovers dst pitch n h a → readByte t.mem a = 0) ∧ sameOutside (blockCovers dst pitch n h) s t := by
  let I : Nat → State → Prop := fun i t => MemoryOnly s t
      ∧ (∀ a, blockCovers dst pitch n i a → readByte t.mem a = 0) ∧ sameOutside (blockCovers dst pitch n i) s t
  refine answers_mono (answers_loopFrom I h 0 ⟨memoryOnly_refl hwf, fun a h => ?_, fun _ _ => rfl⟩ ?_)
    fun _ t h => by simpa [I] using h
  · obtain ⟨y, hy, _⟩ := h
    omega
  · rintro i t - hi ⟨hm, hc, ho⟩
    refine answers_mono (clearBytes_spec hm.2 (by rw [hm.par]; exact hd i (by omega))) fun _ u hu => ?_
    obtain ⟨hu, hv, hw⟩ := hu
    have hzero : ∀ a, dst + i * pitch ≤ a ∧ a < dst + i * pitch + n → readByte u.mem a = 0 := fun a ha => by
      have := hv (a - (dst + i * pitch)) (by omega)
      rwa [show dst + i * pitch + (a - (dst + i * pitch)) = a by omega] at this
    refine ⟨⟨by rw [hu.1, hm.1], hu.2⟩, fun a => ?_, fun a ha => ?_⟩
    · rintro ⟨y, hy, h1, h2⟩
      by_cases h : dst + i * pitch ≤ a ∧ a < dst + i * pitch + n
      · exact hzero a h
      · have : y ≠ i := fun e => h (by subst e; exact ⟨h1, h2⟩)
        rw [hw a h, hc a ⟨y, by omega, h1, h2⟩]
    · have h0 : ¬ (dst + i * pitch ≤ a ∧ a < dst + i * pitch + n) := fun h => ha ⟨i, by omega, h⟩
      rw [hw a h0, ho a fun ⟨y, hy, h⟩ => ha ⟨y, by omega, h⟩]

/-- A pixel address that needs no reduction (43_virtual_screen.md R151, 20_memory.md R51). -/
theorem pixAddr_eq {par : Params} {x : VScreen} {c y : Nat} (h : pixelAt x.pix.toNat x c y < 2 ^ par.addressBits) :
    pixAddr par x c y = pixelAt x.pix.toNat x c y := by
  rw [pixAddr, pixelOffset, show (x.pix.toNat : Int) + ((y : Int) * x.pitch.toNat + (x.xstart.toNat + (c : Int)) * bytesPerPixel x.format)
    = ((pixelAt x.pix.toNat x c y : Nat) : Int) by rw [pixelAt]; push_cast; ring]
  rw [Int.emod_eq_of_lt (by omega) (by exact_mod_cast h)]
  exact Int.toNat_natCast _

theorem backAddr_eq {par : Params} {x : VScreen} {c y : Nat} (h : pixelAt x.back.toNat x c y < 2 ^ par.addressBits) :
    backAddr par x c y = pixelAt x.back.toNat x c y := by
  rw [backAddr, pixelOffset, show (x.back.toNat : Int) + ((y : Int) * x.pitch.toNat + (x.xstart.toNat + (c : Int)) * bytesPerPixel x.format)
    = ((pixelAt x.back.toNat x c y : Nat) : Int) by rw [pixelAt]; push_cast; ring]
  rw [Int.emod_eq_of_lt (by omega) (by exact_mod_cast h)]
  exact Int.toNat_natCast _

/-- An address of 32 bits is what `RESULT` holds (43_virtual_screen.md R152). -/
theorem addressResult_toNat {a : Nat} (h : a < 2 ^ 32) : (addressResult a).toNat = a := by
  rw [addressResult, if_pos h, BitVec.toNat_ofNat, Nat.mod_eq_of_lt h]

/-- An address computed modulo `2^AW` lies inside the address space. -/
theorem pixAddr_lt (par : Params) (x : VScreen) (c y : Int) : pixAddr par x c y < 2 ^ par.addressBits := by
  have h : (0 : Int) < (2 ^ par.addressBits : Nat) := by exact_mod_cast Nat.two_pow_pos _
  have := Int.emod_lt_of_pos ((x.pix.toNat : Int) + pixelOffset x c y) h
  have := Int.emod_nonneg ((x.pix.toNat : Int) + pixelOffset x c y) (by omega : ((2 ^ par.addressBits : Nat) : Int) ≠ 0)
  rw [pixAddr]
  omega

/-- Pixels of a row follow one another. -/
theorem pixelAt_col (base : Nat) (x : VScreen) (l c y : Nat) :
    pixelAt base x (l + c) y = pixelAt base x l y + c * bytesPerPixel x.format := by
  simp only [pixelAt]
  ring

/-- Rows of a screen are a pitch apart. -/
theorem pixelAt_row (base : Nat) (x : VScreen) (c t y : Nat) :
    pixelAt base x c (t + y) = pixelAt base x c t + y * x.pitch.toNat := by
  simp only [pixelAt]
  ring

end Sys2Proof.Machine
end

