-- ==== Sys2Proof/Laws/Commands.lean ====
section
/-! SUPPORT. What each command can do, said once, and what every instruction keeps. -/

namespace Sys2Proof.Machine

/-! The check of the screen -/

theorem run_withScreen (v : BitVec 2) (w : Word) (body : VScreen → M Unit) (s : State) :
    runM (withScreen v w body) s =
      if (s.screen v).valid then runM (body (s.screen v)) s else .next (s.raised .configError w) := by
  have e : StateT.run (withScreen v w body) s
      = StateT.run (if (s.screen v).valid then body (s.screen v) else raise .configError w) s := rfl
  rw [runM, e]
  cases (s.screen v).valid <;> rfl

theorem withScreen_valid {v : BitVec 2} {s : State} (h : (s.screen v).valid = true) (w : Word) (body : VScreen → M Unit) :
    runM (withScreen v w body) s = runM (body (s.screen v)) s := by
  rw [run_withScreen, if_pos h]

theorem withScreen_invalid {v : BitVec 2} {s : State} (h : (s.screen v).valid = false) (w : Word) (body : VScreen → M Unit) :
    runM (withScreen v w body) s = .next (s.raised .configError w) := by
  rw [run_withScreen, if_neg (by simp [h])]

/-- A command on a screen answers through its body or through the fault. -/
theorem withScreen_inv {v : BitVec 2} {w : Word} {body : VScreen → M Unit} {s t : State}
    (h : runM (withScreen v w body) s = .next t) :
    ((s.screen v).valid = true ∧ runM (body (s.screen v)) s = .next t)
      ∨ ((s.screen v).valid = false ∧ t = s.raised .configError w) := by
  cases hv : (s.screen v).valid with
  | true => rw [withScreen_valid hv] at h; exact .inl ⟨rfl, h⟩
  | false =>
    rw [withScreen_invalid hv] at h
    cases h
    exact .inr ⟨rfl, rfl⟩

@[simp] theorem runM_raise (c : FaultCode) (info : Word) (s : State) : runM (raise c info) s = .next (s.raised c info) := rfl

@[simp] theorem runM_modify (f : State → State) (s : State) : runM (modify f) s = .next (f s) := rfl

@[simp] theorem runM_pure (s : State) : runM (pure ()) s = .next s := rfl

theorem runM_ite (c : Prop) [Decidable c] (m n : M Unit) (s : State) :
    runM (if c then m else n) s = if c then runM m s else runM n s := by
  split <;> rfl

/-! Marks -/

/-- What a mark changes: the two dirty arrays of one screen. -/
theorem markRegion_eq (s : State) (v : BitVec 2) (l r t b : Int) :
    ∃ ts bs, markRegion s v l r t b = s.setScreen v { s.screen v with tdirty := ts, bdirty := bs } := by
  rw [markRegion]
  dsimp only
  split
  · exact ⟨(s.screen v).tdirty, (s.screen v).bdirty, (setScreen_self s v).symm⟩
  · split
    · exact ⟨(s.screen v).tdirty, (s.screen v).bdirty, (setScreen_self s v).symm⟩
    · exact ⟨_, _, rfl⟩

/-! Every instruction -/

/-- A frame that tolerates what the commands that draw may do: writes and marks. -/
structure ToleratesMarks (R : State → State → Prop) : Prop extends ToleratesWrites R where
  mark : ∀ s v l r t b, R s (markRegion s v l r t b)

/-- A frame that tolerates what a command that reads no stream and emits no event may do. -/
structure ToleratesPlain (R : State → State → Prop) : Prop extends ToleratesMarks R where
  /-- the unit never raises code 3 (60_exceptions.md R190) -/
  raised : ∀ s c info, c ≠ .unknownTransition → R s (s.raised c info)
  create : ∀ s v f, geometryOk s.par.maxStrips (s.countOperand 0) (s.countOperand 1) (s.countOperand 2) (bytesPerPixel f) = true →
    R s (s.setScreen v (createdScreen s f (s.screen v)))

/-- A frame that tolerates what any instruction but FLUSH may do. -/
structure ToleratesCommands (R : State → State → Prop) : Prop extends Tolerates R, ToleratesPlain R

section
variable {R : State → State → Prop}

theorem execCode_tolerated_all (hR : ToleratesCommands R) {i : Instr} {s t : State} (h : execCode i s = .next t) : R s t :=
  execCode_tolerated hR.toTolerates (fun s info => hR.raised s _ info (by decide)) h

theorem codeStep_inv {s t : State} (h : codeStep s = .next t) :
    ∃ i u, StateT.run fetchCode s = .ok (i, u) ∧ execCode i u = .next t := by
  rw [codeStep] at h
  split at h
  · next i u e => exact ⟨i, u, e, h⟩
  · next e _ => exact absurd h (stopOutcome_ne_next e t)

theorem codeStep_tolerated (hR : ToleratesCommands R) {s t : State} (h : codeStep s = .next t) : R s t := by
  obtain ⟨i, u, h1, h2⟩ := codeStep_inv h
  exact hR.trans (keeps_fetchCode hR.toTolerates s i u h1) (execCode_tolerated_all hR h2)

/-- A run of codes ends with no decode in progress, having taken one code at a time. -/
theorem runCodes_induct {P : State → State → Prop} (hend : ∀ s, s.dec = none → P s s)
    (hstep : ∀ s u t d, s.dec = some d → codeStep s = .next u → P u t → P s t) :
    ∀ {n : Nat} {s t : State}, runCodes n s = .next t → P s t := by
  intro n
  induction n with
  | zero =>
    intro s t h
    rw [runCodes] at h
    split at h
    · next hd => cases h; exact hend s hd
    · cases h
  | succ n ih =>
    intro s t h
    rw [runCodes] at h
    split at h
    · next hd => cases h; exact hend s hd
    · next d hd =>
      obtain ⟨u, h1, h2⟩ := andThen_eq_next.mp h
      exact hstep s u t d hd h1 (ih h2)

theorem runCodes_dec {n : Nat} {s t : State} (h : runCodes n s = .next t) : t.dec = none :=
  runCodes_induct (P := fun _ t => t.dec = none) (fun _ h => h) (fun _ _ _ _ _ _ h => h) h

theorem finishDecode_tolerated (hR : ToleratesCommands R) {s t : State} (h : finishDecode s = .next t) : R s t :=
  runCodes_induct (P := R) (fun s _ => hR.refl s) (fun _ _ _ _ _ h1 h2 => hR.trans (codeStep_tolerated hR h1) h2) h

theorem keeps_raise (hR : ToleratesPlain R) {c : FaultCode} (h : c ≠ .unknownTransition) (info : Word) :
    Keeps R (raise c info) :=
  keeps_modify fun s => hR.raised s c info h

theorem keeps_withScreen (hR : ToleratesPlain R) (v : BitVec 2) (w : Word) {body : VScreen → M Unit}
    (hb : ∀ x, Keeps R (body x)) : Keeps R (withScreen v w body) := by
  refine keeps_get_bind fun s => ?_
  split
  · exact hb _
  · exact keeps_raise hR (by decide) _

theorem keeps_mark (hR : ToleratesMarks R) (v : BitVec 2) (l r t b : Int) :
    Keeps R (modify fun s => markRegion s v l r t b : M Unit) :=
  keeps_modify fun s => hR.mark s v l r t b

theorem keeps_copyRows (hR : ToleratesWrites R) (n p d a h : Nat) : Keeps R (copyRows n p d a h) :=
  keeps_loopFrom hR.toFrame (fun _ => keeps_copyBytes hR.toFrame hR.free hR.mem n _ _) h 0

theorem keeps_clearRows (hR : ToleratesWrites R) (n p d h : Nat) : Keeps R (clearRows n p d h) :=
  keeps_loopFrom hR.toFrame (fun _ => keeps_clearBytes hR.toFrame hR.mem n _) h 0

theorem keeps_restoreBackground (hR : ToleratesMarks R) (v : BitVec 2) (x : VScreen) :
    Keeps R (restoreBackground v x) := by
  refine keeps_get_bind fun s => ?_
  dsimp only
  split
  · exact keeps_pure hR.toFrame ()
  · split
    · exact keeps_bind hR.toFrame (keeps_loopFrom hR.toFrame (fun y => keeps_copyBytes hR.toFrame hR.free hR.mem _ _ _) _ _)
        fun _ => keeps_mark hR v _ _ _ _
    · exact keeps_bind hR.toFrame (keeps_loopFrom hR.toFrame
        (fun y => keeps_loopFrom hR.toFrame (fun c => keeps_poke hR.toToleratesWrites _ _ _) _ _) _ _)
        fun _ => keeps_mark hR v _ _ _ _

theorem keeps_blitPixel (hR : ToleratesWrites R) (sc : VScreen) (o : Blit) (y x : Nat) : Keeps R (blitPixel sc o y x) := by
  refine keeps_get_bind fun s => ?_
  refine keeps_bind hR.toFrame (keeps_number hR _ _) fun p => ?_
  split
  · exact keeps_pure hR.toFrame ()
  · split
    · refine keeps_bind hR.toFrame (keeps_byte hR _) fun m => ?_
      split
      · exact keeps_pure hR.toFrame ()
      · exact keeps_poke hR _ _ _
    · exact keeps_poke hR _ _ _

theorem keeps_blitMasked (hR : ToleratesMarks R) (v : BitVec 2) (x : VScreen) : Keeps R (blitMasked v x) := by
  refine keeps_get_bind fun s => ?_
  dsimp only
  split
  · exact keeps_pure hR.toFrame ()
  · exact keeps_bind hR.toFrame (keeps_loopFrom hR.toFrame (fun y => keeps_loopFrom hR.toFrame
      (fun c => keeps_blitPixel hR.toToleratesWrites _ _ _ _) _ _) _ _) fun _ => keeps_mark hR v _ _ _ _

theorem keeps_legacyDecode (hR : ToleratesWrites R) (f : PixelFormat) : Keeps R (legacyDecode f) := by
  refine keeps_get_bind fun s => ?_
  refine keeps_bind hR.toFrame (keeps_loopFrom hR.toFrame (fun k => keeps_poke hR _ _ _) _ _) fun _ => ?_
  exact keeps_modify fun s => hR.result s _

theorem keeps_beginDecodeStrip (hR : ToleratesCommands R) (v : BitVec 2) : Keeps R (beginDecodeStrip v) := by
  refine keeps_withScreen hR.toToleratesPlain _ _ fun x => keeps_get_bind fun s => ?_
  split
  · exact keeps_raise hR.toToleratesPlain (by decide) _
  · split
    · exact keeps_throw _
    · split
      · exact keeps_setDecode hR.toTolerates _
      · exact keeps_legacyDecode hR.toToleratesWrites _

theorem keeps_beginDecodeMask (hR : Tolerates R) (merge : Bool) : Keeps R (beginDecodeMask merge) := by
  refine keeps_get_bind fun s => ?_
  split
  · exact keeps_pure hR.toFrame ()
  · exact keeps_setDecode hR _

theorem keeps_lookupEntry (hR : ToleratesPlain R) (a i n l : Nat) : Keeps R (lookupEntry a i n l) := by
  refine keeps_bind hR.toFrame (keeps_number hR.toToleratesWrites _ _) fun off => ?_
  split
  · exact keeps_raise hR (by decide) _
  · exact keeps_modify fun s => hR.result s _

/-- The commands that read no stream and emit no event are tolerated. -/
theorem exec_plain_tolerated (hR : ToleratesPlain R) {c : Nat × (BitVec 2 → Instr)} {v : BitVec 2} {s t : State}
    (hc : c ∈ commandTable) (hi : c.1 ∉ [0x10, 0x11, 0x12, 0x21]) (h : exec (c.2 v) s = .next t) : R s t := by
  simp only [commandTable, screenCommands, otherCommands, List.cons_append, List.nil_append, List.mem_cons,
    List.not_mem_nil, or_false] at hc
  rcases hc with rfl | rfl | rfl | rfl | rfl | rfl | rfl | rfl | rfl | rfl | rfl | rfl | rfl | rfl
  · simp at hi
  · exact keeps_next (keeps_withScreen hR _ _ fun _ => keeps_modify fun s => hR.mark s _ _ _ _ _) h
  · simp at hi
  · exact keeps_next (keeps_withScreen hR _ _ fun x => keeps_restoreBackground hR.toToleratesMarks _ _) h
  · exact keeps_next (keeps_withScreen hR _ _ fun x => keeps_copyRows hR.toToleratesWrites _ _ _ _ _) h
  · exact keeps_next (keeps_withScreen hR _ _ fun x => keeps_clearRows hR.toToleratesWrites _ _ _ _) h
  · refine keeps_next (keeps_withScreen hR _ _ fun x => ?_) h
    split
    · dsimp only
      split
      · exact keeps_copyRows hR.toToleratesWrites _ _ _ _ _
      · exact keeps_clearRows hR.toToleratesWrites _ _ _ _
    · exact keeps_pure hR.toFrame ()
  · exact keeps_next (keeps_withScreen hR _ _ fun x => keeps_blitMasked hR.toToleratesMarks _ _) h
  · exact keeps_next (keeps_withScreen hR _ _ fun _ => keeps_modify fun s => hR.result s _) h
  · exact keeps_next (keeps_withScreen hR _ _ fun _ => keeps_modify fun s => hR.result s _) h
  · change execVsInit v s = _ at h
    rw [execVsInit] at h
    split at h
    · cases h; exact hR.raised s _ _ (by decide)
    · split at h
      · next f _ hg => cases h; exact hR.create s v f hg
      · cases h; exact hR.raised s _ _ (by decide)
  · simp at hi
  · simp at hi
  · change runM _ s = _ at h
    split at h
    · cases h; exact hR.raised s _ _ (by decide)
    · split at h
      · cases h; exact hR.raised s _ _ (by decide)
      · exact keeps_next (keeps_lookupEntry hR _ _ _ _) h

/-- Every instruction but FLUSH that answers is tolerated. -/
theorem exec_tolerated (hR : ToleratesCommands R) {i : Instr} {s t : State} (hi : ∀ v, i ≠ .flush v)
    (h : exec i s = .next t) : R s t := by
  have decode : ∀ m : M Unit, Keeps R m → andThen (runM m (s.setDec none)) finishDecode = .next t → R s t := by
    intro m hm h
    obtain ⟨u, h1, h2⟩ := andThen_eq_next.mp h
    exact hR.trans (hR.trans (hR.dec s none) (keeps_next hm h1)) (finishDecode_tolerated hR h2)
  by_cases hc : ∃ c ∈ commandTable, ∃ v, i = c.2 v
  · obtain ⟨c, hc, v, rfl⟩ := hc
    by_cases hd : c.1 ∈ [0x10, 0x11, 0x12, 0x21]
    · simp only [commandTable, screenCommands, otherCommands, List.cons_append, List.nil_append, List.mem_cons,
        List.not_mem_nil, or_false] at hc
      rcases hc with rfl | rfl | rfl | rfl | rfl | rfl | rfl | rfl | rfl | rfl | rfl | rfl | rfl | rfl <;>
        simp only [List.mem_cons, List.not_mem_nil, or_false] at hd
      case inl => exact decode _ (keeps_beginDecodeStrip hR v) h
      case inr.inr.inl => exact absurd rfl (hi v)
      case inr.inr.inr.inr.inr.inr.inr.inr.inr.inr.inr.inl => exact decode _ (keeps_beginDecodeMask hR.toTolerates false) h
      case inr.inr.inr.inr.inr.inr.inr.inr.inr.inr.inr.inr.inl =>
        exact decode _ (keeps_beginDecodeMask hR.toTolerates true) h
      all_goals omega
    · exact exec_plain_tolerated hR.toToleratesPlain hc hd h
  · refine execCode_tolerated_all hR (i := i) ?_
    rw [← exec_eq_execCode (fun c hc' v e => hc ⟨c, hc', v, e⟩)]
    exact h

theorem keeps_emitRun (hR : Frame R) (hf : ∀ s n, R s { s with freeCount := n }) (he : ∀ s e, R s (s.addEvent e))
    (v : BitVec 2) (x : VScreen) (r : DirtyRun) : Keeps R (emitRun v x r) :=
  keeps_get_bind fun _ => keeps_bind hR (keeps_loadRows hR hf _ _ _ _) fun _ => keeps_modify fun s => he s _

theorem keeps_emitRuns (hR : Frame R) (hf : ∀ s n, R s { s with freeCount := n }) (he : ∀ s e, R s (s.addEvent e))
    (v : BitVec 2) (x : VScreen) : ∀ rs, Keeps R (emitRuns v x rs)
  | [] => keeps_pure hR ()
  | r :: rs => keeps_bind hR (keeps_emitRun hR hf he v x r) fun _ => keeps_emitRuns hR hf he v x rs

/-- What FLUSH can do: the fault, or events and then clean strips and the count. -/
theorem execFlush_inv {v : BitVec 2} {s t : State} (h : execFlush v s = .next t) :
    ((s.screen v).valid = false ∧ t = s.raised .configError (commandWord 0x21 v))
      ∨ ((s.screen v).valid = true ∧ ∃ u,
          StateT.run (emitRuns v (s.screen v) (coalesce 0 (dirtyPairs (s.screen v)))) s = .ok ((), u)
          ∧ t = (u.setScreen v (cleanScreen (s.screen v))).setResult
              (BitVec.ofNat 32 (coalesce 0 (dirtyPairs (s.screen v))).length)) := by
  rcases withScreen_inv h with ⟨hv, h⟩ | ⟨hv, h⟩
  · obtain ⟨_, u, h1, h2⟩ := run_bind_inv (runM_eq_next.mp h)
    cases h2
    exact .inr ⟨hv, u, h1, rfl⟩
  · exact .inl ⟨hv, h⟩

/-- The screens stay as they are while events are emitted. -/
theorem emitRuns_screens {v : BitVec 2} {x : VScreen} {rs : List DirtyRun} {s t : State}
    (h : StateT.run (emitRuns v x rs) s = .ok ((), t)) : t.screens = s.screens :=
  keeps_emitRuns (frame_part State.screens) (fun _ _ => rfl) (fun _ _ => rfl) v x rs s () t h

end

end Sys2Proof.Machine
end

