-- ==== Sys2Proof/Laws/Dirty.lean ====
section
/-! SUPPORT. The dirty arrays entry by entry, and what the runs of a FLUSH are. -/

namespace Sys2Proof.Machine

/-! The arrays, entry by entry -/

theorem getD_mapIdx_half {f : Nat → Half → Half} {xs : List Half} {i : Nat} (h : i < xs.length) :
    (xs.mapIdx f).getD i 0 = f i (xs.getD i 0) := by
  simp [List.getD_eq_getElem?_getD, h]

@[simp] theorem length_lowerTops (lo hi t : Nat) (xs : List Half) : (lowerTops lo hi t xs).length = xs.length := by
  simp [lowerTops]

@[simp] theorem length_raiseBottoms (lo hi b : Nat) (xs : List Half) : (raiseBottoms lo hi b xs).length = xs.length := by
  simp [raiseBottoms]

@[simp] theorem length_setFirst (n : Nat) (v : Half) (xs : List Half) : (setFirst n v xs).length = xs.length := by
  simp [setFirst]

/-- The top of a strip in the range becomes the smaller one. -/
theorem getD_lowerTops {lo hi t : Nat} {xs : List Half} {i : Nat} (h : i < xs.length) (ht : t < 2 ^ 16) :
    ((lowerTops lo hi t xs).getD i 0).toNat
      = if lo ≤ i ∧ i ≤ hi then min (xs.getD i 0).toNat t else (xs.getD i 0).toNat := by
  rw [lowerTops, getD_mapIdx_half h]
  split
  · next h1 => rw [if_pos ⟨h1.1, h1.2.1⟩, BitVec.toNat_ofNat, Nat.mod_eq_of_lt ht]; omega
  · next h1 =>
    split
    · next h2 => have : ¬ t < (xs.getD i 0).toNat := fun h3 => h1 ⟨h2.1, h2.2, h3⟩; omega
    · rfl

/-- The bottom of a strip in the range becomes the larger one. -/
theorem getD_raiseBottoms {lo hi b : Nat} {xs : List Half} {i : Nat} (h : i < xs.length) (hb : b < 2 ^ 16) :
    ((raiseBottoms lo hi b xs).getD i 0).toNat
      = if lo ≤ i ∧ i ≤ hi then max (xs.getD i 0).toNat b else (xs.getD i 0).toNat := by
  rw [raiseBottoms, getD_mapIdx_half h]
  split
  · next h1 => rw [if_pos ⟨h1.1, h1.2.1⟩, BitVec.toNat_ofNat, Nat.mod_eq_of_lt hb]; omega
  · next h1 =>
    split
    · next h2 => have : ¬ (xs.getD i 0).toNat < b := fun h3 => h1 ⟨h2.1, h2.2, h3⟩; omega
    · rfl

theorem getD_setFirst {n : Nat} {v : Half} {xs : List Half} {i : Nat} (h : i < xs.length) :
    (setFirst n v xs).getD i 0 = if i < n then v else xs.getD i 0 := by
  rw [setFirst, getD_mapIdx_half h]

/-- Setting the first entries again changes nothing. -/
theorem setFirst_setFirst (n : Nat) (v : Half) (xs : List Half) : setFirst n v (setFirst n v xs) = setFirst n v xs := by
  refine List.ext_getElem (by simp) fun i h1 h2 => ?_
  simp only [setFirst, List.getElem_mapIdx]
  split <;> rfl

/-- A mark that is not ignored: the clipped rows, and the strips whose columns the clipped rectangle meets. -/
theorem markRegion_widens {s : State} {v : BitVec 2} {left right top bottom : Int}
    (h : ¬ (left > right ∨ top > bottom))
    (h2 : ¬ ((max left 0 > min right ((s.screen v).width.toNat - 1) ∧ s.par.clampOutside = false)
      ∨ max top 0 > min bottom (s.screen v).height.toNat ∨ stripCount (s.screen v) = 0)) :
    markRegion s v left right top bottom = s.setScreen v { s.screen v with
      tdirty := lowerTops (min ((max left 0).toNat / 8) (stripCount (s.screen v) - 1))
        (min ((min right ((s.screen v).width.toNat - 1)).toNat / 8) (stripCount (s.screen v) - 1)) (max top 0).toNat
        (s.screen v).tdirty
      bdirty := raiseBottoms (min ((max left 0).toNat / 8) (stripCount (s.screen v) - 1))
        (min ((min right ((s.screen v).width.toNat - 1)).toNat / 8) (stripCount (s.screen v) - 1))
        (min bottom (s.screen v).height.toNat).toNat (s.screen v).bdirty } := by
  rw [markRegion]
  dsimp only
  rw [if_neg h, if_neg h2]

/-- A mark that is ignored. -/
theorem markRegion_ignored {s : State} {v : BitVec 2} {left right top bottom : Int}
    (h : (left > right ∨ top > bottom)
      ∨ (max left 0 > min right ((s.screen v).width.toNat - 1) ∧ s.par.clampOutside = false)
      ∨ max top 0 > min bottom (s.screen v).height.toNat ∨ stripCount (s.screen v) = 0) :
    markRegion s v left right top bottom = s := by
  rw [markRegion]
  dsimp only
  split
  · rfl
  · next h1 =>
    rw [if_pos (h.resolve_left h1)]

/-- Marks do not look at memory. -/
theorem markRegion_mem (s : State) (v : BitVec 2) (l r t b : Int) (m : Memory) :
    markRegion { s with mem := m } v l r t b = { markRegion s v l r t b with mem := m } := by
  rw [markRegion, markRegion]
  have e : ({ s with mem := m } : State).screen v = s.screen v := rfl
  dsimp only
  rw [e]
  split
  · rfl
  · split <;> rfl

/-! Runs -/

theorem mem_joinRun {i t b : Nat} {rs : List DirtyRun} {r : DirtyRun} (h : r ∈ joinRun i t b rs) :
    r ∈ rs ∨ r = ⟨i, 1, t, b⟩
      ∨ ∃ q ∈ rs.head?, q.first = i + 1 ∧ q.top = t ∧ q.bottom = b ∧ r = ⟨i, q.len + 1, t, b⟩ := by
  cases rs with
  | nil =>
    rw [joinRun] at h
    exact .inr (.inl (List.mem_singleton.1 h))
  | cons q rest =>
    rw [joinRun] at h
    split at h
    · next hq =>
      rcases List.mem_cons.1 h with h | h
      · exact .inr (.inr ⟨q, by simp, hq.1, hq.2.1, hq.2.2, h⟩)
      · exact .inl (List.mem_cons_of_mem _ h)
    · rcases List.mem_cons.1 h with h | h
      · exact .inr (.inl h)
      · exact .inl h

/-- Every run lies among the strips, is not empty, has a span, and all its strips have that span. -/
theorem coalesce_runs {ps : List (Nat × Nat)} : ∀ {i : Nat} {r : DirtyRun}, r ∈ coalesce i ps →
    i ≤ r.first ∧ 0 < r.len ∧ r.first + r.len ≤ i + ps.length ∧ r.top < r.bottom
      ∧ ∀ j, r.first ≤ j → j < r.first + r.len → ps[j - i]? = some (r.top, r.bottom) := by
  induction ps with
  | nil => intro i r h; cases h
  | cons p ps ih =>
    obtain ⟨t, b⟩ := p
    intro i r h
    have later : ∀ {q : DirtyRun}, q ∈ coalesce (i + 1) ps → i + 1 ≤ q.first ∧ 0 < q.len ∧ q.first + q.len ≤ i + (ps.length + 1)
        ∧ q.top < q.bottom ∧ ∀ j, q.first ≤ j → j < q.first + q.len → ((t, b) :: ps)[j - i]? = some (q.top, q.bottom) := by
      intro q hq
      obtain ⟨h1, h2, h3, h4, h5⟩ := ih hq
      refine ⟨h1, h2, by omega, h4, fun j hj1 hj2 => ?_⟩
      rw [show j - i = j - (i + 1) + 1 by omega, List.getElem?_cons_succ]
      exact h5 j hj1 hj2
    rw [coalesce] at h
    split at h
    · next htb =>
      rcases mem_joinRun h with h | rfl | ⟨q, hq, h1, h2, h3, rfl⟩
      · obtain ⟨h1, h2⟩ := later h
        exact ⟨by omega, h2⟩
      · refine ⟨Nat.le_refl i, Nat.one_pos, by simp, htb, fun j hj1 hj2 => ?_⟩
        obtain rfl : j = i := by simp only at hj1 hj2; omega
        simp
      · obtain ⟨g1, g2, g3, g4, g5⟩ := later (List.mem_of_mem_head? hq)
        refine ⟨Nat.le_refl i, by simp, by simp only [List.length_cons]; omega, htb, fun j hj1 hj2 => ?_⟩
        simp only at hj1 hj2
        by_cases e : j = i
        · subst e
          simp
        · rw [g5 j (by omega) (by omega), h2, h3]
    · obtain ⟨h1, h2⟩ := later h
      exact ⟨by omega, h2⟩

/-- Runs ascend, do not overlap, and are maximal: two that touch have different spans. -/
theorem coalesce_apart {ps : List (Nat × Nat)} : ∀ {i : Nat}, (coalesce i ps).Pairwise fun r q =>
    r.first + r.len ≤ q.first ∧ ¬ (r.first + r.len = q.first ∧ r.top = q.top ∧ r.bottom = q.bottom) := by
  induction ps with
  | nil => intro i; exact .nil
  | cons p ps ih =>
    obtain ⟨t, b⟩ := p
    intro i
    have hp := ih (i := i + 1)
    rw [coalesce]
    split
    · next htb =>
      have low : ∀ q ∈ coalesce (i + 1) ps, i + 1 ≤ q.first ∧ 0 < q.len := fun q hq =>
        ⟨(coalesce_runs hq).1, (coalesce_runs hq).2.1⟩
      revert hp low
      cases coalesce (i + 1) ps with
      | nil => intro _ _; exact List.pairwise_singleton _ _
      | cons q rest =>
        intro hp low
        obtain ⟨hq, hrest⟩ := List.pairwise_cons.1 hp
        have lq := low q (by simp)
        rw [joinRun]
        split
        · next e =>
          refine List.pairwise_cons.2 ⟨fun r hr => ?_, hrest⟩
          obtain ⟨h1, h2⟩ := hq r hr
          refine ⟨by simp only; omega, fun ⟨g1, g2, g3⟩ => h2 ⟨by simp only at g1; omega, e.2.1.trans g2, e.2.2.trans g3⟩⟩
        · next e =>
          refine List.pairwise_cons.2 ⟨fun r hr => ⟨by simpa using (low r hr).1, fun ⟨g1, g2, g3⟩ => ?_⟩, hp⟩
          simp only at g1 g2 g3
          rcases List.mem_cons.1 hr with rfl | hr
          · exact e ⟨g1.symm, g2.symm, g3.symm⟩
          · have := (hq r hr).1
            omega
    · exact hp

/-- Every strip that has a dirty span is in a run. -/
theorem coalesce_covers {ps : List (Nat × Nat)} : ∀ {i j t b : Nat}, ps[j]? = some (t, b) → t < b →
    ∃ r ∈ coalesce i ps, r.first ≤ i + j ∧ i + j < r.first + r.len := by
  induction ps with
  | nil => intro i j t b h; simp at h
  | cons p ps ih =>
    obtain ⟨t', b'⟩ := p
    intro i j t b h htb
    have keep : ∀ {k : Nat}, (∃ r ∈ coalesce (i + 1) ps, r.first ≤ k ∧ k < r.first + r.len) →
        ∃ r ∈ joinRun i t' b' (coalesce (i + 1) ps), r.first ≤ k ∧ k < r.first + r.len := by
      rintro k ⟨r, hr, h1, h2⟩
      revert hr
      cases coalesce (i + 1) ps with
      | nil => intro hr; cases hr
      | cons q rest =>
        intro hr
        rw [joinRun]
        split
        · next e =>
          rcases List.mem_cons.1 hr with rfl | hr
          · exact ⟨_, List.mem_cons_self .., by simp only; omega, by simp only; omega⟩
          · exact ⟨r, List.mem_cons_of_mem _ hr, h1, h2⟩
        · exact ⟨r, List.mem_cons_of_mem _ hr, h1, h2⟩
    cases j with
    | zero =>
      simp only [List.getElem?_cons_zero, Option.some.injEq, Prod.mk.injEq] at h
      rw [coalesce, if_pos (by omega)]
      cases e : coalesce (i + 1) ps with
      | nil => exact ⟨⟨i, 1, t', b'⟩, by simp [joinRun], by simp, by simp⟩
      | cons q rest =>
        rw [joinRun]
        split
        · exact ⟨⟨i, q.len + 1, t', b'⟩, by simp, by simp, by simp⟩
        · exact ⟨⟨i, 1, t', b'⟩, by simp, by simp, by simp⟩
    | succ j =>
      rw [List.getElem?_cons_succ] at h
      have := ih (i := i + 1) h htb
      rw [show i + 1 + j = i + (j + 1) by omega] at this
      rw [coalesce]
      split
      · exact keep this
      · exact this

/-- No dirty span, no run. -/
theorem coalesce_clean {ps : List (Nat × Nat)} (h : ∀ p ∈ ps, ¬ p.1 < p.2) : ∀ i, coalesce i ps = [] := by
  induction ps with
  | nil => intro i; rfl
  | cons p ps ih =>
    intro i
    obtain ⟨t, b⟩ := p
    rw [coalesce, if_neg (h _ (List.mem_cons_self ..)), ih fun p hp => h p (List.mem_cons_of_mem _ hp)]

theorem dirtyPairs_getElem? (x : VScreen) {i : Nat} (h : i < stripCount x) :
    (dirtyPairs x)[i]? = some ((x.tdirty.getD i 0).toNat, (x.bdirty.getD i 0).toNat) := by
  rw [dirtyPairs, List.getElem?_map, List.getElem?_range h]
  rfl

@[simp] theorem length_dirtyPairs (x : VScreen) : (dirtyPairs x).length = stripCount x := by simp [dirtyPairs]

/-- A cleaned screen has no run. -/
theorem coalesce_cleanScreen (x : VScreen) : coalesce 0 (dirtyPairs (cleanScreen x)) = [] := by
  refine coalesce_clean (fun p hp => ?_) 0
  obtain ⟨i, hi, rfl⟩ := List.mem_map.1 hp
  have hi : i < stripCount x := by simpa [cleanScreen, stripCount] using hi
  by_cases hb : i < x.bdirty.length
  · have e : (cleanScreen x).bdirty.getD i 0 = 0 := by
      rw [cleanScreen]
      dsimp only
      rw [getD_setFirst hb, if_pos hi]
    rw [e]
    simp
  · have e : (cleanScreen x).bdirty.getD i 0 = 0 := by
      rw [cleanScreen]
      simp [List.getD_eq_getElem?_getD, hb]
    rw [e]
    simp

/-! Events -/

/-- What an event says of its run (42_dirty_tracker.md R144, 44_compositor.md R168). -/
structure EventOf (par : Params) (v : BitVec 2) (sc : VScreen) (r : DirtyRun) (e : DisplayEvent) : Prop where
  screen : e.screen = v
  buffer : e.buffer = pixAddr par sc (8 * r.first : Nat) r.top
  pitch : e.pitch = sc.pitch.toNat
  x : e.x = 8 * r.first
  y : e.y = r.top
  w : e.w = 8 * r.len
  h : e.h = r.bottom - r.top
  rows : e.rows.length = r.bottom - r.top
  row : ∀ row ∈ e.rows, row.length = 8 * r.len * bytesPerPixel sc.format

/-- Emitting appends one event a run, in order, and changes nothing else but the count of free bytes. -/
theorem emitRuns_inv {v : BitVec 2} {x : VScreen} : ∀ {rs : List DirtyRun} {s t : State},
    StateT.run (emitRuns v x rs) s = .ok ((), t) →
      ∃ es, t = { s with display := s.display ++ es, freeCount := t.freeCount } ∧ List.Forall₂ (EventOf s.par v x) rs es := by
  intro rs
  induction rs with
  | nil => intro s t h; cases h; exact ⟨[], by simp, .nil⟩
  | cons r rs ih =>
    intro s t h
    rw [emitRuns] at h
    obtain ⟨_, u, h1, h2⟩ := run_bind_inv h
    obtain ⟨_, s', g1, g2⟩ := run_bind_inv h1
    cases g1
    obtain ⟨rows, w, g3, g4⟩ := run_bind_inv g2
    cases g4
    obtain ⟨l1, l2, l3⟩ := loadRows_inv g3
    obtain ⟨es, e1, e2⟩ := ih h2
    have hp : w.par = s.par := by rw [l3]
    refine ⟨⟨v, pixAddr s.par x (8 * r.first : Nat) r.top, x.pitch.toNat, 8 * r.first, r.top, 8 * r.len, r.bottom - r.top,
      rows⟩ :: es, ?_, .cons ⟨rfl, rfl, rfl, rfl, rfl, rfl, rfl, l1, l2⟩ ?_⟩
    · rw [e1, l3]
      simp [State.addEvent]
    · rw [← hp]
      exact e2

theorem run_emitRun_readable {v : BitVec 2} {x : VScreen} {r : DirtyRun} {s : State}
    (h : blockReadable s.par (pixAddr s.par x (8 * r.first : Nat) r.top) x.pitch.toNat (8 * r.len * bytesPerPixel x.format)
      (r.bottom - r.top)) : StateT.run (emitRun v x r) s = .ok ((), s.addEvent (flushEvent s v x r)) := by
  have e : StateT.run (emitRun v x r) s = StateT.run (do
      let rows ← loadRows (8 * r.len * bytesPerPixel x.format) x.pitch.toNat (r.bottom - r.top)
        (pixAddr s.par x (8 * r.first : Nat) r.top)
      modify fun t => t.addEvent
        { screen := v, buffer := pixAddr s.par x (8 * r.first : Nat) r.top, pitch := x.pitch.toNat, x := 8 * r.first,
          y := r.top, w := 8 * r.len, h := r.bottom - r.top, rows := rows }) s := rfl
  rw [e, run_bind_ok (run_loadRows_readable h)]
  rfl

theorem cleanScreen_cleanScreen (x : VScreen) : cleanScreen (cleanScreen x) = cleanScreen x := by
  have e : stripCount (cleanScreen x) = stripCount x := rfl
  rw [cleanScreen, e]
  simp only [cleanScreen, setFirst_setFirst]

end Sys2Proof.Machine
end

