-- ==== Sys2Proof/Laws/Encoding.lean ====
section
/-! SUPPORT. Bits and readers: a reader on the bits of a number gives the number (spec/20_memory.md R43). -/

namespace Sys2Proof

@[simp] theorem bitsOf_length (n w : Nat) : (bitsOf n w).length = n := by
  induction n generalizing w with
  | zero => rfl
  | succ n ih => simp [bitsOf, ih]

theorem natOfBits_bitsOf (n w : Nat) : natOfBits (bitsOf n w) = w % 2 ^ n := by
  induction n generalizing w with
  | zero => simp [bitsOf, natOfBits, Nat.mod_one]
  | succ n ih =>
    rw [bitsOf, natOfBits, ih]
    have h := Nat.mod_mul_right_div_self w 2 (2 ^ n)
    have h2 := Nat.div_add_mod (w % (2 * 2 ^ n)) 2
    have h3 : w % (2 * 2 ^ n) % 2 = w % 2 := by rw [Nat.mod_mul_right_mod]
    rw [Nat.pow_succ, Nat.mul_comm (2 ^ n) 2]
    rcases Nat.mod_two_eq_zero_or_one w with h4 | h4 <;> simp [h4] <;> omega

/-- A field of `n` bits reads as the number whose bits they are. -/
theorem runReader_readBits {α : Type} (n v : Nat) (k : Nat → Reader α) (rest : List Bool) :
    runReaderOnBits (readBits n k) (bitsOf n v ++ rest) = runReaderOnBits (k (v % 2 ^ n)) rest := by
  induction n generalizing v k with
  | zero => simp [readBits, bitsOf, Nat.mod_one]
  | succ n ih =>
    rw [readBits, bitsOf, List.cons_append, runReaderOnBits, ih]
    congr 2
    have h := natOfBits_bitsOf (n + 1) v
    rw [bitsOf, natOfBits, natOfBits_bitsOf] at h
    exact h

/-- A field of `n` bits takes exactly `n` bits, which are those of the value it reads as. -/
theorem readBits_inv {α : Type} {n : Nat} {k : Nat → Reader α} {bs : List Bool} {x : α × List Bool}
    (h : runReaderOnBits (readBits n k) bs = some x) :
    ∃ v rest, v < 2 ^ n ∧ bs = bitsOf n v ++ rest ∧ runReaderOnBits (k v) rest = some x := by
  induction n generalizing k bs with
  | zero => exact ⟨0, bs, by simp, rfl, h⟩
  | succ n ih =>
    rw [readBits] at h
    cases bs with
    | nil => cases h
    | cons b bs =>
      rw [runReaderOnBits] at h
      obtain ⟨v, rest, hv, rfl, hk⟩ := ih h
      refine ⟨b.toNat + 2 * v, rest, ?_, ?_, hk⟩
      · rw [Nat.pow_succ]; cases b <;> simp <;> omega
      · rw [bitsOf, List.cons_append]
        cases b <;> simp <;> congr 1 <;> omega

end Sys2Proof
end

