-- ==== Sys2Proof/Laws/Progress.lean ====
section
/-! SUPPORT. How a decode moves: the cursor only goes forward, every code brings the end nearer, and a decode never needs
more steps than its bound (30_encoding.md R78). -/

namespace Sys2Proof.Machine

/-! The operations that read or move the decode in progress -/

theorem run_currentDecode {s : State} {d : Decode} (h : s.dec = some d) : StateT.run currentDecode s = .ok (d, s) := by
  change (match s.dec with | some d => _ | none => _) = _
  rw [h]

theorem currentDecode_inv {s t : State} {d : Decode} (h : StateT.run currentDecode s = .ok (d, t)) :
    t = s ∧ s.dec = some d := by
  change (match s.dec with | some d => _ | none => _) = _ at h
  split at h
  · next e he => cases h; exact ⟨rfl, he⟩
  · cases h

theorem run_decodeIn {s : State} {d : Decode} {ph : Phase} (h : s.dec = some d) (hp : d.phase = ph)
    (hk : d.k < decodeTotal d) : StateT.run (decodeIn ph) s = .ok (d, s) := by
  rw [decodeIn, run_bind_ok (run_currentDecode h), if_pos ⟨hp, hk⟩]
  rfl

theorem decodeIn_inv {s t : State} {d : Decode} {ph : Phase} (h : StateT.run (decodeIn ph) s = .ok (d, t)) :
    t = s ∧ s.dec = some d ∧ d.phase = ph ∧ d.k < decodeTotal d := by
  obtain ⟨e, u, h1, h2⟩ := run_bind_inv h
  obtain ⟨rfl, he⟩ := currentDecode_inv h1
  split at h2
  · next hc => cases h2; exact ⟨rfl, he, hc.1, hc.2⟩
  · cases h2

theorem run_maskDecodeIn {s : State} {d : Decode} {merge : Bool} (h : s.dec = some d) (hp : d.phase = .mask merge)
    (hk : d.k < decodeTotal d) : StateT.run maskDecodeIn s = .ok ((d, merge), s) := by
  rw [maskDecodeIn, run_bind_ok (run_currentDecode h)]
  split
  · next m hm =>
    rw [hp] at hm
    cases hm
    rw [if_pos hk]
    rfl
  · next hm => exact absurd hp (hm merge)

theorem maskDecodeIn_inv {s t : State} {x : Decode × Bool} (h : StateT.run maskDecodeIn s = .ok (x, t)) :
    t = s ∧ s.dec = some x.1 ∧ x.1.phase = .mask x.2 ∧ x.1.k < decodeTotal x.1 := by
  obtain ⟨e, u, h1, h2⟩ := run_bind_inv h
  obtain ⟨rfl, he⟩ := currentDecode_inv h1
  split at h2
  · next m hm =>
    split at h2
    · next hk => cases h2; exact ⟨rfl, he, hm, hk⟩
    · cases h2
  · cases h2

@[simp] theorem run_setDecode (d : Decode) (s : State) : StateT.run (setDecode d) s = .ok ((), s.setDec (some d)) := rfl

theorem decodeEnded_k (s : State) (d : Decode) (n : Nat) : s.decodeEnded { d with k := n } = s.decodeEnded d := rfl

/-- What `advance` does: the decode goes on with `n` more done, or ends. -/
theorem run_advance {s : State} {d : Decode} (h : s.dec = some d) (n : Nat) :
    StateT.run (advance n) s = .ok ((),
      if d.k + n < decodeTotal d then s.setDec (some { d with k := d.k + n }) else s.decodeEnded d) := by
  rw [advance, run_bind_ok (run_currentDecode h)]
  change StateT.run (if d.k + n < decodeTotal d then _ else _) s = _
  split <;> rfl

theorem advance_inv {s t : State} {n : Nat} (h : StateT.run (advance n) s = .ok ((), t)) :
    ∃ d, s.dec = some d
      ∧ t = if d.k + n < decodeTotal d then s.setDec (some { d with k := d.k + n }) else s.decodeEnded d := by
  obtain ⟨d, u, h1, _⟩ := run_bind_inv h
  obtain ⟨rfl, hd⟩ := currentDecode_inv h1
  rw [run_advance hd] at h
  cases h
  exact ⟨d, hd, rfl⟩

/-- What `nextByte` does where the byte holds memory. -/
theorem run_nextByte {s : State} {d : Decode} (h : s.dec = some d) (hr : readable s.par d.p 1) :
    StateT.run nextByte s = .ok (readByte s.mem d.p, s.setDec (some { d with p := d.p + 1 })) := by
  have h1 := hr.1
  have h2 := hr.2 0 (by omega)
  rw [Nat.add_zero] at h2
  rw [nextByte, run_bind_ok (run_currentDecode h), run_bind_ok (run_loadByte_mapped (by omega) h2)]
  rfl

theorem nextByte_inv {s t : State} {c : Byte} (h : StateT.run nextByte s = .ok (c, t)) :
    ∃ d, s.dec = some d ∧ d.p < 2 ^ s.par.addressBits ∧ t.dec = some { d with p := d.p + 1 } ∧
      StateT.run (loadByte d.p) s = .ok (c, { t with dec := s.dec }) := by
  obtain ⟨d, u, h1, h2⟩ := run_bind_inv h
  obtain ⟨rfl, hd⟩ := currentDecode_inv h1
  obtain ⟨c', w, h3, h4⟩ := run_bind_inv h2
  cases h4
  have := (loadByte_spec h3).1
  have hw : w.dec = u.dec := by
    rcases (loadByte_spec h3).2 with ⟨_, _, rfl⟩ | ⟨_, _, rfl⟩ <;> rfl
  refine ⟨d, hd, this, rfl, ?_⟩
  rw [h3, ← hw]
  rfl

/-! Moving forward -/

/-- The cursor of the decode in progress may have moved forward by whole bytes; nothing else of it has changed. -/
def Moves (s t : State) : Prop :=
  ∀ d, s.dec = some d → ∃ q, d.p ≤ q ∧ t.dec = some { d with p := q }

theorem frame_moves : Frame Moves where
  refl s d h := ⟨d.p, Nat.le_refl _, h⟩
  trans := by
    intro s t u h g d hd
    obtain ⟨q, hq, ht⟩ := h d hd
    obtain ⟨r, hr, hu⟩ := g _ ht
    exact ⟨r, Nat.le_trans hq hr, hu⟩

/-- A change that leaves the decode alone. -/
theorem moves_of_dec {s t : State} (h : t.dec = s.dec) : Moves s t := fun d hd => ⟨d.p, Nat.le_refl _, by rw [h, hd]⟩

theorem tolerates_moves : ToleratesWrites Moves where
  toFrame := frame_moves
  free _ _ := moves_of_dec rfl
  mem _ _ _ := moves_of_dec rfl
  result _ _ := moves_of_dec rfl

theorem moves_nextByte : Keeps Moves nextByte := by
  intro s c t h d hd
  obtain ⟨d', hd', _, ht, _⟩ := nextByte_inv h
  rw [hd] at hd'
  cases hd'
  exact ⟨_, Nat.le_succ _, ht⟩

theorem moves_extendedCount (n : Nat) : Keeps Moves (extendedCount n) := by
  rw [extendedCount]
  split
  · exact keeps_bind frame_moves moves_nextByte fun _ => keeps_pure frame_moves _
  · exact keeps_pure frame_moves _

/-- The decode `e` is `d` further on: the same strip, with something left to do. -/
structure Further (d e : Decode) : Prop where
  bit : d.b < 8 → e.b < 8
  left : e.k < decodeTotal e
  total : decodeTotal e = decodeTotal d
  produced : d.k ≤ e.k
  cursor : d.p ≤ e.p
  moved : d.k < e.k ∨ byteCoded d.phase = true
  dst : e.dst = d.dst
  pitch : e.pitch = d.pitch
  format : e.format = d.format
  height : e.height = d.height
  described : d.phase = .descriptor → e.phase ≠ .descriptor
  same : d.phase ≠ .descriptor → e = { d with p := e.p, b := e.b, k := e.k, colour := e.colour, inc := e.inc }

/-- What a code leaves of the decode `d`: none, or a decode further on. -/
def Progressed (d : Decode) (t : State) : Prop := t.dec = none ∨ ∃ e, t.dec = some e ∧ Further d e

/-- The end of every code: `advance` after moves. -/
theorem advance_end {d : Decode} {s t : State} {n q : Nat} (hs : s.dec = some { d with p := q })
    (h : StateT.run (advance n) s = .ok ((), t)) :
    t.dec = none ∨ (t.dec = some { d with p := q, k := d.k + n } ∧ d.k + n < decodeTotal d) := by
  rw [run_advance hs] at h
  cases h
  split
  · next hk => exact .inr ⟨rfl, hk⟩
  · exact .inl (by simp)

/-- The end of every code whose body is a loop of moves. -/
theorem loop_end {d : Decode} {s t : State} {f : Nat → M Unit} {i n m q : Nat} (hs : s.dec = some { d with p := q })
    (hf : ∀ j, Keeps Moves (f j)) (h : StateT.run (loopFrom f i m >>= fun _ => advance n) s = .ok ((), t)) :
    t.dec = none ∨ ∃ r, q ≤ r ∧ t.dec = some { d with p := r, k := d.k + n } ∧ d.k + n < decodeTotal d := by
  obtain ⟨_, u, h1, h2⟩ := run_bind_inv h
  obtain ⟨r, hr, hu⟩ := keeps_loopFrom frame_moves hf m i s () u h1 _ hs
  rcases advance_end (q := r) hu h2 with h0 | h0
  · exact .inl h0
  · exact .inr ⟨r, hr, h0⟩

/-- A decode that has only moved and produced `n` more is further on. -/
theorem further_moved {d : Decode} {q n : Nat} (hp : d.phase ≠ .descriptor) (hq : d.p ≤ q) (hk : d.k + n < decodeTotal d)
    (hn : 0 < n ∨ byteCoded d.phase = true) : Further d { d with p := q, k := d.k + n } where
  bit := id
  left := hk
  total := rfl
  produced := Nat.le_add_right _ _
  cursor := hq
  moved := by
    rcases hn with hn | hn
    · left; show d.k < d.k + n; omega
    · exact .inr hn
  dst := rfl
  pitch := rfl
  format := rfl
  height := rfl
  described h := absurd h hp
  same _ := rfl

theorem progressed_loop {d : Decode} {s t : State} {f : Nat → M Unit} {i n m q : Nat} (hs : s.dec = some { d with p := q })
    (hp : d.phase ≠ .descriptor) (hq : d.p ≤ q) (hn : 0 < n ∨ byteCoded d.phase = true) (hf : ∀ j, Keeps Moves (f j))
    (h : StateT.run (loopFrom f i m >>= fun _ => advance n) s = .ok ((), t)) : Progressed d t := by
  rcases loop_end hs hf h with h0 | ⟨r, hr, h1, h2⟩
  · exact .inl h0
  · exact .inr ⟨_, h1, further_moved hp (Nat.le_trans hq hr) h2 hn⟩

theorem cutShort_pos {d : Decode} {n : Nat} (hk : d.k < decodeTotal d) (hn : 0 < n) : 0 < cutShort d n := by
  rw [cutShort]; omega

theorem progressed_egaPacket {d e : Decode} {s t : State} {n q : Nat} {put : Nat → M Unit}
    (hs : s.dec = some { d with p := q }) (hq : d.p ≤ q) (hp : d.phase = .ega) (hf : ∀ z, Keeps Moves (put z))
    (h : StateT.run (egaPacket e n put) s = .ok ((), t)) : Progressed d t := by
  rw [egaPacket] at h
  split at h
  · cases h
  · exact progressed_loop hs (by rw [hp]; decide) hq (.inr (by rw [hp]; rfl)) hf h

/-- A descriptor byte leaves the number of pixels alone. -/
theorem decodeTotal_describedBy {d : Decode} (h : d.phase = .descriptor) (x : DescEntry) :
    decodeTotal (describedBy d x) = decodeTotal d := by
  rw [describedBy, decodeTotal, decodeTotal, h]
  cases x.family <;> rfl

theorem familyPhase_bit {f : Family} (h : f ∈ bitFamilies) : familyPhase f ≠ .descriptor := by
  simp only [bitFamilies, List.mem_cons, List.not_mem_nil, or_false] at h
  rcases h with rfl | rfl | rfl <;> simp [familyPhase]

/-- A descriptor byte that `DESC_MAP` holds runs its family's body; any other raises the fault. -/
theorem run_descriptorBody {s : State} {d : Decode} (h : s.dec = some d) (hp : d.phase = .descriptor)
    (hk : d.k < decodeTotal d) (b : Byte) :
    StateT.run (descriptorBody b) s = match descEntry s.par.descMap b with
      | some e => StateT.run (familyBody s.par e.family (describedBy d e)) s
      | none => .ok ((), s.raised .unknownDescriptor (b.zeroExtend 32)) := by
  rw [descriptorBody, run_bind_ok (run_decodeIn h hp hk), run_get_bind]
  cases descEntry s.par.descMap b <;> rfl

/-- A body that does the whole strip at once ends the decode. -/
theorem wholeStrip_ends {w : Decode} {s t : State} {f : Nat → M Unit} (hf : ∀ j, Keeps Moves (f j)) (hk : w.k < decodeTotal w)
    (h : StateT.run (setDecode w >>= fun _ => loopFrom f w.k (decodeTotal w - w.k) >>= fun _ =>
      advance (decodeTotal w - w.k)) s = .ok ((), t)) : t.dec = none := by
  rw [run_bind_ok (run_setDecode _ _)] at h
  rcases loop_end (d := w) (q := w.p) rfl hf h with h0 | ⟨r, _, _, h3⟩
  · exact h0
  · omega

/-- The body of a descriptor that answers has made progress. -/
theorem familyBody_progress {par : Params} {d : Decode} {x : DescEntry} {s t : State} (hp : d.phase = .descriptor)
    (hk : d.k < decodeTotal d)
    (h : StateT.run (familyBody par x.family (describedBy d x)) s = .ok ((), t)) : Progressed d t := by
  have total := decodeTotal_describedBy hp x
  have hk' : (describedBy d x).k < decodeTotal (describedBy d x) := by rw [total]; exact hk
  cases familyBody_shape par x.family (describedBy d x) with
  | supplied _ e =>
    rw [e, suppliedBody, run_get_bind] at h
    exact .inl (wholeStrip_ends (fun j => keeps_putPixel tolerates_moves _ _ _) hk' h)
  | raw _ _ e =>
    rw [e, rawBody] at h
    exact .inl (wholeStrip_ends
      (fun j => keeps_bind frame_moves moves_nextByte fun c => keeps_putPixel tolerates_moves _ _ _) hk' h)
  | packet _ hf e =>
    rw [e] at h
    cases h
    exact .inr ⟨_, rfl,
      { bit := fun _ => by simp [describedBy]
        left := hk'
        total := total
        produced := Nat.le_refl _
        cursor := Nat.le_refl _
        moved := .inr (by rw [hp]; rfl)
        dst := rfl
        pitch := rfl
        format := rfl
        height := rfl
        described := fun _ => by rcases hf with hf | hf <;> simp [describedBy, hf, familyPhase]
        same := fun h => absurd hp h }⟩
  | bit _ hf e =>
    rw [e] at h
    obtain ⟨c, w, h3, h4⟩ := run_bind_inv h
    rw [run_bind_ok (run_setDecode _ _)] at h4
    obtain ⟨_, y, h5, h6⟩ := run_bind_inv h4
    obtain ⟨r, hr, hu⟩ := keeps_putPixel tolerates_moves _ _ _ _ _ _ h5 _ rfl
    rcases advance_end (d := { describedBy d x with p := (describedBy d x).p + 1, colour := c, inc := 0xFF#8 }) hu h6 with
      h0 | ⟨h7, h8⟩
    · exact .inl h0
    · exact .inr ⟨_, h7,
        { bit := fun _ => by simp [describedBy]
          left := h8
          total := total
          produced := by simp [describedBy]
          cursor := by simp [describedBy] at hr ⊢; omega
          moved := .inr (by rw [hp]; rfl)
          dst := rfl
          pitch := rfl
          format := rfl
          height := rfl
          described := fun _ => familyPhase_bit hf
          same := fun h => absurd hp h }⟩

/-- Every stream code that answers has made progress. -/
theorem execCode_progress {i : Instr} {s t : State} {d : Decode} (hd : s.dec = some d) (h : execCode i s = .next t) :
    Progressed d t := by
  have same : ∀ {e : Decode}, s.dec = some e → e = d := fun he => by rw [hd] at he; cases he; rfl
  have hd0 : s.dec = some { d with p := d.p } := hd
  cases execCode_shape i with
  | command e => rw [e] at h; cases h
  | descriptor b e =>
    rw [e] at h
    obtain ⟨e, u, h1, h2⟩ := run_bind_inv (runM_eq_next.mp h)
    obtain ⟨rfl, he, hp, hk⟩ := decodeIn_inv h1
    cases same he
    rw [run_get_bind] at h2
    split at h2
    · exact familyBody_progress hp hk h2
    · cases h2
      exact .inl rfl
  | colour ph f hph hf e =>
    rw [e] at h
    obtain ⟨e, u, h1, h2⟩ := run_bind_inv (runM_eq_next.mp h)
    obtain ⟨rfl, he, hp, hk⟩ := decodeIn_inv h1
    cases same he
    rw [run_bind_ok (run_setDecode _ _)] at h2
    obtain ⟨_, y, h5, h6⟩ := run_bind_inv h2
    obtain ⟨r, hr, hu⟩ := keeps_putPixel tolerates_moves _ _ _ _ _ _ h5 _ rfl
    rcases advance_end (d := f d) hu h6 with h0 | ⟨h7, h8⟩
    · exact .inl h0
    · refine .inr ⟨_, h7, ?_⟩
      rw [hf d] at h8 hr ⊢
      exact
        { bit := id
          left := h8
          total := rfl
          produced := Nat.le_add_right _ _
          cursor := hr
          moved := .inl (Nat.lt_succ_self _)
          dst := rfl
          pitch := rfl
          format := rfl
          height := rfl
          described := fun hd => by rw [hp] at hd; rw [hd] at hph; simp at hph
          same := fun _ => rfl }
  | maskRun c e =>
    subst e
    obtain ⟨⟨e, merge⟩, u, h1, h2⟩ := run_bind_inv (runM_eq_next.mp h)
    obtain ⟨rfl, he, hp, hk⟩ := maskDecodeIn_inv h1
    cases same he
    dsimp only at h2 hp
    split at h2
    · cases h2
    · obtain ⟨v, w, h3, h4⟩ := run_bind_inv h2
      obtain ⟨q, hq, hw⟩ := moves_nextByte _ _ _ h3 _ hd
      exact progressed_loop hw (by rw [hp]; simp) hq (.inr (by rw [hp]; rfl))
        (fun j => keeps_storeMask tolerates_moves _ _ _) h4
  | maskLit c e =>
    subst e
    obtain ⟨⟨e, merge⟩, u, h1, h2⟩ := run_bind_inv (runM_eq_next.mp h)
    obtain ⟨rfl, he, hp, hk⟩ := maskDecodeIn_inv h1
    cases same he
    dsimp only at h2 hp
    split at h2
    · cases h2
    · exact progressed_loop hd0 (by rw [hp]; simp) (Nat.le_refl _) (.inr (by rw [hp]; rfl))
        (fun j => keeps_bind frame_moves moves_nextByte fun _ => keeps_storeMask tolerates_moves _ _ _) h2
  | rle8Run n e =>
    subst e
    obtain ⟨e, u, h1, h2⟩ := run_bind_inv (runM_eq_next.mp h)
    obtain ⟨rfl, he, hp, hk⟩ := decodeIn_inv h1
    cases same he
    obtain ⟨v, w, h3, h4⟩ := run_bind_inv h2
    obtain ⟨q, hq, hw⟩ := moves_nextByte _ _ _ h3 _ hd
    exact progressed_loop hw (by rw [hp]; simp) hq (.inr (by rw [hp]; rfl))
      (fun j => keeps_putPixel tolerates_moves _ _ _) h4
  | rle8Lit n e =>
    subst e
    obtain ⟨e, u, h1, h2⟩ := run_bind_inv (runM_eq_next.mp h)
    obtain ⟨rfl, he, hp, hk⟩ := decodeIn_inv h1
    cases same he
    exact progressed_loop hd0 (by rw [hp]; simp) (Nat.le_refl _) (.inr (by rw [hp]; rfl))
      (fun j => keeps_bind frame_moves moves_nextByte fun _ => keeps_putPixel tolerates_moves _ _ _) h2
  | egaRun n c e =>
    subst e
    obtain ⟨e, u, h1, h2⟩ := run_bind_inv (runM_eq_next.mp h)
    obtain ⟨rfl, he, hp, hk⟩ := decodeIn_inv h1
    cases same he
    obtain ⟨v, w, h3, h4⟩ := run_bind_inv h2
    obtain ⟨q, hq, hw⟩ := moves_extendedCount _ _ _ _ h3 _ hd
    exact progressed_egaPacket hw hq hp (fun z => keeps_putPixel tolerates_moves _ _ _) h4
  | egaCopyleft n e =>
    subst e
    obtain ⟨e, u, h1, h2⟩ := run_bind_inv (runM_eq_next.mp h)
    obtain ⟨rfl, he, hp, hk⟩ := decodeIn_inv h1
    cases same he
    obtain ⟨v, w, h3, h4⟩ := run_bind_inv h2
    obtain ⟨q, hq, hw⟩ := moves_extendedCount _ _ _ _ h3 _ hd
    exact progressed_egaPacket hw hq hp (fun z => keeps_copyLeft tolerates_moves _ _) h4
  | egaDither n e =>
    subst e
    obtain ⟨e, u, h1, h2⟩ := run_bind_inv (runM_eq_next.mp h)
    obtain ⟨rfl, he, hp, hk⟩ := decodeIn_inv h1
    cases same he
    obtain ⟨b, x, h3, h4⟩ := run_bind_inv h2
    obtain ⟨q, hq, hx⟩ := moves_nextByte _ _ _ h3 _ hd
    obtain ⟨v, w, h5, h6⟩ := run_bind_inv h4
    obtain ⟨r, hr, hw⟩ := moves_extendedCount _ _ _ _ h5 _ hx
    exact progressed_egaPacket hw (Nat.le_trans hq hr) hp (fun z => keeps_putPixel tolerates_moves _ _ _) h6
  | mmrRun n e =>
    subst e
    obtain ⟨e, u, h1, h2⟩ := run_bind_inv (runM_eq_next.mp h)
    obtain ⟨rfl, he, hp, hk⟩ := decodeIn_inv h1
    cases same he
    refine progressed_loop hd0 (by rw [hp]; simp) (Nat.le_refl _) (.inl (cutShort_pos hk ?_))
      (fun j => keeps_putPixel tolerates_moves _ _ _) h2
    split
    · decide
    · next hn =>
      rcases Nat.eq_zero_or_pos n.toNat with h0 | h0
      · exact absurd (BitVec.eq_of_toNat_eq h0) hn
      · exact h0

/-! Fetching a code -/

/-- The bit reader of the decode in progress may have moved forward; nothing else of it has changed. -/
def Reads (s t : State) : Prop :=
  ∀ d, s.dec = some d → ∃ q c, d.p ≤ q ∧ (d.b < 8 → c < 8) ∧ t.dec = some { d with p := q, b := c }

theorem frame_reads : Frame Reads where
  refl s d h := ⟨d.p, d.b, Nat.le_refl _, id, h⟩
  trans := by
    intro s t u h g d hd
    obtain ⟨q, c, hq, hc, ht⟩ := h d hd
    obtain ⟨r, e, hr, he, hu⟩ := g _ ht
    exact ⟨r, e, Nat.le_trans hq hr, fun hb => he (hc hb), hu⟩

theorem readBit_inv {s t : State} {x : Bool} (h : StateT.run readBit s = .ok (x, t)) :
    ∃ d, s.dec = some d ∧
      t.dec = some (if d.b = 7 then { d with b := 0, p := d.p + 1 } else { d with b := d.b + 1 }) := by
  obtain ⟨d, u, h1, h2⟩ := run_bind_inv h
  obtain ⟨rfl, hd⟩ := currentDecode_inv h1
  obtain ⟨c', w, h3, h4⟩ := run_bind_inv h2
  cases h4
  exact ⟨d, hd, rfl⟩

theorem reads_readBit : Keeps Reads readBit := by
  intro s x t h d hd
  obtain ⟨d', hd', ht⟩ := readBit_inv h
  rw [hd] at hd'
  cases hd'
  rw [ht]
  split
  · exact ⟨d.p + 1, 0, by omega, fun _ => by omega, rfl⟩
  · exact ⟨d.p, d.b + 1, by omega, fun _ => by omega, rfl⟩

theorem reads_runReader {α : Type} : ∀ r : Reader α, Keeps Reads (runReader r)
  | .done _ => keeps_pure frame_reads _
  | .bit next => keeps_bind frame_reads reads_readBit fun b => reads_runReader (next b)

/-- A fetch moves the cursor and nothing else; where codes are bytes it reads one below the end of memory. -/
theorem fetchCode_inv {s t : State} {i : Instr} (h : StateT.run fetchCode s = .ok (i, t)) :
    ∃ d q c, s.dec = some d ∧ d.p ≤ q ∧ (d.b < 8 → c < 8) ∧ t.dec = some { d with p := q, b := c }
      ∧ (byteCoded d.phase = true → q = d.p + 1 ∧ c = d.b ∧ d.p < 2 ^ s.par.addressBits) := by
  obtain ⟨d, u, h1, h2⟩ := run_bind_inv h
  obtain ⟨rfl, hd⟩ := currentDecode_inv h1
  have byte : ∀ (f : Byte → Instr), StateT.run (nextByte >>= fun c => pure (f c)) u = .ok (i, t) →
      ∃ d q c, u.dec = some d ∧ d.p ≤ q ∧ (d.b < 8 → c < 8) ∧ t.dec = some { d with p := q, b := c }
        ∧ (byteCoded d.phase = true → q = d.p + 1 ∧ c = d.b ∧ d.p < 2 ^ u.par.addressBits) := by
    intro f h
    obtain ⟨v, w, h3, h4⟩ := run_bind_inv h
    cases h4
    obtain ⟨e, he, hp, ht, _⟩ := nextByte_inv h3
    exact ⟨e, e.p + 1, e.b, he, by omega, id, ht, fun _ => ⟨rfl, rfl, hp⟩⟩
  have bits : ∀ (r : Reader Instr), byteCoded d.phase = false → StateT.run (runReader r) u = .ok (i, t) →
      ∃ d q c, u.dec = some d ∧ d.p ≤ q ∧ (d.b < 8 → c < 8) ∧ t.dec = some { d with p := q, b := c }
        ∧ (byteCoded d.phase = true → q = d.p + 1 ∧ c = d.b ∧ d.p < 2 ^ u.par.addressBits) := by
    intro r hb h
    obtain ⟨q, c, hq, hc, ht⟩ := reads_runReader r _ _ _ h _ hd
    exact ⟨d, q, c, hd, hq, hc, ht, fun hx => by rw [hb] at hx; cases hx⟩
  split at h2
  · exact byte _ h2
  · exact byte _ h2
  · exact byte _ h2
  · exact byte _ h2
  · next hp => exact bits _ (by rw [hp]; rfl) h2
  · next hp => exact bits _ (by rw [hp]; rfl) h2
  · next hp => exact bits _ (by rw [hp]; rfl) h2

/-- A fetch changes the decode in progress, and may draw free bytes. -/
theorem fetchCode_frame {s t : State} {i : Instr} (h : StateT.run fetchCode s = .ok (i, t)) :
    t = { s with freeCount := t.freeCount, dec := t.dec } := by
  have fr : Frame (fun s t : State => t = { s with freeCount := t.freeCount, dec := t.dec }) :=
    ⟨fun _ => rfl, fun h g => by rw [g, h]⟩
  have cur : Keeps (fun s t : State => t = { s with freeCount := t.freeCount, dec := t.dec }) currentDecode := by
    intro s x t h
    obtain ⟨rfl, _⟩ := currentDecode_inv h
    rfl
  have byte := fun a => keeps_loadByte fr (fun _ _ => rfl) a
  have set : ∀ d, Keeps (fun s t : State => t = { s with freeCount := t.freeCount, dec := t.dec }) (setDecode d) :=
    fun d => keeps_modify fun s => rfl
  have next := keeps_bind fr cur fun d => keeps_bind fr (byte d.p) fun v =>
    keeps_bind fr (set { d with p := d.p + 1 }) fun _ => keeps_pure fr v
  have reader : ∀ r : Reader Instr,
      Keeps (fun s t : State => t = { s with freeCount := t.freeCount, dec := t.dec }) (runReader r) := by
    intro r
    induction r with
    | done x => exact keeps_pure fr x
    | bit next ih =>
      exact keeps_bind fr (keeps_bind fr cur fun d => keeps_bind fr (byte d.p) fun v =>
        keeps_bind fr (set _) fun _ => keeps_pure fr _) ih
  refine (keeps_bind fr cur fun d => ?_) s i t h
  split
  iterate 4 exact keeps_bind fr next fun _ => keeps_pure fr _
  iterate 3 exact reader _

/-! The bound on the steps of a decode -/

theorem frame_par : ToleratesCommands (fun s t => t.par = s.par) where
  toFrame := frame_part State.par
  free _ _ := rfl
  mem _ _ _ := rfl
  result _ _ := rfl
  dec _ _ := rfl
  raised _ _ _ _ := rfl
  mark s v l r t b := by obtain ⟨_, _, e⟩ := markRegion_eq s v l r t b; rw [e]; rfl
  create _ _ _ _ := rfl

/-- A code that answers leaves a decode that needs fewer steps, or none. -/
theorem codeStep_fuel {s t : State} {d : Decode} (hd : s.dec = some d) (h : codeStep s = .next t) :
    t.dec = none ∨ codeFuel t < codeFuel s := by
  obtain ⟨i, u, h1, h2⟩ := codeStep_inv h
  obtain ⟨d', q, c, hd', hq, _, hu, hbyte⟩ := fetchCode_inv h1
  rw [hd] at hd'
  cases hd'
  have hpar : u.par = s.par := keeps_fetchCode frame_par.toTolerates _ _ _ h1
  have hpar' : t.par = u.par := execCode_tolerated_all frame_par h2
  rcases execCode_progress hu h2 with h0 | ⟨e, he, hf⟩
  · exact .inl h0
  · right
    have htot : decodeTotal e = decodeTotal d := hf.total
    have hek := hf.left
    have hk : d.k ≤ e.k := hf.produced
    have hp : q ≤ e.p := hf.cursor
    simp only [codeFuel, hd, he, hpar', hpar]
    rw [htot] at hek ⊢
    rcases hf.moved with hlt | hb
    · simp only at hlt; omega
    · obtain ⟨rfl, _, hlt⟩ := hbyte hb
      omega

/-- No decode runs out of steps. -/
theorem runCodes_enough : ∀ {n : Nat} {s : State}, codeFuel s ≤ n → (∀ u, codeStep u ≠ .refused .decodeOutOfFuel) →
    runCodes n s ≠ .refused .decodeOutOfFuel := by
  intro n
  induction n with
  | zero =>
    intro s hn _ h
    rw [runCodes] at h
    split at h
    · cases h
    · next d hd => simp only [codeFuel, hd] at hn; omega
  | succ n ih =>
    intro s hn hc h
    rw [runCodes] at h
    split at h
    · cases h
    · next d hd =>
      cases hcs : codeStep s with
      | next u =>
        rw [hcs, andThen_next] at h
        rcases codeStep_fuel hd hcs with h0 | hlt
        · cases n with
          | zero => rw [runCodes, h0] at h; cases h
          | succ n => rw [runCodes, h0] at h; cases h
        · exact ih (by omega) hc h
      | fault r => rw [hcs] at h; cases h
      | refused r =>
        rw [hcs] at h
        cases h
        exact hc s hcs

end Sys2Proof.Machine
end

