-- ==== Sys2Proof/Laws/Paint.lean ====
section
/-! SUPPORT. What the operations of a stream do where their bytes are there: the cursor, pixels, mask rows, and the end of a
code (spec/40_bitmap_codec.md, 41_mask_codec.md). -/

namespace Sys2Proof.Machine

/-! The bit reader -/

/-- `readBit` where the byte is memory (20_memory.md R43). -/
theorem run_readBit {s : State} {d : Decode} (h : s.dec = some d) (hb : d.b < 8) (hr : readable s.par d.p 1) :
    StateT.run readBit s = .ok ((readByte s.mem d.p).getLsbD d.b,
      s.setDec (some { d with p := d.p + (d.b + 1) / 8, b := (d.b + 1) % 8 })) := by
  have h1 := hr.1
  rw [readBit, run_bind_ok (run_currentDecode h),
    run_bind_ok (run_loadByte_mapped (by omega) (by simpa using hr.2 0 (by omega)))]
  show Except.ok (_, s.setDec (some (if d.b = 7 then _ else _))) = _
  split
  · next e => rw [e]
  · next e => rw [show (d.b + 1) / 8 = 0 by omega, show (d.b + 1) % 8 = d.b + 1 by omega]; rfl

/-! Pixels -/

theorem length_bytesOf (n v : Nat) : (bytesOf n v).length = n := by
  induction n generalizing v with
  | zero => rfl
  | succ n ih => simp [bytesOf, ih]

@[simp] theorem length_colourBytes (s : State) (f : PixelFormat) (c : Byte) : (colourBytes s f c).length = bytesPerPixel f := by
  cases f
  · rfl
  · exact length_bytesOf 2 _

theorem run_writeRoomColor {s : State} {f : PixelFormat} {a : Nat} (c : Byte)
    (h : a + bytesPerPixel f ≤ 2 ^ s.par.addressBits) :
    StateT.run (writeRoomColor f a c) s = .ok ((), { s with mem := pokeBytes s.par s.mem a (colourBytes s f c) }) := by
  cases f
  · have e : StateT.run (writeRoomColor .indexed8 a c) s = StateT.run (store 1 a (s.roomPal[c.toNat]'c.isLt).toNat) s := rfl
    rw [e, run_store_fits (n := 1) h]
    simp [bytesOf, colourBytes]
  · have e : StateT.run (writeRoomColor .rgb16 a c) s = StateT.run (store 2 a (s.pal16[c.toNat]'c.isLt).toNat) s := rfl
    rw [e, run_store_fits (n := 2) h]
    rfl

/-- One pixel of a strip. -/
theorem run_putPixel {s : State} {d : Decode} {k : Nat} (c : Byte)
    (h : pixelAddr d k + bytesPerPixel d.format ≤ 2 ^ s.par.addressBits) :
    StateT.run (putPixel d c k) s = .ok ((), { s with mem := paintPixel s d s.mem k c }) := by
  have e : StateT.run (putPixel d c k) s
      = StateT.run (if skipsStore s.par d c then pure () else writeRoomColor d.format (pixelAddr d k) c) s := rfl
  rw [e, paintPixel]
  split
  · rfl
  · rw [run_writeRoomColor c h]

/-- What painting a pixel looks at: the parameters, the palettes, and the strip's layout. -/
theorem paintPixel_congr {s t : State} {d e : Decode} (hp : t.par = s.par) (hr : t.roomPal = s.roomPal) (h16 : t.pal16 = s.pal16)
    (hd : e.dst = d.dst ∧ e.pitch = d.pitch ∧ e.format = d.format ∧ e.height = d.height ∧ e.order = d.order
      ∧ e.transparent = d.transparent) (m : Memory) (k : Nat) (c : Byte) : paintPixel t e m k c = paintPixel s d m k c := by
  obtain ⟨h1, h2, h3, h4, h5, h6⟩ := hd
  have hc : colourBytes t d.format c = colourBytes s d.format c := by
    cases d.format <;> simp only [colourBytes, hr, h16]
  simp only [paintPixel, skipsStore, pixelAddr, h1, h2, h3, h4, h5, h6, hp]
  rw [hc]
  rfl

theorem paintPixels_congr {s t : State} {d e : Decode} (hp : t.par = s.par) (hr : t.roomPal = s.roomPal)
    (h16 : t.pal16 = s.pal16) (hd : e.dst = d.dst ∧ e.pitch = d.pitch ∧ e.format = d.format ∧ e.height = d.height
      ∧ e.order = d.order ∧ e.transparent = d.transparent) (cs : List Byte) :
    ∀ (m : Memory) (k : Nat), paintPixels t e m k cs = paintPixels s d m k cs := by
  induction cs with
  | nil => intro m k; rfl
  | cons c cs ih => intro m k; rw [paintPixels, paintPixels, paintPixel_congr hp hr h16 hd, ih]

theorem paintPixels_append (s : State) (d : Decode) (cs ds : List Byte) : ∀ (m : Memory) (k : Nat),
    paintPixels s d m k (cs ++ ds) = paintPixels s d (paintPixels s d m k cs) (k + cs.length) ds := by
  induction cs with
  | nil => intro m k; rfl
  | cons c cs ih =>
    intro m k
    rw [List.cons_append, paintPixels, paintPixels, ih, List.length_cons, show k + 1 + cs.length = k + (cs.length + 1) by omega]

theorem wf_paintPixel {s : State} {d : Decode} {m : Memory} (h : Memory.wf m = true) (k : Nat) (c : Byte) :
    Memory.wf (paintPixel s d m k c) = true := by
  rw [paintPixel]
  split
  · exact h
  · exact wf_pokeBytes _ h _ _

theorem wf_paintPixels {s : State} {d : Decode} {cs : List Byte} : ∀ {m : Memory} (k : Nat), Memory.wf m = true →
    Memory.wf (paintPixels s d m k cs) = true := by
  induction cs with
  | nil => intro m k h; exact h
  | cons c cs ih => intro m k h; exact ih (k + 1) (wf_paintPixel h k c)

/-- Painting touches the bytes of its pixel only. -/
theorem readByte_paintPixel {s : State} {d : Decode} {k a : Nat} (m : Memory) (c : Byte) (h : ¬ pixelCovers d k a) :
    readByte (paintPixel s d m k c) a = readByte m a := by
  rw [paintPixel]
  split
  · rfl
  · refine readByte_pokeBytes_outside _ _ _ _ ?_
    rw [length_colourBytes]
    unfold pixelCovers at h
    omega

theorem readByte_paintPixels {s : State} {d : Decode} {a : Nat} : ∀ {cs : List Byte} {m : Memory} {k : Nat},
    ¬ pixelsCover d k cs.length a → readByte (paintPixels s d m k cs) a = readByte m a := by
  intro cs
  induction cs with
  | nil => intro m k _; rfl
  | cons c cs ih =>
    intro m k h
    rw [paintPixels, ih, readByte_paintPixel]
    · exact fun h0 => h ⟨0, by simp, h0⟩
    · rintro ⟨j, hj, hc⟩
      exact h ⟨j + 1, by simpa using hj, by rwa [show k + (j + 1) = k + 1 + j by omega]⟩

/-- Pixels of given colours, one after the other. -/
theorem run_paintLoop {s : State} {d : Decode} (f : Nat → Byte) : ∀ {n i k : Nat} {m : Memory},
    pixelsFit s.par d (k + i) n →
      StateT.run (loopFrom (fun z => putPixel d (f z) (k + z)) i n) { s with mem := m }
        = .ok ((), { s with mem := paintPixels s d m (k + i) ((List.range' i n).map f) }) := by
  intro n
  induction n with
  | zero => intro i k m _; rfl
  | succ n ih =>
    intro i k m h
    have h0 : pixelAddr d (k + i) + bytesPerPixel d.format ≤ 2 ^ s.par.addressBits := h 0 (by omega)
    rw [loopFrom, run_bind_ok (run_putPixel (s := { s with mem := m }) (f i) h0)]
    rw [show ({ ({ s with mem := m } : State) with mem := paintPixel { s with mem := m } d m (k + i) (f i) } : State)
      = { s with mem := paintPixel s d m (k + i) (f i) } from rfl, ih]
    · rw [List.range'_succ, List.map_cons, paintPixels]
      rfl
    · intro j hj
      have := h (j + 1) (by omega)
      rwa [show k + (i + 1) + j = k + i + (j + 1) by omega]

/-- A run of one colour. -/
theorem run_paintRun {s : State} {d : Decode} (c : Byte) {n k : Nat} (h : pixelsFit s.par d k n) :
    StateT.run (loopFrom (putPixel d c) k n) s
      = .ok ((), { s with mem := paintPixels s d s.mem k (List.replicate n c) }) := by
  have := run_paintLoop (s := s) (d := d) (fun _ => c) (n := n) (i := k) (k := 0) (m := s.mem) (by simpa using h)
  simpa [List.map_const'] using this

/-- A literal payload: each colour is read just before its pixel. -/
theorem run_paintLiterals {d : Decode} : ∀ {n k : Nat} {s : State} {e : Decode}, s.dec = some e → readable s.par e.p n →
    pixelsFit s.par d k n → (∀ j, j < n → ¬ pixelsCover d k n (e.p + j)) →
      StateT.run (loopFrom (fun k => do
          let c ← nextByte
          putPixel d c k) k n) s
        = .ok ((), { s with mem := paintPixels s d s.mem k ((List.range n).map fun j => readByte s.mem (e.p + j)),
                            dec := some { e with p := e.p + n } }) := by
  intro n
  induction n with
  | zero =>
    intro k s e he _ _ _
    show Except.ok _ = _
    exact congrArg (fun x => Except.ok ((), { s with dec := x })) he
  | succ n ih =>
    intro k s e he hr hf hc
    have r1 : readable s.par e.p 1 := readable_sub hr (Nat.le_refl _) (by omega)
    have first : StateT.run (do
        let c ← nextByte
        putPixel d c k) s
        = .ok ((), { s with mem := paintPixel s d s.mem k (readByte s.mem e.p), dec := some { e with p := e.p + 1 } }) := by
      rw [run_bind_ok (run_nextByte he r1)]
      exact run_putPixel (s := s.setDec (some { e with p := e.p + 1 })) _ (hf 0 (by omega))
    rw [loopFrom, run_bind_ok first]
    rw [ih (e := { e with p := e.p + 1 }) rfl]
    · have hcol : (List.range (n + 1)).map (fun j => readByte s.mem (e.p + j))
          = readByte s.mem e.p :: (List.range n).map fun j => readByte (paintPixel s d s.mem k (readByte s.mem e.p)) (e.p + 1 + j) := by
        rw [List.range_succ_eq_map, List.map_cons, List.map_map]
        congr 1
        refine List.map_congr_left fun j hj => ?_
        have hj : j < n := List.mem_range.1 hj
        rw [readByte_paintPixel]
        · show readByte s.mem (e.p + (j + 1)) = _
          congr 1
          omega
        · intro h0
          exact hc (j + 1) (by omega) ⟨0, by omega, by rwa [show e.p + (j + 1) = e.p + 1 + j by omega]⟩
      rw [hcol, paintPixels]
      simp only [show e.p + 1 + n = e.p + (n + 1) by omega]
      refine congrArg (fun m => Except.ok ((), { s with mem := m, dec := some { e with p := e.p + (n + 1) } }))
        (?_ : paintPixels _ d _ _ _ = paintPixels s d _ _ _)
      apply paintPixels_congr
      · rfl
      · rfl
      · rfl
      · exact ⟨rfl, rfl, rfl, rfl, rfl, rfl⟩
    · exact readable_sub hr (by simp) (by simp only; omega)
    · intro j hj
      have := hf (j + 1) (by omega)
      rwa [show k + 1 + j = k + (j + 1) by omega]
    · rintro j hj ⟨i, hi, h0⟩
      refine hc (j + 1) (by omega) ⟨i + 1, by omega, ?_⟩
      rwa [show k + (i + 1) = k + 1 + i by omega, show e.p + (j + 1) = e.p + 1 + j by omega]

/-! The end of a code -/

theorem decodeEnded_congr (s : State) {d e : Decode} (hp : e.phase = d.phase) (ht : e.transparent = d.transparent) :
    s.decodeEnded e = s.decodeEnded d := by
  rw [State.decodeEnded, State.decodeEnded, hp, ht]

/-- After `n` more pixels or rows. -/
theorem run_advance_afterCode {s : State} {d : Decode} (h : s.dec = some d) (n : Nat) :
    StateT.run (advance n) s = .ok ((), afterCode s d n s.mem) := by
  rw [run_advance h, afterCode]
  split <;> rfl

/-- What a code leaves depends on the decode's new values, not on those the state had. -/
theorem afterCode_setDec (s : State) (d : Decode) (n : Nat) (m : Memory) (x : Option Decode) :
    afterCode { s with dec := x } d n m = afterCode s d n m := by
  rw [afterCode, afterCode]
  split
  · rfl
  · rw [State.decodeEnded, State.decodeEnded]
    cases d.phase <;> rfl

theorem afterCode_mem (s : State) (d : Decode) (n : Nat) (m m' : Memory) :
    afterCode { s with mem := m' } d n m = afterCode s d n m := by
  rw [afterCode, afterCode]

/-- Memory after a code. -/
theorem mem_afterCode (s : State) (d : Decode) (n : Nat) (m : Memory) : (afterCode s d n m).mem = m := by
  rw [afterCode]
  split
  · rfl
  · rw [decodeEnded_mem]

/-- The pixels of a code are painted and its cursor set: the code is done. -/
theorem run_advance_painted {s : State} {d e : Decode} {cs : List Byte} {n : Nat} (hn : cs.length = n)
    (hd : d.dst = e.dst ∧ d.pitch = e.pitch ∧ d.format = e.format ∧ d.height = e.height ∧ d.order = e.order
      ∧ d.transparent = e.transparent) (hk : d.k = e.k) :
    StateT.run (advance n) { s with mem := paintPixels s d s.mem d.k cs, dec := some e } = .ok ((), afterPixels s e cs) := by
  subst hn
  rw [run_advance_afterCode (d := e) rfl, afterPixels, paintPixels_congr (s := s) (t := s) rfl rfl rfl hd, hk]
  exact congrArg (fun x => Except.ok ((), x))
    ((afterCode_setDec { s with mem := _ } e _ _ _).trans (afterCode_mem s e _ _ _))

/-- A code that produces pixels changes no byte outside them. -/
theorem sameOutside_afterPixels (s : State) (d : Decode) (cs : List Byte) :
    sameOutside (pixelsCover d d.k cs.length) s (afterPixels s d cs) := by
  intro a h
  rw [afterPixels, mem_afterCode, readByte_paintPixels h]

/-- A code that recolours the decode and lets one pixel follow. -/
theorem runM_colourCode {s : State} {d : Decode} {ph : Phase} {f : Decode → Decode} (h : s.dec = some d) (hp : d.phase = ph)
    (hk : d.k < decodeTotal d) (hf : f d = { d with colour := (f d).colour, inc := (f d).inc })
    (hfit : pixelsFit s.par d d.k 1) : runM (colourCode ph f) s = .next (afterPixels s (f d) [(f d).colour]) := by
  have fit : pixelAddr (f d) d.k + bytesPerPixel (f d).format ≤ 2 ^ s.par.addressBits := by
    rw [hf]
    exact hfit 0 (by omega)
  refine runM_of_ok ?_
  rw [colourCode, run_bind_ok (run_decodeIn h hp hk)]
  show StateT.run (putPixel (f d) (f d).colour d.k >>= fun _ => advance 1) (s.setDec (some (f d))) = _
  rw [run_bind_ok (run_putPixel (s := s.setDec (some (f d))) _ fit), run_advance_afterCode (d := f d) rfl]
  have hk2 : (f d).k = d.k := by rw [hf]
  rw [afterPixels, List.length_singleton, hk2, paintPixels, paintPixels]
  rw [show ({ s.setDec (some (f d)) with mem := paintPixel (s.setDec (some (f d))) (f d) (s.setDec (some (f d))).mem d.k (f d).colour } : State)
    = { ({ s with mem := paintPixel s (f d) s.mem d.k (f d).colour } : State) with dec := some (f d) } from rfl,
    afterCode_setDec, afterCode_mem]

/-! Mask rows -/

theorem run_storeMask {merge : Bool} {s : State} {a : Nat} (v : Byte) (h : readable s.par a 1) :
    StateT.run (storeMask merge a v) s
      = .ok ((), { s with mem := pokeByte s.par s.mem a (if merge then readByte s.mem a ||| v else v) }) := by
  have h1 := h.1
  have ha : a < 2 ^ s.par.addressBits := by omega
  cases merge
  · exact run_storeByte_fits ha v
  · rw [storeMask, if_pos rfl, run_bind_ok (run_loadByte_mapped ha (by simpa using h.2 0 (by omega))), run_storeByte_fits ha]
    rfl

/-- One byte for several rows. -/
theorem run_maskRun {merge : Bool} {d : Decode} (v : Byte) : ∀ {n r : Nat} {s : State},
    (∀ i, i < n → readable s.par (maskRowAddr d (r + i)) 1) →
      StateT.run (loopFrom (fun r => storeMask merge (maskRowAddr d r) v) r n) s
        = .ok ((), { s with mem := pokeRows s.par merge d.dst d.pitch s.mem r (List.replicate n v) }) := by
  intro n
  induction n with
  | zero => intro r s _; rfl
  | succ n ih =>
    intro r s h
    rw [loopFrom, run_bind_ok (run_storeMask v (by simpa using h 0 (by omega))), ih fun i hi => by
      have := h (i + 1) (by omega)
      rwa [show r + 1 + i = r + (i + 1) by omega]]
    rfl

/-- Rows that are not written keep their bytes. -/
theorem readByte_pokeRows {par : Params} {merge : Bool} {dst stride a : Nat} : ∀ {bs : List Byte} {m : Memory} {r : Nat},
    (∀ i, i < bs.length → a ≠ dst + (r + i) * stride) → readByte (pokeRows par merge dst stride m r bs) a = readByte m a := by
  intro bs
  induction bs with
  | nil => intro m r _; rfl
  | cons b bs ih =>
    intro m r h
    rw [pokeRows, ih, readByte_pokeByte_ne]
    · simpa using h 0 (by simp)
    · intro i hi
      have := h (i + 1) (by simpa using hi)
      rwa [show r + 1 + i = r + (i + 1) by omega]

theorem pokeRows_append {par : Params} {merge : Bool} {dst stride : Nat} (bs cs : List Byte) : ∀ (m : Memory) (r : Nat),
    pokeRows par merge dst stride m r (bs ++ cs)
      = pokeRows par merge dst stride (pokeRows par merge dst stride m r bs) (r + bs.length) cs := by
  induction bs with
  | nil => intro m r; rfl
  | cons b bs ih =>
    intro m r
    rw [List.cons_append, pokeRows, pokeRows, ih, List.length_cons, show r + 1 + bs.length = r + (bs.length + 1) by omega]

/-- Literal mask bytes: each is read just before its row. -/
theorem run_maskLiterals {merge : Bool} {d : Decode} : ∀ {n r : Nat} {s : State} {e : Decode}, s.dec = some e →
    readable s.par e.p n → (∀ i, i < n → readable s.par (maskRowAddr d (r + i)) 1) →
    (∀ i j, i < n → j < n → maskRowAddr d (r + i) ≠ e.p + j) →
      StateT.run (loopFrom (fun r => do
          let v ← nextByte
          storeMask merge (maskRowAddr d r) v) r n) s
        = .ok ((), { s with
            mem := pokeRows s.par merge d.dst d.pitch s.mem r ((List.range n).map fun j => readByte s.mem (e.p + j)),
            dec := some { e with p := e.p + n } }) := by
  intro n
  induction n with
  | zero =>
    intro r s e he _ _ _
    show Except.ok _ = _
    exact congrArg (fun x => Except.ok ((), { s with dec := x })) he
  | succ n ih =>
    intro r s e he hr hf hc
    have r1 : readable s.par e.p 1 := readable_sub hr (Nat.le_refl _) (by omega)
    have first : StateT.run (do
        let v ← nextByte
        storeMask merge (maskRowAddr d r) v) s
        = .ok ((), { s with
            mem := pokeByte s.par s.mem (maskRowAddr d r)
              (if merge then readByte s.mem (maskRowAddr d r) ||| readByte s.mem e.p else readByte s.mem e.p),
            dec := some { e with p := e.p + 1 } }) := by
      rw [run_bind_ok (run_nextByte he r1)]
      exact run_storeMask (s := s.setDec (some { e with p := e.p + 1 })) _ (by simpa using hf 0 (by omega))
    rw [loopFrom, run_bind_ok first]
    rw [ih (e := { e with p := e.p + 1 }) rfl]
    · have hrow : readByte s.mem e.p :: (List.range n).map (fun j => readByte (pokeByte s.par s.mem (maskRowAddr d r)
            (if merge then readByte s.mem (maskRowAddr d r) ||| readByte s.mem e.p else readByte s.mem e.p)) (e.p + 1 + j))
          = (List.range (n + 1)).map fun j => readByte s.mem (e.p + j) := by
        rw [List.range_succ_eq_map, List.map_cons, List.map_map]
        congr 1
        refine List.map_congr_left fun j hj => ?_
        have hj : j < n := List.mem_range.1 hj
        rw [readByte_pokeByte_ne]
        · show _ = readByte s.mem (e.p + (j + 1))
          congr 1
          omega
        · have := hc 0 (j + 1) (by omega) (by omega)
          rw [Nat.add_zero] at this
          omega
      rw [← hrow, pokeRows]
      simp only [show e.p + 1 + n = e.p + (n + 1) by omega]
      rfl
    · exact readable_sub hr (by simp) (by simp only; omega)
    · intro i hi
      have := hf (i + 1) (by omega)
      rwa [show r + 1 + i = r + (i + 1) by omega]
    · intro i j hi hj
      have := hc (i + 1) (j + 1) (by omega) (by omega)
      rw [show r + 1 + i = r + (i + 1) by omega]
      simp only
      omega

end Sys2Proof.Machine
end

