-- ==== Sys2Proof/Laws/PerInstr.lean ====
section
/-! SUPPORT. One lemma for each constructor of Instr: how long its encoding is. -/

namespace Sys2Proof.Laws.EncodingLength

/-- How many bits the code tables give an instruction: a command word has 32, a byte code 8, and a bit code the number its
row states (spec/30_encoding.md R60, R64 to R76). -/
def Statement (i : Instr) : Prop :=
  i.wf = true → (encode i).length =
    match i with
    | .zzKeep => 1
    | .mmrKeep => 1
    | .mmdKeep => 1
    | .zzStep => 3
    | .zzTurn => 3
    | .mmrDelta _ => 5
    | .mmdDelta _ => 5
    | .mmrRun _ => 13
    | .zzLiteral shift _ => 2 + shift
    | .mmrLiteral shift _ => 2 + shift
    | .mmdLiteral shift _ => 2 + shift
    | i => if spaceOf 0 i = .command then 32 else 8

theorem vsInit (v : BitVec 2) : Statement (.vsInit v) := fun _ => bitsOf_length _ _

theorem decodeStrip (v : BitVec 2) : Statement (.decodeStrip v) := fun _ => bitsOf_length _ _

theorem decodeMask (v : BitVec 2) : Statement (.decodeMask v) := fun _ => bitsOf_length _ _

theorem decodeMaskOr (v : BitVec 2) : Statement (.decodeMaskOr v) := fun _ => bitsOf_length _ _

theorem markDirty (v : BitVec 2) : Statement (.markDirty v) := fun _ => bitsOf_length _ _

theorem flush (v : BitVec 2) : Statement (.flush v) := fun _ => bitsOf_length _ _

theorem restoreBg (v : BitVec 2) : Statement (.restoreBg v) := fun _ => bitsOf_length _ _

theorem copy8col (v : BitVec 2) : Statement (.copy8col v) := fun _ => bitsOf_length _ _

theorem clear8col (v : BitVec 2) : Statement (.clear8col v) := fun _ => bitsOf_length _ _

theorem composeStrip (v : BitVec 2) : Statement (.composeStrip v) := fun _ => bitsOf_length _ _

theorem stripLookup (v : BitVec 2) : Statement (.stripLookup v) := fun _ => bitsOf_length _ _

theorem blitMasked (v : BitVec 2) : Statement (.blitMasked v) := fun _ => bitsOf_length _ _

theorem getPixels (v : BitVec 2) : Statement (.getPixels v) := fun _ => bitsOf_length _ _

theorem getBackPixels (v : BitVec 2) : Statement (.getBackPixels v) := fun _ => bitsOf_length _ _

theorem descRaw1 : Statement .descRaw1 := fun _ => rfl

theorem descRle8_8 : Statement .descRle8_8 := fun _ => rfl

theorem descRle8_9 : Statement .descRle8_9 := fun _ => rfl

theorem descEgaRle10 : Statement .descEgaRle10 := fun _ => rfl

theorem descZigzagV14 : Statement .descZigzagV14 := fun _ => rfl

theorem descZigzagV15 : Statement .descZigzagV15 := fun _ => rfl

theorem descZigzagV16 : Statement .descZigzagV16 := fun _ => rfl

theorem descZigzagV17 : Statement .descZigzagV17 := fun _ => rfl

theorem descZigzagV18 : Statement .descZigzagV18 := fun _ => rfl

theorem descZigzagH24 : Statement .descZigzagH24 := fun _ => rfl

theorem descZigzagH25 : Statement .descZigzagH25 := fun _ => rfl

theorem descZigzagH26 : Statement .descZigzagH26 := fun _ => rfl

theorem descZigzagH27 : Statement .descZigzagH27 := fun _ => rfl

theorem descZigzagH28 : Statement .descZigzagH28 := fun _ => rfl

theorem descZigzagV34 : Statement .descZigzagV34 := fun _ => rfl

theorem descZigzagV35 : Statement .descZigzagV35 := fun _ => rfl

theorem descZigzagV36 : Statement .descZigzagV36 := fun _ => rfl

theorem descZigzagV37 : Statement .descZigzagV37 := fun _ => rfl

theorem descZigzagV38 : Statement .descZigzagV38 := fun _ => rfl

theorem descZigzagH44 : Statement .descZigzagH44 := fun _ => rfl

theorem descZigzagH45 : Statement .descZigzagH45 := fun _ => rfl

theorem descZigzagH46 : Statement .descZigzagH46 := fun _ => rfl

theorem descZigzagH47 : Statement .descZigzagH47 := fun _ => rfl

theorem descZigzagH48 : Statement .descZigzagH48 := fun _ => rfl

theorem descMajminRun64 : Statement .descMajminRun64 := fun _ => rfl

theorem descMajminRun65 : Statement .descMajminRun65 := fun _ => rfl

theorem descMajminRun66 : Statement .descMajminRun66 := fun _ => rfl

theorem descMajminRun67 : Statement .descMajminRun67 := fun _ => rfl

theorem descMajminRun68 : Statement .descMajminRun68 := fun _ => rfl

theorem descMajminRun84 : Statement .descMajminRun84 := fun _ => rfl

theorem descMajminRun85 : Statement .descMajminRun85 := fun _ => rfl

theorem descMajminRun86 : Statement .descMajminRun86 := fun _ => rfl

theorem descMajminRun87 : Statement .descMajminRun87 := fun _ => rfl

theorem descMajminRun88 : Statement .descMajminRun88 := fun _ => rfl

theorem descMajminRun104 : Statement .descMajminRun104 := fun _ => rfl

theorem descMajminRun105 : Statement .descMajminRun105 := fun _ => rfl

theorem descMajminRun106 : Statement .descMajminRun106 := fun _ => rfl

theorem descMajminRun107 : Statement .descMajminRun107 := fun _ => rfl

theorem descMajminRun108 : Statement .descMajminRun108 := fun _ => rfl

theorem descMajminRun124 : Statement .descMajminRun124 := fun _ => rfl

theorem descMajminRun125 : Statement .descMajminRun125 := fun _ => rfl

theorem descMajminRun126 : Statement .descMajminRun126 := fun _ => rfl

theorem descMajminRun127 : Statement .descMajminRun127 := fun _ => rfl

theorem descMajminRun128 : Statement .descMajminRun128 := fun _ => rfl

theorem descMajminDelta134 : Statement .descMajminDelta134 := fun _ => rfl

theorem descMajminDelta135 : Statement .descMajminDelta135 := fun _ => rfl

theorem descMajminDelta136 : Statement .descMajminDelta136 := fun _ => rfl

theorem descMajminDelta137 : Statement .descMajminDelta137 := fun _ => rfl

theorem descMajminDelta138 : Statement .descMajminDelta138 := fun _ => rfl

theorem descMajminDelta144 : Statement .descMajminDelta144 := fun _ => rfl

theorem descMajminDelta145 : Statement .descMajminDelta145 := fun _ => rfl

theorem descMajminDelta146 : Statement .descMajminDelta146 := fun _ => rfl

theorem descMajminDelta147 : Statement .descMajminDelta147 := fun _ => rfl

theorem descMajminDelta148 : Statement .descMajminDelta148 := fun _ => rfl

theorem descRaw149 : Statement .descRaw149 := fun _ => rfl

theorem descUnrecognised (d : Byte) : Statement (.descUnrecognised d) := fun _ => bitsOf_length _ _

theorem maskRun (c : BitVec 7) : Statement (.maskRun c) := fun _ => by simp [encode, spaceOf]

theorem maskLit (c : BitVec 7) : Statement (.maskLit c) := fun _ => by simp [encode, spaceOf]

theorem rle8Run (n : BitVec 7) : Statement (.rle8Run n) := fun _ => by simp [encode, spaceOf]

theorem rle8Lit (n : BitVec 7) : Statement (.rle8Lit n) := fun _ => by simp [encode, spaceOf]

theorem egaRun (n : BitVec 3) (c : BitVec 4) : Statement (.egaRun n c) := fun _ => by simp [encode, spaceOf]

theorem egaCopyleft (n : BitVec 6) : Statement (.egaCopyleft n) := fun _ => by simp [encode, spaceOf]

theorem egaDither (n : BitVec 6) : Statement (.egaDither n) := fun _ => by simp [encode, spaceOf]

theorem zzKeep : Statement .zzKeep := fun _ => rfl

theorem zzLiteral (m : Nat) (v : Byte) : Statement (.zzLiteral m v) := fun _ => by simp [encode, encodeLiteral]; omega

theorem zzStep : Statement .zzStep := fun _ => rfl

theorem zzTurn : Statement .zzTurn := fun _ => rfl

theorem mmrKeep : Statement .mmrKeep := fun _ => rfl

theorem mmrLiteral (m : Nat) (v : Byte) : Statement (.mmrLiteral m v) := fun _ => by simp [encode, encodeLiteral]; omega

theorem mmrDelta (v : BitVec 3) : Statement (.mmrDelta v) := fun _ => by simp [encode]

theorem mmrRun (n : Byte) : Statement (.mmrRun n) := fun _ => by simp [encode]

theorem mmdKeep : Statement .mmdKeep := fun _ => rfl

theorem mmdLiteral (m : Nat) (v : Byte) : Statement (.mmdLiteral m v) := fun _ => by simp [encode, encodeLiteral]; omega

theorem mmdDelta (j : BitVec 3) : Statement (.mmdDelta j) := fun _ => by simp [encode]

end Sys2Proof.Laws.EncodingLength
end

