-- ==== Sys2Proof/Laws/Stops.lean ====
section
/-! SUPPORT. Why a computation of the unit can stop: never for want of steps. -/

namespace Sys2Proof.Machine

variable {α β : Type}

/-- Every stop of `m` meets `P`. -/
def StopsOnly (P : Stop → Prop) (m : M α) : Prop := ∀ s e, StateT.run m s = .error e → P e

/-- The stops that stream codes and commands give names to; running out of steps is none of them. -/
def Ordinary (e : Stop) : Prop := e ≠ .refusal .decodeOutOfFuel

section
variable {P : Stop → Prop}

theorem stops_pure (x : α) : StopsOnly P (pure x : M α) := by
  intro s e h
  cases h

theorem stops_modify (f : State → State) : StopsOnly P (modify f : M Unit) := by
  intro s e h
  cases h

theorem stops_throw {e : Stop} (h : P e) : StopsOnly P (throw e : M α) := by
  intro s e' h'
  cases h'
  exact h

theorem stops_bind {m : M α} {f : α → M β} (hm : StopsOnly P m) (hf : ∀ x, StopsOnly P (f x)) : StopsOnly P (m >>= f) := by
  intro s e h
  rw [run_bind] at h
  split at h
  · exact hf _ _ _ h
  · next e' he => cases h; exact hm _ _ he

theorem stops_get_bind {f : State → M β} (hf : ∀ s, StopsOnly P (f s)) : StopsOnly P (get >>= f) :=
  fun s e h => hf s s e h

theorem stops_ite {c : Prop} [Decidable c] {m n : M α} (hm : StopsOnly P m) (hn : StopsOnly P n) :
    StopsOnly P (if c then m else n) := by
  split
  · exact hm
  · exact hn

theorem stops_loopFrom {f : Nat → M Unit} (hf : ∀ i, StopsOnly P (f i)) : ∀ n i, StopsOnly P (loopFrom f i n)
  | 0, _ => stops_pure ()
  | n + 1, i => stops_bind (hf i) fun _ => stops_loopFrom hf n (i + 1)

end

theorem stops_loadByte (a : Nat) : StopsOnly Ordinary (loadByte a) := by
  intro s e h
  rw [run_loadByte] at h
  split at h
  · split at h <;> cases h
  · cases h; simp [Ordinary]

theorem stops_storeByte (a : Nat) (v : Byte) : StopsOnly Ordinary (storeByte a v) := by
  intro s e h
  rw [run_storeByte] at h
  split at h
  · cases h
  · cases h; simp [Ordinary]

theorem stops_load : ∀ n a, StopsOnly Ordinary (load n a)
  | 0, _ => stops_pure 0
  | n + 1, a => stops_bind (stops_loadByte a) fun _ => stops_bind (stops_load n (a + 1)) fun _ => stops_pure _

theorem stops_store : ∀ n a v, StopsOnly Ordinary (store n a v)
  | 0, _, _ => stops_pure ()
  | n + 1, a, _ => stops_bind (stops_storeByte a _) fun _ => stops_store n (a + 1) _

theorem stops_currentDecode : StopsOnly Ordinary currentDecode := by
  intro s e h
  change (match s.dec with | some d => _ | none => _) = _ at h
  split at h
  · cases h
  · cases h; simp [Ordinary]

theorem stops_nextByte : StopsOnly Ordinary nextByte :=
  stops_bind stops_currentDecode fun _ => stops_bind (stops_loadByte _) fun _ => stops_bind (stops_modify _) fun _ => stops_pure _

theorem stops_readBit : StopsOnly Ordinary readBit :=
  stops_bind stops_currentDecode fun _ => stops_bind (stops_loadByte _) fun _ => stops_bind (stops_modify _) fun _ => stops_pure _

theorem stops_runReader : ∀ r : Reader α, StopsOnly Ordinary (runReader r)
  | .done _ => stops_pure _
  | .bit next => stops_bind stops_readBit fun b => stops_runReader (next b)

theorem stops_putPixel (d : Decode) (c : Byte) (k : Nat) : StopsOnly Ordinary (putPixel d c k) := by
  refine stops_get_bind fun s => stops_ite (stops_pure ()) (stops_get_bind fun u => ?_)
  split
  · exact stops_store _ _ _
  · exact stops_store _ _ _

theorem stops_advance (n : Nat) : StopsOnly Ordinary (advance n) :=
  stops_bind stops_currentDecode fun _ => stops_ite (stops_modify _) (stops_modify _)

theorem stops_decodeIn (ph : Phase) : StopsOnly Ordinary (decodeIn ph) :=
  stops_bind stops_currentDecode fun _ => stops_ite (stops_pure _) (stops_throw (by simp [Ordinary]))

theorem stops_maskDecodeIn : StopsOnly Ordinary maskDecodeIn := by
  refine stops_bind stops_currentDecode fun d => ?_
  split
  · exact stops_ite (stops_pure _) (stops_throw (by simp [Ordinary]))
  · exact stops_throw (by simp [Ordinary])

theorem stops_fetchCode : StopsOnly Ordinary fetchCode := by
  refine stops_bind stops_currentDecode fun d => ?_
  split
  iterate 4 exact stops_bind stops_nextByte fun _ => stops_pure _
  iterate 3 exact stops_runReader _

theorem stops_storeMask (merge : Bool) (a : Nat) (v : Byte) : StopsOnly Ordinary (storeMask merge a v) :=
  stops_ite (stops_bind (stops_loadByte a) fun _ => stops_storeByte a _) (stops_storeByte a v)

theorem stops_extendedCount (n : Nat) : StopsOnly Ordinary (extendedCount n) :=
  stops_ite (stops_bind stops_nextByte fun _ => stops_pure _) (stops_pure _)

theorem stops_egaPacket (d : Decode) (n : Nat) {put : Nat → M Unit} (hp : ∀ z, StopsOnly Ordinary (put z)) :
    StopsOnly Ordinary (egaPacket d n put) :=
  stops_ite (stops_throw (by simp [Ordinary])) (stops_bind (stops_loopFrom hp n 0) fun _ => stops_advance n)

theorem stops_copyLeft (d : Decode) (k : Nat) : StopsOnly Ordinary (copyLeft d k) :=
  stops_ite (stops_throw (by simp [Ordinary])) (stops_bind (stops_load _ _) fun _ => stops_store _ _ _)

theorem stopOutcome_fuel {e : Stop} (h : stopOutcome e = .refused .decodeOutOfFuel) : ¬ Ordinary e := by
  cases e with
  | fault f => cases h
  | refusal r => cases h; simp [Ordinary]

theorem runM_ordinary {m : M Unit} (hm : StopsOnly Ordinary m) (s : State) : runM m s ≠ .refused .decodeOutOfFuel := by
  intro h
  rw [runM] at h
  split at h
  · cases h
  · next e he => exact stopOutcome_fuel h (hm s e he)

theorem stops_familyBody (par : Params) (f : Family) (d : Decode) : StopsOnly Ordinary (familyBody par f d) := by
  cases familyBody_shape par f d with
  | supplied _ e =>
    rw [e]
    exact stops_get_bind fun _ => stops_bind (stops_modify _) fun _ =>
      stops_bind (stops_loopFrom (fun k => stops_putPixel _ _ _) _ _) fun _ => stops_advance _
  | raw _ _ e =>
    rw [e]
    exact stops_bind (stops_modify _) fun _ => stops_bind
      (stops_loopFrom (fun k => stops_bind stops_nextByte fun c => stops_putPixel _ _ _) _ _) fun _ => stops_advance _
  | packet _ _ e => rw [e]; exact stops_modify _
  | bit _ _ e =>
    rw [e]
    exact stops_bind stops_nextByte fun _ => stops_bind (stops_modify _) fun _ =>
      stops_bind (stops_putPixel _ _ _) fun _ => stops_advance _

/-- No stream code asks for more steps. -/
theorem execCode_ordinary (i : Instr) (s : State) : execCode i s ≠ .refused .decodeOutOfFuel := by
  cases execCode_shape i with
  | command e => rw [e]; simp
  | descriptor b e =>
    rw [e]
    refine runM_ordinary (stops_bind (stops_decodeIn _) fun d => stops_get_bind fun u => ?_) s
    split
    · exact stops_familyBody _ _ _
    · exact stops_modify _
  | colour ph f _ _ e =>
    rw [e]
    exact runM_ordinary (stops_bind (stops_decodeIn _) fun _ => stops_bind (stops_modify _) fun _ =>
      stops_bind (stops_putPixel _ _ _) fun _ => stops_advance _) s
  | maskRun c e =>
    subst e
    exact runM_ordinary (stops_bind stops_maskDecodeIn fun _ => stops_ite (stops_throw (by simp [Ordinary]))
      (stops_bind stops_nextByte fun _ => stops_bind (stops_loopFrom (fun r => stops_storeMask _ _ _) _ _) fun _ =>
        stops_advance _)) s
  | maskLit c e =>
    subst e
    exact runM_ordinary (stops_bind stops_maskDecodeIn fun _ => stops_ite (stops_throw (by simp [Ordinary]))
      (stops_bind (stops_loopFrom (fun r => stops_bind stops_nextByte fun _ => stops_storeMask _ _ _) _ _) fun _ =>
        stops_advance _)) s
  | rle8Run n e =>
    subst e
    exact runM_ordinary (stops_bind (stops_decodeIn _) fun _ => stops_bind stops_nextByte fun _ =>
      stops_bind (stops_loopFrom (fun k => stops_putPixel _ _ _) _ _) fun _ => stops_advance _) s
  | rle8Lit n e =>
    subst e
    exact runM_ordinary (stops_bind (stops_decodeIn _) fun _ =>
      stops_bind (stops_loopFrom (fun k => stops_bind stops_nextByte fun _ => stops_putPixel _ _ _) _ _) fun _ =>
        stops_advance _) s
  | egaRun n c e =>
    subst e
    exact runM_ordinary (stops_bind (stops_decodeIn _) fun _ => stops_bind (stops_extendedCount _) fun _ =>
      stops_egaPacket _ _ fun z => stops_putPixel _ _ _) s
  | egaCopyleft n e =>
    subst e
    exact runM_ordinary (stops_bind (stops_decodeIn _) fun _ => stops_bind (stops_extendedCount _) fun _ =>
      stops_egaPacket _ _ fun z => stops_copyLeft _ _) s
  | egaDither n e =>
    subst e
    exact runM_ordinary (stops_bind (stops_decodeIn _) fun _ => stops_bind stops_nextByte fun _ =>
      stops_bind (stops_extendedCount _) fun _ => stops_egaPacket _ _ fun z => stops_putPixel _ _ _) s
  | mmrRun n e =>
    subst e
    exact runM_ordinary (stops_bind (stops_decodeIn _) fun _ =>
      stops_bind (stops_loopFrom (fun k => stops_putPixel _ _ _) _ _) fun _ => stops_advance _) s

theorem codeStep_ordinary (s : State) : codeStep s ≠ .refused .decodeOutOfFuel := by
  intro h
  rw [codeStep] at h
  split at h
  · exact execCode_ordinary _ _ h
  · next e he => exact stopOutcome_fuel h (stops_fetchCode s e he)

/-- A decode that has started ends or stops by a name of its own. -/
theorem finishDecode_ordinary (s : State) : finishDecode s ≠ .refused .decodeOutOfFuel :=
  runCodes_enough (Nat.le_refl _) codeStep_ordinary

end Sys2Proof.Machine
end

