-- ==== Sys2Proof/Laws/Step.lean ====
section
/-! SUPPORT. What one step can be, said once. -/

namespace Sys2Proof.Machine

/-- The next step's fetch between commands is the host's next action. -/
theorem fetchInstr_host {s : State} {act : HostAction} {rest : List HostAction} (hd : s.dec = none)
    (hi : s.inbox = act :: rest) : fetchInstr s = hostAct { s with inbox := rest } act := by
  rw [fetchInstr]
  split
  · next d h => rw [hd] at h; cases h
  · split
    · next h => rw [hi] at h; cases h
    · next h => rw [hi] at h; cases h; rfl

theorem step_host {s : State} {act : HostAction} {rest : List HostAction} (hd : s.dec = none) (hi : s.inbox = act :: rest) :
    step s = match hostAct { s with inbox := rest } act with
      | .run i t => exec i t
      | .done t => .next t
      | .stop e => stopOutcome e :=
  congrArg (fun f : Fetched => match f with
    | .run i t => exec i t
    | .done t => .next t
    | .stop e => stopOutcome e) (fetchInstr_host hd hi)

theorem step_idle {s : State} (hd : s.dec = none) (hi : s.inbox = []) : step s = .next s := by
  rw [step, fetchInstr]
  split
  · next i t h =>
    split at h
    · next d h' => rw [hd] at h'; cases h'
    · split at h
      · cases h
      · next h' => rw [hi] at h'; cases h'
  · next t h =>
    split at h
    · next d h' => rw [hd] at h'; cases h'
    · split at h
      · cases h; rfl
      · next h' => rw [hi] at h'; cases h'
  · next e h =>
    split at h
    · next d h' => rw [hd] at h'; cases h'
    · split at h
      · cases h
      · next h' => rw [hi] at h'; cases h'

/-! What a fetch from a stream can give -/

/-- Every instruction a reader can end in meets `P`. -/
def ReaderGives {α : Type} (P : α → Prop) : Reader α → Prop
  | .done x => P x
  | .bit next => ∀ b, ReaderGives P (next b)

theorem readerGives_readBits {α : Type} {P : α → Prop} : ∀ (n : Nat) {k : Nat → Reader α}, (∀ v, ReaderGives P (k v)) →
    ReaderGives P (readBits n k)
  | 0, _, h => h 0
  | n + 1, _, h => fun b => readerGives_readBits n fun v => h (b.toNat + 2 * v)

theorem runReader_gives {α : Type} {P : α → Prop} : ∀ {r : Reader α}, ReaderGives P r →
    ∀ {s t : State} {x : α}, StateT.run (runReader r) s = .ok (x, t) → P x
  | .done _, h, _, _, _, e => by cases e; exact h
  | .bit _, h, _, _, _, e => by
    obtain ⟨b, _, _, h2⟩ := run_bind_inv e
    exact runReader_gives (h b) h2

/-- An instruction that is a code of a stream and no command word. -/
def IsStreamCode (i : Instr) : Prop := ∀ c ∈ commandTable, ∀ v, i ≠ c.2 v

theorem isStreamCode_iff (i : Instr) (h : spaceOf 0 i ≠ .command) : IsStreamCode i := by
  rintro c hc v rfl
  simp only [commandTable, screenCommands, otherCommands, List.cons_append, List.nil_append, List.mem_cons,
    List.not_mem_nil, or_false] at hc
  rcases hc with rfl | rfl | rfl | rfl | rfl | rfl | rfl | rfl | rfl | rfl | rfl | rfl | rfl | rfl <;>
    exact h rfl

theorem decodeDescriptor_stream (c : Byte) : IsStreamCode (decodeDescriptor c) :=
  isStreamCode_iff _ (by revert c; decide)

theorem decodeMaskControl_stream (c : Byte) : IsStreamCode (decodeMaskControl c) :=
  isStreamCode_iff _ (by rw [decodeMaskControl]; split <;> simp [spaceOf])

theorem decodeRle8Control_stream (c : Byte) : IsStreamCode (decodeRle8Control c) :=
  isStreamCode_iff _ (by rw [decodeRle8Control]; split <;> simp [spaceOf])

theorem decodeEgaControl_stream (c : Byte) : IsStreamCode (decodeEgaControl c) :=
  isStreamCode_iff _ (by rw [decodeEgaControl]; split <;> [split; skip] <;> simp [spaceOf])

theorem zigzagReader_stream (n : Nat) : ReaderGives IsStreamCode (zigzagReader n) := by
  intro b0
  cases b0
  · exact isStreamCode_iff _ (by simp [spaceOf])
  · intro b1
    cases b1
    · exact readerGives_readBits n fun v => isStreamCode_iff _ (by simp [spaceOf])
    · intro b2
      cases b2 <;> exact isStreamCode_iff _ (by simp [spaceOf])

theorem majminRunReader_stream (n : Nat) : ReaderGives IsStreamCode (majminRunReader n) := by
  intro b0
  cases b0
  · exact isStreamCode_iff _ (by simp [spaceOf])
  · intro b1
    cases b1
    · exact readerGives_readBits n fun v => isStreamCode_iff _ (by simp [spaceOf])
    · dsimp only
      rw [if_pos rfl]
      refine readerGives_readBits 3 fun v => ?_
      split
      · exact readerGives_readBits 8 fun m => isStreamCode_iff _ (by simp [spaceOf])
      · exact isStreamCode_iff _ (by simp [spaceOf])

theorem majminDeltaReader_stream (n : Nat) : ReaderGives IsStreamCode (majminDeltaReader n) := by
  intro b0
  cases b0
  · exact isStreamCode_iff _ (by simp [spaceOf])
  · intro b1
    cases b1
    · exact readerGives_readBits n fun v => isStreamCode_iff _ (by simp [spaceOf])
    · dsimp only
      rw [if_pos rfl]
      exact readerGives_readBits 3 fun v => isStreamCode_iff (.mmdDelta (BitVec.ofNat 3 v)) (by simp [spaceOf])

/-- A fetch from a stream gives a stream code. -/
theorem fetchCode_stream {s t : State} {i : Instr} (h : StateT.run fetchCode s = .ok (i, t)) : IsStreamCode i := by
  obtain ⟨d, u, h1, h2⟩ := run_bind_inv h
  split at h2
  · obtain ⟨c, _, _, h3⟩ := run_bind_inv h2; cases h3; exact decodeDescriptor_stream c
  · obtain ⟨c, _, _, h3⟩ := run_bind_inv h2; cases h3; exact decodeMaskControl_stream c
  · obtain ⟨c, _, _, h3⟩ := run_bind_inv h2; cases h3; exact decodeRle8Control_stream c
  · obtain ⟨c, _, _, h3⟩ := run_bind_inv h2; cases h3; exact decodeEgaControl_stream c
  · exact runReader_gives (zigzagReader_stream _) h2
  · exact runReader_gives (majminRunReader_stream _) h2
  · exact runReader_gives (majminDeltaReader_stream _) h2

/-- Inside a decode a step fetches a code and runs it. -/
theorem step_decode {s : State} {d : Decode} (hd : s.dec = some d) :
    step s = match StateT.run fetchCode s with | .ok (i, t) => exec i t | .error e => stopOutcome e := by
  have h : fetchInstr s = match StateT.run fetchCode s with | .ok (i, t) => .run i t | .error e => .stop e := by
    rw [fetchInstr]
    split
    · rfl
    · next h => rw [hd] at h; cases h
  rw [step, h]
  cases StateT.run fetchCode s <;> rfl

/-- What a step that answers has done. -/
inductive StepCase (s t : State) : Prop where
  /-- inside a decode: one code of the stream -/
  | code (d : Decode) (i : Instr) (u : State) (hd : s.dec = some d) (hf : StateT.run fetchCode s = .ok (i, u))
      (he : exec i u = .next t)
  /-- nothing to do -/
  | idle (hd : s.dec = none) (hi : s.inbox = []) (ht : t = s)
  | reset (rest : List HostAction) (hd : s.dec = none) (hi : s.inbox = .reset :: rest)
      (ht : t = ({ s with inbox := rest } : State).resetUnit)
  | ignored (o w : Word) (rest : List HostAction) (hd : s.dec = none) (hi : s.inbox = .write o w :: rest)
      (hr : registerAt s.par.maxStrips o.toNat = .cmd) (hf : s.fault = true) (ht : t = { s with inbox := rest })
  | illegal (o w : Word) (rest : List HostAction) (hd : s.dec = none) (hi : s.inbox = .write o w :: rest)
      (hr : registerAt s.par.maxStrips o.toNat = .cmd) (hf : s.fault = false) (hw : decodeCommand w = none)
      (ht : t = ({ s with inbox := rest } : State).raised .illegalCommand w)
  | command (o w : Word) (rest : List HostAction) (i : Instr) (hd : s.dec = none) (hi : s.inbox = .write o w :: rest)
      (hr : registerAt s.par.maxStrips o.toNat = .cmd) (hf : s.fault = false) (hw : decodeCommand w = some i)
      (he : exec i { s with inbox := rest } = .next t)
  | written (o w : Word) (rest : List HostAction) (hd : s.dec = none) (hi : s.inbox = .write o w :: rest)
      (hr : registerAt s.par.maxStrips o.toNat ≠ .cmd)
      (ht : t = writeRegister { s with inbox := rest } (registerAt s.par.maxStrips o.toNat) w)
  | read (o : Word) (rest : List HostAction) (hd : s.dec = none) (hi : s.inbox = .read o :: rest)
      (ht : t = { s with inbox := rest, readData := readRegister { s with inbox := rest } (registerAt s.par.maxStrips o.toNat) })
  | stored (a : Nat) (v : Byte) (rest : List HostAction) (hd : s.dec = none) (hi : s.inbox = .store a v :: rest)
      (ht : t = hostStore { s with inbox := rest } a v)

theorem step_inv {s t : State} (h : step s = .next t) : StepCase s t := by
  cases hd : s.dec with
  | some d =>
    rw [step_decode hd] at h
    split at h
    · next i u hf => exact .code d i u hd hf h
    · exact absurd h (stopOutcome_ne_next _ _)
  | none =>
    cases hi : s.inbox with
    | nil =>
      rw [step_idle hd hi] at h
      cases h
      exact .idle hd hi rfl
    | cons act rest =>
      rw [step_host hd hi] at h
      cases act with
      | reset => cases h; exact .reset rest hd hi rfl
      | read o => cases h; exact .read o rest hd hi rfl
      | store a v => cases h; exact .stored a v rest hd hi rfl
      | write o w =>
        by_cases hr : registerAt s.par.maxStrips o.toNat = .cmd
        · have e : hostAct { s with inbox := rest } (.write o w) = issueCommand { s with inbox := rest } w := if_pos hr
          rw [e, issueCommand] at h
          cases hf : s.fault with
          | true => rw [if_pos hf] at h; cases h; exact .ignored o w rest hd hi hr hf rfl
          | false =>
            rw [if_neg (by simp [hf])] at h
            cases hw : decodeCommand w with
            | none => rw [hw] at h; cases h; exact .illegal o w rest hd hi hr hf hw rfl
            | some i => rw [hw] at h; exact .command o w rest i hd hi hr hf hw h
        · have e : hostAct { s with inbox := rest } (.write o w)
              = .done (writeRegister { s with inbox := rest } (registerAt s.par.maxStrips o.toNat) w) := if_neg hr
          rw [e] at h
          cases h
          exact .written o w rest hd hi hr rfl

/-- Every word that decodes is a command of the table. -/
theorem decodeCommand_mem {w : Word} {i : Instr} (h : decodeCommand w = some i) :
    ∃ c ∈ commandTable, ∃ v, i = c.2 v ∧ w.toNat / 2 ^ 10 = 0 ∧ w.toNat % 2 ^ 8 = c.1 := by
  rw [decodeCommand] at h
  split at h
  · next hw =>
    have mem : ∀ c ∈ commandTable, ∀ v, some (c.2 v) = some i → w.toNat % 2 ^ 8 = c.1 →
        ∃ c ∈ commandTable, ∃ v, i = c.2 v ∧ w.toNat / 2 ^ 10 = 0 ∧ w.toNat % 2 ^ 8 = c.1 := by
      intro c hc v he hm
      cases he
      exact ⟨c, hc, v, rfl, hw, hm⟩
    have tab : ∀ n : Fin 14, commandTable.getD n (0, .vsInit) ∈ commandTable := by
      intro n
      rw [List.getD_eq_getElem _ _ (by simp [commandTable, screenCommands, otherCommands])]
      exact List.getElem_mem _
    dsimp only at h
    split at h
    · next hm => exact mem _ (tab 10) _ h hm
    · next hm => exact mem _ (tab 0) _ h hm
    · next hm => exact mem _ (tab 11) _ h hm
    · next hm => exact mem _ (tab 12) _ h hm
    · next hm => exact mem _ (tab 1) _ h hm
    · next hm => exact mem _ (tab 2) _ h hm
    · next hm => exact mem _ (tab 3) _ h hm
    · next hm => exact mem _ (tab 4) _ h hm
    · next hm => exact mem _ (tab 5) _ h hm
    · next hm => exact mem _ (tab 6) _ h hm
    · next hm => exact mem _ (tab 13) _ h hm
    · next hm => exact mem _ (tab 7) _ h hm
    · next hm => exact mem _ (tab 8) _ h hm
    · next hm => exact mem _ (tab 9) _ h hm
    · cases h
  · cases h

end Sys2Proof.Machine
end

