-- ==== Sys2Proof/Tests/Slice0.lean ====
section
/-! SUPPORT. Tests: the checks of WellFormed, decoding of words written out from the spec's encodings, one-step tests whose
expected values are the spec's own (95_test_vectors.md and the worked examples), and a witness for every statement with
hypotheses. -/

open Sys2Proof Sys2Proof.Machine

namespace Sys2Proof.Tests

/- One proof at a time: many kernel checks in parallel threads take too much address space. -/
set_option Elab.async false

/-! ## WellFormed: an ill-formed term for each check -/

/-- 30_encoding.md R68: 1 is in `DESC_MAP`. -/
theorem test_wf_descriptor_recognised : Instr.wf (.descUnrecognised 1) = false := by decide

/-- 30_encoding.md R65: literals have 4 to 8 bits and a value of that width. -/
theorem test_wf_zigzag_literal :
    Instr.wf (.zzLiteral 3 1) = false ∧ Instr.wf (.zzLiteral 9 1) = false ∧ Instr.wf (.zzLiteral 4 16) = false := by decide

theorem test_wf_majmin_run_literal :
    Instr.wf (.mmrLiteral 3 1) = false ∧ Instr.wf (.mmrLiteral 9 1) = false ∧ Instr.wf (.mmrLiteral 5 32) = false := by
  decide

theorem test_wf_majmin_delta_literal :
    Instr.wf (.mmdLiteral 3 1) = false ∧ Instr.wf (.mmdLiteral 9 1) = false ∧ Instr.wf (.mmdLiteral 7 128) = false := by
  decide

/-- 30_encoding.md R72: 4 is the run code. -/
theorem test_wf_majmin_run_delta : Instr.wf (.mmrDelta 4) = false := by decide

/-- The boundary values that pass. -/
theorem test_wf_accepts :
    Instr.wf (.descUnrecognised 150) = true ∧ Instr.wf (.zzLiteral 4 15) = true ∧ Instr.wf (.zzLiteral 8 255) = true
      ∧ Instr.wf (.mmrDelta 3) = true := by decide

/-! ## Decoding: words written out from the spec's encodings -/

/-- 30_encoding.md R60, R61: the command table, the `VS` field at each of its values. -/
theorem test_decode_commands :
    [(0x00000001#32, Instr.vsInit 0), (0x00000210#32, .decodeStrip 2), (0x00000011#32, .decodeMask 0),
     (0x00000312#32, .decodeMaskOr 3), (0x00000120#32, .markDirty 1), (0x00000221#32, .flush 2),
     (0x00000330#32, .restoreBg 3), (0x00000031#32, .copy8col 0), (0x00000132#32, .clear8col 1),
     (0x00000233#32, .composeStrip 2), (0x00000334#32, .stripLookup 3), (0x00000035#32, .blitMasked 0),
     (0x00000140#32, .getPixels 1), (0x00000241#32, .getBackPixels 2)].all
      (fun x => decide (decode .command (bitsOf 32 x.1.toNat) = .ok (x.2, []))) = true := by decide

/-- FLUSH.v1 bit by bit: `OP = 0x21` in 7:0, `VS = 1` in 9:8, zeros above, least significant bit first. -/
theorem test_decode_flush_bits :
    decode .command ([true, false, false, false, false, true, false, false] ++ [true, false] ++ List.replicate 22 false)
      = .ok (.flush 1, []) := by decide

/-- 95_test_vectors.md V19: illegal command words are rejected by name. -/
theorem test_decode_illegal_commands :
    decodeCommand 0x00000421#32 = none ∧ decodeCommand 0x00000002#32 = none ∧ decodeCommand 0#32 = none
      ∧ decode .command (bitsOf 32 0x421) = .error (.illegalCommand 0x421#32) := by decide

/-- Bits that end inside a code are rejected by name. -/
theorem test_decode_truncated :
    decode (.zigzag 4) [true, false, true] = .error (.truncated (.zigzag 4))
      ∧ decode .maskControl [true] = .error (.truncated .maskControl) := by decide

/-- 30_encoding.md R67: RAW, RLE8 and EGA_RLE. -/
theorem test_decode_plain_descriptors :
    [(0x01#8, Instr.descRaw1), (0x08#8, .descRle8_8), (0x09#8, .descRle8_9), (0x0A#8, .descEgaRle10),
     (0x95#8, .descRaw149)].all (fun x => decide (decodeDescriptor x.1 = x.2)) = true := by decide

/-- 30_encoding.md R67: ZIGZAG_V. -/
theorem test_decode_zigzag_v_descriptors :
    [(0x0E#8, Instr.descZigzagV14), (0x0F#8, .descZigzagV15), (0x10#8, .descZigzagV16), (0x11#8, .descZigzagV17),
     (0x12#8, .descZigzagV18), (0x22#8, .descZigzagV34), (0x23#8, .descZigzagV35), (0x24#8, .descZigzagV36),
     (0x25#8, .descZigzagV37), (0x26#8, .descZigzagV38)].all (fun x => decide (decodeDescriptor x.1 = x.2)) = true := by
  decide

/-- 30_encoding.md R67: ZIGZAG_H. -/
theorem test_decode_zigzag_h_descriptors :
    [(0x18#8, Instr.descZigzagH24), (0x19#8, .descZigzagH25), (0x1A#8, .descZigzagH26), (0x1B#8, .descZigzagH27),
     (0x1C#8, .descZigzagH28), (0x2C#8, .descZigzagH44), (0x2D#8, .descZigzagH45), (0x2E#8, .descZigzagH46),
     (0x2F#8, .descZigzagH47), (0x30#8, .descZigzagH48)].all (fun x => decide (decodeDescriptor x.1 = x.2)) = true := by
  decide

/-- 30_encoding.md R67: MAJMIN_RUN, the first two ranges. -/
theorem test_decode_majmin_run_descriptors :
    [(0x40#8, Instr.descMajminRun64), (0x41#8, .descMajminRun65), (0x42#8, .descMajminRun66), (0x43#8, .descMajminRun67),
     (0x44#8, .descMajminRun68), (0x54#8, .descMajminRun84), (0x55#8, .descMajminRun85), (0x56#8, .descMajminRun86),
     (0x57#8, .descMajminRun87), (0x58#8, .descMajminRun88)].all (fun x => decide (decodeDescriptor x.1 = x.2)) = true := by
  decide

/-- 30_encoding.md R67: MAJMIN_RUN, the last two ranges. -/
theorem test_decode_majmin_run_descriptors_high :
    [(0x68#8, Instr.descMajminRun104), (0x69#8, .descMajminRun105), (0x6A#8, .descMajminRun106),
     (0x6B#8, .descMajminRun107), (0x6C#8, .descMajminRun108), (0x7C#8, .descMajminRun124), (0x7D#8, .descMajminRun125),
     (0x7E#8, .descMajminRun126), (0x7F#8, .descMajminRun127), (0x80#8, .descMajminRun128)].all
      (fun x => decide (decodeDescriptor x.1 = x.2)) = true := by decide

/-- 30_encoding.md R67: MAJMIN_DELTA. -/
theorem test_decode_majmin_delta_descriptors :
    [(0x86#8, Instr.descMajminDelta134), (0x87#8, .descMajminDelta135), (0x88#8, .descMajminDelta136),
     (0x89#8, .descMajminDelta137), (0x8A#8, .descMajminDelta138), (0x90#8, .descMajminDelta144),
     (0x91#8, .descMajminDelta145), (0x92#8, .descMajminDelta146), (0x93#8, .descMajminDelta147),
     (0x94#8, .descMajminDelta148)].all (fun x => decide (decodeDescriptor x.1 = x.2)) = true := by decide

/-- 30_encoding.md R68, 95_test_vectors.md V21: the values beside the table. -/
theorem test_decode_unrecognised :
    [0x00#8, 0x02#8, 0x05#8, 0x0B#8, 0x0D#8, 0x13#8, 0x96#8, 0xFF#8].all
      (fun d => decide (decodeDescriptor d = .descUnrecognised d)) = true := by decide

/-- Descriptor 24 (0x18) bit by bit, least significant bit first. -/
theorem test_decode_descriptor_bits :
    decode .descriptor [false, false, false, true, true, false, false, false] = .ok (.descZigzagH24, []) := by decide

/-- 30_encoding.md R76, R74, R75: the byte codes of 95_test_vectors.md V8, V9, V10 bit by bit, bit 7 on the left. -/
theorem test_decode_byte_codes :
    decodeMaskControl 0b10000011#8 = .maskRun 3 ∧ decodeMaskControl 0b00000010#8 = .maskLit 2
      ∧ decodeRle8Control 0b00001011#8 = .rle8Run 5 ∧ decodeRle8Control 0b00000010#8 = .rle8Lit 1
      ∧ decodeEgaControl 0b00110101#8 = .egaRun 3 5 ∧ decodeEgaControl 0b10000011#8 = .egaCopyleft 3
      ∧ decodeEgaControl 0b11000100#8 = .egaDither 4 := by decide

/-- 30_encoding.md R71, 95_test_vectors.md V2: `0`, `10 0101` (literal 0xA), `110`, `111`, in read order. -/
theorem test_decode_zigzag_codes :
    decode (.zigzag 4) [false] = .ok (.zzKeep, [])
      ∧ decode (.zigzag 4) [true, false, false, true, false, true] = .ok (.zzLiteral 4 0xA, [])
      ∧ decode (.zigzag 4) [true, true, false] = .ok (.zzStep, [])
      ∧ decode (.zigzag 4) [true, true, true] = .ok (.zzTurn, []) := by decide

/-- 30_encoding.md R72, 95_test_vectors.md V5: `0`, `10 1110` (literal 7), `11 111` (`v = 7`), `11 001 11000000` (run of
3). -/
theorem test_decode_majmin_run_codes :
    decode (.majminRun 4) [false] = .ok (.mmrKeep, [])
      ∧ decode (.majminRun 4) [true, false, true, true, true, false] = .ok (.mmrLiteral 4 7, [])
      ∧ decode (.majminRun 4) [true, true, true, true, true] = .ok (.mmrDelta 7, [])
      ∧ decode (.majminRun 4) [true, true, false, false, true, true, true, false, false, false, false, false, false]
        = .ok (.mmrRun 3, []) := by decide

/-- 30_encoding.md R73, 95_test_vectors.md V7: `0`, `10 11111` (literal 0x1F), `11 001` (index 4). -/
theorem test_decode_majmin_delta_codes :
    decode (.majminDelta 5) [false] = .ok (.mmdKeep, [])
      ∧ decode (.majminDelta 5) [true, false, true, true, true, true, true] = .ok (.mmdLiteral 5 0x1F, [])
      ∧ decode (.majminDelta 5) [true, true, false, false, true] = .ok (.mmdDelta 4, []) := by decide

/-- The host's reading of a table row: a 32-bit row is a command, an 8-bit row a descriptor (log 5). -/
theorem test_decode_table_word :
    decodeTableWord 32 0x334 = some (.stripLookup 3) ∧ decodeTableWord 8 0x18 = some .descZigzagH24
      ∧ decodeTableWord 32 0x421 = none := by decide

/-! ## A small machine -/

/-- A screen of 16 by 4 pixels, one byte each, with a back buffer, all strips clean. -/
def smallScreen : VScreen where
  width := 16
  height := 4
  pitch := 16
  format := .indexed8
  xstart := 0
  pix := 0x1000
  back := 0x2000
  valid := true
  hasBack := true
  tdirty := [4, 4]
  bdirty := [0, 0]

/-- The identity palette. -/
def identityPalette : Vector Byte 256 := ⟨((List.range 256).map (BitVec.ofNat 8)).toArray, by simp⟩

/-- `PAL16[i] = 257 * i` (95_test_vectors.md V1 c). -/
def doubledPalette : Vector Half 256 := ⟨((List.range 256).map fun i => BitVec.ofNat 16 (257 * i)).toArray, by simp⟩

/-- Two strips a screen, four screens alike, a 16-bit address space. -/
def small : State :=
  { State.reset with
    screens := Vector.replicate 4 smallScreen
    roomPal := identityPalette
    pal16 := doubledPalette
    par := { Config.params with maxStrips := 2, addressBits := 16 } }

/-- A state whose operand registers begin with a list of values. -/
def withOperands (s : State) (vs : List Int) : State :=
  { s with a := ⟨((List.range 8).map fun i => BitVec.ofInt 32 (vs.getD i 0)).toArray, by simp⟩ }

/-- A state with bytes placed in memory. -/
def withBytes (s : State) (a : Nat) (bs : List Byte) : State := { s with mem := pokeBytes s.par s.mem a bs }

/-- `n` bytes of memory. -/
def bytesAt (s : State) (a n : Nat) : List Byte := (List.range n).map fun j => readByte s.mem (a + j)

/-- A property of the next state; false where there is none. -/
def nextHas (o : Answer) (p : State → Bool) : Bool :=
  match o with
  | .next t => p t
  | _ => false

/-- DECODE_STRIP of a stream at 0x3000 into 0x1000 with rows 8 bytes apart. -/
def decodeOf (stream : List Byte) (height : Int) : Answer :=
  exec (.decodeStrip 0) (withBytes (withOperands small [0x1000, 8, 0x3000, height]) 0x3000 stream)

/-- The pixels and `RESULT` a decode leaves. -/
def decodesTo (stream : List Byte) (height : Nat) (pixels : List Byte) (result : Word) : Bool :=
  nextHas (decodeOf stream height) fun t => bytesAt t 0x1000 (8 * height) = pixels ∧ t.result = result ∧ t.dec = none

/-- The dirty pairs of screen 0. -/
def pairsOf (t : State) : List (Nat × Nat) := dirtyPairs (t.screen 0)

/-! ## One-step tests -/

/-- V1 (b). -/
theorem test_raw : decodesTo [0x95, 0xFF, 0x00, 0x80, 0x7F, 1, 2, 3, 4] 1 [0xFF, 0x00, 0x80, 0x7F, 1, 2, 3, 4] 1 = true := by
  decide +kernel

/-- V1 (c): 16-bit pixels, low byte first. -/
theorem test_raw_rgb16 :
    nextHas (exec (.decodeStrip 0)
      (withBytes (withOperands { small with screens := small.screens.set 0 { smallScreen with format := .rgb16, pitch := 32 } }
        [0x1000, 16, 0x3000, 1]) 0x3000 [1, 1, 2, 3, 4, 5, 6, 7, 8]))
      (fun t => bytesAt t 0x1000 16 = [1, 1, 2, 2, 3, 3, 4, 4, 5, 5, 6, 6, 7, 7, 8, 8]) = true := by decide +kernel

/-- V2. -/
theorem test_zigzag_h : decodesTo [0x18, 0x03, 0xD2, 0x7D, 0x00] 1 [3, 3, 0xA, 9, 0xA, 0xB, 0xB, 0xB] 0 = true := by
  decide +kernel

/-- V3. -/
theorem test_zigzag_v :
    decodesTo [0x0E, 0x03, 0xD2, 0x7D, 0x00, 0x00] 2
      [3, 0xA, 0xA, 0xB, 0xB, 0xB, 0xB, 0xB, 3, 9, 0xB, 0xB, 0xB, 0xB, 0xB, 0xB] 0 = true := by decide +kernel

/-- V4. -/
theorem test_zigzag_wraps :
    decodesTo [0x1C, 0x00, 0x03, 0x00] 1 [0, 0xFF, 0xFF, 0xFF, 0xFF, 0xFF, 0xFF, 0xFF] 0 = true := by decide +kernel

/-- V5. -/
theorem test_majmin_run :
    decodesTo [0x40, 0x05, 0x73, 0xA0, 0xFB, 0x00] 1 [5, 5, 5, 5, 7, 0xA, 0xA, 0xA] 0 = true := by decide +kernel

/-- V6: a run count of 0 is 256, cut at the end of the strip. -/
theorem test_majmin_run_cut : decodesTo [0x54, 0x09, 0x13, 0x00] 2 (List.replicate 16 9) 1 = true := by decide +kernel

/-- V7. -/
theorem test_majmin_delta :
    decodesTo [0x87, 0x10, 0xE3, 0xF7, 0x4D, 0x00] 1 [0x10, 0x0C, 0x10, 0x1F, 0x1F, 0x20, 0x20, 0x20] 0 = true := by
  decide +kernel

/-- V8. -/
theorem test_rle8 :
    decodesTo [0x08, 0x0B, 0x22, 0x02, 0x33, 0x44, 0xFF, 0x55] 2
      ([0x22, 0x22, 0x22, 0x22, 0x22, 0x22, 0x33, 0x44] ++ List.replicate 8 0x55) 1 = true := by decide +kernel

/-- V9. -/
theorem test_ega_rle :
    decodesTo [0x0A, 0x35, 0xC4, 0x12, 0x83, 0x07, 0x06] 2
      [5, 5, 2, 2, 2, 7, 7, 7, 5, 1, 1, 1, 1, 7, 7, 7] 0 = true := by decide +kernel

/-- 93_implementation_defined.md G18: a substituted `DESC_MAP` with RAW in column order, and one without the byte. -/
theorem test_substituted_table :
    (let small := { small with par := { small.par with descMap := [⟨1, .raw, .column, true⟩] } }
     nextHas (exec (.decodeStrip 0) (withBytes (withOperands small [0x1000, 8, 0x3000, 2]) 0x3000
        (1 :: (List.range 16).map fun i => BitVec.ofNat 8 (i + 1))))
      (fun t => bytesAt t 0x1000 16 = [1, 3, 5, 7, 9, 11, 13, 15, 2, 4, 6, 8, 10, 12, 14, 16] ∧ t.result = 1)
     ∧ nextHas (exec (.decodeStrip 0) (withBytes (withOperands small [0x1000, 8, 0x3000, 1]) 0x3000 [0x18, 3]))
      (fun t => statusWord t = 0x102#32 ∧ t.faultInfo = 0x18#32)) := by
  decide +kernel

/-- 40_bitmap_codec.md, opening: a supplied body obeys R91 and R92; its colours are free. -/
theorem test_supplied_body :
    nextHas (exec (.decodeStrip 0)
      (withBytes (withOperands { small with par := { small.par with suppliedBodies := [.rle8] } } [0x1000, 8, 0x3000, 1])
        0x3000 [8])) (fun t => t.result = 1 ∧ t.dec = none) = true := by
  decide +kernel

/-- V21: the fault, the descriptor in `FAULT_INFO`, nothing written. -/
theorem test_unknown_descriptor :
    nextHas (decodeOf [0x05, 0x01, 0x02] 1)
      (fun t => statusWord t = 0x102#32 ∧ t.faultInfo = 5#32 ∧ bytesAt t 0x1000 8 = List.replicate 8 0) = true := by
  decide +kernel

/-- V23. -/
theorem test_reserved_profile :
    nextHas (exec (.decodeStrip 0) { small with profile := 6 })
      (fun t => statusWord t = 0x402#32 ∧ t.faultInfo = 0x10#32) = true := by decide +kernel

/-- The name of a refusal. -/
def refusalOf (o : Answer) : Option Refusal :=
  match o with
  | .refused r => some r
  | _ => none

/-- 40_bitmap_codec.md R96, R107 and 41_mask_codec.md R136: what the spec refuses. -/
theorem test_refused_operands :
    refusalOf (decodeOf [1] 0) = some .heightZero
      ∧ refusalOf (exec (.maskRun 0) { small with dec := some (newDecode (.mask false) .indexed8 0x5000 1 0x3000 2) })
        = some .maskCountZero
      ∧ refusalOf (exec (.egaRun 7 1) { small with dec := some { newDecode .ega .indexed8 0x1000 8 0x3000 1 with k := 2 } })
        = some .egaOverrun := by decide +kernel

/-- V10 (a). -/
theorem test_decode_mask :
    nextHas (exec (.decodeMask 3)
      (withBytes (withOperands small [0x5000, 40, 0x3000, 8]) 0x3000 [0x83, 0xFF, 0x02, 0x0F, 0xF0, 0x85, 0x00]))
      (fun t => (List.range 8).map (fun r => readByte t.mem (0x5000 + 40 * r))
        = [0xFF, 0xFF, 0xFF, 0x0F, 0xF0, 0, 0, 0]) = true := by decide +kernel

/-- V10 (b): a literal pair cut at the last row. -/
theorem test_decode_mask_cut :
    nextHas (exec (.decodeMask 0)
      (withBytes (withOperands small [0x5000, 1, 0x3000, 2]) 0x3000 [0x05, 0xAA, 0xBB, 0xCC, 0xDD, 0xEE]))
      (fun t => bytesAt t 0x5000 3 = [0xAA, 0xBB, 0]) = true := by decide +kernel

/-- V11. -/
theorem test_decode_mask_or :
    nextHas (exec (.decodeMaskOr 0)
      (withBytes (withBytes (withOperands small [0x5000, 1, 0x3000, 8]) 0x3000 [0x88, 0x81])
        0x5000 [0xFF, 0xFF, 0xFF, 0x0F, 0xF0, 0, 0, 0]))
      (fun t => bytesAt t 0x5000 8 = [0xFF, 0xFF, 0xFF, 0x8F, 0xF1, 0x81, 0x81, 0x81]) = true := by decide +kernel

/-- V13 (b) on the small screen: clipping, both strips. -/
theorem test_mark_dirty_clips :
    nextHas (exec (.markDirty 0) (withOperands small [-5, 12, -3, 500])) (fun t => pairsOf t = [(0, 4), (0, 4)]) = true := by
  decide +kernel

/-- V13 (a), (c), (d): an empty or outside rectangle marks nothing; both column bounds are inclusive. -/
theorem test_mark_dirty_bounds :
    nextHas (exec (.markDirty 0) (withOperands small [16, 20, 0, 4])) (fun t => pairsOf t = [(4, 0), (4, 0)])
      ∧ nextHas (exec (.markDirty 0) (withOperands small [0, 7, 1, 2])) (fun t => pairsOf t = [(1, 2), (4, 0)])
      ∧ nextHas (exec (.markDirty 0) (withOperands small [0, 8, 1, 2])) (fun t => pairsOf t = [(1, 2), (1, 2)]) := by
  decide +kernel

/-- The end of P2: the event FLUSH emits for two strips with the span `(1, 4)`. -/
def marked : State := { small with screens := small.screens.set 0 { smallScreen with tdirty := [1, 1], bdirty := [4, 4] } }

theorem test_flush :
    nextHas (exec (.flush 0) marked)
      (fun t => t.display.map (fun e => (e.buffer, e.pitch, e.x, e.y, e.w, e.h)) = [(0x1010, 16, 0, 1, 16, 3)]
        ∧ t.result = 1 ∧ pairsOf t = [(4, 0), (4, 0)]) = true := by decide +kernel

/-- V22 in small: strips with different spans are not merged, an empty span gives no call. -/
theorem test_coalesce :
    (coalesce 0 [(2, 5), (2, 5), (2, 6), (4, 4), (2, 5), (2, 5)]).map (fun r => (8 * r.first, r.top, 8 * r.len, r.bottom - r.top))
      = [(0, 2, 16, 3), (16, 2, 8, 4), (32, 2, 16, 3)] := by decide

/-- V14 in small: the copy arm and its mark. -/
theorem test_restore_bg :
    nextHas (exec (.restoreBg 0)
      (withBytes (withOperands small [4, 1, 12, 2, 0x1234AB]) 0x2010 ((List.range 16).map fun i => BitVec.ofNat 8 (0x10 + i))))
      (fun t => bytesAt t 0x1010 16 = [0, 0, 0, 0, 0x14, 0x15, 0x16, 0x17, 0x18, 0x19, 0x1A, 0x1B, 0, 0, 0, 0]
        ∧ pairsOf t = [(1, 2), (1, 2)]) = true := by decide +kernel

/-- V14 (b), (c) in small: lights off, the low bits of the fill colour, clipping. -/
theorem test_restore_bg_fills :
    nextHas (exec (.restoreBg 0) (withOperands { small with lights := false } [-8, 3, 4, 300, 0x1234AB]))
      (fun t => bytesAt t 0x1030 6 = [0xAB, 0xAB, 0xAB, 0xAB, 0, 0] ∧ pairsOf t = [(3, 4), (4, 0)]) = true := by
  decide +kernel

/-- V15 in small. -/
theorem test_copy8col :
    nextHas (exec (.copy8col 0) (withBytes (withOperands small [0x1000, 16, 0x4000, 2])
      0x4000 ((List.range 32).map fun i => BitVec.ofNat 8 (1 + i))))
      (fun t => bytesAt t 0x1000 9 = [1, 2, 3, 4, 5, 6, 7, 8, 0] ∧ bytesAt t 0x1010 9 = [17, 18, 19, 20, 21, 22, 23, 24, 0])
      = true := by decide +kernel

theorem test_clear8col :
    nextHas (exec (.clear8col 0) (withBytes (withOperands small [0x1000, 16, 1]) 0x1000 (List.replicate 17 0xEE)))
      (fun t => bytesAt t 0x1000 9 = [0, 0, 0, 0, 0, 0, 0, 0, 0xEE] ∧ bytesAt t 0x1010 1 = [0xEE]) = true := by decide +kernel

/-- P5 in small: the copy arm on a scrolled screen. -/
theorem test_compose_strip :
    nextHas (exec (.composeStrip 0)
      (withBytes (withOperands { small with screens := small.screens.set 0 { smallScreen with pitch := 24, xstart := 8 } } [1, 0, 1])
        0x2010 [1, 2, 3, 4, 5, 6, 7, 8]))
      (fun t => bytesAt t 0x100F 10 = [0, 1, 2, 3, 4, 5, 6, 7, 8, 0] ∧ pairsOf t = [(4, 0), (4, 0)]) = true := by decide +kernel

/-- The clear arm. -/
theorem test_compose_strip_dark :
    nextHas (exec (.composeStrip 0)
      (withBytes (withOperands { small with lights := false } [1, 0, 1]) 0x1008 (List.replicate 9 0xEE)))
      (fun t => bytesAt t 0x1008 9 = [0, 0, 0, 0, 0, 0, 0, 0, 0xEE]) = true := by decide +kernel

/-- V16 (a), (c), (d), (e). -/
def tableOf (operands : List Int) : Answer :=
  exec (.stripLookup 0) (withBytes (withOperands small operands) 0x3000 [0x20, 0, 0, 0, 0x31, 0, 0, 0])

theorem test_strip_lookup : nextHas (tableOf [0x3000, 1, 4, 2, 0x32]) (fun t => t.result = 0x31#32 ∧ t.fault = false) = true := by
  decide +kernel

theorem test_strip_lookup_faults :
    nextHas (tableOf [0x3000, 1, 4, 2, 0x31]) (fun t => statusWord t = 0x202#32 ∧ t.faultInfo = 0x31#32)
      ∧ nextHas (tableOf [0x3000, 2, 4, 2, 0x100]) (fun t => statusWord t = 0x202#32 ∧ t.faultInfo = 2#32)
      ∧ nextHas (tableOf [0x3000, 0, 3, 2, 0x100]) (fun t => statusWord t = 0x502#32 ∧ t.faultInfo = 0x34#32) := by
  decide +kernel

/-- The sprite of V17, rows of 12 bytes. -/
def sprite : List Byte :=
  [0xA0, 0xA1, 0xA2, 0xA3, 0xA4, 0x00, 0xA6, 0xA7, 0xA8, 0xA9, 0xAA, 0xAB] ++
  [0xB0, 0xB1, 0xB2, 0xB3, 0xB4, 0x00, 0xB6, 0xB7, 0xB8, 0xB9, 0xBA, 0xBB] ++
  [0xC0, 0xC1, 0xC2, 0xC3, 0xC4, 0x00, 0xC6, 0xC7, 0xC8, 0xC9, 0x00, 0x00]

/-- V17: clipping on two sides, neither key nor mask. -/
theorem test_blit_masked_clips :
    nextHas (exec (.blitMasked 0) (withBytes (withOperands small [0x6000, 12, -3, -1, 0x3000C, 0, 0, 0]) 0x6000 sprite))
      (fun t => bytesAt t 0x1000 10 = [0xB3, 0xB4, 0x00, 0xB6, 0xB7, 0xB8, 0xB9, 0xBA, 0xBB, 0]
        ∧ bytesAt t 0x1010 10 = [0xC3, 0xC4, 0x00, 0xC6, 0xC7, 0xC8, 0xC9, 0, 0, 0] ∧ pairsOf t = [(0, 2), (0, 2)]) = true := by
  decide +kernel

/-- P2: key and mask; row 1 of the screen. -/
theorem test_blit_masked :
    nextHas (exec (.blitMasked 0)
      (withBytes (withBytes (withBytes (withOperands small [0x6000, 12, 2, 1, 0x3000C, 0x5000, 2, 0x30000]) 0x6000 sprite)
        0x5000 [0xFF, 0xFF, 0xF0, 0x00, 0xF0, 0x0F, 0xF0, 0x0F]) 0x1010 (List.replicate 16 0x11)))
      (fun t => bytesAt t 0x1010 16 = [0x11, 0x11, 0x11, 0x11, 0xA2, 0xA3, 0xA4, 0x11, 0xA6, 0xA7, 0xA8, 0xA9, 0xAA, 0xAB,
        0x11, 0x11] ∧ pairsOf t = [(1, 4), (1, 4)]) = true := by decide +kernel

/-- V18 on the small screen: `0x1000 + 2 * 16 + (8 + 3)`, and a pixel before the buffer. -/
theorem test_get_pixels :
    nextHas (exec (.getPixels 0)
      (withOperands { small with screens := small.screens.set 0 { smallScreen with xstart := 8 } } [3, 2]))
      (fun t => t.result = 0x102B#32)
      ∧ nextHas (exec (.getPixels 0) (withOperands small [-20, -1])) (fun t => t.result = 0xFDC#32) := by decide +kernel

theorem test_get_back_pixels :
    nextHas (exec (.getBackPixels 0) (withOperands small [3, 2])) (fun t => t.result = 0x2023#32) = true := by decide +kernel

/-- V20: the width that is no multiple of 8, the short pitch; and the screen VS_INIT creates. -/
theorem test_vs_init_checks :
    nextHas (exec (.vsInit 2) (withOperands small [17, 4, 17, 1])) (fun t => statusWord t = 0x502#32 ∧ t.faultInfo = 0x201#32)
      ∧ nextHas (exec (.vsInit 2) (withOperands small [16, 4, 31, 2])) (fun t => statusWord t = 0x502#32) := by
  decide +kernel

theorem test_vs_init :
    nextHas (exec (.vsInit 0) (withOperands small [16, 3, 32, 2, 0x4000, 0x5000, 2]))
      (fun t => (t.screen 0).height = 3 ∧ (t.screen 0).format = .rgb16 ∧ (t.screen 0).pix = 0x4000
        ∧ (t.screen 0).hasBack = false ∧ pairsOf t = [(3, 0), (3, 0)]) = true := by decide +kernel

/-- V19, V25: command words through the host's port. -/
theorem test_illegal_command :
    nextHas (step { small with inbox := [.write 0 0x421] }) (fun t => statusWord t = 0x402#32 ∧ t.faultInfo = 0x421#32)
      ∧ nextHas (step { small with fault := true, inbox := [.write 0 0x21] }) (fun t => t.inbox = [] ∧ t.display = []) := by
  decide +kernel

/-- What the host places is what the next step runs: FLUSH.v1 on a machine with no valid screen (V19), and a descriptor
that is not in the table (V21). -/
theorem test_fetch_word :
    nextHas (step (State.reset.withFetchWord 32 0x121)) (fun t => statusWord t = 0x502#32 ∧ t.faultInfo = 0x121#32)
      ∧ nextHas (step (State.reset.withFetchWord 8 0x13)) (fun t => statusWord t = 0x102#32 ∧ t.faultInfo = 0x13#32) := by
  decide +kernel

/-- V26: four bits after three, and a field across a byte boundary. -/
theorem test_read_bits :
    runReaderOnBits (readBits 3 .done) (bitsOf 8 0xD2 ++ bitsOf 8 0x7D) = some (2, (bitsOf 8 0xD2).drop 3 ++ bitsOf 8 0x7D)
      ∧ (runReaderOnBits (readBits 4 .done) ((bitsOf 8 0xD2 ++ bitsOf 8 0x7D).drop 3)).map Prod.fst = some 0xA
      ∧ (runReaderOnBits (readBits 3 .done) ((bitsOf 8 0xD2 ++ bitsOf 8 0x7D).drop 7)).map Prod.fst = some 3 := by decide

/-! ## Witnesses: for every statement with hypotheses, a state and operands that meet them together -/

theorem next_of_has {o : Answer} {p : State → Bool} (h : nextHas o p = true) : ∃ t, o = .next t := by
  cases o <;> simp_all [nextHas]

theorem readable_open {par : Params} {a n : Nat} (h : par.holes = []) (fits : a + n ≤ 2 ^ par.addressBits) :
    readable par a n := ⟨fits, fun _ _ => by simp [mapped, h]⟩

theorem blockFits_below {par : Params} {dst pitch n h : Nat} (fits : dst + h * pitch + n ≤ 2 ^ par.addressBits) :
    blockFits par dst pitch n h := fun y hy => by
  have := Nat.mul_le_mul_right pitch hy.le
  omega

theorem blockReadable_open {par : Params} {dst pitch n h : Nat} (holes : par.holes = [])
    (fits : dst + h * pitch + n ≤ 2 ^ par.addressBits) : blockReadable par dst pitch n h := fun y hy => by
  have := Nat.mul_le_mul_right pitch hy.le
  exact readable_open holes (by omega)

theorem blocksDisjoint_below {dst src pitch n h : Nat} (below : dst + h * pitch + n ≤ src) :
    blocksDisjoint dst src pitch n h := by
  rintro a ⟨y, hy, h1, h2⟩ ⟨z, hz, h3, h4⟩
  have := Nat.mul_le_mul_right pitch hy.le
  omega

/-- O1, at the widest and the narrowest literal. -/
theorem test_witness_DecodeEncode : Instr.wf (.zzLiteral 8 255) = true ∧ Instr.wf (.mmdLiteral 4 0) = true := by decide

/-- O2, at both bounds of the width. -/
theorem test_witness_DecodeAcceptsOnlyEncodings :
    (4 ≤ spaceWidth (.zigzag 4) ∧ spaceWidth (.zigzag 4) ≤ 8
      ∧ decode (.zigzag 4) (bitsOf 8 0xA5) = .ok (.zzLiteral 4 9, [false, true]))
    ∧ (4 ≤ spaceWidth .command ∧ spaceWidth .command ≤ 8
      ∧ decode .command (bitsOf 32 0x335) = .ok (.blitMasked 3, [])) := by decide

/-- O5. -/
theorem test_witness_StepRunsIssuedCommand :
    let s := { small with inbox := [.write 0 0x331#32] }
    s.dec = none ∧ s.fault = false ∧ s.inbox = .write 0 0x331#32 :: []
      ∧ decode .command (bitsOf 32 (0x331#32).toNat) = .ok (.copy8col 3, []) := by decide

/-- A decode in progress that reads a bit stream at bit `b` of 0x3001. -/
def inBits (ph : Phase) (b : Nat) : Decode :=
  { newDecode ph .indexed8 0x1000 8 0x3001 1 with b := b, shift := 4, k := 1, colour := 3 }

/-- O6, for a code that starts at bit 7 of one byte and ends in the next, and for a byte code. -/
theorem test_witness_StepRunsStreamCode :
    (let d := inBits .zigzag 7
     let s := { withBytes small 0x3001 [0x80, 0x0E] with dec := some d }
     d.b < 8 ∧ (byteCoded d.phase = true → d.b = 0) ∧ Instr.wf (.zzLiteral 4 7) = true
      ∧ spaceOf d.shift (.zzLiteral 4 7) = phaseSpace d ∧ bitsAt s.mem d.p d.b (encode (.zzLiteral 4 7))
      ∧ readable s.par d.p ((d.b + (encode (.zzLiteral 4 7)).length + 7) / 8))
    ∧ (let d := inBits .rle8 0
       let s := { withBytes small 0x3001 [0x0B] with dec := some d }
       d.b < 8 ∧ (byteCoded d.phase = true → d.b = 0) ∧ Instr.wf (.rle8Run 5) = true
        ∧ spaceOf d.shift (.rle8Run 5) = phaseSpace d ∧ bitsAt s.mem d.p d.b (encode (.rle8Run 5))
        ∧ readable s.par d.p ((d.b + (encode (.rle8Run 5)).length + 7) / 8)) := by
  unfold bitsAt
  exact ⟨⟨by decide, by decide, by decide, by decide, by decide +kernel, readable_open rfl (by decide +kernel)⟩,
    by decide, by decide, by decide, by decide, by decide +kernel, readable_open rfl (by decide +kernel)⟩

/-- O7: each of the three commands ends; one stops in its checks, one at a code of its stream (the refusals U2 and U5). -/
theorem test_witness_DecodeCommandsAreTheirSteps :
    (∃ t, exec (.decodeStrip 0) (withBytes (withOperands small [0x1000, 8, 0x3000, 1]) 0x3000 [9, 0x0F, 1]) = .next t)
    ∧ (∃ t, exec (.decodeMask 0) (withBytes (withOperands small [0x1000, 8, 0x3000, 1]) 0x3000 [0x81]) = .next t)
    ∧ (∃ t, exec (.decodeMaskOr 0) (withBytes (withOperands small [0x1000, 8, 0x3000, 1]) 0x3000 [0x81]) = .next t)
    ∧ refusalOf (runM (beginDecodeStrip 0) (withOperands small [])) = some .heightZero
    ∧ (let s := withBytes (withOperands small [0x1000, 8, 0x3000, 1]) 0x3000 [0x80]
       nextHas (runM (beginDecodeMask false) s) (fun u => u.dec ≠ none ∧ refusalOf (step u) = some .maskCountZero)) :=
  ⟨next_of_has (p := fun _ => true) (by decide +kernel), next_of_has (p := fun _ => true) (by decide +kernel),
    next_of_has (p := fun _ => true) (by decide +kernel), by decide +kernel, by decide +kernel⟩

/-- O8, each kind of action; the offset beside `CMD` is no command; a store to memory and one to a hole. -/
theorem test_witness_HostActionsHappen :
    small.dec = none ∧ small.inbox = []
    ∧ (let s := { small with inbox := [.write 1 5] }
       s.dec = none ∧ s.inbox = .write 1 5 :: [] ∧ registerAt s.par.maxStrips (1#32).toNat ≠ .cmd)
    ∧ (let s := { small with inbox := [.read 0x1004] }; s.dec = none ∧ s.inbox = .read 0x1004 :: [])
    ∧ (let s := { small with inbox := [.store 0xFFFF 7] }
       s.dec = none ∧ s.inbox = .store 0xFFFF 7 :: [] ∧ mapped s.par (0xFFFF % 2 ^ s.par.addressBits) = true
        ∧ Memory.wf s.mem = true ∧ mapped { s.par with holes := [(0xF000, 0x1000)] } 0xFFFF = false) := by decide

/-- R40, R54: with addresses of 40 bits the host stores past 2^32, and the stream that goes on there reads that byte. -/
theorem test_store_past_32_bits :
    let s := { withOperands small [0x1000, 1, 0xFFFFFFFF, 1] with par := { small.par with addressBits := 40 } }
    nextHas (exec (.decodeMask 0) (hostStore (hostStore s 0xFFFFFFFF 0x81) 0x100000000 0xAB))
      (fun t => readByte t.mem 0x1000 = 0xAB) := by decide +kernel

/-- O9: a writable register, another one, and one the host may not write. -/
theorem test_witness_RegistersReadBack :
    writtenValue 0xFFFFFFFF#32 .ctrl = some 0x107#32 ∧ Register.roomPal 255 ≠ .roomPal 254
      ∧ writtenValue 0xFFFFFFFF#32 .status = none := by decide

/-- O10, at the last entry of a window and at an offset with no register. -/
theorem test_witness_RegisterMapMatches :
    (Register.bdirty 3 255 ≠ .reserved ∧ registerPresent 256 (.bdirty 3 255) ∧ registerAt 256 0x2FFC = .bdirty 3 255)
      ∧ registerAt 160 0x1280 = .reserved := by
  refine ⟨⟨by decide, by simp [registerPresent], by decide⟩, by decide⟩

/-- O11: the first bit above 9:0, an opcode outside the table, an invalid screen. -/
theorem test_witness_IllegalCommandsFault :
    (let s := { small with inbox := [.write 0 0x400] }
     s.dec = none ∧ s.fault = false ∧ s.inbox = .write 0 0x400 :: [] ∧ (0x400#32).toNat / 2 ^ 10 ≠ 0)
    ∧ (2#32).toNat % 2 ^ 8 ∉ commandTable.map Prod.fst
    ∧ (0x41, Instr.getBackPixels) ∈ screenCommands ∧ (State.reset.screen 3).valid = false := by
  refine ⟨by decide, by decide, by simp [screenCommands], by decide +kernel⟩

/-- O13, each of the four clauses. -/
theorem test_witness_FaultedUnitIgnoresCommands :
    let s := { small with fault := true, code := 1 }
    s.dec = none ∧ s.fault = true ∧ registerAt s.par.maxStrips (0x20#32).toNat ≠ .cmd
      ∧ (HostAction.store 0 1 ≠ .reset) ∧ ∃ t, step { s with inbox := [.store 0 1] } = .next t :=
  ⟨by decide, by decide, by decide, by decide, next_of_has (p := fun _ => true) (by decide +kernel)⟩

/-- O14. -/
theorem test_witness_ResetAction :
    let s := { marked with fault := true, code := 4, inbox := [.reset] }
    s.dec = none ∧ s.inbox = .reset :: [] := by decide

theorem small_screen (v : BitVec 2) : small.screen v = smallScreen := by
  revert v
  decide

theorem goodState_small : goodState small := by
  refine ⟨by decide, fun v => ?_, by decide, by decide, fun d h => by cases h⟩
  rw [small_screen]
  refine ⟨by decide, by decide, fun _ => ⟨⟨by decide, by decide, by decide⟩, fun i h => ?_⟩⟩
  have h : i < 2 := h
  interval_cases i <;> exact .inl (by decide)

/-- O17, O18: a good state with a command to run. -/
theorem test_witness_StepKeepsGoodState :
    let s := withOperands { small with inbox := [.write 0 0x20] } [0, 15, 1, 3]
    goodState s ∧ s.dec = none ∧ ∃ t, step s = .next t := by
  refine ⟨?_, by decide, next_of_has (p := fun _ => true) (by decide +kernel)⟩
  obtain ⟨h1, h2, h3, h4, h5⟩ := goodState_small
  exact ⟨h1, h2, h3, h4, h5⟩

/-- O19, O20, O21, O24: a command that answers a next state; O20's second clause; O21's first. -/
theorem test_witness_ExecKeepsHostRegisters :
    (∃ t, exec (.clear8col 0) (withOperands small [0x1000, 16, 1]) = .next t) ∧ (∀ v, Instr.clear8col 0 ≠ .flush v)
      ∧ (0x32, Instr.clear8col) ∈ commandTable ∧ 0x32 ∉ [0x10, 0x21, 0x34, 0x40, 0x41] :=
  ⟨next_of_has (p := fun _ => true) (by decide +kernel), by simp, by simp [commandTable, screenCommands, otherCommands],
    by decide⟩

/-- O21's second clause and O22: a command that faults. -/
theorem test_witness_FaultsArePrecise :
    (0x34, Instr.stripLookup) ∈ commandTable ∧ (withOperands small [0, 0, 3]).fault = false
      ∧ ∃ t, exec (.stripLookup 0) (withOperands small [0, 0, 3]) = .next t ∧ t.fault = true :=
  ⟨by simp [commandTable, otherCommands], by decide, _, rfl, by decide⟩

/-- O25, at the last bytes of the address space. -/
theorem test_witness_StoredNumbersReadBack : Memory.wf small.mem = true ∧ readable small.par 0xFFFE 2 :=
  ⟨by decide, readable_open rfl (by decide)⟩

/-- A machine with a hole at the top of its address space. -/
def holed : State := { small with par := { small.par with holes := [(0xF000, 0x1000)] } }

/-- O26, at the first and the last address of the hole and at the end of the address space. -/
theorem test_witness_AccessOutsideMemory :
    mapped holed.par 0xEFFF = true ∧ mapped holed.par 0xF000 = false ∧ mapped holed.par 0xFFFF = false
      ∧ 0xFFFF < 2 ^ holed.par.addressBits ∧ 2 ^ holed.par.addressBits ≤ 0x10000 := by decide

/-- O27: the widest screen the machine accepts, an empty one, and one strip too many. -/
theorem test_witness_VsInitCreatesScreen :
    (small.screen 2).tdirty.length = small.par.maxStrips ∧ (small.screen 2).bdirty.length = small.par.maxStrips
      ∧ nextHas (exec (.vsInit 2) (withOperands small [16, 65535, 32, 2])) (fun t => !t.fault)
      ∧ nextHas (exec (.vsInit 2) (withOperands small [0, 0, 0, 1])) (fun t => !t.fault)
      ∧ nextHas (exec (.vsInit 2) (withOperands small [24, 1, 24, 1])) (fun t => t.fault)
      ∧ nextHas (exec (.vsInit 2) (withOperands small [16, 65536, 16, 1])) (fun t => t.fault) := by decide +kernel

/-- O28: an address of 32 bits, and with `AW` at 40 one that is not. -/
theorem test_witness_PixelAddresses :
    (small.screen 0).valid = true ∧ (0x1000 + 0 : Int) % 2 ^ small.par.addressBits < 2 ^ 32
      ∧ ¬ ((0xFFFFFFFF : Int) + 1) % 2 ^ 40 < 2 ^ 32 := by decide

theorem geometry_small : screenGeometry small.par.maxStrips (small.screen 0) := ⟨by decide, by decide, by decide⟩

/-- O29: a rectangle clipped on all four sides to the whole screen. -/
theorem test_witness_RestoreBgCopies :
    let s := withOperands small [-1, -1, 17, 5]
    let x := s.screen 0
    let dst := pixelAt x.pix.toNat x 0 0
    let src := pixelAt x.back.toNat x 0 0
    Memory.wf s.mem = true ∧ x.valid = true ∧ screenGeometry s.par.maxStrips x ∧ x.hasBack = true ∧ s.lights = true
      ∧ ((0 : Nat) : Int) = max (s.coordOperand 0) 0 ∧ ((0 : Nat) : Int) = max (s.coordOperand 1) 0
      ∧ ((16 : Nat) : Int) = min (s.coordOperand 2) x.width.toNat ∧ ((4 : Nat) : Int) = min (s.coordOperand 3) x.height.toNat
      ∧ blockReadable s.par dst x.pitch.toNat 16 4 ∧ blockReadable s.par src x.pitch.toNat 16 4
      ∧ blocksDisjoint dst src x.pitch.toNat 16 4 := by
  refine ⟨by decide, by decide, geometry_small, by decide, by decide, by decide, by decide, by decide, by decide,
    blockReadable_open rfl (by decide), blockReadable_open rfl (by decide), blocksDisjoint_below (by decide)⟩

/-- O30: one pixel, lights off. -/
theorem test_witness_RestoreBgFills :
    let s := withOperands { small with lights := false } [15, 3, 16, 4]
    let x := s.screen 0
    Memory.wf s.mem = true ∧ x.valid = true ∧ screenGeometry s.par.maxStrips x ∧ (x.hasBack = false ∨ s.lights = false)
      ∧ ((15 : Nat) : Int) = max (s.coordOperand 0) 0 ∧ ((3 : Nat) : Int) = max (s.coordOperand 1) 0
      ∧ ((16 : Nat) : Int) = min (s.coordOperand 2) x.width.toNat ∧ ((4 : Nat) : Int) = min (s.coordOperand 3) x.height.toNat
      ∧ blockReadable s.par (pixelAt x.pix.toNat x 15 3) x.pitch.toNat 1 1 := by
  refine ⟨by decide, by decide, geometry_small, by decide, by decide, by decide, by decide, by decide,
    blockReadable_open rfl (by decide)⟩

/-- O31: an empty rectangle, one off the screen, a sprite of no width, a sprite just off the left edge. -/
theorem test_witness_EmptyRectanglesDoNothing :
    (small.screen 0).valid = true
    ∧ (let s := withOperands small [5, 1, 5, 3]; min (s.coordOperand 2) (s.screen 0).width.toNat ≤ max (s.coordOperand 0) 0)
    ∧ (let s := withOperands small [0, 4, 5, 9]; min (s.coordOperand 3) (s.screen 0).height.toNat ≤ max (s.coordOperand 1) 0)
    ∧ (let s := withOperands small [0, 0, -12, 0, 0x3000C]
       min (s.coordOperand 2 + (s.operand 4).toNat % 2 ^ 16) ((s.screen 0).width.toNat : Int) ≤ max (s.coordOperand 2) 0)
    ∧ (let s := withOperands small [0, 0, 0, 0, 0xC]
       min (s.coordOperand 3 + (s.operand 4).toNat / 2 ^ 16) ((s.screen 0).height.toNat : Int) ≤ max (s.coordOperand 3) 0) := by
  decide

/-- O32: the rectangle that touches the first column of strip 1, and the one that ends just left of it. -/
theorem test_witness_MarkDirtyWidensSpans :
    (small.screen 0).valid = true ∧ screenOk small.par.maxStrips (small.screen 0)
      ∧ (small.par.clampOutside = false ∨ (0 : Int) ≤ 8 ∧ (8 : Int) < ((small.screen 0).width.toNat : Int))
      ∧ nextHas (exec (.markDirty 0) (withOperands small [8, 8, 4, 4])) (fun t => pairsOf t = [(4, 0), (4, 4)])
      ∧ nextHas (exec (.markDirty 0) (withOperands small [-9, 7, -1, 0])) (fun t => pairsOf t = [(0, 0), (4, 0)]) :=
  ⟨by decide, goodState_small.2.1 0, .inl rfl, by decide +kernel, by decide +kernel⟩

/-- O34, O35, O36: a screen with one run of two strips. -/
theorem test_witness_FlushEmitsRuns :
    let x := marked.screen 0
    x.valid = true ∧ screenOk marked.par.maxStrips x ∧ coalesce 0 (dirtyPairs x) = [⟨0, 2, 1, 4⟩]
      ∧ (∀ r ∈ coalesce 0 (dirtyPairs x),
          blockReadable marked.par (pixAddr marked.par x (8 * r.first : Nat) r.top) x.pitch.toNat
            (8 * r.len * bytesPerPixel x.format) (r.bottom - r.top))
      ∧ ∃ t, exec (.flush 0) marked = .next t := by
  have runs : coalesce 0 (dirtyPairs (marked.screen 0)) = [⟨0, 2, 1, 4⟩] := by decide +kernel
  refine ⟨by decide, ⟨by decide, by decide, fun _ => ⟨⟨by decide, by decide, by decide⟩, fun i h => ?_⟩⟩, runs, ?_,
    next_of_has (p := fun _ => true) (by decide +kernel)⟩
  · have h : i < 2 := h
    interval_cases i <;> exact .inr (by decide)
  · rw [runs]
    rintro r hr
    obtain rfl := List.mem_singleton.1 hr
    exact blockReadable_open rfl (by decide +kernel)

/-- O37: the last rows that fit the address space. -/
theorem test_witness_Copy8colCopies :
    let s := withOperands small [0x1000, 16, 0xFFE0, 2]
    (s.screen 0).valid = true ∧ blockFits s.par (s.addrOperand 0) (s.countOperand 1) 8 (s.countOperand 3)
      ∧ blockFits s.par (s.addrOperand 2) (s.countOperand 1) 8 (s.countOperand 3) ∧ Memory.wf s.mem = true
      ∧ blockReadable s.par (s.addrOperand 0) (s.countOperand 1) 8 (s.countOperand 3)
      ∧ blockReadable s.par (s.addrOperand 2) (s.countOperand 1) 8 (s.countOperand 3)
      ∧ blocksDisjoint (s.addrOperand 0) (s.addrOperand 2) (s.countOperand 1) 8 (s.countOperand 3)
      ∧ 8 ≤ s.countOperand 1 := by
  have top : blockReadable small.par 0xFFE0 16 8 2 := fun y hy => readable_open rfl (by
    change 0xFFE0 + y * 16 + 8 ≤ 0x10000; omega)
  exact ⟨by decide, blockFits_below (by decide), fun y hy => (top y hy).1, by decide,
    blockReadable_open rfl (by decide), top, blocksDisjoint_below (by decide), by decide⟩

/-- O38. -/
theorem test_witness_Clear8colClears :
    let s := withOperands small [0x1000, 4, 2]
    Memory.wf s.mem = true ∧ (s.screen 0).valid = true
      ∧ blockReadable s.par (s.addrOperand 0) (s.countOperand 1) 8 (s.countOperand 2) :=
  ⟨by decide, by decide, blockReadable_open rfl (by decide)⟩

/-- O39, O40, O41: strip 1, rows 1 to 3, with lights and without; and a screen with no back buffer. -/
theorem test_witness_ComposeStrip :
    let s := withOperands small [1, 1, 3]
    let x := s.screen 0
    x.valid = true ∧ x.hasBack = true ∧ s.lights = true ∧ Memory.wf s.mem = true ∧ s.par.addressBits ≤ 32
      ∧ blockReadable s.par (pixAddr s.par x (8 * 1 : Nat) 1) x.pitch.toNat 8 3
      ∧ blockReadable s.par (backAddr s.par x (8 * 1 : Nat) 1) x.pitch.toNat 8 3
      ∧ blocksDisjoint (pixAddr s.par x (8 * 1 : Nat) 1) (backAddr s.par x (8 * 1 : Nat) 1) x.pitch.toNat 8 3
      ∧ 8 ≤ x.pitch.toNat ∧ ({ s with lights := false } : State).lights = false
      ∧ ({ x with hasBack := false } : VScreen).hasBack = false
      ∧ scrollOk x ∧ stripOnScreen x 1 1 3 ∧ x.pix.toNat + x.pitch.toNat * x.height.toNat ≤ 2 ^ s.par.addressBits
      ∧ ∃ t, exec (.composeStrip 0) s = .next t :=
  ⟨by decide, by decide, by decide, by decide, by decide, blockReadable_open rfl (by decide +kernel),
    blockReadable_open rfl (by decide +kernel), blocksDisjoint_below (by decide +kernel), by decide, rfl, rfl,
    show _ ≤ _ by decide, ⟨by decide, by decide⟩, by decide, next_of_has (p := fun _ => true) (by decide +kernel)⟩

/-- O42: the last branch, its entry the last bytes of the address space. -/
theorem test_witness_StripLookupChecks :
    let s := withOperands small [0xFFF8, 1, 4, 2, 1]
    ¬ (s.countOperand 2 ≠ 2 ∧ s.countOperand 2 ≠ 4) ∧ ¬ s.countOperand 3 ≤ s.countOperand 1
      ∧ readable s.par (s.addrOperand 0 + 1 * 4) 4 ∧ ¬ s.countOperand 4 ≤ numberAt s.mem (s.addrOperand 0 + 1 * 4) 4 :=
  ⟨by decide, by decide, readable_open rfl (by decide), by decide⟩

/-- O43: a sprite of 2 by 2 pixels at (-1, 3), clipped to one pixel, with key and mask. -/
theorem test_witness_BlitMaskedSelects :
    let s := withOperands small [0x6000, 2, -1, 3, 0x20002, 0x5000, 2, 0x30000]
    let x := s.screen 0
    Memory.wf s.mem = true ∧ x.valid = true ∧ screenGeometry s.par.maxStrips x
      ∧ ((0 : Nat) : Int) = max (s.coordOperand 2) 0 ∧ ((3 : Nat) : Int) = max (s.coordOperand 3) 0
      ∧ ((1 : Nat) : Int) = min (s.coordOperand 2 + (s.operand 4).toNat % 2 ^ 16) (x.width.toNat : Int)
      ∧ ((4 : Nat) : Int) = min (s.coordOperand 3 + (s.operand 4).toNat / 2 ^ 16) (x.height.toNat : Int)
      ∧ blockReadable s.par (pixelAt x.pix.toNat x 0 3) x.pitch.toNat 1 1
      ∧ (∀ a, blockCovers (pixelAt x.pix.toNat x 0 3) x.pitch.toNat 1 1 a → a < 0x5000)
      ∧ s.addrOperand 5 + 3 * s.countOperand 6 + (x.xstart.toNat + 0) / 8 = 0x5006
      ∧ s.addrOperand 0 + 0 * s.countOperand 1 + 1 * 1 = 0x6001
      ∧ readable s.par 0x6001 1 ∧ readable s.par 0x5006 1 := by
  refine ⟨by decide, by decide, geometry_small, by decide, by decide, by decide, by decide,
    blockReadable_open rfl (by decide), ?_, by decide, by decide, readable_open rfl (by decide), readable_open rfl (by decide)⟩
  rintro a ⟨y, hy, h1, h2⟩
  have : pixelAt (small.screen 0).pix.toNat (small.screen 0) 0 3 = 0x1030 := by decide
  change a < 0x1030 + y * 16 + 1 at h2
  omega

/-- O44, O45: the stream of V10 (a), rows 40 bytes apart; both decodes of it answer. -/
theorem test_witness_MaskDecodesRefine :
    let s := withBytes (withOperands small [0x5000, 40, 0x3000, 8]) 0x3000 [0x83, 0xFF, 0x02, 0x0F, 0xF0, 0x85, 0x00]
    maskRows 7 8 [0x83, 0xFF, 0x02, 0x0F, 0xF0, 0x85, 0x00] = some [0xFF, 0xFF, 0xFF, 0x0F, 0xF0, 0, 0, 0]
      ∧ readable s.par (s.addrOperand 2) 7
      ∧ (∀ j, j < 7 → readByte s.mem (s.addrOperand 2 + j)
          = ([0x83, 0xFF, 0x02, 0x0F, 0xF0, 0x85, 0x00] : List Byte).getD j 0)
      ∧ (∀ r, r < s.countOperand 3 → readable s.par (s.addrOperand 0 + r * s.countOperand 1) 1)
      ∧ (∀ r j, r < 8 → j < 7 → s.addrOperand 0 + r * s.countOperand 1 ≠ s.addrOperand 2 + j)
      ∧ Memory.wf s.mem = true ∧ ∃ t, exec (.decodeMaskOr 0) s = .next t := by
  refine ⟨by decide, readable_open rfl (by decide +kernel), by decide +kernel, fun r hr => readable_open rfl ?_,
    fun r j _ hj => ?_, by decide +kernel, next_of_has (p := fun _ => true) (by decide +kernel)⟩
  · have hr : r < 8 := hr
    change 0x5000 + r * 40 + 1 ≤ 0x10000
    omega
  · change 0x5000 + r * 40 ≠ 0x3000 + j
    omega

/-- A mask decode of two rows at its second row. -/
def inMask : Decode := { newDecode (.mask false) .indexed8 0x5000 1 0x3000 2 with k := 1 }

/-- O46: a count beyond the last row, and the count 0. -/
theorem test_witness_MaskCodesRun :
    let s := { small with dec := some inMask }
    s.dec = some inMask ∧ inMask.phase = .mask false ∧ inMask.k < inMask.height ∧ min (127#7).toNat (inMask.height - inMask.k) = 1
      ∧ (∀ r, r < 1 → readable s.par (inMask.dst + (inMask.k + r) * inMask.pitch) 1) ∧ readable s.par inMask.p 1
      ∧ (∀ r j, r < 1 → j < 1 → inMask.dst + (inMask.k + r) * inMask.pitch ≠ inMask.p + j) := by
  refine ⟨rfl, rfl, by decide, by decide, fun r hr => readable_open rfl ?_, readable_open rfl (by decide), fun r j hr hj => ?_⟩
  · change 0x5000 + (1 + r) * 1 + 1 ≤ 0x10000
    omega
  · change 0x5000 + (1 + r) * 1 ≠ 0x3000 + j
    omega

/-- O47: the three checks at their boundary values. -/
theorem test_witness_DecodeStripChecks :
    (small.screen 0).valid = true ∧ 6 ≤ ({ small with profile := 6 } : State).profile.toNat
      ∧ (withOperands small [0, 0, 0, 0]).countOperand 3 = 0
      ∧ (let s := withBytes (withOperands { small with profile := 5 } [0, 0, 0xFFFF, 1]) 0xFFFF [150]
         (s.screen 0).valid = true ∧ ¬ 6 ≤ s.profile.toNat ∧ s.countOperand 3 ≠ 0 ∧ (s.profile = 0 ∨ s.profile = 5)
          ∧ readable s.par (s.addrOperand 2) 1
          ∧ descEntry s.par.descMap (readByte s.mem (s.addrOperand 2)) = none) :=
  ⟨by decide, by decide, by decide, by decide, by decide, by decide, by decide, readable_open rfl (by decide),
    by decide +kernel⟩

/-- The entry of descriptor 14, and the strip of V3. -/
def v3Entry : DescEntry := ⟨14, .zigzag, .column, false⟩

def v3 : State := withBytes (withOperands small [0x1000, 8, 0x3000, 2]) 0x3000 [0x0E, 0x03, 0xD2, 0x7D, 0x00, 0x00]

def v3Decode : Decode := describedBy (newDecode .descriptor .indexed8 0x1000 8 0x3000 2) v3Entry

theorem v3_pixels : pixelsFit v3.par v3Decode 0 16 := by
  unfold pixelsFit
  decide +kernel

/-- Every pixel of the strip of V3 holds memory; so it does whatever the entry's family and order. -/
theorem readable_pixels {d : Decode} (low : ∀ k, k < 16 → pixelAddr d k + 1 ≤ 0x10000) :
    ∀ k, k < 16 → readable small.par (pixelAddr d k) 1 := fun k hk => readable_open rfl (low k hk)

/-- O48, O49: the strip of V3. -/
theorem test_witness_DecodeStripWritesStrip :
    (v3.screen 0).valid = true ∧ (v3.profile = 0 ∨ v3.profile = 5) ∧ 0 < v3.countOperand 3
      ∧ readable v3.par (v3.addrOperand 2) 1 ∧ descEntry v3.par.descMap (readByte v3.mem (v3.addrOperand 2)) = some v3Entry
      ∧ (v3Entry.family ≠ .egaRle ∨ bodySupplied v3.par v3Entry.family = true)
      ∧ v3.addrOperand 2 + 2 + 16 * v3.countOperand 3 ≤ 2 ^ v3.par.addressBits ∧ pixelsFit v3.par v3Decode 0 (8 * v3.countOperand 3)
      ∧ Memory.wf v3.mem = true ∧ 8 * 1 ≤ v3.countOperand 1 ∧ (∀ k, k < 16 → readable v3.par (pixelAddr v3Decode k) 1)
      ∧ ∃ t, exec (.decodeStrip 0) v3 = .next t :=
  ⟨by decide +kernel, by decide +kernel, by decide +kernel, readable_open rfl (by decide +kernel), by decide +kernel,
    by decide +kernel, by decide +kernel, v3_pixels, by decide +kernel, by decide +kernel,
    readable_pixels (by decide +kernel), next_of_has (p := fun _ => true) (by decide +kernel)⟩

/-- The payload of V9 and the pixels it says, three of them copies of their left neighbours. -/
def v9Payload : List Byte := [0x35, 0xC4, 0x12, 0x83, 0x07, 0x06]

def v9Pixels : List (Option Byte) :=
  [some 5, some 5, some 5, some 1, some 2, some 1, some 2, none, none, none] ++ List.replicate 6 (some 7)

def v9 : State := withBytes (withOperands small [0x1000, 8, 0x3000, 2]) 0x3000 (0x0A :: v9Payload)

def v9Decode : Decode := describedBy (newDecode .descriptor .indexed8 0x1000 8 0x3000 2) ⟨10, .egaRle, .column, false⟩

/-- O48, the EGA_RLE case: the strip of V9. -/
theorem test_witness_DecodeStripEga :
    (v9.screen 0).valid = true ∧ (v9.profile = 0 ∨ v9.profile = 5) ∧ 0 < v9.countOperand 3
      ∧ readable v9.par (v9.addrOperand 2) 1
      ∧ descEntry v9.par.descMap (readByte v9.mem (v9.addrOperand 2)) = some ⟨10, .egaRle, .column, false⟩
      ∧ bodySupplied v9.par .egaRle = false ∧ pixelsFit v9.par v9Decode 0 16
      ∧ egaPixels 4 (8 * v9.countOperand 3) v9Payload = some v9Pixels ∧ readable v9.par (v9.addrOperand 2 + 1) 6
      ∧ (∀ j, j < 6 → readByte v9.mem (v9.addrOperand 2 + 1 + j) = v9Payload.getD j 0)
      ∧ (∀ j, j < 6 → ¬ pixelsCover v9Decode 0 16 (v9.addrOperand 2 + 1 + j))
      ∧ (∀ k, k < 16 → v9Pixels.getD k none = none → 1 ≤ pixelAddr v9Decode k ∧ readable v9.par (pixelAddr v9Decode k - 1) 1) := by
  refine ⟨by decide +kernel, by decide +kernel, by decide +kernel, readable_open rfl (by decide +kernel), by decide +kernel,
    by decide +kernel, ?_, by decide +kernel, readable_open rfl (by decide +kernel), by decide +kernel, ?_, fun k hk _ => ?_⟩
  · unfold pixelsFit
    decide +kernel
  · unfold pixelsCover pixelCovers
    decide +kernel
  · have low : ∀ k, k < 16 → 1 ≤ pixelAddr v9Decode k ∧ pixelAddr v9Decode k - 1 + 1 ≤ 0x10000 := by decide +kernel
    exact ⟨(low k hk).1, readable_open rfl (low k hk).2⟩

/-- O50: the first and the last of the four profiles. -/
theorem test_witness_LegacyProfilesDecode :
    let s := withOperands { small with profile := 4 } [0x1000, 8, 0x3000, 1]
    (s.screen 0).valid = true ∧ 1 ≤ s.profile.toNat ∧ s.profile.toNat ≤ 4 ∧ 0 < s.countOperand 3
      ∧ blockFits s.par (s.addrOperand 0) (s.countOperand 1) 8 (s.countOperand 3)
      ∧ 1 ≤ ({ s with profile := 1 } : State).profile.toNat ∧ Memory.wf s.mem = true ∧ 8 ≤ s.countOperand 1
      ∧ blockReadable s.par (s.addrOperand 0) (s.countOperand 1) 8 (s.countOperand 3) :=
  ⟨by decide, by decide, by decide, by decide, blockFits_below (by decide), by decide, by decide, by decide,
    blockReadable_open rfl (by decide)⟩

/-- A strip of one row about to read its descriptor. -/
def atDescriptor : Decode := newDecode .descriptor .indexed8 0x1000 8 0x3000 1

/-- O51: RAW, and a family with a supplied body. -/
theorem test_witness_WholeStripDescriptors :
    let s := { small with dec := some atDescriptor }
    let e : DescEntry := ⟨149, .raw, .row, true⟩
    let w := describedBy atDescriptor e
    isDescriptor .descRaw149 149 ∧ descEntry s.par.descMap 149 = some e ∧ s.dec = some atDescriptor
      ∧ atDescriptor.phase = .descriptor ∧ atDescriptor.k < 8 * atDescriptor.height ∧ pixelsFit s.par w 0 8
      ∧ bodySupplied s.par e.family = false ∧ readable s.par atDescriptor.p 8
      ∧ (∀ j, j < 8 → ¬ pixelsCover w 0 8 (atDescriptor.p + j))
      ∧ bodySupplied { s.par with suppliedBodies := [.raw] } e.family = true := by
  refine ⟨.inl ⟨⟨149, .descRaw149, .raw, .row, true, 0⟩, by decide, rfl, rfl⟩, by decide, rfl, rfl, by decide, ?_, by decide,
    readable_open rfl (by decide), ?_, by decide⟩
  · unfold pixelsFit
    decide +kernel
  · unfold pixelsCover pixelCovers
    decide +kernel

/-- O52, O53: an RLE8 byte, a byte that is not in the table, and a bit-coded one. -/
theorem test_witness_BitDescriptorsStart :
    let s := { small with dec := some atDescriptor }
    let w := { describedBy atDescriptor v3Entry with p := atDescriptor.p + 1, colour := 0, inc := 0xFF#8 }
    isDescriptor .descZigzagV14 14 ∧ descEntry s.par.descMap 14 = some v3Entry ∧ v3Entry.family ∈ bitFamilies
      ∧ bodySupplied s.par v3Entry.family = false
      ∧ isDescriptor .descRle8_8 8 ∧ descEntry s.par.descMap 8 = some ⟨8, .rle8, .row, true⟩
      ∧ bodySupplied s.par .rle8 = false ∧ isDescriptor (.descUnrecognised 150) 150 ∧ descEntry s.par.descMap 150 = none
      ∧ s.dec = some atDescriptor ∧ atDescriptor.phase = .descriptor ∧ atDescriptor.k < 8 * atDescriptor.height
      ∧ readable s.par atDescriptor.p 1 ∧ pixelsFit s.par w 0 1 := by
  refine ⟨.inl ⟨⟨14, .descZigzagV14, .zigzag, .column, false, 4⟩, by decide, rfl, rfl⟩, by decide, by decide, by decide,
    .inl ⟨⟨8, .descRle8_8, .rle8, .row, true, 0⟩, by decide, rfl, rfl⟩, by decide, by decide, .inr rfl, by decide, rfl, rfl,
    by decide, readable_open rfl (by decide), ?_⟩
  unfold pixelsFit
  decide +kernel

/-- O54, O55, O56: one pixel left of a strip of one row. -/
theorem test_witness_BitCodesRun :
    let zz := { inBits .zigzag 0 with k := 7 }
    let mmr := { inBits .majminRun 0 with k := 7 }
    let mmd := { inBits .majminDelta 0 with k := 7 }
    (zz.phase = .zigzag ∧ zz.k < 8 * zz.height ∧ pixelsFit small.par zz 7 1)
      ∧ (mmr.phase = .majminRun ∧ mmr.k < 8 * mmr.height ∧ min (if (0 : Byte) = 0 then 256 else 0) (8 * mmr.height - mmr.k) = 1
        ∧ pixelsFit small.par mmr 7 1)
      ∧ (mmd.phase = .majminDelta ∧ mmd.k < 8 * mmd.height ∧ pixelsFit small.par mmd 7 1) := by
  unfold pixelsFit
  decide +kernel

/-- O57: a packet cut to the seven pixels left, its payload away from the strip. -/
theorem test_witness_Rle8CodesRun :
    let d := inBits .rle8 0
    let n := min ((127#7).toNat + 1) (8 * d.height - d.k)
    d.phase = .rle8 ∧ d.k < 8 * d.height ∧ n = 7 ∧ pixelsFit small.par d d.k 7 ∧ readable small.par d.p 7
      ∧ (∀ j, j < 7 → ¬ pixelsCover d d.k 7 (d.p + j)) := by
  refine ⟨by decide, by decide, by decide, ?_, readable_open rfl (by decide), ?_⟩
  · unfold pixelsFit
    decide +kernel
  · unfold pixelsCover pixelCovers
    decide +kernel

/-- An EGA_RLE decode of one row, at its second column. -/
def inEga : Decode := { newDecode .ega .indexed8 0x1000 8 0x3000 1 with order := .column, k := 1 }

/-- O58: a packet that just fits, one that just does not, and pixels with a left neighbour. -/
theorem test_witness_EgaCodesRun :
    let s := withBytes { small with dec := some inEga } 0x3000 [7, 8]
    s.dec = some inEga ∧ inEga.phase = .ega ∧ inEga.k < 8 * inEga.height ∧ readable s.par inEga.p 2
      ∧ (readByte s.mem inEga.p).toNat = 8 * inEga.height - inEga.k ∧ 8 * inEga.height - inEga.k < (readByte s.mem (inEga.p + 1)).toNat
      ∧ pixelsFit s.par inEga inEga.k 7
      ∧ (∀ j, j < 7 → 1 ≤ pixelAddr inEga (inEga.k + j) ∧ readable s.par (pixelAddr inEga (inEga.k + j) - 1) 2) := by
  have low : ∀ j, j < 7 → 1 ≤ pixelAddr inEga (inEga.k + j) ∧ pixelAddr inEga (inEga.k + j) - 1 + 2 ≤ 0x10000 := by
    decide +kernel
  refine ⟨rfl, rfl, by decide, readable_open rfl (by decide +kernel), by decide +kernel, by decide +kernel, ?_,
    fun j hj => ⟨(low j hj).1, readable_open rfl (low j hj).2⟩⟩
  unfold pixelsFit
  decide +kernel

/-- The codes of V2, fifteen of them for a strip of two rows. -/
def v2Codes : List Instr :=
  [.zzKeep, .zzLiteral 4 0xA, .zzStep, .zzTurn, .zzStep] ++ List.replicate 10 .zzKeep

/-- O59: the strip of V3, code by code. -/
theorem test_witness_ZigzagStripDecodes :
    let size := 2 + ((v2Codes.flatMap encode).length + 7) / 8
    descEntry v3.par.descMap (readByte v3.mem (v3.addrOperand 2)) = some v3Entry ∧ v3Entry.family = .zigzag
      ∧ bodySupplied v3.par v3Entry.family = false
      ∧ (∀ i ∈ v2Codes, i.wf = true ∧ spaceOf v3Decode.shift i = .zigzag v3Decode.shift)
      ∧ v2Codes.length + 1 = 8 * v3.countOperand 3 ∧ (v3.screen 0).valid = true ∧ (v3.profile = 0 ∨ v3.profile = 5)
      ∧ readable v3.par (v3.addrOperand 2) size
      ∧ bitsAt v3.mem (v3.addrOperand 2 + 2) 0 (v2Codes.flatMap encode) ∧ pixelsFit v3.par v3Decode 0 (8 * v3.countOperand 3)
      ∧ (∀ j, j < size → ¬ pixelsCover v3Decode 0 (8 * v3.countOperand 3) (v3.addrOperand 2 + j)) := by
  refine ⟨by decide +kernel, rfl, by decide +kernel, by decide, by decide +kernel, by decide +kernel, by decide +kernel,
    readable_open rfl (by decide +kernel), ?_, v3_pixels, ?_⟩
  · unfold bitsAt
    decide +kernel
  · unfold pixelsCover pixelCovers
    decide +kernel

/-- O60: a pixel of two bytes that ends at the last address; and a RAW strip of two rows. -/
theorem test_witness_StripPixelsTakeTheirColours :
    (let d : Decode := { v3Decode with format := .rgb16, dst := 0xFFE0, pitch := 16 }
     Memory.wf small.mem = true ∧ readable small.par (pixelAddr d 15) 2 ∧ pixelAddr d 15 = 0xFFFE)
    ∧ (let s := withBytes (withOperands small [0x1000, 8, 0x3000, 2]) 0x3000 [1, 0xFF, 0x80]
       let e : DescEntry := ⟨1, .raw, .row, false⟩
       let d := describedBy (newDecode .descriptor .indexed8 0x1000 8 0x3000 2) e
       descEntry s.par.descMap (readByte s.mem (s.addrOperand 2)) = some e ∧ bodySupplied s.par e.family = false
        ∧ (s.screen 0).valid = true ∧ (s.profile = 0 ∨ s.profile = 5) ∧ 0 < s.countOperand 3 ∧ Memory.wf s.mem = true
        ∧ 8 * 1 ≤ s.countOperand 1 ∧ readable s.par (s.addrOperand 2) 17
        ∧ (∀ k, k < 16 → readable s.par (pixelAddr d k) 1)
        ∧ ∀ j, j < 16 → ¬ pixelsCover d 0 16 (s.addrOperand 2 + 1 + j)) := by
  refine ⟨⟨by decide, readable_open rfl (by decide +kernel), by decide +kernel⟩, by decide +kernel, by decide +kernel,
    by decide +kernel, by decide +kernel, by decide +kernel, by decide +kernel, by decide +kernel,
    readable_open rfl (by decide +kernel), readable_pixels (by decide +kernel), ?_⟩
  unfold pixelsCover pixelCovers
  decide +kernel

end Sys2Proof.Tests
end

section
/-! The invariant of the machine: what each update of the state does to it, and that every step keeps it
(spec/10_state.md R17, R18, R21, R26, R35; 60_exceptions.md R190). -/

namespace Sys2Proof.Machine

/-! Screens -/

/-- R26 of a strip, in numbers. -/
theorem stripSpanOk_iff {x : VScreen} {i : Nat} : stripSpanOk x i ↔
    ((x.tdirty.getD i 0).toNat = x.height.toNat ∧ (x.bdirty.getD i 0).toNat = 0)
      ∨ ((x.tdirty.getD i 0).toNat ≤ (x.bdirty.getD i 0).toNat ∧ (x.bdirty.getD i 0).toNat ≤ x.height.toNat) := by
  rw [stripSpanOk, ← BitVec.toNat_inj (y := x.height), ← BitVec.toNat_inj (y := 0)]
  rfl

/-- A mark widens spans and never turns one over (10_state.md R26, 42_dirty_tracker.md R141): a strip it touches ends with
`TDIRTY <= t <= b <= BDIRTY`, any other strip is as it was. -/
theorem stripSpanOk_widened {x : VScreen} {lo hi t b i : Nat} (htop : i < x.tdirty.length) (hbot : i < x.bdirty.length)
    (htb : t ≤ b) (hb : b ≤ x.height.toNat) (h : stripSpanOk x i) :
    stripSpanOk { x with tdirty := lowerTops lo hi t x.tdirty, bdirty := raiseBottoms lo hi b x.bdirty } i := by
  have hH : x.height.toNat < 2 ^ 16 := x.height.isLt
  rw [stripSpanOk_iff] at h ⊢
  dsimp only
  rw [getD_lowerTops htop (by omega), getD_raiseBottoms hbot (by omega)]
  by_cases touched : lo ≤ i ∧ i ≤ hi
  · rw [if_pos touched, if_pos touched]
    exact .inr (by omega)
  · rw [if_neg touched, if_neg touched]
    exact h

/-- New arrays of the right length keep a screen good where their strips keep R26. -/
theorem screenOk_of_arrays {n : Nat} {x : VScreen} {ts bs : List Half} (h : screenOk n x)
    (htop : ts.length = x.tdirty.length) (hbot : bs.length = x.bdirty.length)
    (hspan : ∀ i, i < stripCount x → i < x.tdirty.length → i < x.bdirty.length → stripSpanOk x i →
      stripSpanOk { x with tdirty := ts, bdirty := bs } i) :
    screenOk n { x with tdirty := ts, bdirty := bs } := by
  obtain ⟨ht, hb, hv⟩ := h
  refine ⟨htop.trans ht, hbot.trans hb, fun valid => ?_⟩
  obtain ⟨geometry, spans⟩ := hv valid
  have hn : stripCount x ≤ n := geometry.2.1
  refine ⟨geometry, fun i hi => ?_⟩
  replace hi : i < stripCount x := hi
  exact hspan i hi (by omega) (by omega) (spans i hi)

theorem screenOk_cleanScreen {n : Nat} {x : VScreen} (h : screenOk n x) : screenOk n (cleanScreen x) :=
  screenOk_of_arrays h (length_setFirst _ _ _) (length_setFirst _ _ _) fun i hi htop hbot _ =>
    .inl ⟨by rw [getD_setFirst htop, if_pos hi], by rw [getD_setFirst hbot, if_pos hi]⟩

theorem geometryOk_iff {n w h p bytes : Nat} :
    geometryOk n w h p bytes = true ↔ w ≤ 65535 ∧ h ≤ 65535 ∧ w % 8 = 0 ∧ w / 8 ≤ n ∧ w * bytes ≤ p := by
  simp [geometryOk, and_assoc]

/-- VS_INIT makes a good screen: the geometry is the one it has checked, and every strip is clean or covers the screen,
whatever `INIT_DIRTY` says (43_virtual_screen.md R150). -/
theorem screenOk_createdScreen {s : State} {f : PixelFormat} {old : VScreen} (hold : screenOk s.par.maxStrips old)
    (hg : geometryOk s.par.maxStrips (s.countOperand 0) (s.countOperand 1) (s.countOperand 2) (bytesPerPixel f) = true) :
    screenOk s.par.maxStrips (createdScreen s f old) := by
  obtain ⟨hw, _, hw8, hstrips, hpitch⟩ := geometryOk_iff.mp hg
  obtain ⟨ht, hb, _⟩ := hold
  have width : (createdScreen s f old).width.toNat = s.countOperand 0 := by
    rw [createdScreen, BitVec.toNat_ofNat]; omega
  have strips : stripCount (createdScreen s f old) = s.countOperand 0 / 8 := by rw [stripCount, width]
  refine ⟨(length_setFirst _ _ _).trans ht, (length_setFirst _ _ _).trans hb, fun _ => ⟨⟨?_, ?_, ?_⟩, fun i hi => ?_⟩⟩
  · rw [width]; exact hw8
  · rw [strips]; exact hstrips
  · rw [width]; exact hpitch
  · rw [strips] at hi
    have top : (createdScreen s f old).tdirty.getD i 0 = _ := (getD_setFirst (by omega)).trans (if_pos hi)
    have bot : (createdScreen s f old).bdirty.getD i 0 = _ := (getD_setFirst (by omega)).trans (if_pos hi)
    cases hd : s.par.initDirty with
    | true =>
      rw [hd, if_pos rfl] at top bot
      exact .inr ⟨by rw [top]; exact Nat.zero_le _, by rw [bot]; exact Nat.le_refl _⟩
    | false =>
      rw [hd, if_neg Bool.false_ne_true] at top bot
      exact .inl ⟨top, bot⟩

theorem screenOk_reset (n : Nat) : screenOk n (VScreen.reset n) :=
  ⟨List.length_replicate, List.length_replicate, fun h => by cases h⟩

/-! The registers and memory -/

/-- What `goodState` says of memory, the screens and the fault registers: all but the decode in progress. -/
def GoodRegisters (s : State) : Prop :=
  Memory.wf s.mem = true
    ∧ (∀ v : BitVec 2, screenOk s.par.maxStrips (s.screen v))
    ∧ (s.fault = false → s.code = 0 ∧ s.faultInfo = 0)
    ∧ (s.fault = true → s.code ∈ [1#8, 2#8, 4#8, 5#8])

theorem GoodRegisters.mem {s : State} (h : GoodRegisters s) : Memory.wf s.mem = true := h.1

theorem GoodRegisters.screens {s : State} (h : GoodRegisters s) (v : BitVec 2) : screenOk s.par.maxStrips (s.screen v) :=
  h.2.1 v

theorem GoodRegisters.faults {s : State} (h : GoodRegisters s) :
    (s.fault = false → s.code = 0 ∧ s.faultInfo = 0) ∧ (s.fault = true → s.code ∈ [1#8, 2#8, 4#8, 5#8]) :=
  h.2.2

theorem goodState_iff {s : State} : goodState s ↔ GoodRegisters s ∧ ∀ d, s.dec = some d → decodeOk d := by
  simp only [goodState, GoodRegisters, and_assoc]

/-- A state with good registers and no decode in progress is good. -/
theorem goodState_of_idle {s : State} (h : GoodRegisters s) (hd : s.dec = none) : goodState s :=
  goodState_iff.mpr ⟨h, fun d e => by rw [hd] at e; cases e⟩

/-- A store of the host changes memory alone. -/
theorem hostStore_eq (s : State) (a : Nat) (v : Byte) : hostStore s a v = { s with mem := (hostStore s a v).mem } := by
  rw [hostStore]
  split <;> rfl

section
variable {s : State} (h : GoodRegisters s)
include h

theorem goodRegisters_withMem {m : Memory} (hm : Memory.wf m = true) : GoodRegisters { s with mem := m } :=
  ⟨hm, h.screens, h.faults⟩

theorem goodRegisters_setScreen {v : BitVec 2} {x : VScreen} (hx : screenOk s.par.maxStrips x) :
    GoodRegisters (s.setScreen v x) := by
  refine ⟨h.mem, fun u => ?_, h.faults⟩
  by_cases hu : u = v
  · subst hu
    rw [setScreen_screen]
    exact hx
  · rw [setScreen_screen_ne s hu]
    exact h.screens u

theorem goodRegisters_markRegion (v : BitVec 2) (l r t b : Int) : GoodRegisters (markRegion s v l r t b) := by
  by_cases hignored : (l > r ∨ t > b)
      ∨ (max l 0 > min r ((s.screen v).width.toNat - 1) ∧ s.par.clampOutside = false)
      ∨ max t 0 > min b (s.screen v).height.toNat ∨ stripCount (s.screen v) = 0
  · rw [markRegion_ignored hignored]
    exact h
  · obtain ⟨horder, hclip⟩ := not_or.mp hignored
    have hrows : ¬ max t 0 > min b (s.screen v).height.toNat := fun e => hclip (.inr (.inl e))
    rw [markRegion_widens horder hclip]
    exact goodRegisters_setScreen h (screenOk_of_arrays (h.screens v) (length_lowerTops _ _ _ _) (length_raiseBottoms _ _ _ _)
      fun i _ htop hbot => stripSpanOk_widened htop hbot (by omega) (by omega))

theorem goodRegisters_raised {c : FaultCode} (hc : c ≠ .unknownTransition) (info : Word) :
    GoodRegisters (s.raised c info) := by
  have code : faultNumber c ∈ [1#8, 2#8, 4#8, 5#8] := by
    cases c with
    | unknownTransition => exact absurd rfl hc
    | unknownDescriptor | offsetOutOfRange | illegalCommand | configError => decide
  exact ⟨h.mem, h.screens, fun hf => (by cases hf), fun _ => code⟩

theorem goodRegisters_hostStore (a : Nat) (v : Byte) : GoodRegisters (hostStore s a v) := by
  rw [hostStore_eq]
  exact goodRegisters_withMem h (wf_hostStore h.mem a v)

/-- A host's register write reaches nothing that a good state speaks of: of a screen only `XSTART` (10_state.md R31). -/
theorem goodRegisters_writeRegister (r : Register) (w : Word) : GoodRegisters (writeRegister s r w) := by
  cases r with
  | xstart v => exact goodRegisters_setScreen h (h.screens v)
  | cmd | status | result | faultInfo | ctrl | operand | width | height | pitch | bpp | pix | back | flags | tdirty | bdirty
    | roomPal | verbPal | pal16 | reserved => exact h

theorem goodRegisters_resetUnit : GoodRegisters s.resetUnit := by
  refine ⟨h.mem, fun v => ?_, fun _ => ⟨rfl, rfl⟩, fun hf => by cases hf⟩
  have e : s.resetUnit.screen v = VScreen.reset s.par.maxStrips := Vector.getElem_replicate _
  rw [e]
  exact screenOk_reset _

end

theorem writeRegister_dec (s : State) (r : Register) (w : Word) : (writeRegister s r w).dec = s.dec := by
  cases r <;> rfl

/-! Instructions -/

theorem tolerates_goodRegisters : ToleratesCommands (fun s t => GoodRegisters s → GoodRegisters t) where
  toFrame := frame_invariant GoodRegisters
  free _ _ h := h
  mem s a v h := goodRegisters_withMem h (wf_pokeByte s.par h.mem a v)
  result _ _ h := h
  dec _ _ h := h
  mark _ v l r t b h := goodRegisters_markRegion h v l r t b
  raised _ _ info hc h := goodRegisters_raised h hc info
  create _ v _ hg h := goodRegisters_setScreen h (screenOk_createdScreen (h.screens v) hg)

theorem execFlush_goodRegisters {v : BitVec 2} {s t : State} (h : execFlush v s = .next t) (hs : GoodRegisters s) :
    GoodRegisters t := by
  rcases execFlush_inv h with ⟨_, rfl⟩ | ⟨_, u, hu, rfl⟩
  · exact goodRegisters_raised hs (by decide) _
  · have good : GoodRegisters u :=
      keeps_emitRuns (frame_invariant GoodRegisters) (fun _ _ h => h) (fun _ _ h => h) v _ _ s () u hu hs
    have screen : u.screen v = s.screen v := by rw [State.screen, State.screen, emitRuns_screens hu]
    exact goodRegisters_setScreen good (screenOk_cleanScreen (screen ▸ good.screens v))

/-- Every instruction keeps memory, the screens and the fault registers good. -/
theorem exec_goodRegisters {i : Instr} {s t : State} (h : exec i s = .next t) (hs : GoodRegisters s) : GoodRegisters t := by
  by_cases hi : ∃ v, i = .flush v
  · obtain ⟨v, rfl⟩ := hi
    exact execFlush_goodRegisters h hs
  · exact exec_tolerated tolerates_goodRegisters (fun v e => hi ⟨v, e⟩) h hs

/-! The decode in progress -/

/-- The commands that read no stream and emit no event start no decode. -/
theorem tolerates_noDecode : ToleratesPlain (fun s t => s.dec = none → t.dec = none) where
  toFrame := frame_invariant fun s => s.dec = none
  free _ _ h := h
  mem _ _ _ h := h
  result _ _ h := h
  mark s v l r t b h := by
    obtain ⟨_, _, e⟩ := markRegion_eq s v l r t b
    rw [e]
    exact h
  raised _ _ _ _ _ := rfl
  create _ _ _ _ h := h

theorem execFlush_dec {v : BitVec 2} {s t : State} (h : execFlush v s = .next t) (hd : s.dec = none) : t.dec = none := by
  rcases execFlush_inv h with ⟨_, rfl⟩ | ⟨_, u, hu, rfl⟩
  · rfl
  · exact (keeps_emitRuns (frame_part State.dec) (fun _ _ => rfl) (fun _ _ => rfl) v _ _ s () u hu).trans hd

/-- The commands that read a stream, and FLUSH: those that `exec_plain_tolerated` leaves out. -/
theorem commandTable_filter : commandTable.filter (fun c => decide (c.1 ∈ [0x10, 0x11, 0x12, 0x21]))
    = [(0x10, .decodeStrip), (0x21, .flush), (0x11, .decodeMask), (0x12, .decodeMaskOr)] := rfl

/-- A command issued between commands has ended when it answers (10_state.md R12). -/
theorem exec_command_dec {c : Nat × (BitVec 2 → Instr)} {v : BitVec 2} {s t : State} (hc : c ∈ commandTable)
    (hd : s.dec = none) (h : exec (c.2 v) s = .next t) : t.dec = none := by
  have decode : ∀ m : M Unit, andThen (runM m (s.setDec none)) finishDecode = .next t → t.dec = none := by
    intro m h
    obtain ⟨u, _, hu⟩ := andThen_eq_next.mp h
    exact runCodes_dec hu
  by_cases hc' : c.1 ∈ [0x10, 0x11, 0x12, 0x21]
  · have four : c ∈ commandTable.filter (fun c => decide (c.1 ∈ [0x10, 0x11, 0x12, 0x21])) :=
      List.mem_filter.mpr ⟨hc, decide_eq_true hc'⟩
    rw [commandTable_filter] at four
    simp only [List.mem_cons, List.not_mem_nil, or_false] at four
    rcases four with rfl | rfl | rfl | rfl
    · exact decode (beginDecodeStrip v) h
    · exact execFlush_dec h hd
    · exact decode (beginDecodeMask false) h
    · exact decode (beginDecodeMask true) h
  · exact exec_plain_tolerated tolerates_noDecode hc hc' h hd

/-- A stream code leaves no decode, or a good one. -/
theorem execCode_decodeOk {i : Instr} {s t : State} {d e : Decode} (hd : s.dec = some d) (hb : d.b < 8)
    (h : execCode i s = .next t) (he : t.dec = some e) : decodeOk e := by
  rcases execCode_progress hd h with h0 | ⟨e', he', further⟩
  · rw [h0] at he
    cases he
  · rw [he'] at he
    cases he
    exact ⟨further.bit hb, further.left⟩

/-- A step inside a decode: the fetch keeps the bit index below 8, and the code leaves no decode or a good one. -/
theorem exec_fetched_goodState {i : Instr} {s u t : State} (hs : goodState s) (hf : StateT.run fetchCode s = .ok (i, u))
    (he : exec i u = .next t) : goodState t := by
  obtain ⟨registers, decode⟩ := goodState_iff.mp hs
  obtain ⟨d, q, c, hd, _, hc, hu, _⟩ := fetchCode_inv hf
  have fetched : GoodRegisters u := keeps_fetchCode tolerates_goodRegisters.toTolerates s i u hf registers
  refine goodState_iff.mpr ⟨exec_goodRegisters he fetched, fun e ht => ?_⟩
  rw [exec_eq_execCode (fetchCode_stream hf)] at he
  exact execCode_decodeOk hu (hc (decode d hd).1) he ht

/-- Settles O17, by the cases of a step: inside a decode the code it runs, between commands what the host's action does. -/
theorem stepKeepsGoodState : Obligations.StepKeepsGoodState := by
  intro s t hs h
  have registers : GoodRegisters s := (goodState_iff.mp hs).1
  have taken : ∀ rest, GoodRegisters { s with inbox := rest } := fun _ => registers
  cases step_inv h with
  | code d i u hd hf he => exact exec_fetched_goodState hs hf he
  | idle hd hi ht => exact ht ▸ hs
  | reset rest hd hi ht =>
    subst ht
    exact goodState_of_idle (goodRegisters_resetUnit (taken rest)) rfl
  | ignored o w rest hd hi hr hf ht =>
    subst ht
    exact goodState_of_idle (taken rest) hd
  | illegal o w rest hd hi hr hf hw ht =>
    subst ht
    exact goodState_of_idle (goodRegisters_raised (taken rest) (by decide) w) rfl
  | command o w rest i hd hi hr hf hw he =>
    obtain ⟨c, hc, v, rfl, _, _⟩ := decodeCommand_mem hw
    have idle : ({ s with inbox := rest } : State).dec = none := hd
    exact goodState_of_idle (exec_goodRegisters he (taken rest)) (exec_command_dec hc idle he)
  | written o w rest hd hi hr ht =>
    subst ht
    exact goodState_of_idle (goodRegisters_writeRegister (taken rest) _ w) ((writeRegister_dec _ _ w).trans hd)
  | read o rest hd hi ht =>
    subst ht
    exact goodState_of_idle registers hd
  | stored a v rest hd hi ht =>
    subst ht
    refine goodState_of_idle (goodRegisters_hostStore (taken rest) a v) ?_
    rw [hostStore_eq]
    exact hd

/-! Reset -/

theorem reset_screen (v : BitVec 2) : State.reset.screen v = VScreen.reset Config.params.maxStrips :=
  Vector.getElem_replicate _

/-- Settles O15: each register is read off the reset state, and every screen is the reset screen. -/
theorem resetValues : Obligations.ResetValues := by
  refine ⟨rfl, rfl, rfl, rfl, fun v => ?_, rfl, rfl⟩
  rw [reset_screen]
  rfl

end Sys2Proof.Machine
end

section
/-! Command words and the codes of the worked examples: the command table read both ways, the words outside it, and what a
command on an invalid screen does (spec/30_encoding.md R60 to R62, R71 to R76; 60_exceptions.md R193). -/

namespace Sys2Proof.Machine

/-! Command words -/

/-- The word of a command of the table is legal and decodes to the command, whatever its `VS` field. -/
theorem decodeCommand_commandWord {c : Nat × (BitVec 2 → Instr)} (hc : c ∈ commandTable) (v : BitVec 2) :
    decodeCommand (commandWord c.1 v) = some (c.2 v) := by
  simp only [commandTable, screenCommands, otherCommands, List.cons_append, List.nil_append, List.mem_cons,
    List.not_mem_nil, or_false] at hc
  rcases hc with rfl | rfl | rfl | rfl | rfl | rfl | rfl | rfl | rfl | rfl | rfl | rfl | rfl | rfl <;>
    revert v <;> decide

/-- A word with a bit of 31:10 set, or with an opcode outside the table, decodes to no command (30_encoding.md R62). -/
theorem decodeCommand_eq_none {w : Word} (h : w.toNat / 2 ^ 10 ≠ 0 ∨ w.toNat % 2 ^ 8 ∉ commandTable.map Prod.fst) :
    decodeCommand w = none := by
  cases hw : decodeCommand w with
  | none => rfl
  | some i =>
    obtain ⟨c, hc, _, _, high, opcode⟩ := decodeCommand_mem hw
    rcases h with h | h
    · exact absurd high h
    · exact absurd (opcode ▸ List.mem_map_of_mem hc) h

/-- A write to `CMD` of a unit that is between commands and not faulted runs the command its word decodes to, or faults with
the word. -/
theorem step_command {s : State} {w : Word} {rest : List HostAction} (hd : s.dec = none) (hf : s.fault = false)
    (hi : s.inbox = .write 0 w :: rest) :
    step s = (decodeCommand w).elim (.next (({ s with inbox := rest } : State).raised .illegalCommand w))
      fun i => exec i { s with inbox := rest } := by
  have issued : hostAct { s with inbox := rest } (.write 0 w) = issueCommand { s with inbox := rest } w := rfl
  rw [step_host hd hi, issued, issueCommand, if_neg (by simp [hf])]
  cases decodeCommand w <;> rfl

/-! Commands on a screen -/

/-- With no decode in progress there is nothing to finish. -/
theorem finishDecode_idle {s : State} (hd : s.dec = none) : finishDecode s = .next s := by
  rw [finishDecode, codeFuel, hd, runCodes, hd]

/-- A command that uses its `VS` field, but for DECODE_STRIP, is the check of its screen and then a body of its own. -/
theorem exec_screenCommand {c : Nat × (BitVec 2 → Instr)} (hc : c ∈ screenCommands) (v : BitVec 2) (s : State) :
    c = (0x10, .decodeStrip) ∨ ∃ body, exec (c.2 v) s = runM (withScreen v (commandWord c.1 v) body) s := by
  simp only [screenCommands, List.mem_cons, List.not_mem_nil, or_false] at hc
  rcases hc with rfl | rfl | rfl | rfl | rfl | rfl | rfl | rfl | rfl | rfl
  · exact .inl rfl
  all_goals exact .inr ⟨_, rfl⟩

/-- DECODE_STRIP on an invalid screen faults before it reads its stream. -/
theorem exec_decodeStrip_invalid {v : BitVec 2} {s : State} (h : (s.screen v).valid = false) :
    exec (.decodeStrip v) s = .next (s.raised .configError (commandWord 0x10 v)) := by
  have begun : runM (beginDecodeStrip v) (s.setDec none) = .next (s.raised .configError (commandWord 0x10 v)) :=
    withScreen_invalid (s := s.setDec none) h _ _
  show andThen (runM (beginDecodeStrip v) (s.setDec none)) finishDecode = _
  rw [begun, andThen_next, finishDecode_idle (raised_dec _ _ _)]

theorem exec_screenCommand_invalid {c : Nat × (BitVec 2 → Instr)} (hc : c ∈ screenCommands) {v : BitVec 2} {s : State}
    (h : (s.screen v).valid = false) : exec (c.2 v) s = .next (s.raised .configError (commandWord c.1 v)) := by
  rcases exec_screenCommand hc v s with rfl | ⟨body, e⟩
  · exact exec_decodeStrip_invalid h
  · rw [e, withScreen_invalid h]

/-- Settles O11: an illegal word decodes to no command, so the step that issues it is the fault; a command on a screen
checks the screen before anything else. -/
theorem illegalCommandsFault : Obligations.IllegalCommandsFault := by
  refine ⟨fun s w rest hd hf hi illegal => ?_, fun s v c hc invalid => exec_screenCommand_invalid hc invalid⟩
  rw [step_command hd hf hi, decodeCommand_eq_none illegal, Option.elim_none]

/-! Bit codes -/

/-- A field as wide as the bit vector it holds reads as that bit vector's number (20_memory.md R43). -/
theorem runReader_field {α : Type} {n : Nat} (v : BitVec n) (k : Nat → Reader α) (rest : List Bool) :
    runReaderOnBits (readBits n k) (bitsOf n v.toNat ++ rest) = runReaderOnBits (k v.toNat) rest := by
  rw [runReader_readBits, Nat.mod_eq_of_lt v.isLt]

/-- A ZIGZAG literal that fits its width is read back from its bits (30_encoding.md R71). -/
theorem decode_zigzag_literal {shift : Nat} {value : Byte} (h : value.toNat < 2 ^ shift) (rest : List Bool) :
    decode (.zigzag shift) (encode (.zzLiteral shift value) ++ rest) = .ok (.zzLiteral shift value, rest) := by
  simp [decode, decodeBitsOf, zigzagReader, encode, encodeLiteral, runReaderOnBits, runReader_readBits, Nat.mod_eq_of_lt h]

/-- A MAJMIN_RUN run is read back from its bits: the delta field that holds 4, then the count (30_encoding.md R72). -/
theorem decode_majminRun_run (shift : Nat) (n : Byte) (rest : List Bool) :
    decode (.majminRun shift) (encode (.mmrRun n) ++ rest) = .ok (.mmrRun n, rest) := by
  simp [decode, decodeBitsOf, majminRunReader, encode, runReaderOnBits, runReader_readBits 3 4, runReader_field]

/-- A MAJMIN_DELTA delta is read back from its bits (30_encoding.md R73). -/
theorem decode_majminDelta_delta (shift : Nat) (j : BitVec 3) (rest : List Bool) :
    decode (.majminDelta shift) (encode (.mmdDelta j) ++ rest) = .ok (.mmdDelta j, rest) := by
  simp [decode, decodeBitsOf, majminDeltaReader, encode, runReaderOnBits, runReader_field]

/-- Settles O3: the command words and the bit codes are encodings, which decode to what they encode; the control bytes are
read field by field. -/
theorem specWordsDecode : Obligations.SpecWordsDecode := by
  have decodeStrip : (0x10, Instr.decodeStrip) ∈ commandTable := by simp [commandTable, screenCommands]
  have blitMasked : (0x35, Instr.blitMasked) ∈ commandTable := by simp [commandTable, screenCommands]
  have literalFits : (10#8).toNat < 2 ^ 4 := by decide
  refine ⟨decodeCommand_commandWord decodeStrip 2, decodeCommand_commandWord blitMasked 3, ?maskRun, ?maskLit, ?rle8Run,
    ?rle8Lit, ?egaRun, ?egaCopyleft, ?egaDither, decode_zigzag_literal literalFits [], decode_majminRun_run 4 3 [],
    decode_majminDelta_delta 5 7 []⟩
  all_goals rfl

end Sys2Proof.Machine
end

section
/-! Mask decodes: one step of a stream runs one packet, the packets of a stream give its rows, and the two commands are
exactly those packets (spec/30_encoding.md R76; 41_mask_codec.md R130 to R135). -/

namespace Sys2Proof.Machine

/-! The bound on the steps of a decode does not show -/

theorem codeFuel_pos {s : State} {d : Decode} (hd : s.dec = some d) : 0 < codeFuel s := by
  rw [codeFuel, hd]
  exact Nat.succ_pos _

theorem runCodes_idle {s : State} (hd : s.dec = none) (n : Nat) : runCodes n s = .next s := by
  cases n <;> rw [runCodes, hd]

theorem runCodes_succ {s : State} {d : Decode} (hd : s.dec = some d) (n : Nat) :
    runCodes (n + 1) s = andThen (codeStep s) (runCodes n) := by
  rw [runCodes, hd]

theorem codeFuel_codeStep {s t : State} {d : Decode} (hd : s.dec = some d) (h : codeStep s = .next t) :
    codeFuel t < codeFuel s := by
  rcases codeStep_fuel hd h with ended | lt
  · have none_left : codeFuel t = 0 := by rw [codeFuel, ended]
    rw [none_left]
    exact codeFuel_pos hd
  · exact lt

/-- Any two bounds that are large enough give the same run. -/
theorem runCodes_bound {n : Nat} : ∀ {m : Nat} {s : State}, codeFuel s ≤ n → codeFuel s ≤ m →
    runCodes n s = runCodes m s := by
  induction n with
  | zero =>
    intro m s hn _
    cases hd : s.dec with
    | none => rw [runCodes_idle hd, runCodes_idle hd]
    | some d => exact absurd (codeFuel_pos hd) (by omega)
  | succ n ih =>
    intro m s hn hm
    cases hd : s.dec with
    | none => rw [runCodes_idle hd, runCodes_idle hd]
    | some d =>
      obtain ⟨m, rfl⟩ : ∃ m', m = m' + 1 := ⟨m - 1, by have := codeFuel_pos hd; omega⟩
      rw [runCodes_succ hd, runCodes_succ hd]
      cases hc : codeStep s with
      | next u =>
        have := codeFuel_codeStep hd hc
        exact ih (by omega) (by omega)
      | fault r => rfl
      | refused r => rfl

/-- A decode goes on from the state its next code leaves. -/
theorem finishDecode_codeStep {s t : State} {d : Decode} (hd : s.dec = some d) (h : codeStep s = .next t) :
    finishDecode s = finishDecode t := by
  have lt := codeFuel_codeStep hd h
  calc finishDecode s = runCodes (codeFuel s - 1 + 1) s := runCodes_bound (Nat.le_refl _) (by omega)
    _ = runCodes (codeFuel s - 1) t := by rw [runCodes_succ hd, h, andThen_next]
    _ = finishDecode t := runCodes_bound (by omega) (Nat.le_refl _)

theorem codeStep_of_fetch {s t : State} {i : Instr} (h : StateT.run fetchCode s = .ok (i, t)) :
    codeStep s = execCode i t := by
  rw [codeStep, h]

/-! The control byte (30_encoding.md R76) -/

theorem decodeMaskControl_eq_run {c : Byte} (h : 128 ≤ c.toNat) :
    decodeMaskControl c = .maskRun (c.extractLsb' 0 7) := by
  have rep : c.getLsbD 7 = true := (BitVec.msb_eq_decide c).trans (decide_eq_true h)
  rw [decodeMaskControl, if_pos rep]

theorem decodeMaskControl_eq_lit {c : Byte} (h : c.toNat < 128) :
    decodeMaskControl c = .maskLit (c.extractLsb' 0 7) := by
  have rep : c.getLsbD 7 = false := (BitVec.msb_eq_decide c).trans (decide_eq_false (Nat.not_le.mpr h))
  rw [decodeMaskControl, rep, if_neg Bool.false_ne_true]

theorem toNat_maskCount (c : Byte) : (c.extractLsb' 0 7).toNat = c.toNat % 128 := by
  simp [BitVec.extractLsb'_toNat]

theorem maskCount_ne_zero {c : Byte} (h : c.toNat % 128 ≠ 0) : c.extractLsb' 0 7 ≠ 0 := by
  intro e
  have zero : (c.extractLsb' 0 7).toNat = 0 := by rw [e]; rfl
  exact h (toNat_maskCount c ▸ zero)

/-! One code inside a mask decode (41_mask_codec.md R131, R134) -/

section
variable {s : State} {d : Decode} {merge : Bool}

theorem decodeTotal_mask (hp : d.phase = .mask merge) : decodeTotal d = d.height := by
  rw [decodeTotal, hp]

theorem cutShort_mask (hp : d.phase = .mask merge) (n : Nat) : cutShort d n = min n (d.height - d.k) := by
  rw [cutShort, decodeTotal_mask hp]

/-- What a mask code leaves: rows still to come, or the end of the command. -/
theorem afterCode_mask (hp : d.phase = .mask merge) (n : Nat) (m : Memory) :
    afterCode s d n m
      = { s with mem := m, dec := if d.k + n < d.height then some { d with k := d.k + n } else none } := by
  rw [afterCode, decodeTotal_mask hp]
  split
  · rfl
  · rw [decodeEnded_mask _ hp]
    rfl

theorem run_fetchCode_mask (hd : s.dec = some d) (hp : d.phase = .mask merge) (hr : readable s.par d.p 1) :
    StateT.run fetchCode s = .ok (decodeMaskControl (readByte s.mem d.p), s.setDec (some { d with p := d.p + 1 })) := by
  rw [fetchCode, run_bind_ok (run_currentDecode hd)]
  split
  case h_2 => rw [run_bind_ok (run_nextByte hd hr)]; rfl
  all_goals next other => rw [hp] at other; cases other

/-- The rows of a code are stored and its cursor set: the code is done. -/
theorem run_advance_stored {e : Decode} (n : Nat) (m : Memory) :
    StateT.run (advance n) { s with mem := m, dec := some e } = .ok ((), afterCode s e n m) := by
  rw [run_advance_afterCode (d := e) rfl]
  exact congrArg (fun x => Except.ok ((), x))
    ((afterCode_setDec { s with mem := m } e n m (some e)).trans (afterCode_mem s e n m m))

/-- MASK_RUN stores its byte in `n` rows, `n` its count cut at the last row. -/
theorem execMaskRun_eq {count : BitVec 7} {n : Nat} {v : Byte} (hd : s.dec = some d) (hp : d.phase = .mask merge)
    (hk : d.k < d.height) (hc : count ≠ 0) (hn : min count.toNat (d.height - d.k) = n) (hr : readable s.par d.p 1)
    (value : readByte s.mem d.p = v) (rows : ∀ i, i < n → readable s.par (maskRowAddr d (d.k + i)) 1) :
    execMaskRun count s
      = .next (afterCode s { d with p := d.p + 1 } n
          (pokeRows s.par merge d.dst d.pitch s.mem d.k (List.replicate n v))) := by
  have stored := run_maskRun (merge := merge) (s := s.setDec (some { d with p := d.p + 1 })) v rows
  refine runM_of_ok ?_
  rw [run_bind_ok (run_maskDecodeIn hd hp (by rwa [decodeTotal_mask hp]))]
  simp only [if_neg hc, cutShort_mask hp, hn]
  rw [run_bind_ok (run_nextByte hd hr), value, run_bind_ok stored]
  exact run_advance_stored _ _

/-- MASK_LIT stores the next `n` bytes, one a row, `n` its count cut at the last row. -/
theorem execMaskLit_eq {count : BitVec 7} {n : Nat} {bs : List Byte} (hd : s.dec = some d) (hp : d.phase = .mask merge)
    (hk : d.k < d.height) (hc : count ≠ 0) (hn : min count.toNat (d.height - d.k) = n) (hr : readable s.par d.p n)
    (values : (List.range n).map (fun j => readByte s.mem (d.p + j)) = bs)
    (rows : ∀ i, i < n → readable s.par (maskRowAddr d (d.k + i)) 1)
    (apart : ∀ i j, i < n → j < n → maskRowAddr d (d.k + i) ≠ d.p + j) :
    execMaskLit count s
      = .next (afterCode s { d with p := d.p + n } n (pokeRows s.par merge d.dst d.pitch s.mem d.k bs)) := by
  refine runM_of_ok ?_
  rw [run_bind_ok (run_maskDecodeIn hd hp (by rwa [decodeTotal_mask hp]))]
  simp only [if_neg hc, cutShort_mask hp, hn]
  rw [run_bind_ok (run_maskLiterals hd hr rows apart), values]
  exact run_advance_stored _ _

end

/-! Packets of a mask stream (30_encoding.md R76) -/

/-- One packet of a mask stream with `left` rows to go: the bytes it takes and the rows it gives. The count is cut at the
last row, and of a literal packet only the bytes needed are taken (41_mask_codec.md R134). -/
inductive MaskPacket (left : Nat) : List Byte → List Byte → Prop where
  | run (c v : Byte) (rep : 128 ≤ c.toNat) (count : c.toNat % 128 ≠ 0) :
      MaskPacket left [c, v] (List.replicate (min (c.toNat % 128) left) v)
  | literal (c : Byte) (bs : List Byte) (rep : c.toNat < 128) (count : c.toNat % 128 ≠ 0)
      (cut : bs.length = min (c.toNat % 128) left) : MaskPacket left (c :: bs) bs

theorem MaskPacket.length_le {left : Nat} {used bs : List Byte} (h : MaskPacket left used bs) : bs.length ≤ left := by
  cases h with
  | run c v rep count => simp
  | literal c bs rep count cut => omega

/-- A stream that holds rows begins with a packet, and what follows the packet holds the other rows. -/
theorem maskRows_inv {fuel height : Nat} {stream rows : List Byte}
    (h : maskRows (fuel + 1) (height + 1) stream = some rows) :
    ∃ used after bs tail, stream = used ++ after ∧ rows = bs ++ tail ∧ MaskPacket (height + 1) used bs
      ∧ maskRows fuel (height + 1 - bs.length) after = some tail := by
  cases stream with
  | nil => cases h
  | cons c rest =>
    simp only [maskRows] at h
    by_cases count : c.toNat % 128 = 0
    · rw [if_pos count] at h
      cases h
    rw [if_neg count] at h
    by_cases rep : 128 ≤ c.toNat
    · rw [if_pos rep] at h
      cases rest with
      | nil => cases h
      | cons v after =>
        obtain ⟨tail, htail, rfl⟩ := Option.map_eq_some_iff.mp h
        exact ⟨[c, v], after, _, tail, rfl, rfl, .run c v rep count, by rwa [List.length_replicate]⟩
    · rw [if_neg rep] at h
      by_cases short : rest.length < min (c.toNat % 128) (height + 1)
      · rw [if_pos short] at h
        cases h
      rw [if_neg short] at h
      obtain ⟨tail, htail, rfl⟩ := Option.map_eq_some_iff.mp h
      have cut := List.length_take_of_le (Nat.not_lt.mp short)
      exact ⟨c :: rest.take _, rest.drop _, _, tail, by rw [List.cons_append, List.take_append_drop], rfl,
        .literal c _ (Nat.not_le.mp rep) count cut, by rwa [cut]⟩

/-- A stream that holds `height` rows gives that many. -/
theorem length_maskRows {fuel : Nat} : ∀ {height : Nat} {stream rows : List Byte},
    maskRows fuel height stream = some rows → rows.length = height := by
  induction fuel with
  | zero =>
    intro height stream rows h
    cases height <;> cases h
    rfl
  | succ fuel ih =>
    intro height stream rows h
    cases height with
    | zero => cases h; rfl
    | succ height =>
      obtain ⟨used, after, bs, tail, rfl, rfl, packet, rest⟩ := maskRows_inv h
      rw [List.length_append, ih rest]
      have := packet.length_le
      omega

/-! A stream in memory -/

/-- The stream of a mask decode stands at its cursor, and the rows hold memory away from it. -/
structure MaskReady (par : Params) (m : Memory) (d : Decode) (stream : List Byte) : Prop where
  stream_readable : readable par d.p stream.length
  bytes : ∀ j, j < stream.length → readByte m (d.p + j) = stream.getD j 0
  rows : ∀ r, r < d.height → readable par (maskRowAddr d r) 1
  apart : ∀ r j, r < d.height → j < stream.length → maskRowAddr d r ≠ d.p + j

section
variable {par : Params} {m : Memory} {d : Decode}

theorem MaskReady.left {used after : List Byte} (h : MaskReady par m d (used ++ after)) : MaskReady par m d used where
  stream_readable := readable_sub h.stream_readable (Nat.le_refl _) (by simp)
  bytes j hj := by
    rw [h.bytes j (by simp; omega), List.getD_append _ _ _ _ hj]
  rows := h.rows
  apart r j hr hj := h.apart r j hr (by simp; omega)

/-- Past the packet `used` the rest of the stream stands, whatever rows the packet stored. -/
theorem MaskReady.after {used after bs : List Byte} {merge : Bool} {n : Nat} (h : MaskReady par m d (used ++ after))
    (fits : d.k + bs.length ≤ d.height) :
    MaskReady par (pokeRows par merge d.dst d.pitch m d.k bs) { d with p := d.p + used.length, k := n } after where
  stream_readable := readable_sub h.stream_readable (by simp) (by simp; omega)
  bytes j hj := by
    have inStream : used.length + j < (used ++ after).length := by simp; omega
    show readByte _ (d.p + used.length + j) = _
    rw [Nat.add_assoc, readByte_pokeRows fun i hi => (h.apart (d.k + i) _ (by omega) inStream).symm,
      h.bytes _ inStream, List.getD_append_right _ _ _ _ (by omega), Nat.add_sub_cancel_left]
  rows := h.rows
  apart r j hr hj := by
    have := h.apart r (used.length + j) hr (by simp; omega)
    rwa [← Nat.add_assoc] at this

theorem MaskReady.head {c : Byte} {rest : List Byte} (h : MaskReady par m d (c :: rest)) :
    readable par d.p 1 ∧ readByte m d.p = c :=
  ⟨readable_sub h.stream_readable (Nat.le_refl _) (by simp), h.bytes 0 (by simp)⟩

/-- Past the control byte, which stores nothing. -/
theorem MaskReady.tail {c : Byte} {rest : List Byte} (h : MaskReady par m d (c :: rest)) (hk : d.k ≤ d.height) :
    MaskReady par m { d with p := d.p + 1 } rest :=
  MaskReady.after (used := [c]) (bs := []) (merge := false) h hk

theorem MaskReady.bytes_eq {stream : List Byte} (h : MaskReady par m d stream) :
    (List.range stream.length).map (fun j => readByte m (d.p + j)) = stream := by
  refine List.ext_getElem (by simp) fun j _ hj => ?_
  rw [List.getElem_map, List.getElem_range, h.bytes j hj, List.getD_eq_getElem _ _ hj]

end

/-! A whole mask decode -/

/-- The step that meets a packet stores its rows and moves past it. -/
theorem codeStep_maskPacket {s : State} {d : Decode} {merge : Bool} {used bs : List Byte} (hd : s.dec = some d)
    (hp : d.phase = .mask merge) (hk : d.k < d.height) (ready : MaskReady s.par s.mem d used)
    (packet : MaskPacket (d.height - d.k) used bs) :
    codeStep s = .next (afterCode s { d with p := d.p + used.length } bs.length
      (pokeRows s.par merge d.dst d.pitch s.mem d.k bs)) := by
  have rows : ∀ i, i < bs.length → d.k + i < d.height := fun i hi => by
    have := packet.length_le
    omega
  cases packet with
  | run c v rep count =>
    obtain ⟨control_readable, control⟩ := ready.head
    obtain ⟨value_readable, value⟩ := (ready.tail (Nat.le_of_lt hk)).head
    rw [List.length_replicate] at rows ⊢
    have cut : min (c.extractLsb' 0 7).toNat (d.height - d.k) = min (c.toNat % 128) (d.height - d.k) := by
      rw [toNat_maskCount]
    have code := execMaskRun_eq (s := s.setDec (some { d with p := d.p + 1 })) rfl hp hk (maskCount_ne_zero count) cut
      value_readable value fun i hi => ready.rows _ (rows i hi)
    rw [codeStep_of_fetch (run_fetchCode_mask hd hp control_readable), control, decodeMaskControl_eq_run rep]
    exact code.trans (congrArg _ (afterCode_setDec s _ _ _ _))
  | literal c _ rep count len =>
    obtain ⟨control_readable, control⟩ := ready.head
    have literals := ready.tail (Nat.le_of_lt hk)
    have cut : min (c.extractLsb' 0 7).toNat (d.height - d.k) = bs.length := by rw [toNat_maskCount, len]
    have code := execMaskLit_eq (s := s.setDec (some { d with p := d.p + 1 })) rfl hp hk (maskCount_ne_zero count) cut
      literals.stream_readable literals.bytes_eq (fun i hi => ready.rows _ (rows i hi))
      fun i j hi hj => literals.apart _ j (rows i hi) hj
    rw [codeStep_of_fetch (run_fetchCode_mask hd hp control_readable), control, decodeMaskControl_eq_lit rep,
      List.length_cons, Nat.add_comm bs.length, ← Nat.add_assoc]
    exact code.trans (congrArg _ (afterCode_setDec s _ _ _ _))

/-- A mask decode with `height` rows to go, on a stream that holds them, stores them and ends. -/
theorem finishDecode_maskRows {merge : Bool} {fuel : Nat} : ∀ {height : Nat} {stream rows : List Byte} {s : State}
    {d : Decode}, maskRows fuel height stream = some rows → d.phase = .mask merge → d.k + height = d.height →
    s.dec = (if d.k < d.height then some d else none) → MaskReady s.par s.mem d stream →
      finishDecode s = .next { s with mem := pokeRows s.par merge d.dst d.pitch s.mem d.k rows, dec := none } := by
  have ended {s : State} {d : Decode} (hh : d.k + 0 = d.height) (hd : s.dec = if d.k < d.height then some d else none) :
      finishDecode s = .next { s with dec := none } := by
    rw [if_neg (by omega)] at hd
    rw [finishDecode_idle hd, ← hd]
  induction fuel with
  | zero =>
    intro height stream rows s d hrows hp hh hd _
    cases height <;> cases hrows
    exact ended hh hd
  | succ fuel ih =>
    intro height stream rows s d hrows hp hh hd ready
    cases height with
    | zero => cases hrows; exact ended hh hd
    | succ height =>
      obtain ⟨used, after, bs, tail, rfl, rfl, packet, rest⟩ := maskRows_inv hrows
      have fits := packet.length_le
      have left : d.height - d.k = height + 1 := by omega
      rw [if_pos (by omega)] at hd
      have code := codeStep_maskPacket hd hp (by omega) ready.left (left ▸ packet)
      rw [afterCode_mask (d := { d with p := d.p + used.length }) hp] at code
      rw [finishDecode_codeStep hd code, pokeRows_append]
      have remaining : d.k + bs.length + (height + 1 - bs.length) = d.height := by omega
      exact ih (d := { d with p := d.p + used.length, k := d.k + bs.length }) rest hp remaining rfl
        (ready.after (by omega))

/-- The decode that a mask command starts (41_mask_codec.md R130). -/
def startedMask (s : State) (merge : Bool) : Decode :=
  newDecode (.mask merge) .indexed8 (s.addrOperand 0) (s.countOperand 1) (s.addrOperand 2) (s.countOperand 3)

/-- The state in which a mask command has read nothing: its decode is in progress, unless no row is asked for
(41_mask_codec.md R135). -/
def maskBegun (s : State) (merge : Bool) : State :=
  s.setDec (if 0 < s.countOperand 3 then some (startedMask s merge) else none)

theorem runM_beginDecodeMask (s : State) (merge : Bool) :
    runM (beginDecodeMask merge) (s.setDec none) = .next (maskBegun s merge) := by
  have checked : runM (beginDecodeMask merge) (s.setDec none)
      = runM (if s.countOperand 3 = 0 then pure () else setDecode (startedMask s merge)) (s.setDec none) := rfl
  rw [checked, maskBegun]
  by_cases no_rows : s.countOperand 3 = 0
  · rw [if_pos no_rows, if_neg (by omega)]
    rfl
  · rw [if_neg no_rows, if_pos (by omega)]
    rfl

/-- The two mask commands, told apart by whether they merge: the decode they begin, run to its end. -/
theorem exec_decodeMask (s : State) (v : BitVec 2) (merge : Bool) :
    exec (if merge then .decodeMaskOr v else .decodeMask v) s = finishDecode (maskBegun s merge) := by
  have command : exec (if merge then .decodeMaskOr v else .decodeMask v) s
      = andThen (runM (beginDecodeMask merge) (s.setDec none)) finishDecode := by
    cases merge <;> rfl
  rw [command, runM_beginDecodeMask, andThen_next]

/-- Settles O44: the command is the decode it starts, which takes its stream packet by packet. -/
theorem maskDecodesRefine : Obligations.MaskDecodesRefine := by
  intro s v merge stream rows fuel dst stride src h hrows stream_readable bytes rows_readable apart
  have length := length_maskRows hrows
  have ready : MaskReady s.par s.mem (startedMask s merge) stream := ⟨stream_readable, bytes, rows_readable, apart⟩
  refine ⟨?_, length, fun a outside => readByte_pokeRows fun r hr => ?_⟩
  · rw [exec_decodeMask]
    exact finishDecode_maskRows (s := maskBegun s merge) hrows rfl (Nat.zero_add h) rfl ready
  · rw [Nat.zero_add]
    exact outside r (length ▸ hr)

end Sys2Proof.Machine
end

section
/-! A FLUSH of a screen with no dirty strip, and why a FLUSH leaves such a screen (spec/42_dirty_tracker.md R144, R146). -/

namespace Sys2Proof.Machine

/-- A screen that cleaning leaves as it is has no run to blit. -/
theorem coalesce_of_clean {x : VScreen} (clean : cleanScreen x = x) : coalesce 0 (dirtyPairs x) = [] :=
  clean ▸ coalesce_cleanScreen x

/-- FLUSH of a screen that is clean already only counts its zero runs (42_dirty_tracker.md R146). -/
theorem exec_flush_of_clean {v : BitVec 2} {s : State} (valid : (s.screen v).valid = true)
    (clean : cleanScreen (s.screen v) = s.screen v) : exec (.flush v) s = .next (s.setResult 0) := by
  have command : exec (.flush v) s = execFlush v s := rfl
  rw [command, execFlush, withScreen_valid valid]
  dsimp only
  rw [coalesce_of_clean clean, clean]
  calc runM (modify fun s' => (s'.setScreen v (s.screen v)).setResult 0) s
      = .next ((s.setScreen v (s.screen v)).setResult 0) := rfl
    _ = .next (s.setResult 0) := by rw [setScreen_self]

/-- A FLUSH of a valid screen leaves all its strips clean, whatever it emits. -/
theorem exec_flush_screen {v : BitVec 2} {s t : State} (valid : (s.screen v).valid = true)
    (h : exec (.flush v) s = .next t) : t.screen v = cleanScreen (s.screen v) := by
  rcases execFlush_inv h with ⟨invalid, _⟩ | ⟨_, u, _, rfl⟩
  · exact absurd (valid.symm.trans invalid) (by decide)
  · rw [setResult_screen, setScreen_screen]

/-- Settles O36: the first FLUSH leaves a screen that cleaning does not change, and of such a screen a FLUSH only counts
zero runs. -/
theorem flushTwice : Obligations.FlushTwice := by
  intro s t v valid h
  have screen := exec_flush_screen valid h
  have still_valid : (t.screen v).valid = true := by rw [screen]; exact valid
  have still_clean : cleanScreen (t.screen v) = t.screen v := by rw [screen, cleanScreen_cleanScreen]
  exact exec_flush_of_clean still_valid still_clean

end Sys2Proof.Machine
end

section
/-! The virtual screen's commands: the screen VS_INIT creates, the addresses GET_PIXELS and GET_BACK_PIXELS give, and the
copy of RESTORE_BG (spec/43_virtual_screen.md R150 to R156). -/

namespace Sys2Proof.Machine

/-! VS_INIT (43_virtual_screen.md R150) -/

theorem formatOf_eq_some {n : Nat} {f : PixelFormat} : formatOf n = some f ↔ bytesPerPixel f = n := by
  constructor
  · intro h
    unfold formatOf at h
    split at h <;> cases h <;> rfl
  · rintro rfl
    cases f <;> rfl

theorem formatOf_eq_none {n : Nat} : formatOf n = none ↔ ¬ (n = 1 ∨ n = 2) := by
  constructor
  · rintro h (rfl | rfl) <;> cases h
  · intro h
    cases hf : formatOf n with
    | none => rfl
    | some f => exact absurd (formatOf_eq_some.mp hf) (by cases f <;> simp only [bytesPerPixel] <;> omega)

/-- The operands VS_INIT accepts (43_virtual_screen.md R150, 10_state.md R21). -/
def initAccepts (s : State) : Prop :=
  (s.countOperand 3 = 1 ∨ s.countOperand 3 = 2) ∧ s.countOperand 0 ≤ 65535 ∧ s.countOperand 1 ≤ 65535
    ∧ s.countOperand 0 % 8 = 0 ∧ s.countOperand 0 / 8 ≤ s.par.maxStrips ∧ s.countOperand 0 * s.countOperand 3 ≤ s.countOperand 2

/-- Accepted operands name a pixel format, with the screen of which VS_INIT replaces the old one. -/
theorem exec_vsInit_accepted {s : State} (v : BitVec 2) (h : initAccepts s) :
    ∃ f, bytesPerPixel f = s.countOperand 3
      ∧ exec (.vsInit v) s = .next (s.setScreen v (createdScreen s f (s.screen v))) := by
  obtain ⟨hbpp, geometry⟩ := h
  cases hf : formatOf (s.countOperand 3) with
  | none => exact absurd hbpp (formatOf_eq_none.mp hf)
  | some f =>
    have bytes := formatOf_eq_some.mp hf
    refine ⟨f, bytes, ?_⟩
    show execVsInit v s = _
    simp only [execVsInit, hf]
    rw [if_pos (geometryOk_iff.mpr (bytes ▸ geometry))]

theorem exec_vsInit_rejected {s : State} (v : BitVec 2) (h : ¬ initAccepts s) :
    exec (.vsInit v) s = .next (s.raised .configError (commandWord 0x01 v)) := by
  show execVsInit v s = _
  cases hf : formatOf (s.countOperand 3) with
  | none => simp only [execVsInit, hf, runM_raise]
  | some f =>
    have bytes := formatOf_eq_some.mp hf
    have bpp : s.countOperand 3 = 1 ∨ s.countOperand 3 = 2 := by
      rw [← bytes]
      cases f
      · exact .inl rfl
      · exact .inr rfl
    simp only [execVsInit, hf, runM_raise]
    rw [if_neg fun geometry => h ⟨bpp, bytes ▸ geometryOk_iff.mp geometry⟩]

/-- A count that fits 16 bits is what a 16-bit register holds. -/
theorem toNat_half {n : Nat} (h : n ≤ 65535) : (BitVec.ofNat 16 n).toNat = n := by
  rw [BitVec.toNat_ofNat]
  omega

/-- A truncated address fits the register it was taken from (30_encoding.md R63). -/
theorem toNat_addrOperand (s : State) (i : Fin 8) : (BitVec.ofNat 32 (s.addrOperand i)).toNat = s.addrOperand i := by
  have := Nat.mod_le (s.operand i).toNat (2 ^ s.par.addressBits)
  have := (s.operand i).isLt
  rw [BitVec.toNat_ofNat, State.addrOperand]
  exact Nat.mod_eq_of_lt (by omega)

/-- The dirty arrays of a new screen: its strips are clean or wholly dirty, the entries past them as they were
(43_virtual_screen.md R150, 10_state.md R25). -/
theorem createdScreen_dirty {s : State} {f : PixelFormat} {old : VScreen} {i : Nat} (hH : s.countOperand 1 ≤ 65535)
    (htop : i < old.tdirty.length) (hbot : i < old.bdirty.length) :
    if i < s.countOperand 0 / 8 then
      ((createdScreen s f old).tdirty.getD i 0).toNat = (if s.par.initDirty then 0 else s.countOperand 1)
        ∧ ((createdScreen s f old).bdirty.getD i 0).toNat = (if s.par.initDirty then s.countOperand 1 else 0)
    else (createdScreen s f old).tdirty.getD i 0 = old.tdirty.getD i 0
      ∧ (createdScreen s f old).bdirty.getD i 0 = old.bdirty.getD i 0 := by
  simp only [createdScreen, getD_setFirst htop, getD_setFirst hbot]
  by_cases strip : i < s.countOperand 0 / 8
  · simp only [if_pos strip]
    cases s.par.initDirty
    · exact ⟨toNat_half hH, rfl⟩
    · exact ⟨rfl, toNat_half hH⟩
  · simp only [if_neg strip, and_self]

/-- Settles O27: accepted operands create the screen of `createdScreen`, whose fields hold the operands; any others fault. -/
theorem vsInitCreatesScreen : Obligations.VsInitCreatesScreen := by
  intro s v htop hbot W H P B
  split
  case isFalse rejected => exact exec_vsInit_rejected v rejected
  case isTrue accepted =>
    obtain ⟨f, bytes, created⟩ := exec_vsInit_accepted v accepted
    obtain ⟨_, hW, hH, _⟩ := accepted
    exact ⟨_, created, toNat_half hW, toNat_half hH, rfl, bytes, toNat_addrOperand s 4, toNat_addrOperand s 5, rfl, rfl, rfl,
      (length_setFirst _ _ _).trans htop, (length_setFirst _ _ _).trans hbot,
      fun i hi => createdScreen_dirty hH (htop ▸ hi) (hbot ▸ hi)⟩

/-! GET_PIXELS and GET_BACK_PIXELS (43_virtual_screen.md R151 to R153) -/

/-- A remainder modulo `2^AW` is no negative number, so nothing is lost in counting it as a natural one. -/
theorem toNat_emod_two_pow (a : Int) (n : Nat) : ((a % (2 ^ n : Nat)).toNat : Int) = a % (2 : Int) ^ n := by
  have positive : ((2 ^ n : Nat) : Int) ≠ 0 := by exact_mod_cast (Nat.two_pow_pos n).ne'
  rw [Int.toNat_of_nonneg (Int.emod_nonneg a positive)]
  push_cast
  rfl

/-- `RESULT` holds an address that fits it, whichever integer the address was computed as (log 30). -/
theorem addressResult_cast {a : Nat} {z : Int} (ha : (a : Int) = z) (hz : z < 2 ^ 32) : ((addressResult a).toNat : Int) = z := by
  rw [addressResult_toNat (by omega), ha]

theorem exec_getPixels_valid {s : State} {v : BitVec 2} (valid : (s.screen v).valid = true) :
    exec (.getPixels v) s
      = .next (s.setResult (addressResult (pixAddr s.par (s.screen v) (s.coordOperand 0) (s.coordOperand 1)))) :=
  withScreen_valid valid _ _

theorem exec_getBackPixels_valid {s : State} {v : BitVec 2} (valid : (s.screen v).valid = true) :
    exec (.getBackPixels v) s
      = .next (s.setResult (addressResult (backAddr s.par (s.screen v) (s.coordOperand 0) (s.coordOperand 1)))) :=
  withScreen_valid valid _ _

/-- Settles O28: each command answers with its address function, which is the formula of R151. -/
theorem pixelAddresses : Obligations.PixelAddresses := by
  intro s v valid x offset pixel back
  exact ⟨⟨_, exec_getPixels_valid valid, addressResult_cast (toNat_emod_two_pow _ _)⟩,
    ⟨_, exec_getBackPixels_valid valid, addressResult_cast (toNat_emod_two_pow _ _)⟩⟩

/-! RESTORE_BG (43_virtual_screen.md R154 to R156) -/

/-- What RESTORE_BG draws over `w` columns from `l` and `h` rows from `t`: the back buffer, or the fill colour
(43_virtual_screen.md R154). -/
def restoreArm (s : State) (x : VScreen) (l w t h : Nat) : M Unit :=
  if x.hasBack && s.lights then loopFrom (restoreRow s.par x l w) t h
  else loopFrom (fillRow s.par x (pixelOperand x.format (s.operand 4)) l w) t h

/-- RESTORE_BG where the clipped rectangle `[l, r) x [t, b)` is not empty: it draws one of the two arms and marks. -/
theorem exec_restoreBg_clipped {s : State} {v : BitVec 2} {l t r b : Nat} (valid : (s.screen v).valid = true)
    (hl : (l : Int) = max (s.coordOperand 0) 0) (ht : (t : Int) = max (s.coordOperand 1) 0)
    (hr : (r : Int) = min (s.coordOperand 2) (s.screen v).width.toNat)
    (hb : (b : Int) = min (s.coordOperand 3) (s.screen v).height.toNat) (hlr : l < r) (htb : t < b) :
    exec (.restoreBg v) s = runM (restoreArm s (s.screen v) l (r - l) t (b - t) >>=
      fun _ => modify fun u => markRegion u v l ((r : Int) - 1) t b) s := by
  have notEmpty : ¬ ((l : Int) ≥ r ∨ (t : Int) ≥ b) := by omega
  have columns : ((r : Int) - l).toNat = r - l := by omega
  have rows : ((b : Int) - t).toNat = b - t := by omega
  have body : exec (.restoreBg v) s = runM (restoreBackground v (s.screen v)) s := withScreen_valid valid _ _
  rw [body, runM, runM, restoreBackground, run_get_bind, restoreArm]
  dsimp only
  rw [← hl, ← ht, ← hr, ← hb, if_neg notEmpty, columns, rows]
  cases (s.screen v).hasBack && s.lights <;> rfl

/-- Drawing that touches memory alone, and then a mark: the mark is that of the state before, in the memory drawn. -/
theorem drawn_then_marked {m : M Unit} {s : State} {v : BitVec 2} {l r t b : Int} {Q : Memory → Prop}
    (drawn : Answers m s fun _ u => MemoryOnly s u ∧ Q u.mem) :
    ∃ u, runM (m >>= fun _ => modify fun u => markRegion u v l r t b) s = .next u
      ∧ u = { markRegion s v l r t b with mem := u.mem } ∧ Q u.mem := by
  obtain ⟨_, w, run, ⟨only, _⟩, hQ⟩ := drawn
  refine ⟨{ markRegion s v l r t b with mem := w.mem }, ?_, rfl, hQ⟩
  rw [runM, run_bind_ok run, run_modify, only, markRegion_mem]

/-- Two loops of as many rounds that do the same round by round. -/
theorem loopFrom_congr {f g : Nat → M Unit} : ∀ (n i j : Nat), (∀ k, k < n → f (i + k) = g (j + k)) →
    loopFrom f i n = loopFrom g j n
  | 0, _, _, _ => rfl
  | n + 1, i, j, h => by
    have rest : loopFrom f (i + 1) n = loopFrom g (j + 1) n := loopFrom_congr n (i + 1) (j + 1) fun k hk => by
      have round := h (k + 1) (by omega)
      rwa [Nat.add_comm k, ← Nat.add_assoc, ← Nat.add_assoc] at round
    rw [loopFrom, loopFrom, rest, show f i = g j from h 0 (by omega)]

/-- Where no address wraps, the copy arm is a copy of rows from the corner of the rectangle on (43_virtual_screen.md
R154). -/
theorem restoreRows_eq_copyRows {par : Params} {x : VScreen} {l w t h : Nat}
    (hpix : ∀ y, y < h → pixelAt x.pix.toNat x l t + y * x.pitch.toNat < 2 ^ par.addressBits)
    (hback : ∀ y, y < h → pixelAt x.back.toNat x l t + y * x.pitch.toNat < 2 ^ par.addressBits) :
    loopFrom (restoreRow par x l w) t h
      = copyRows (w * bytesPerPixel x.format) x.pitch.toNat (pixelAt x.pix.toNat x l t) (pixelAt x.back.toNat x l t) h := by
  refine loopFrom_congr h t 0 fun y hy => ?_
  rw [restoreRow, pixAddr_eq (by rw [pixelAt_row]; exact hpix y hy), backAddr_eq (by rw [pixelAt_row]; exact hback y hy),
    pixelAt_row, pixelAt_row, Nat.zero_add]

/-- Every row of a block that is not empty starts inside the address space. -/
theorem blockReadable_start {par : Params} {dst pitch n h y : Nat} (hd : blockReadable par dst pitch n h) (hn : 0 < n)
    (hy : y < h) : dst + y * pitch < 2 ^ par.addressBits := by
  have := (hd y hy).1
  omega

theorem bytesPerPixel_pos (f : PixelFormat) : 0 < bytesPerPixel f := by
  cases f <;> decide

/-- A byte of a pixel of the rectangle `[l, r) x [t, ..)` is a byte of the row of its block. -/
theorem pixelAt_byte (base : Nat) (x : VScreen) {l c t y : Nat} (j : Nat) (hl : l ≤ c) (ht : t ≤ y) :
    pixelAt base x c y + j
      = pixelAt base x l t + (y - t) * x.pitch.toNat + ((c - l) * bytesPerPixel x.format + j) := by
  obtain ⟨c, rfl⟩ := Nat.exists_eq_add_of_le hl
  obtain ⟨y, rfl⟩ := Nat.exists_eq_add_of_le ht
  rw [pixelAt_col, pixelAt_row, Nat.add_sub_cancel_left, Nat.add_sub_cancel_left]
  omega

/-- Bytes of a pixel inside the rectangle stay inside its row. -/
theorem rowByte_lt {l c r B j : Nat} (hl : l ≤ c) (hc : c < r) (hj : j < B) : (c - l) * B + j < (r - l) * B := by
  have := Nat.mul_le_mul_right B (show c - l + 1 ≤ r - l by omega)
  rw [Nat.succ_mul] at this
  omega

/-- Settles O29: the copy arm is a copy of rows between two blocks, and the mark leaves memory alone. -/
theorem restoreBgCopies : Obligations.RestoreBgCopies := by
  intro s v l t r b x B dst src hwf valid geometry hasBack lights hl ht hr hb hlr htb hdst hsrc apart
  obtain ⟨_, _, widthFits⟩ := geometry
  have rowBytes : 0 < (r - l) * B := Nat.mul_pos (by omega) (bytesPerPixel_pos _)
  have rowFits : (r - l) * B ≤ x.pitch.toNat :=
    (Nat.mul_le_mul_right B (show r - l ≤ x.width.toNat by omega)).trans widthFits
  have arm : (x.hasBack && s.lights) = true := by rw [hasBack, lights]; rfl
  have copied := copyRows_spec hwf hdst hsrc apart rowFits
  obtain ⟨u, run, marked, bytes, outside⟩ := drawn_then_marked (v := v) (l := l) (r := (r : Int) - 1) (t := t) (b := b)
    (Q := fun m => (∀ y j, y < b - t → j < (r - l) * B →
        readByte m (dst + y * x.pitch.toNat + j) = readByte s.mem (src + y * x.pitch.toNat + j))
      ∧ ∀ a, ¬ blockCovers dst x.pitch.toNat ((r - l) * B) (b - t) a → readByte m a = readByte s.mem a) copied
  refine ⟨u, ?_, marked, fun c y j hlc hcr hty hyb hj => ?_, outside⟩
  · rw [exec_restoreBg_clipped valid hl ht hr hb hlr htb, restoreArm, if_pos arm,
      restoreRows_eq_copyRows (fun y => blockReadable_start hdst rowBytes) (fun y => blockReadable_start hsrc rowBytes)]
    exact run
  · rw [pixelAt_byte _ _ j hlc hty, pixelAt_byte _ _ j hlc hty]
    exact bytes (y - t) _ (by omega) (rowByte_lt hlc hcr hj)

end Sys2Proof.Machine
end

section
/-! STRIP_LOOKUP: what its operand checks answer, and the entry past them (spec/44_compositor.md R163). -/

namespace Sys2Proof.Machine

/-- The two checks STRIP_LOOKUP makes before it reads, in their order (44_compositor.md R163, 60_exceptions.md R193). -/
theorem exec_stripLookup (s : State) (v : BitVec 2) : exec (.stripLookup v) s =
    if s.countOperand 2 ≠ 2 ∧ s.countOperand 2 ≠ 4 then .next (s.raised .configError (commandWord 0x34 v))
    else if s.countOperand 3 ≤ s.countOperand 1 then .next (s.raised .offsetOutOfRange (s.operand 1))
    else runM (lookupEntry (s.addrOperand 0) (s.countOperand 1) (s.countOperand 2) (s.countOperand 4)) s := by
  have command : exec (.stripLookup v) s = execStripLookup v s := rfl
  rw [command, execStripLookup]
  by_cases badWidth : s.countOperand 2 ≠ 2 ∧ s.countOperand 2 ≠ 4
  · rw [if_pos badWidth, if_pos badWidth]
    rfl
  · rw [if_neg badWidth, if_neg badWidth]
    by_cases badIndex : s.countOperand 3 ≤ s.countOperand 1
    · rw [if_pos badIndex, if_pos badIndex]
      rfl
    · rw [if_neg badIndex, if_neg badIndex]

/-- An entry that holds memory is read, and the offset in it checked against the limit (44_compositor.md R163). -/
theorem runM_lookupEntry {s : State} {table index width limit off : Nat}
    (hoff : numberAt s.mem (table + index * width) width = off) (entry : readable s.par (table + index * width) width) :
    runM (lookupEntry table index width limit) s =
      if limit ≤ off then .next (s.raised .offsetOutOfRange (BitVec.ofNat 32 off))
      else .next (s.setResult (BitVec.ofNat 32 off)) := by
  rw [runM, lookupEntry, run_bind_ok (run_load_readable entry), hoff]
  by_cases badOffset : limit ≤ off
  · rw [if_pos badOffset, if_pos badOffset]
    rfl
  · rw [if_neg badOffset, if_neg badOffset]
    rfl

/-- Settles O42: the operand checks are those of `exec_stripLookup`, and past them the entry is that of
`runM_lookupEntry`. -/
theorem stripLookupChecks : Obligations.StripLookupChecks := by
  intro s v width index entry off
  rw [exec_stripLookup]
  split
  case isTrue badWidth => rfl
  case isFalse goodWidth =>
    split
    case isTrue badIndex => rfl
    case isFalse goodIndex =>
      intro readableEntry
      rw [runM_lookupEntry rfl readableEntry]
      split
      case isTrue badOffset => rfl
      case isFalse goodOffset => rfl

end Sys2Proof.Machine
end

section
/-! Faults: what taking one writes, and what a faulted unit still does for the host (spec/60_exceptions.md R190, R194,
R195). -/

namespace Sys2Proof.Machine

/-! Taking a fault -/

/-- `STATUS` after a fault: `FAULT` is bit 1, `CODE` is the byte from bit 8 (10_state.md R17). -/
theorem statusWord_raised (s : State) (c : FaultCode) (info : Word) :
    statusWord (s.raised c info) = 2#32 + 256#32 * (faultNumber c).zeroExtend 32 := by
  cases c <;> rfl

/-- Settles O12: `raise` is the update `State.raised`, and `STATUS` and the numbers are read off it. -/
theorem faultEntry : Obligations.FaultEntry :=
  fun s c info => ⟨runM_raise c info s, statusWord_raised s c info, rfl⟩

/-! The host's actions between commands -/

section
variable {s : State} {rest : List HostAction} (hd : s.dec = none)
include hd

theorem step_cmd_ignored {o w : Word} (hf : s.fault = true) (hi : s.inbox = .write o w :: rest)
    (hr : registerAt s.par.maxStrips o.toNat = .cmd) : step s = .next { s with inbox := rest } := by
  have issued : hostAct { s with inbox := rest } (.write o w) = issueCommand { s with inbox := rest } w := if_pos hr
  have ignored : issueCommand { s with inbox := rest } w = .done { s with inbox := rest } := if_pos hf
  rw [step_host hd hi, issued, ignored]

theorem step_write {o w : Word} (hi : s.inbox = .write o w :: rest) (hr : registerAt s.par.maxStrips o.toNat ≠ .cmd) :
    step s = .next (writeRegister { s with inbox := rest } (registerAt s.par.maxStrips o.toNat) w) := by
  have written : hostAct { s with inbox := rest } (.write o w)
      = .done (writeRegister { s with inbox := rest } (registerAt s.par.maxStrips o.toNat) w) := if_neg hr
  rw [step_host hd hi, written]

/-- A read sees the unit as it was before the read: no register shows the pending actions. -/
theorem step_read {o : Word} (hi : s.inbox = .read o :: rest) :
    step s = .next { s with inbox := rest, readData := readRegister s (registerAt s.par.maxStrips o.toNat) } := by
  have unseen (r : Register) : readRegister { s with inbox := rest } r = readRegister s r := by cases r <;> rfl
  have read : hostAct { s with inbox := rest } (.read o) = .done { s with
      inbox := rest, readData := readRegister { s with inbox := rest } (registerAt s.par.maxStrips o.toNat) } := rfl
  rw [step_host hd hi, read, unseen]

end

/-! What the fault registers keep -/

/-- The fault registers of `t` are those of `s`: `STATUS.FAULT`, `STATUS.CODE` and `FAULT_INFO` (10_state.md R17, R18). -/
def SameFault (s t : State) : Prop := t.fault = s.fault ∧ t.code = s.code ∧ t.faultInfo = s.faultInfo

/-- The fault registers are read-only to the host (10_state.md R27). -/
theorem sameFault_writeRegister (s : State) (r : Register) (w : Word) : SameFault s (writeRegister s r w) := by
  cases r <;> exact ⟨rfl, rfl, rfl⟩

theorem sameFault_hostStore (s : State) (a : Nat) (v : Byte) : SameFault s (hostStore s a v) := by
  rw [hostStore_eq]
  exact ⟨rfl, rfl, rfl⟩

/-- Between commands, no action of the host but reset changes the fault registers of a faulted unit: with the commands
ignored, nothing is left that could raise a fault (60_exceptions.md R195). -/
theorem sameFault_step {s t : State} {act : HostAction} {rest : List HostAction} (hd : s.dec = none)
    (hf : s.fault = true) (hi : s.inbox = act :: rest) (hact : act ≠ .reset) (h : step s = .next t) : SameFault s t := by
  cases step_inv h with
  | code d i u hd' =>
    rw [hd] at hd'
    cases hd'
  | idle _ hi' =>
    rw [hi] at hi'
    cases hi'
  | reset rest' _ hi' =>
    rw [hi] at hi'
    cases hi'
    exact absurd rfl hact
  | illegal o w rest' _ _ _ hf' | command o w rest' i _ _ _ hf' =>
    rw [hf] at hf'
    cases hf'
  | ignored o w rest' _ _ _ _ ht | read o rest' _ _ ht =>
    subst ht
    exact ⟨rfl, rfl, rfl⟩
  | written o w rest' _ _ _ ht =>
    subst ht
    exact sameFault_writeRegister { s with inbox := rest' } _ w
  | stored a v rest' _ _ ht =>
    subst ht
    exact sameFault_hostStore { s with inbox := rest' } a v

/-- Settles O13: `step_cmd_ignored`, `step_write` and `step_read` are its first three clauses, `sameFault_step` the last. -/
theorem faultedUnitIgnoresCommands : Obligations.FaultedUnitIgnoresCommands := by
  intro s rest hd hf
  refine ⟨fun w hi => step_cmd_ignored hd hf hi rfl, fun o w hi hr => step_write hd hi hr, fun o hi => step_read hd hi,
    fun act t hi hact h => ?_⟩
  obtain ⟨hfault, hcode, hinfo⟩ := sameFault_step hd hf hi hact h
  exact ⟨hfault.trans hf, hcode, hinfo⟩

end Sys2Proof.Machine
end

section
/-! The decoder and the encoder are inverse to each other: a code's bits decode to the code, and whatever decodes is the
code of exactly the bits consumed (spec/30_encoding.md R60 to R77). -/

namespace Sys2Proof.Machine

/-! Fields of bits -/

theorem natOfBits_lt (bs : List Bool) : natOfBits bs < 2 ^ bs.length := by
  induction bs with
  | nil => simp [natOfBits]
  | cons b bs ih =>
    rw [natOfBits, List.length_cons, Nat.pow_succ]
    have := Bool.toNat_lt b
    omega

/-- The bits of a number are the only ones that read as it. -/
theorem bitsOf_natOfBits (bs : List Bool) : bitsOf bs.length (natOfBits bs) = bs := by
  induction bs with
  | nil => rfl
  | cons b bs ih =>
    have bit := Bool.toNat_lt b
    have half : (b.toNat + 2 * natOfBits bs) / 2 = natOfBits bs := by omega
    have low : (b.toNat + 2 * natOfBits bs) % 2 = b.toNat := by omega
    rw [List.length_cons, bitsOf, natOfBits, half, low, ih]
    cases b <;> rfl

/-- A field of as many bits as there are is read as their number. -/
theorem runReader_bits {α : Type} {n : Nat} {bs : List Bool} (h : bs.length = n) (k : Nat → Reader α) (rest : List Bool) :
    runReaderOnBits (readBits n k) (bs ++ rest) = runReaderOnBits (k (natOfBits bs)) rest := by
  subst h
  have read := runReader_readBits bs.length (natOfBits bs) k rest
  rwa [bitsOf_natOfBits, Nat.mod_eq_of_lt (natOfBits_lt bs)] at read

/-! Byte codes (30_encoding.md R64 to R68, R74 to R76) -/

/-- The byte whose bits these are. -/
def byteOfBits (bs : List Bool) : Byte := BitVec.ofNat 8 (natOfBits bs)

theorem decodeByteOf_bits (sp : Space) (f : Byte → Instr) {bs : List Bool} (h : bs.length = 8) (rest : List Bool) :
    decodeByteOf sp f (bs ++ rest) = .ok (f (byteOfBits bs), rest) := by
  rw [decodeByteOf, runReader_bits h]
  rfl

/-- What a byte space decodes is the code of a byte, whose bits it takes. -/
theorem decodeByteOf_inv {sp : Space} {f : Byte → Instr} {bs rest : List Bool} {i : Instr}
    (h : decodeByteOf sp f bs = .ok (i, rest)) : ∃ b : Byte, i = f b ∧ bs = bitsOf 8 b.toNat ++ rest := by
  rw [decodeByteOf] at h
  split at h
  · next v rest' hr =>
    cases h
    obtain ⟨w, rest'', hw, rfl, hd⟩ := readBits_inv hr
    cases hd
    exact ⟨BitVec.ofNat 8 v, rfl, by rw [BitVec.toNat_ofNat, Nat.mod_eq_of_lt hw]⟩
  · cases h

/-- A byte code is well-formed, belongs to its space, and encodes to the bits of its byte. -/
def EncodesByte (sp : Space) (i : Instr) (b : Byte) : Prop :=
  i.wf = true ∧ spaceOf 8 i = sp ∧ encode i = bitsOf 8 b.toNat

theorem encodesByte_descriptor (b : Byte) : EncodesByte .descriptor (decodeDescriptor b) b := by
  unfold EncodesByte
  revert b
  decide

theorem encodesByte_maskControl (b : Byte) : EncodesByte .maskControl (decodeMaskControl b) b := by
  unfold EncodesByte
  revert b
  decide

theorem encodesByte_rle8Control (b : Byte) : EncodesByte .rle8Control (decodeRle8Control b) b := by
  unfold EncodesByte
  revert b
  decide

theorem encodesByte_egaControl (b : Byte) : EncodesByte .egaControl (decodeEgaControl b) b := by
  unfold EncodesByte
  revert b
  decide

/-- What a byte space whose codes encode their bytes decodes is an encoding. -/
theorem decodeByteOf_encodes {sp : Space} {f : Byte → Instr} (hf : ∀ b, EncodesByte sp (f b) b) {bs rest : List Bool}
    {i : Instr} (h : decodeByteOf sp f bs = .ok (i, rest)) : i.wf = true ∧ spaceOf 8 i = sp ∧ encode i ++ rest = bs := by
  obtain ⟨b, rfl, rfl⟩ := decodeByteOf_inv h
  obtain ⟨wf, space, bits⟩ := hf b
  exact ⟨wf, space, by rw [bits]⟩

/-- A code of a byte space is read back from its bits. -/
theorem decode_byteCode {sp : Space} {f : Byte → Instr} {i : Instr} (hsp : ∀ bs, decode sp bs = decodeByteOf sp f bs)
    (len : (encode i).length = 8) (h : f (byteOfBits (encode i)) = i) (rest : List Bool) :
    decode sp (encode i ++ rest) = .ok (i, rest) := by
  rw [hsp, decodeByteOf_bits _ _ len, h]

theorem byteOfBits_bitsOf (b : Byte) : byteOfBits (bitsOf 8 b.toNat) = b := by
  rw [byteOfBits, natOfBits_bitsOf, Nat.mod_eq_of_lt b.isLt, BitVec.ofNat_toNat, BitVec.setWidth_eq]

/-- A byte that the table does not name is read back as such. -/
theorem decodeDescriptor_unrecognised (b : Byte) (h : (Instr.descUnrecognised b).wf = true) :
    decodeDescriptor b = .descUnrecognised b := by
  revert b
  decide

theorem decode_maskRun (c : BitVec 7) : decodeMaskControl (byteOfBits (encode (.maskRun c))) = .maskRun c := by
  revert c
  decide

theorem decode_maskLit (c : BitVec 7) : decodeMaskControl (byteOfBits (encode (.maskLit c))) = .maskLit c := by
  revert c
  decide

theorem decode_rle8Run (n : BitVec 7) : decodeRle8Control (byteOfBits (encode (.rle8Run n))) = .rle8Run n := by
  revert n
  decide

theorem decode_rle8Lit (n : BitVec 7) : decodeRle8Control (byteOfBits (encode (.rle8Lit n))) = .rle8Lit n := by
  revert n
  decide

theorem decode_egaRun (n : BitVec 3) (c : BitVec 4) : decodeEgaControl (byteOfBits (encode (.egaRun n c))) = .egaRun n c := by
  revert n c
  decide

theorem decode_egaCopyleft (n : BitVec 6) : decodeEgaControl (byteOfBits (encode (.egaCopyleft n))) = .egaCopyleft n := by
  revert n
  decide

theorem decode_egaDither (n : BitVec 6) : decodeEgaControl (byteOfBits (encode (.egaDither n))) = .egaDither n := by
  revert n
  decide

/-! Command words (30_encoding.md R60 to R62) -/

/-- A command of the table encodes to the bits of its word. -/
theorem encode_command {c : Nat × (BitVec 2 → Instr)} (hc : c ∈ commandTable) (v : BitVec 2) :
    encode (c.2 v) = bitsOf 32 (commandWord c.1 v).toNat ∧ (c.2 v).wf = true ∧ ∀ n, spaceOf n (c.2 v) = .command := by
  simp only [commandTable, screenCommands, otherCommands, List.cons_append, List.nil_append, List.mem_cons,
    List.not_mem_nil, or_false] at hc
  rcases hc with rfl | rfl | rfl | rfl | rfl | rfl | rfl | rfl | rfl | rfl | rfl | rfl | rfl | rfl <;>
    exact ⟨rfl, rfl, fun _ => rfl⟩

theorem decode_command {c : Nat × (BitVec 2 → Instr)} (hc : c ∈ commandTable) (v : BitVec 2) (rest : List Bool) :
    decode .command (encode (c.2 v) ++ rest) = .ok (c.2 v, rest) := by
  rw [(encode_command hc v).1, decode, runReader_field]
  simp only [runReaderOnBits, BitVec.ofNat_toNat, BitVec.setWidth_eq, decodeCommand_commandWord hc v]

/-- A legal word is the command word of its opcode and its `VS` field. -/
theorem commandWord_fields {w : Word} (h : w.toNat / 2 ^ 10 = 0) : commandWord (w.toNat % 2 ^ 8) (w.extractLsb' 8 2) = w := by
  refine BitVec.eq_of_toNat_eq ?_
  have fields : (w.extractLsb' 8 2).toNat = w.toNat / 2 ^ 8 % 2 ^ 2 := by simp [BitVec.extractLsb'_toNat, Nat.shiftRight_eq_div_pow]
  rw [commandWord, BitVec.toNat_ofNat, fields]
  omega

/-- A word that decodes is the encoding of the command it decodes to. -/
theorem decodeCommand_inv {w : Word} {i : Instr} (h : decodeCommand w = some i) :
    ∃ c ∈ commandTable, ∃ v, i = c.2 v ∧ w = commandWord c.1 v := by
  obtain ⟨c, hc, _, _, high, opcode⟩ := decodeCommand_mem h
  have word : w = commandWord c.1 (w.extractLsb' 8 2) := by rw [← opcode, commandWord_fields high]
  rw [word, decodeCommand_commandWord hc] at h
  exact ⟨c, hc, _, (Option.some.inj h).symm, word⟩

theorem decode_command_inv {bs rest : List Bool} {i : Instr} (h : decode .command bs = .ok (i, rest)) :
    i.wf = true ∧ (∀ n, spaceOf n i = .command) ∧ encode i ++ rest = bs := by
  rw [decode] at h
  split at h
  · next v rest' hr =>
    obtain ⟨w, rest'', hw, rfl, hd⟩ := readBits_inv hr
    cases hd
    split at h
    · next i' hi =>
      cases h
      obtain ⟨c, hc, u, rfl, word⟩ := decodeCommand_inv hi
      obtain ⟨bits, wf, space⟩ := encode_command hc u
      refine ⟨wf, space, ?_⟩
      rw [bits, ← word, BitVec.toNat_ofNat, Nat.mod_eq_of_lt hw]
    · cases h
  · cases h

/-! Bit codes (30_encoding.md R71 to R73) -/

theorem literalFits_iff {shift : Nat} {value : Byte} :
    literalFits shift value = true ↔ 4 ≤ shift ∧ shift ≤ 8 ∧ value.toNat < 2 ^ shift := by
  simp [literalFits, and_assoc]

/-- A number below `2 ^ shift`, for a width in use, is a literal that fits and is its byte's number. -/
theorem literal_of_lt {shift v : Nat} (h4 : 4 ≤ shift) (h8 : shift ≤ 8) (hv : v < 2 ^ shift) :
    literalFits shift (BitVec.ofNat 8 v) = true ∧ (BitVec.ofNat 8 v).toNat = v := by
  have small : v < 2 ^ 8 := hv.trans_le (Nat.pow_le_pow_right (by decide) h8)
  have value : (BitVec.ofNat 8 v).toNat = v := by rw [BitVec.toNat_ofNat, Nat.mod_eq_of_lt small]
  exact ⟨literalFits_iff.mpr ⟨h4, h8, value.symm ▸ hv⟩, value⟩

theorem decode_majminRun_literal {shift : Nat} {value : Byte} (h : value.toNat < 2 ^ shift) (rest : List Bool) :
    decode (.majminRun shift) (encode (.mmrLiteral shift value) ++ rest) = .ok (.mmrLiteral shift value, rest) := by
  simp [decode, decodeBitsOf, majminRunReader, encode, encodeLiteral, runReaderOnBits, runReader_readBits, Nat.mod_eq_of_lt h]

theorem decode_majminDelta_literal {shift : Nat} {value : Byte} (h : value.toNat < 2 ^ shift) (rest : List Bool) :
    decode (.majminDelta shift) (encode (.mmdLiteral shift value) ++ rest) = .ok (.mmdLiteral shift value, rest) := by
  simp [decode, decodeBitsOf, majminDeltaReader, encode, encodeLiteral, runReaderOnBits, runReader_readBits, Nat.mod_eq_of_lt h]

theorem decode_majminRun_delta (shift : Nat) {v : BitVec 3} (h : v ≠ 4#3) (rest : List Bool) :
    decode (.majminRun shift) (encode (.mmrDelta v) ++ rest) = .ok (.mmrDelta v, rest) := by
  have notRun : v.toNat ≠ 4 := fun e => h (BitVec.eq_of_toNat_eq e)
  simp [decode, decodeBitsOf, majminRunReader, encode, runReaderOnBits, runReader_field, notRun]

/-- The bits before the last field of a bit code, one at a time. -/
theorem runReader_bit_inv {α : Type} {next : Bool → Reader α} {bs : List Bool} {x : α × List Bool}
    (h : runReaderOnBits (.bit next) bs = some x) : ∃ b rest, bs = b :: rest ∧ runReaderOnBits (next b) rest = some x := by
  cases bs with
  | nil => cases h
  | cons b rest => exact ⟨b, rest, rfl, h⟩

/-- A literal field ends a code with a literal that fits, of exactly the bits read. -/
theorem runReader_literal_inv {shift : Nat} (h4 : 4 ≤ shift) (h8 : shift ≤ 8) {mk : Byte → Instr} {bs rest : List Bool}
    {i : Instr} (h : runReaderOnBits (readBits shift fun v => .done (mk (BitVec.ofNat 8 v))) bs = some (i, rest)) :
    ∃ value, literalFits shift value = true ∧ i = mk value ∧ bs = bitsOf shift value.toNat ++ rest := by
  obtain ⟨v, rest', hv, rfl, hd⟩ := readBits_inv h
  cases hd
  obtain ⟨fits, value⟩ := literal_of_lt h4 h8 hv
  exact ⟨_, fits, rfl, by rw [value]⟩

theorem decodeBitsOf_inv {sp : Space} {r : Reader Instr} {bs : List Bool} {x : Instr × List Bool}
    (h : decodeBitsOf sp r bs = .ok x) : runReaderOnBits r bs = some x := by
  rw [decodeBitsOf] at h
  split at h
  · next hr => cases h; exact hr
  · cases h

/-- The three bits of a delta field are those of the bit vector it holds. -/
theorem toNat_ofNat_three {v : Nat} (h : v < 2 ^ 3) : (BitVec.ofNat 3 v).toNat = v := by
  rw [BitVec.toNat_ofNat, Nat.mod_eq_of_lt h]

section
variable {shift : Nat} (h4 : 4 ≤ shift) (h8 : shift ≤ 8) {bs rest : List Bool} {i : Instr}
include h4 h8

theorem zigzagReader_inv (h : runReaderOnBits (zigzagReader shift) bs = some (i, rest)) :
    i.wf = true ∧ spaceOf shift i = .zigzag shift ∧ encode i ++ rest = bs := by
  obtain ⟨b0, bs0, rfl, h0⟩ := runReader_bit_inv h
  cases b0 with
  | false => cases h0; exact ⟨rfl, rfl, rfl⟩
  | true =>
    rw [if_pos rfl] at h0
    obtain ⟨b1, bs1, rfl, h1⟩ := runReader_bit_inv h0
    cases b1 with
    | false =>
      obtain ⟨value, fits, rfl, rfl⟩ := runReader_literal_inv h4 h8 h1
      exact ⟨fits, rfl, rfl⟩
    | true =>
      rw [if_pos rfl] at h1
      obtain ⟨b2, bs2, rfl, h2⟩ := runReader_bit_inv h1
      cases b2 <;> cases h2 <;> exact ⟨rfl, rfl, rfl⟩

theorem majminRunReader_inv (h : runReaderOnBits (majminRunReader shift) bs = some (i, rest)) :
    i.wf = true ∧ spaceOf shift i = .majminRun shift ∧ encode i ++ rest = bs := by
  obtain ⟨b0, bs0, rfl, h0⟩ := runReader_bit_inv h
  cases b0 with
  | false => cases h0; exact ⟨rfl, rfl, rfl⟩
  | true =>
    rw [if_pos rfl] at h0
    obtain ⟨b1, bs1, rfl, h1⟩ := runReader_bit_inv h0
    cases b1 with
    | false =>
      obtain ⟨value, fits, rfl, rfl⟩ := runReader_literal_inv h4 h8 h1
      exact ⟨fits, rfl, rfl⟩
    | true =>
      obtain ⟨v, bs2, hv, rfl, h2⟩ := readBits_inv h1
      by_cases run : v = 4
      · subst run
        obtain ⟨n, bs3, hn, rfl, h3⟩ := readBits_inv h2
        cases h3
        refine ⟨rfl, rfl, ?_⟩
        rw [encode, BitVec.toNat_ofNat, Nat.mod_eq_of_lt hn]
        rfl
      · rw [if_neg run] at h2
        cases h2
        have notRun : BitVec.ofNat 3 v ≠ 4#3 := fun e => run (by rw [← toNat_ofNat_three hv, e]; rfl)
        refine ⟨bne_iff_ne.mpr notRun, rfl, ?_⟩
        rw [encode, toNat_ofNat_three hv]
        rfl

theorem majminDeltaReader_inv (h : runReaderOnBits (majminDeltaReader shift) bs = some (i, rest)) :
    i.wf = true ∧ spaceOf shift i = .majminDelta shift ∧ encode i ++ rest = bs := by
  obtain ⟨b0, bs0, rfl, h0⟩ := runReader_bit_inv h
  cases b0 with
  | false => cases h0; exact ⟨rfl, rfl, rfl⟩
  | true =>
    rw [if_pos rfl] at h0
    obtain ⟨b1, bs1, rfl, h1⟩ := runReader_bit_inv h0
    cases b1 with
    | false =>
      obtain ⟨value, fits, rfl, rfl⟩ := runReader_literal_inv h4 h8 h1
      exact ⟨fits, rfl, rfl⟩
    | true =>
      obtain ⟨v, bs2, hv, rfl, h2⟩ := readBits_inv h1
      cases h2
      refine ⟨rfl, rfl, ?_⟩
      rw [encode, toNat_ofNat_three hv]
      rfl

end

/-- Settles O1, by the kinds of codes: the commands by their table, the byte codes by their bytes, the bit codes by their
readers. -/
theorem decodeEncode : Obligations.DecodeEncode := by
  intro i shift rest wf
  have command (c : Nat × (BitVec 2 → Instr)) (hc : c ∈ commandTable) (v : BitVec 2) :
      decode (spaceOf shift (c.2 v)) (encode (c.2 v) ++ rest) = .ok (c.2 v, rest) := by
    rw [(encode_command hc v).2.2]
    exact decode_command hc v rest
  cases i
  case vsInit v => exact command (0x01, .vsInit) (by simp [commandTable, screenCommands, otherCommands]) v
  case decodeStrip v => exact command (0x10, .decodeStrip) (by simp [commandTable, screenCommands, otherCommands]) v
  case decodeMask v => exact command (0x11, .decodeMask) (by simp [commandTable, screenCommands, otherCommands]) v
  case decodeMaskOr v => exact command (0x12, .decodeMaskOr) (by simp [commandTable, screenCommands, otherCommands]) v
  case markDirty v => exact command (0x20, .markDirty) (by simp [commandTable, screenCommands, otherCommands]) v
  case flush v => exact command (0x21, .flush) (by simp [commandTable, screenCommands, otherCommands]) v
  case restoreBg v => exact command (0x30, .restoreBg) (by simp [commandTable, screenCommands, otherCommands]) v
  case copy8col v => exact command (0x31, .copy8col) (by simp [commandTable, screenCommands, otherCommands]) v
  case clear8col v => exact command (0x32, .clear8col) (by simp [commandTable, screenCommands, otherCommands]) v
  case composeStrip v => exact command (0x33, .composeStrip) (by simp [commandTable, screenCommands, otherCommands]) v
  case stripLookup v => exact command (0x34, .stripLookup) (by simp [commandTable, screenCommands, otherCommands]) v
  case blitMasked v => exact command (0x35, .blitMasked) (by simp [commandTable, screenCommands, otherCommands]) v
  case getPixels v => exact command (0x40, .getPixels) (by simp [commandTable, screenCommands, otherCommands]) v
  case getBackPixels v => exact command (0x41, .getBackPixels) (by simp [commandTable, screenCommands, otherCommands]) v
  case descUnrecognised b =>
    exact decode_byteCode (f := decodeDescriptor) (i := .descUnrecognised b) (fun _ => rfl) (bitsOf_length _ _)
      ((congrArg decodeDescriptor (byteOfBits_bitsOf b)).trans (decodeDescriptor_unrecognised b wf)) rest
  case maskRun c =>
    exact decode_byteCode (f := decodeMaskControl) (fun _ => rfl) (by simp [encode]) (decode_maskRun c) rest
  case maskLit c =>
    exact decode_byteCode (f := decodeMaskControl) (fun _ => rfl) (by simp [encode]) (decode_maskLit c) rest
  case rle8Run n =>
    exact decode_byteCode (f := decodeRle8Control) (fun _ => rfl) (by simp [encode]) (decode_rle8Run n) rest
  case rle8Lit n =>
    exact decode_byteCode (f := decodeRle8Control) (fun _ => rfl) (by simp [encode]) (decode_rle8Lit n) rest
  case egaRun n c =>
    exact decode_byteCode (f := decodeEgaControl) (fun _ => rfl) (by simp [encode]) (decode_egaRun n c) rest
  case egaCopyleft n =>
    exact decode_byteCode (f := decodeEgaControl) (fun _ => rfl) (by simp [encode]) (decode_egaCopyleft n) rest
  case egaDither n =>
    exact decode_byteCode (f := decodeEgaControl) (fun _ => rfl) (by simp [encode]) (decode_egaDither n) rest
  case zzLiteral own value => exact decode_zigzag_literal (literalFits_iff.mp wf).2.2 rest
  case mmrLiteral own value => exact decode_majminRun_literal (literalFits_iff.mp wf).2.2 rest
  case mmdLiteral own value => exact decode_majminDelta_literal (literalFits_iff.mp wf).2.2 rest
  case mmrDelta v => exact decode_majminRun_delta shift (bne_iff_ne.mp wf) rest
  case mmrRun n => exact decode_majminRun_run shift n rest
  case mmdDelta j => exact decode_majminDelta_delta shift j rest
  case zzKeep | zzStep | zzTurn | mmrKeep | mmdKeep => rfl
  all_goals exact decode_byteCode (f := decodeDescriptor) (fun _ => rfl) rfl rfl rest

/-- Settles O2, space by space: a byte space takes a byte whose code it is, a bit space ends its reader in a code of the
bits read. -/
theorem decodeAcceptsOnlyEncodings : Obligations.DecodeAcceptsOnlyEncodings := by
  intro sp bs rest i h4 h8 h
  cases sp with
  | command =>
    obtain ⟨wf, space, bits⟩ := decode_command_inv h
    exact ⟨wf, space _, bits⟩
  | descriptor => exact decodeByteOf_encodes encodesByte_descriptor h
  | maskControl => exact decodeByteOf_encodes encodesByte_maskControl h
  | rle8Control => exact decodeByteOf_encodes encodesByte_rle8Control h
  | egaControl => exact decodeByteOf_encodes encodesByte_egaControl h
  | zigzag shift => exact zigzagReader_inv h4 h8 (decodeBitsOf_inv h)
  | majminRun shift => exact majminRunReader_inv h4 h8 (decodeBitsOf_inv h)
  | majminDelta shift => exact majminDeltaReader_inv h4 h8 (decodeBitsOf_inv h)

/-! The default descriptor table (30_encoding.md R65, R67, R68) -/

/-- Settles O4: the rows and the bytes outside them are finitely many, and the default table is looked up for each. -/
theorem descriptorBytesDecode : Obligations.DescriptorBytesDecode := by
  refine ⟨by decide, by decide, ?_⟩
  decide

end Sys2Proof.Machine
end

section
/-! The host's port: the register map, what registers read and take, and what the host's actions do between commands
(spec/10_state.md R12, R17 to R20, R27, R31; 20_memory.md R54, R57; 70_reset_and_hazards.md R210, R211, R218). -/

namespace Sys2Proof.Machine

/-! The register map (10_state.md R27) -/

theorem screenRegister_inv {v : BitVec 2} {o : Nat} {r : Register} (h : screenRegister v o = r) (hr : r ≠ .reserved)
    (n : Nat) : registerPresent n r ∧ offsetOf r = 0x100 + 0x40 * v.toNat + o := by
  unfold screenRegister at h
  split at h <;> subst h
  iterate 8 exact ⟨trivial, by simp only [offsetOf]; omega⟩
  exact absurd rfl hr

/-- The four screens are numbered by their blocks. -/
theorem toNat_ofNat_two {n : Nat} (h : n < 4) : (BitVec.ofNat 2 n).toNat = n := by
  rw [BitVec.toNat_ofNat]
  omega

theorem toNat_ofNat_eight {n : Nat} (h : n < 256) : (BitVec.ofNat 8 n).toNat = n := by
  rw [BitVec.toNat_ofNat]
  omega

/-- The register at an offset is one of the map's, and stands there. -/
theorem registerAt_inv {maxStrips o : Nat} {r : Register} (h : registerAt maxStrips o = r) (hr : r ≠ .reserved) :
    registerPresent maxStrips r ∧ offsetOf r = o := by
  rw [registerAt] at h
  by_cases c0 : o % 4 ≠ 0
  · rw [if_pos c0] at h
    exact absurd h.symm hr
  rw [if_neg c0] at h
  by_cases c1 : o = 0x000
  · rw [if_pos c1] at h
    subst h
    exact ⟨trivial, by simp only [offsetOf]; omega⟩
  rw [if_neg c1] at h
  by_cases c2 : o = 0x004
  · rw [if_pos c2] at h
    subst h
    exact ⟨trivial, by simp only [offsetOf]; omega⟩
  rw [if_neg c2] at h
  by_cases c3 : o = 0x008
  · rw [if_pos c3] at h
    subst h
    exact ⟨trivial, by simp only [offsetOf]; omega⟩
  rw [if_neg c3] at h
  by_cases c4 : o = 0x00C
  · rw [if_pos c4] at h
    subst h
    exact ⟨trivial, by simp only [offsetOf]; omega⟩
  rw [if_neg c4] at h
  by_cases c5 : o = 0x010
  · rw [if_pos c5] at h
    subst h
    exact ⟨trivial, by simp only [offsetOf]; omega⟩
  rw [if_neg c5] at h
  by_cases c6 : 0x020 ≤ o ∧ o < 0x040
  · rw [dif_pos c6] at h
    subst h
    exact ⟨trivial, by simp only [offsetOf]; omega⟩
  rw [dif_neg c6] at h
  by_cases c7 : 0x100 ≤ o ∧ o < 0x200
  · rw [if_pos c7] at h
    obtain ⟨present, offset⟩ := screenRegister_inv h hr maxStrips
    rw [toNat_ofNat_two (by omega)] at offset
    exact ⟨present, by omega⟩
  rw [if_neg c7] at h
  by_cases c8 : 0x1000 ≤ o ∧ o < 0x2000 ∧ (o - 0x1000) % 0x400 / 4 < maxStrips
  · rw [if_pos c8] at h
    subst h
    exact ⟨⟨by omega, by omega⟩, by simp only [offsetOf]; rw [toNat_ofNat_two (by omega)]; omega⟩
  rw [if_neg c8] at h
  by_cases c9 : 0x2000 ≤ o ∧ o < 0x3000 ∧ (o - 0x2000) % 0x400 / 4 < maxStrips
  · rw [if_pos c9] at h
    subst h
    exact ⟨⟨by omega, by omega⟩, by simp only [offsetOf]; rw [toNat_ofNat_two (by omega)]; omega⟩
  rw [if_neg c9] at h
  by_cases c10 : 0x3000 ≤ o ∧ o < 0x3400
  · rw [if_pos c10] at h
    subst h
    exact ⟨trivial, by simp only [offsetOf]; rw [toNat_ofNat_eight (by omega)]; omega⟩
  rw [if_neg c10] at h
  by_cases c11 : 0x3400 ≤ o ∧ o < 0x3800
  · rw [if_pos c11] at h
    subst h
    exact ⟨trivial, by simp only [offsetOf]; rw [toNat_ofNat_eight (by omega)]; omega⟩
  rw [if_neg c11] at h
  by_cases c12 : 0x3800 ≤ o ∧ o < 0x3C00
  · rw [if_pos c12] at h
    subst h
    exact ⟨trivial, by simp only [offsetOf]; rw [toNat_ofNat_eight (by omega)]; omega⟩
  rw [if_neg c12] at h
  exact absurd h.symm hr

/-- An offset in the block of screen `v` has the register of that block. -/
theorem registerAt_screen (maxStrips : Nat) {v : BitVec 2} {c : Nat} (hc : c < 0x40) (h4 : c % 4 = 0) :
    registerAt maxStrips (0x100 + 0x40 * v.toNat + c) = screenRegister v c := by
  have hv := v.isLt
  have block : (0x100 + 0x40 * v.toNat + c - 0x100) / 0x40 = v.toNat := by omega
  have place : (0x100 + 0x40 * v.toNat + c - 0x100) % 0x40 = c := by omega
  rw [registerAt, if_neg (by omega), if_neg (by omega), if_neg (by omega), if_neg (by omega), if_neg (by omega),
    if_neg (by omega), dif_neg (by omega), if_pos (by omega), block, place, BitVec.ofNat_toNat, BitVec.setWidth_eq]

/-- A register of the map stands at its offset. -/
theorem registerAt_offsetOf {maxStrips : Nat} {r : Register} (h : registerPresent maxStrips r) :
    registerAt maxStrips (offsetOf r) = r := by
  cases r with
  | cmd | status | result | faultInfo | ctrl => rfl
  | operand i =>
    have hi := i.isLt
    have index : (0x020 + 4 * i.val - 0x020) / 4 = i.val := by omega
    rw [offsetOf, registerAt, if_neg (by omega), if_neg (by omega), if_neg (by omega), if_neg (by omega), if_neg (by omega),
      if_neg (by omega), dif_pos (by omega)]
    exact congrArg Register.operand (Fin.ext index)
  | width v => exact registerAt_screen maxStrips (c := 0x00) (by decide) rfl
  | height v => rw [offsetOf, show 0x104 + 0x40 * v.toNat = 0x100 + 0x40 * v.toNat + 4 by omega, registerAt_screen _ (by decide) rfl]; rfl
  | pitch v => rw [offsetOf, show 0x108 + 0x40 * v.toNat = 0x100 + 0x40 * v.toNat + 8 by omega, registerAt_screen _ (by decide) rfl]; rfl
  | bpp v => rw [offsetOf, show 0x10C + 0x40 * v.toNat = 0x100 + 0x40 * v.toNat + 0x0C by omega, registerAt_screen _ (by decide) rfl]; rfl
  | xstart v => rw [offsetOf, show 0x110 + 0x40 * v.toNat = 0x100 + 0x40 * v.toNat + 0x10 by omega, registerAt_screen _ (by decide) rfl]; rfl
  | pix v => rw [offsetOf, show 0x114 + 0x40 * v.toNat = 0x100 + 0x40 * v.toNat + 0x14 by omega, registerAt_screen _ (by decide) rfl]; rfl
  | back v => rw [offsetOf, show 0x118 + 0x40 * v.toNat = 0x100 + 0x40 * v.toNat + 0x18 by omega, registerAt_screen _ (by decide) rfl]; rfl
  | flags v => rw [offsetOf, show 0x11C + 0x40 * v.toNat = 0x100 + 0x40 * v.toNat + 0x1C by omega, registerAt_screen _ (by decide) rfl]; rfl
  | tdirty v i =>
    obtain ⟨strips, window⟩ := h
    have hv := v.isLt
    have block : (0x1000 + 0x400 * v.toNat + 4 * i - 0x1000) / 0x400 = v.toNat := by omega
    have place : (0x1000 + 0x400 * v.toNat + 4 * i - 0x1000) % 0x400 / 4 = i := by omega
    rw [offsetOf, registerAt, if_neg (by omega), if_neg (by omega), if_neg (by omega), if_neg (by omega), if_neg (by omega),
      if_neg (by omega), dif_neg (by omega), if_neg (by omega), if_pos (by omega), block, place, BitVec.ofNat_toNat,
      BitVec.setWidth_eq]
  | bdirty v i =>
    obtain ⟨strips, window⟩ := h
    have hv := v.isLt
    have block : (0x2000 + 0x400 * v.toNat + 4 * i - 0x2000) / 0x400 = v.toNat := by omega
    have place : (0x2000 + 0x400 * v.toNat + 4 * i - 0x2000) % 0x400 / 4 = i := by omega
    rw [offsetOf, registerAt, if_neg (by omega), if_neg (by omega), if_neg (by omega), if_neg (by omega), if_neg (by omega),
      if_neg (by omega), dif_neg (by omega), if_neg (by omega), if_neg (by omega), if_pos (by omega), block, place,
      BitVec.ofNat_toNat, BitVec.setWidth_eq]
  | roomPal c =>
    have hc := c.isLt
    have index : (0x3000 + 4 * c.toNat - 0x3000) / 4 = c.toNat := by omega
    rw [offsetOf, registerAt, if_neg (by omega), if_neg (by omega), if_neg (by omega), if_neg (by omega), if_neg (by omega),
      if_neg (by omega), dif_neg (by omega), if_neg (by omega), if_neg (by omega), if_neg (by omega), if_pos (by omega),
      index, BitVec.ofNat_toNat, BitVec.setWidth_eq]
  | verbPal c =>
    have hc := c.isLt
    have index : (0x3400 + 4 * c.toNat - 0x3400) / 4 = c.toNat := by omega
    rw [offsetOf, registerAt, if_neg (by omega), if_neg (by omega), if_neg (by omega), if_neg (by omega), if_neg (by omega),
      if_neg (by omega), dif_neg (by omega), if_neg (by omega), if_neg (by omega), if_neg (by omega), if_neg (by omega),
      if_pos (by omega), index, BitVec.ofNat_toNat, BitVec.setWidth_eq]
  | pal16 c =>
    have hc := c.isLt
    have index : (0x3800 + 4 * c.toNat - 0x3800) / 4 = c.toNat := by omega
    rw [offsetOf, registerAt, if_neg (by omega), if_neg (by omega), if_neg (by omega), if_neg (by omega), if_neg (by omega),
      if_neg (by omega), dif_neg (by omega), if_neg (by omega), if_neg (by omega), if_neg (by omega), if_neg (by omega),
      if_neg (by omega), if_pos (by omega), index, BitVec.ofNat_toNat, BitVec.setWidth_eq]
  | reserved => exact h.elim

/-- Settles O10: the map read from the offset to the register, and back. -/
theorem registerMapMatches : Obligations.RegisterMapMatches :=
  fun _ _ _ hr => ⟨fun h => registerAt_inv h hr, fun ⟨present, offset⟩ => offset ▸ registerAt_offsetOf present⟩

/-! What registers read as (10_state.md R17 to R20) -/

theorem statusWord_idle {s : State} (hd : s.dec = none) :
    statusWord s = (if s.fault then 2#32 else 0#32) + 256#32 * s.code.zeroExtend 32 := by
  rw [statusWord, hd]
  refine BitVec.eq_of_toNat_eq ?_
  have hc := s.code.isLt
  cases s.fault <;> simp [BitVec.toNat_add, BitVec.toNat_mul]

theorem ctrlWord_eq (s : State) : ctrlWord s = s.profile.zeroExtend 32 + (if s.lights then 256#32 else 0#32) := by
  rw [ctrlWord]
  refine BitVec.eq_of_toNat_eq ?_
  have hp := s.profile.isLt
  cases s.lights <;> simp [BitVec.toNat_add] 

theorem flagsWord_eq (x : VScreen) :
    flagsWord x = (if x.valid then 1#32 else 0#32) + (if x.hasBack then 2#32 else 0#32) := by
  rw [flagsWord]
  cases x.valid <;> cases x.hasBack <;> rfl

/-! What a write leaves (10_state.md R19, R31) -/

/-- A write cut to `n` bits reads back as the low `n` bits. -/
theorem zeroExtend_truncate (w : Word) {n : Nat} (hn : n ≤ 32) :
    (w.truncate n).zeroExtend 32 = w &&& BitVec.ofNat 32 (2 ^ n - 1) := by
  have bound : 2 ^ n ≤ 2 ^ 32 := Nat.pow_le_pow_right (by decide) hn
  have positive := Nat.two_pow_pos n
  refine BitVec.eq_of_toNat_eq ?_
  have low : w.toNat % 2 ^ n < 2 ^ 32 := (Nat.mod_lt _ positive).trans_le bound
  simp only [BitVec.truncate_eq_setWidth, BitVec.toNat_setWidth, BitVec.toNat_and, BitVec.toNat_ofNat]
  rw [Nat.mod_eq_of_lt low, Nat.mod_eq_of_lt (by omega : 2 ^ n - 1 < 2 ^ 32), Nat.and_two_pow_sub_one_eq_mod]

/-- `CTRL` keeps `PROFILE` and `LIGHTS` of what is written, bits 2:0 and 8. -/
theorem ctrlWord_setCtrl (s : State) (w : Word) : ctrlWord (s.setCtrl w) = w &&& 0x107#32 := by
  have fields : w.toNat &&& 263 = w.toNat % 2 ^ 3 + 2 ^ 8 * (w.toNat.testBit 8).toNat := by
    have low : w.toNat % 2 ^ 3 < 2 ^ 8 := (Nat.mod_lt _ (by decide)).trans (by decide)
    calc w.toNat &&& 263 = (w.toNat &&& (2 ^ 3 - 1)) ||| (w.toNat &&& 2 ^ 8) :=
        Nat.and_or_distrib_left w.toNat 7 256
      _ = 2 ^ 8 * (w.toNat.testBit 8).toNat ||| w.toNat % 2 ^ 3 := by
        rw [Nat.and_two_pow_sub_one_eq_mod, Nat.and_two_pow, Nat.or_comm, Nat.mul_comm]
      _ = w.toNat % 2 ^ 3 + 2 ^ 8 * (w.toNat.testBit 8).toNat := by rw [← Nat.two_pow_add_eq_or_of_lt low, Nat.add_comm]
  refine BitVec.eq_of_toNat_eq ?_
  have profile : (w.extractLsb' 0 3).toNat = w.toNat % 2 ^ 3 := by simp [BitVec.extractLsb'_toNat]
  have lights : w.getLsbD 8 = w.toNat.testBit 8 := rfl
  have bit := Bool.toNat_lt (w.toNat.testBit 8)
  rw [ctrlWord, setCtrl_profile, setCtrl_lights, profile, lights, BitVec.toNat_ofNat, BitVec.toNat_and,
    show (0x107#32).toNat = 263 from rfl, fields]
  omega

theorem readRegister_writeRegister_self {s : State} {r : Register} {w x : Word} (h : writtenValue w r = some x) :
    readRegister (writeRegister s r w) r = x := by
  cases r with
  | ctrl => cases h; exact ctrlWord_setCtrl s w
  | operand i => cases h; exact Vector.getElem_set_self _
  | xstart v =>
    cases h
    show ((s.setScreen v _).screen v).xstart.zeroExtend 32 = _
    rw [setScreen_screen]
    exact zeroExtend_truncate w (n := 16) (by decide)
  | roomPal c => cases h; exact (congrArg (BitVec.zeroExtend 32) (Vector.getElem_set_self _)).trans (zeroExtend_truncate w (n := 8) (by decide))
  | verbPal c => cases h; exact (congrArg (BitVec.zeroExtend 32) (Vector.getElem_set_self _)).trans (zeroExtend_truncate w (n := 8) (by decide))
  | pal16 c => cases h; exact (congrArg (BitVec.zeroExtend 32) (Vector.getElem_set_self _)).trans (zeroExtend_truncate w (n := 16) (by decide))
  | cmd | status | result | faultInfo | width | height | pitch | bpp | pix | back | flags | tdirty | bdirty | reserved =>
    cases h

/-- Writing `XSTART` of one screen shows in that register alone. -/
theorem readRegister_setXstart (s : State) (v : BitVec 2) (h : Half) {q : Register} (hq : q ≠ .xstart v) :
    readRegister (s.setScreen v { s.screen v with xstart := h }) q = readRegister s q := by
  have other (u : BitVec 2) : (s.setScreen v { s.screen v with xstart := h }).screen u
      = if u = v then { s.screen v with xstart := h } else s.screen u := by
    split
    · next e => rw [e, setScreen_screen]
    · next e => rw [setScreen_screen_ne s e]
  cases q with
  | xstart u =>
    have distinct : u ≠ v := fun e => hq (e ▸ rfl)
    simp only [readRegister, other, if_neg distinct]
  | width u | height u | pitch u | bpp u | pix u | back u | flags u | tdirty u | bdirty u =>
    simp only [readRegister, other, flagsWord]
    split
    · next e => rw [e]
    · rfl
  | cmd | status | result | faultInfo | ctrl | operand | roomPal | verbPal | pal16 | reserved => rfl

theorem readRegister_writeRegister_ne {s : State} {r q : Register} (w : Word) (h : q ≠ r) :
    readRegister (writeRegister s r w) q = readRegister s q := by
  have entry {c d : Byte} (hcd : d ≠ c) : c.toNat ≠ d.toNat := fun e => hcd (BitVec.eq_of_toNat_eq e.symm)
  cases r with
  | xstart v => exact readRegister_setXstart s v _ h
  | ctrl =>
    cases q with
    | ctrl => exact absurd rfl h
    | _ => rfl
  | operand i =>
    cases q with
    | operand j => exact Vector.getElem_set_ne i.isLt j.isLt fun e => h (congrArg Register.operand (Fin.ext e.symm))
    | _ => rfl
  | roomPal c =>
    cases q with
    | roomPal d => exact congrArg (BitVec.zeroExtend 32) (Vector.getElem_set_ne c.isLt d.isLt (entry fun e => h (congrArg Register.roomPal e)))
    | _ => rfl
  | verbPal c =>
    cases q with
    | verbPal d => exact congrArg (BitVec.zeroExtend 32) (Vector.getElem_set_ne c.isLt d.isLt (entry fun e => h (congrArg Register.verbPal e)))
    | _ => rfl
  | pal16 c =>
    cases q with
    | pal16 d => exact congrArg (BitVec.zeroExtend 32) (Vector.getElem_set_ne c.isLt d.isLt (entry fun e => h (congrArg Register.pal16 e)))
    | _ => rfl
  | cmd | status | result | faultInfo | width | height | pitch | bpp | pix | back | flags | tdirty | bdirty | reserved => rfl

theorem writeRegister_readOnly {s : State} {r : Register} {w : Word} (h : writtenValue w r = none) :
    writeRegister s r w = s := by
  cases r with
  | ctrl | operand | xstart | roomPal | verbPal | pal16 => cases h
  | cmd | status | result | faultInfo | width | height | pitch | bpp | pix | back | flags | tdirty | bdirty | reserved => rfl

/-- Settles O9: the register written, the registers beside it, and the registers the host may not write. -/
theorem registersReadBack : Obligations.RegistersReadBack :=
  fun _ _ w => ⟨fun _ h => readRegister_writeRegister_self h, fun _ h => readRegister_writeRegister_ne w h,
    writeRegister_readOnly⟩

/-! The host's actions (70_reset_and_hazards.md R210, R211, R218) -/

/-- A word decodes as a list of bits as it does as a word. -/
theorem decodeCommand_of_decode {w : Word} {i : Instr} (h : decode .command (bitsOf 32 w.toNat) = .ok (i, [])) :
    decodeCommand w = some i := by
  obtain ⟨c, hc, v, rfl, word⟩ : ∃ c ∈ commandTable, ∃ v, i = c.2 v ∧ w = commandWord c.1 v := by
    have read := runReader_field w (fun v => .done v) []
    rw [List.append_nil] at read
    simp only [decode, read, runReaderOnBits, BitVec.ofNat_toNat, BitVec.setWidth_eq] at h
    split at h
    · next i' hi => cases h; exact decodeCommand_inv hi
    · cases h
  rw [word, decodeCommand_commandWord hc]

/-- Settles O5: the write of `CMD` issues the command its word decodes to. -/
theorem stepRunsIssuedCommand : Obligations.StepRunsIssuedCommand := by
  intro s w rest i hd hf hi h
  rw [step_command hd hf hi, decodeCommand_of_decode h, Option.elim_some]

/-- A store of the host changes the byte at its address alone, and that only where it holds memory. -/
theorem readByte_hostStore (s : State) (a : Nat) (v : Byte) :
    (mapped s.par (a % 2 ^ s.par.addressBits) = true → Memory.wf s.mem = true →
        readByte (hostStore s a v).mem (a % 2 ^ s.par.addressBits) = v)
      ∧ (mapped s.par (a % 2 ^ s.par.addressBits) = false → (hostStore s a v).mem = s.mem)
      ∧ ∀ b, b ≠ a % 2 ^ s.par.addressBits → readByte (hostStore s a v).mem b = readByte s.mem b := by
  rw [hostStore]
  split
  · next hm => exact ⟨fun _ hwf => readByte_writeByte_self hwf _ v, fun h => absurd (hm.symm.trans h) (by decide),
      fun b hb => readByte_writeByte_ne s.mem v hb⟩
  · next hm => exact ⟨fun h => absurd h hm, fun _ => rfl, fun _ _ => rfl⟩

theorem readRegister_bpp (s : State) (v : BitVec 2) :
    readRegister s (.bpp v) = (match (s.screen v).format with | .indexed8 => 1#32 | .rgb16 => 2#32) := by
  rw [readRegister]
  cases (s.screen v).format <;> rfl

/-- Settles O8: `step_write` and `step_read`, the registers one by one, and the store. -/
theorem hostActionsHappen : Obligations.HostActionsHappen := by
  intro s rest hd
  refine ⟨step_idle hd, fun o w hi hr => step_write hd hi hr, fun o hi => step_read hd hi, ⟨rfl, rfl, rfl, rfl,
    statusWord_idle hd, ctrlWord_eq s, fun _ => rfl, fun _ => ⟨rfl, rfl, rfl⟩, fun v => ⟨rfl, rfl, rfl, rfl,
      readRegister_bpp s v, rfl, rfl, flagsWord_eq _, fun _ => ⟨rfl, rfl⟩⟩⟩, fun a v hi => ?_⟩
  exact ⟨hostStore { s with inbox := rest } a v, step_host hd hi, hostStore_eq _ a v,
    readByte_hostStore { s with inbox := rest } a v⟩

/-- Settles O14: the step is `State.resetUnit`, which the registers are read off. -/
theorem resetAction : Obligations.ResetAction := by
  intro s rest hd hi
  refine ⟨({ s with inbox := rest } : State).resetUnit, step_host hd hi, rfl, rfl, rfl, rfl, fun v => ?_, rfl, rfl, rfl, rfl⟩
  have screen : ({ s with inbox := rest } : State).resetUnit.screen v = VScreen.reset s.par.maxStrips :=
    Vector.getElem_replicate _
  rw [screen]
  rfl

/-- Settles O16: nothing is in progress, and every screen is the reset screen. -/
theorem resetIsGood : Obligations.ResetIsGood :=
  goodState_of_idle ⟨wf_reset, fun v => (reset_screen v).symm ▸ screenOk_reset _, fun _ => ⟨rfl, rfl⟩, fun h => by cases h⟩ rfl

/-! Numbers in memory (20_memory.md R41, R45, R57) -/

/-- Byte `j` of a number, least significant first. -/
theorem bytesOf_getElem : ∀ {n v j : Nat} (h : j < (bytesOf n v).length), (bytesOf n v)[j] = BitVec.ofNat 8 (v / 2 ^ (8 * j))
  | 0, _, _, h => by simp [bytesOf] at h
  | n + 1, v, 0, _ => by simp [bytesOf]
  | n + 1, v, j + 1, h => by
    have rest := bytesOf_getElem (n := n) (v := v / 2 ^ 8) (j := j) (by simpa using h)
    rw [Nat.div_div_eq_div_mul, ← Nat.pow_add, show 8 + 8 * j = 8 * (j + 1) by omega] at rest
    exact rest

/-- Bytes that are those of a number read as its low bits. -/
theorem numberAt_of_bytes {m : Memory} : ∀ {n a v : Nat},
    (∀ j, j < n → readByte m (a + j) = BitVec.ofNat 8 (v / 2 ^ (8 * j))) → numberAt m a n = v % 2 ^ (8 * n)
  | 0, _, _, _ => by simp [numberAt, Nat.mod_one]
  | n + 1, a, v, h => by
    have low : readByte m a = BitVec.ofNat 8 v := by simpa using h 0 (by omega)
    have high : numberAt m (a + 1) n = v / 2 ^ 8 % 2 ^ (8 * n) := numberAt_of_bytes fun j hj => by
      rw [Nat.div_div_eq_div_mul, ← Nat.pow_add, show 8 + 8 * j = 8 * (j + 1) by omega,
        show a + 1 + j = a + (j + 1) by omega]
      exact h (j + 1) (by omega)
    rw [numberAt, low, high, BitVec.toNat_ofNat, show 8 * (n + 1) = 8 + 8 * n by omega, Nat.pow_add, Nat.mod_mul]

/-- What a store of a number leaves, byte by byte. -/
theorem readByte_pokeNumber {par : Params} {m : Memory} {a n v : Nat} (hwf : Memory.wf m = true) (hr : readable par a n) :
    (∀ j, j < n → readByte (pokeBytes par m a (bytesOf n v)) (a + j) = BitVec.ofNat 8 (v / 2 ^ (8 * j)))
      ∧ ∀ b, ¬ (a ≤ b ∧ b < a + n) → readByte (pokeBytes par m a (bytesOf n v)) b = readByte m b := by
  refine ⟨fun j hj => ?_, fun b hb => readByte_pokeBytes_outside par m a _ (by rw [bytesOf_length]; omega)⟩
  rw [readByte_pokeBytes_inside hwf a _ (by rwa [bytesOf_length]) (hr.2 j hj), bytesOf_getElem]

/-- Settles O25: a store pokes the bytes of its number, and a load reads them. -/
theorem storedNumbersReadBack : Obligations.StoredNumbersReadBack := by
  intro s n a v hwf hr
  obtain ⟨stored, outside⟩ := readByte_pokeNumber (v := v) hwf hr
  refine ⟨_, run_store_fits hr.1, rfl, ?_, stored, outside⟩
  have loaded := run_load_readable (s := { s with mem := pokeBytes s.par s.mem a (bytesOf n v) }) hr
  rwa [numberAt_of_bytes stored] at loaded

/-- Settles O26: where an address holds no memory, and past the last one. -/
theorem accessOutsideMemory : Obligations.AccessOutsideMemory := by
  intro s a v
  refine ⟨fun inside unmapped => ⟨?_, ?_⟩, fun outside => ⟨?_, ?_⟩⟩
  · rw [run_loadByte, if_pos inside, if_neg (by simp [unmapped])]
  · rw [run_storeByte_fits inside, pokeByte, if_neg (by simp [unmapped])]
  · rw [run_loadByte, if_neg (by omega)]
  · rw [run_storeByte, if_neg (by omega)]

end Sys2Proof.Machine
end

section
/-! What a stream code can change: bytes of the strip, the decode in progress, and `RESULT`; and what follows for the
commands that read a stream: their frame, their faults, and who writes `RESULT` (spec/40_bitmap_codec.md R91, R109;
10_state.md R13; 60_exceptions.md R198). -/

namespace Sys2Proof.Machine

/-! Changes inside a set of addresses -/

/-- Only the decode in progress, `RESULT`, the free-byte count and bytes at addresses of `W` may differ. -/
def Within (W : Nat → Prop) (s t : State) : Prop := onlyDecode s t ∧ sameOutside W s t

theorem frame_within (W : Nat → Prop) : Frame (Within W) where
  refl _ := ⟨rfl, fun _ _ => rfl⟩
  trans := by
    rintro s t u ⟨h1, h2⟩ ⟨g1, g2⟩
    refine ⟨?_, fun a ha => (g2 a ha).trans (h2 a ha)⟩
    unfold onlyDecode at *
    rw [g1, h1]

/-- A loop keeps what each of its rounds keeps. -/
theorem keeps_loopFrom_range {R : State → State → Prop} (hR : Frame R) {f : Nat → M Unit} : ∀ (n i : Nat),
    (∀ j, i ≤ j → j < i + n → Keeps R (f j)) → Keeps R (loopFrom f i n)
  | 0, _, _ => keeps_pure hR ()
  | n + 1, i, hf => keeps_bind hR (hf i (Nat.le_refl i) (by omega)) fun _ =>
      keeps_loopFrom_range hR n (i + 1) fun j h1 h2 => hf j (by omega) (by omega)

section
variable {W : Nat → Prop}

theorem within_byte (a : Nat) : Keeps (Within W) (loadByte a) :=
  keeps_loadByte (frame_within W) (fun _ _ => ⟨rfl, fun _ _ => rfl⟩) a

theorem within_number (n a : Nat) : Keeps (Within W) (load n a) :=
  keeps_load (frame_within W) (fun _ _ => ⟨rfl, fun _ _ => rfl⟩) n a

theorem within_store {n a : Nat} (v : Nat) (h : ∀ b, a ≤ b → b < a + n → W b) : Keeps (Within W) (store n a v) := by
  intro s _ t e
  rw [store_spec e]
  refine ⟨rfl, fun b hb => readByte_pokeBytes_outside _ _ _ _ ?_⟩
  rw [bytesOf_length]
  by_contra inside
  exact hb (h b (by omega) (by omega))

theorem within_storeByte {a : Nat} (v : Byte) (h : W a) : Keeps (Within W) (storeByte a v) := by
  intro s _ t e
  rw [(storeByte_spec e).2]
  exact ⟨rfl, fun b hb => readByte_pokeByte_ne _ _ _ fun hba => hb (hba ▸ h)⟩

theorem within_setDecode (d : Decode) : Keeps (Within W) (setDecode d) := keeps_modify fun _ => ⟨rfl, fun _ _ => rfl⟩

theorem within_currentDecode : Keeps (Within W) currentDecode := by
  intro s d t h
  rw [(currentDecode_inv h).1]
  exact (frame_within W).refl s

theorem within_nextByte : Keeps (Within W) nextByte :=
  keeps_bind (frame_within W) within_currentDecode fun _ => keeps_bind (frame_within W) (within_byte _) fun _ =>
    keeps_bind (frame_within W) (within_setDecode _) fun _ => keeps_pure (frame_within W) _

theorem within_extendedCount (n : Nat) : Keeps (Within W) (extendedCount n) := by
  rw [extendedCount]
  split
  · exact keeps_bind (frame_within W) within_nextByte fun _ => keeps_pure (frame_within W) _
  · exact keeps_pure (frame_within W) _

theorem within_decodeEnded (s : State) (d : Decode) : Within W s (s.decodeEnded d) := by
  rw [State.decodeEnded]
  split <;> exact ⟨rfl, fun _ _ => rfl⟩

theorem within_advance (n : Nat) : Keeps (Within W) (advance n) := by
  refine keeps_bind (frame_within W) within_currentDecode fun d => ?_
  dsimp only
  split
  · exact within_setDecode _
  · exact keeps_modify fun s => within_decodeEnded s _

theorem within_putPixel {d : Decode} {k : Nat} (c : Byte) (h : ∀ a, pixelCovers d k a → W a) :
    Keeps (Within W) (putPixel d c k) := by
  refine keeps_get_bind fun s => ?_
  split
  · exact keeps_pure (frame_within W) ()
  · refine keeps_get_bind fun u => ?_
    split
    · next hf => exact within_store _ fun a h1 h2 => h a ⟨h1, by rw [hf]; exact h2⟩
    · next hf => exact within_store _ fun a h1 h2 => h a ⟨h1, by rw [hf]; exact h2⟩

theorem within_copyLeft {d : Decode} {k : Nat} (h : ∀ a, pixelCovers d k a → W a) : Keeps (Within W) (copyLeft d k) := by
  rw [copyLeft]
  split
  · exact keeps_throw _
  · exact keeps_bind (frame_within W) (within_number _ _) fun _ => within_store _ fun a h1 h2 => h a ⟨h1, h2⟩

theorem within_storeMask {merge : Bool} {a : Nat} (v : Byte) (h : W a) : Keeps (Within W) (storeMask merge a v) := by
  rw [storeMask]
  split
  · exact keeps_bind (frame_within W) (within_byte a) fun _ => within_storeByte _ h
  · exact within_storeByte v h

/-- Pixels or rows inside `W`, and then the end of the code. -/
theorem within_loop {f : Nat → M Unit} {i n m : Nat} (hf : ∀ j, i ≤ j → j < i + n → Keeps (Within W) (f j)) :
    Keeps (Within W) (loopFrom f i n >>= fun _ => advance m) :=
  keeps_bind (frame_within W) (keeps_loopFrom_range (frame_within W) n i hf) fun _ => within_advance m

/-- The same where each round reads a byte first. -/
theorem within_literals {f : Nat → Byte → M Unit} {i n m : Nat} (hf : ∀ j c, i ≤ j → j < i + n → Keeps (Within W) (f j c)) :
    Keeps (Within W) (loopFrom (fun j => do
      let c ← nextByte
      f j c) i n >>= fun _ => advance m) :=
  within_loop fun j h1 h2 => keeps_bind (frame_within W) within_nextByte fun c => hf j c h1 h2

end

/-! The strip of a decode -/


/-- The bytes of the rows a decode produces: 8 pixels a row, or, of a mask decode, one byte in the same place. -/
def stripBytes (d : Decode) (a : Nat) : Prop := blockCovers d.dst d.pitch (8 * bytesPerPixel d.format) d.height a

/-- A pixel that is one of the strip's lies inside one of its rows, in either order (00_scope.md R8). -/
theorem position_lt {o : PixelOrder} {height k : Nat} (h : k < 8 * height) :
    (position o height k).1 < 8 ∧ (position o height k).2 < height := by
  cases o with
  | row => exact ⟨Nat.mod_lt _ (by decide), by simp only [position]; omega⟩
  | column =>
    have rows : 0 < height := by omega
    exact ⟨Nat.div_lt_of_lt_mul (by rwa [Nat.mul_comm]), Nat.mod_lt _ rows⟩

theorem stripBytes_of_pixel {d : Decode} {k a : Nat} (hk : k < 8 * d.height) (h : pixelCovers d k a) : stripBytes d a := by
  obtain ⟨column, row⟩ := position_lt (o := d.order) hk
  obtain ⟨h1, h2⟩ := h
  rw [pixelAddr] at h1 h2
  have inRow := Nat.mul_le_mul_right (bytesPerPixel d.format) (Nat.succ_le_of_lt column)
  rw [Nat.succ_mul] at inRow
  exact ⟨_, row, by omega, by omega⟩

theorem stripBytes_of_maskRow {d : Decode} {r : Nat} (hr : r < d.height) : stripBytes d (maskRowAddr d r) := by
  have := bytesPerPixel_pos d.format
  exact ⟨r, hr, Nat.le_refl _, by rw [maskRowAddr]; omega⟩

theorem decodeTotal_bitmap {d : Decode} (h : ∀ merge, d.phase ≠ .mask merge) : decodeTotal d = 8 * d.height := by
  rw [decodeTotal]
  split
  · next merge hm => exact absurd hm (h merge)
  · rfl

/-- A packet of EGA_RLE that answers writes pixels of the strip only. -/
theorem within_egaPacket {W : Nat → Prop} {d : Decode} {n : Nat} {put : Nat → M Unit} (hp : d.phase = .ega)
    (hput : ∀ z, d.k + z < 8 * d.height → Keeps (Within W) (put z)) : Keeps (Within W) (egaPacket d n put) := by
  have total := decodeTotal_bitmap (d := d) (by simp [hp])
  rw [egaPacket]
  split
  · exact keeps_throw _
  · exact within_loop fun z _ hz => hput z (by omega)

/-- A family's payload is no mask stream. -/
theorem familyPhase_bitmap (f : Family) (merge : Bool) : familyPhase f ≠ .mask merge := by
  cases f <;> simp [familyPhase]

/-- The body of a family writes inside the strip. -/
theorem within_familyBody (par : Params) (e : DescEntry) {d : Decode} (hk : d.k < 8 * d.height) :
    Keeps (Within (stripBytes d)) (familyBody par e.family (describedBy d e)) := by
  have total : decodeTotal (describedBy d e) = 8 * d.height := decodeTotal_bitmap (familyPhase_bitmap e.family)
  have pixel : ∀ k, k < 8 * d.height → ∀ a, pixelCovers (describedBy d e) k a → stripBytes d a := fun k hk a h =>
    stripBytes_of_pixel (d := describedBy d e) hk h
  cases familyBody_shape par e.family (describedBy d e) with
  | supplied _ h =>
    rw [h]
    exact keeps_get_bind fun _ => keeps_bind (frame_within _) (within_setDecode _) fun _ =>
      within_loop fun j h1 h2 => within_putPixel _ (pixel j (by omega))
  | raw _ _ h =>
    rw [h]
    exact keeps_bind (frame_within _) (within_setDecode _) fun _ =>
      within_literals fun j c h1 h2 => within_putPixel c (pixel j (by omega))
  | packet _ _ h => rw [h]; exact within_setDecode _
  | bit _ _ h =>
    rw [h]
    exact keeps_bind (frame_within _) within_nextByte fun c => keeps_bind (frame_within _) (within_setDecode _) fun _ =>
      keeps_bind (frame_within _) (within_putPixel c (pixel _ hk)) fun _ => within_advance 1

/-- What a stream code that answers has done: changed bytes of its strip, or, a descriptor byte that `DESC_MAP` does not
hold, raised the fault. -/
inductive CodeEffect (s t : State) : Prop where
  | produced (d : Decode) (hd : s.dec = some d) (h : Within (stripBytes d) s t)
  | unknown (d : Decode) (hd : s.dec = some d) (hp : d.phase = .descriptor) (info : Word)
      (h : t = s.raised .unknownDescriptor info)

theorem execCode_effect {i : Instr} {s t : State} (h : execCode i s = .next t) : CodeEffect s t := by
  have own : ∀ {d : Decode} {k : Nat}, k < 8 * d.height → ∀ a, pixelCovers d k a → stripBytes d a := fun hk a h =>
    stripBytes_of_pixel hk h
  cases execCode_shape i with
  | command e => rw [e] at h; cases h
  | descriptor b e =>
    rw [e] at h
    obtain ⟨d, u, h1, h2⟩ := run_bind_inv (runM_eq_next.mp h)
    obtain ⟨rfl, hd, hp, hk⟩ := decodeIn_inv h1
    rw [decodeTotal_bitmap (by simp [hp])] at hk
    rw [run_get_bind] at h2
    split at h2
    · exact .produced d hd (within_familyBody _ _ hk _ _ _ h2)
    · cases h2
      exact .unknown d hd hp _ rfl
  | colour ph f hph hf e =>
    rw [e] at h
    obtain ⟨d, u, h1, h2⟩ := run_bind_inv (runM_eq_next.mp h)
    obtain ⟨rfl, hd, hp, hk⟩ := decodeIn_inv h1
    rw [decodeTotal_bitmap fun m hm => by rw [← hp, hm] at hph; simp at hph] at hk
    have strip : stripBytes (f d) = stripBytes d := by rw [hf d]; rfl
    refine .produced d hd (keeps_bind (frame_within _) (within_setDecode _) (fun _ => keeps_bind (frame_within _)
      (within_putPixel _ fun a h => strip ▸ own ?_ a h) fun _ => within_advance 1) _ _ _ h2)
    rw [hf d]
    exact hk
  | maskRun c e =>
    subst e
    obtain ⟨⟨d, merge⟩, u, h1, h2⟩ := run_bind_inv (runM_eq_next.mp h)
    obtain ⟨rfl, hd, hp, hk⟩ := maskDecodeIn_inv h1
    dsimp only at h2 hd hp hk
    rw [decodeTotal_mask hp] at hk
    split at h2
    · cases h2
    · exact .produced d hd (keeps_bind (frame_within _) within_nextByte (fun v => within_loop fun r h1 h2 => within_storeMask v
        (stripBytes_of_maskRow (by rw [cutShort_mask hp] at h2; omega))) _ _ _ h2)
  | maskLit c e =>
    subst e
    obtain ⟨⟨d, merge⟩, u, h1, h2⟩ := run_bind_inv (runM_eq_next.mp h)
    obtain ⟨rfl, hd, hp, hk⟩ := maskDecodeIn_inv h1
    dsimp only at h2 hd hp hk
    rw [decodeTotal_mask hp] at hk
    split at h2
    · cases h2
    · exact .produced d hd (within_literals (fun r v h1 h2 => within_storeMask v
        (stripBytes_of_maskRow (by rw [cutShort_mask hp] at h2; omega))) _ _ _ h2)
  | rle8Run n e =>
    subst e
    obtain ⟨d, u, h1, h2⟩ := run_bind_inv (runM_eq_next.mp h)
    obtain ⟨rfl, hd, hp, hk⟩ := decodeIn_inv h1
    have total := decodeTotal_bitmap (d := d) (by simp [hp])
    exact .produced d hd (keeps_bind (frame_within _) within_nextByte (fun c => within_loop fun k h1 h2 => within_putPixel c
      (own (by rw [cutShort] at h2; omega))) _ _ _ h2)
  | rle8Lit n e =>
    subst e
    obtain ⟨d, u, h1, h2⟩ := run_bind_inv (runM_eq_next.mp h)
    obtain ⟨rfl, hd, hp, hk⟩ := decodeIn_inv h1
    have total := decodeTotal_bitmap (d := d) (by simp [hp])
    exact .produced d hd (within_literals (fun k c h1 h2 => within_putPixel c (own (by rw [cutShort] at h2; omega))) _ _ _ h2)
  | egaRun n c e =>
    subst e
    obtain ⟨d, u, h1, h2⟩ := run_bind_inv (runM_eq_next.mp h)
    obtain ⟨rfl, hd, hp, hk⟩ := decodeIn_inv h1
    exact .produced d hd (keeps_bind (frame_within _) (within_extendedCount _) (fun cnt => within_egaPacket hp fun z hz =>
      within_putPixel _ (own hz)) _ _ _ h2)
  | egaCopyleft n e =>
    subst e
    obtain ⟨d, u, h1, h2⟩ := run_bind_inv (runM_eq_next.mp h)
    obtain ⟨rfl, hd, hp, hk⟩ := decodeIn_inv h1
    exact .produced d hd (keeps_bind (frame_within _) (within_extendedCount _) (fun cnt => within_egaPacket hp fun z hz =>
      within_copyLeft (own hz)) _ _ _ h2)
  | egaDither n e =>
    subst e
    obtain ⟨d, u, h1, h2⟩ := run_bind_inv (runM_eq_next.mp h)
    obtain ⟨rfl, hd, hp, hk⟩ := decodeIn_inv h1
    exact .produced d hd (keeps_bind (frame_within _) within_nextByte (fun pair => keeps_bind (frame_within _)
      (within_extendedCount _) fun cnt => within_egaPacket hp fun z hz => within_putPixel _ (own hz)) _ _ _ h2)
  | mmrRun n e =>
    subst e
    obtain ⟨d, u, h1, h2⟩ := run_bind_inv (runM_eq_next.mp h)
    obtain ⟨rfl, hd, hp, hk⟩ := decodeIn_inv h1
    have total := decodeTotal_bitmap (d := d) (by simp [hp])
    exact .produced d hd (within_loop (fun k h1 h2 => within_putPixel _ (own (by rw [cutShort] at h2; omega))) _ _ _ h2)

/-! Who writes `RESULT`, of the codes (10_state.md R13, 40_bitmap_codec.md R92) -/

theorem advance_mask_result {s t : State} {d : Decode} {merge : Bool} {n : Nat} (hd : s.dec = some d)
    (hp : d.phase = .mask merge) (h : StateT.run (advance n) s = .ok ((), t)) : t.result = s.result := by
  rw [run_advance hd] at h
  cases h
  split
  · rfl
  · rw [decodeEnded_mask s hp]
    rfl

/-- Rows of a mask decode, and the end of their code, leave `RESULT` alone. -/
theorem maskLoop_result {s t : State} {d : Decode} {merge : Bool} {f : Nat → M Unit} {i n m : Nat} (hd : s.dec = some d)
    (hp : d.phase = .mask merge) (moves : ∀ j, Keeps Moves (f j)) (keeps : ∀ j, Keeps (fun s t => t.result = s.result) (f j))
    (h : StateT.run (loopFrom f i n >>= fun _ => advance m) s = .ok ((), t)) : t.result = s.result := by
  obtain ⟨_, u, h1, h2⟩ := run_bind_inv h
  obtain ⟨q, _, hu⟩ := keeps_loopFrom frame_moves moves n i s () u h1 d hd
  rw [advance_mask_result hu hp h2]
  exact keeps_loopFrom (frame_part State.result) keeps n i s () u h1

theorem nextByte_result : Keeps (fun s t => t.result = s.result) nextByte := by
  intro s c t h
  obtain ⟨d, _, _, _, load⟩ := nextByte_inv h
  exact keeps_loadByte (R := fun s t => t.result = s.result) (frame_part State.result) (fun _ _ => rfl) _ s c { t with dec := s.dec } load

theorem storeMask_result (merge : Bool) (a : Nat) (v : Byte) : Keeps (fun s t => t.result = s.result) (storeMask merge a v) := by
  rw [storeMask]
  split
  · exact keeps_bind (frame_part State.result) (keeps_loadByte (frame_part State.result) (fun _ _ => rfl) a) fun _ =>
      keeps_storeByte (fun _ _ _ => rfl) a _
  · exact keeps_storeByte (fun _ _ _ => rfl) a v

theorem execCode_mask_result {i : Instr} {s t : State} {d : Decode} {merge : Bool} (hd : s.dec = some d)
    (hp : d.phase = .mask merge) (h : execCode i s = .next t) : t.result = s.result := by
  have other : ∀ {ph : Phase} {f : Decode → M Unit}, (∀ m, ph ≠ .mask m) → runM (decodeIn ph >>= f) s ≠ .next t := by
    intro ph f hph h
    obtain ⟨e, u, h1, _⟩ := run_bind_inv (runM_eq_next.mp h)
    obtain ⟨rfl, he, hp', _⟩ := decodeIn_inv h1
    rw [hd] at he
    cases he
    exact hph merge (hp'.symm.trans hp)
  cases execCode_shape i with
  | command e => rw [e] at h; cases h
  | descriptor b e => rw [e] at h; exact absurd h (other (by simp))
  | colour ph f hph _ e =>
    rw [e] at h
    exact absurd h (other fun m hm => by rw [hm] at hph; simp at hph)
  | maskRun c e =>
    subst e
    obtain ⟨⟨e, m⟩, u, h1, h2⟩ := run_bind_inv (runM_eq_next.mp h)
    obtain ⟨rfl, _⟩ := maskDecodeIn_inv h1
    dsimp only at h2
    split at h2
    · cases h2
    · obtain ⟨v, w, h3, h4⟩ := run_bind_inv h2
      obtain ⟨q, _, hw⟩ := moves_nextByte _ _ _ h3 _ hd
      rw [maskLoop_result hw hp (fun j => keeps_storeMask tolerates_moves _ _ _) (fun j => storeMask_result _ _ _) h4]
      exact nextByte_result _ _ _ h3
  | maskLit c e =>
    subst e
    obtain ⟨⟨e, m⟩, u, h1, h2⟩ := run_bind_inv (runM_eq_next.mp h)
    obtain ⟨rfl, _⟩ := maskDecodeIn_inv h1
    dsimp only at h2
    split at h2
    · cases h2
    · exact maskLoop_result hd hp
        (fun j => keeps_bind frame_moves moves_nextByte fun _ => keeps_storeMask tolerates_moves _ _ _)
        (fun j => keeps_bind (frame_part State.result) nextByte_result fun _ => storeMask_result _ _ _) h2
  | rle8Run n e => subst e; exact absurd h (other (by simp))
  | rle8Lit n e => subst e; exact absurd h (other (by simp))
  | egaRun n c e => subst e; exact absurd h (other (by simp))
  | egaCopyleft n e => subst e; exact absurd h (other (by simp))
  | egaDither n e => subst e; exact absurd h (other (by simp))
  | mmrRun n e => subst e; exact absurd h (other (by simp))

end Sys2Proof.Machine
end

section
/-! Computations that do not see a part of the state: they do the same whatever that part holds and hand it on. From it:
no instruction reads `VERB_PAL` (spec/10_state.md R29), and COMPOSE_STRIP is COPY8COL or CLEAR8COL with other operands
(44_compositor.md R162). -/

namespace Sys2Proof.Machine

variable {α β : Type}

/-- `m` does from `g s` what it does from `s`, and leaves the state changed by `g`. -/
def Commutes (g : State → State) (m : M α) : Prop :=
  ∀ s, StateT.run m (g s) = (StateT.run m s).map fun x => (x.1, g x.2)

section
variable {g : State → State}

theorem commutes_pure (x : α) : Commutes g (pure x : M α) := fun _ => rfl

theorem commutes_throw (e : Stop) : Commutes g (throw e : M α) := fun _ => rfl

theorem commutes_modify {f : State → State} (h : ∀ s, f (g s) = g (f s)) : Commutes g (modify f : M Unit) := by
  intro s
  show Except.ok ((), f (g s)) = .ok ((), g (f s))
  rw [h]

theorem commutes_bind {m : M α} {f : α → M β} (hm : Commutes g m) (hf : ∀ x, Commutes g (f x)) : Commutes g (m >>= f) := by
  intro s
  rw [run_bind, run_bind, hm s]
  cases StateT.run m s with
  | ok x => exact hf x.1 x.2
  | error e => rfl

/-- A read of the state, where what follows does not see the part that `g` changes. -/
theorem commutes_get_bind {f : State → M β} (same : ∀ s, f (g s) = f s) (hf : ∀ s, Commutes g (f s)) :
    Commutes g (get >>= f) := by
  intro s
  rw [run_get_bind, run_get_bind, same]
  exact hf s s

theorem commutes_loopFrom {f : Nat → M Unit} (hf : ∀ i, Commutes g (f i)) : ∀ n i, Commutes g (loopFrom f i n)
  | 0, _ => commutes_pure ()
  | n + 1, i => commutes_bind (hf i) fun _ => commutes_loopFrom hf n (i + 1)

theorem mapNext_stop (e : Stop) : mapNext g (stopOutcome e) = stopOutcome e := by
  cases e <;> rfl

theorem runM_commutes {m : M Unit} (hm : Commutes g m) (s : State) : runM m (g s) = mapNext g (runM m s) := by
  rw [runM, runM, hm s]
  cases StateT.run m s with
  | ok x => rfl
  | error e => exact (mapNext_stop e).symm

theorem andThen_commutes {o : Answer} {f : State → Answer} (hf : ∀ s, f (g s) = mapNext g (f s)) :
    andThen (mapNext g o) f = mapNext g (andThen o f) := by
  cases o with
  | next s => exact hf s
  | fault r => rfl
  | refused r => rfl

end

/-! Memory -/

/-- A change that no access to memory sees or undoes. -/
structure MemoryBlind (g : State → State) : Prop where
  par : ∀ s, (g s).par = s.par
  mem : ∀ s, (g s).mem = s.mem
  freeCount : ∀ s, (g s).freeCount = s.freeCount
  withMem : ∀ s m, ({ g s with mem := m } : State) = g { s with mem := m }
  withFree : ∀ s n, ({ g s with freeCount := n } : State) = g { s with freeCount := n }

section
variable {g : State → State} (hg : MemoryBlind g)
include hg

theorem commutes_loadByte (a : Nat) : Commutes g (loadByte a) := by
  intro s
  by_cases inside : a < 2 ^ s.par.addressBits
  · have inside' : a < 2 ^ (g s).par.addressBits := by rwa [hg.par]
    by_cases hm : mapped s.par a = true
    · rw [run_loadByte_mapped inside hm, run_loadByte_mapped inside' (by rwa [hg.par]), hg.mem]
      rfl
    · rw [run_loadByte, if_pos inside', if_neg (by rwa [hg.par]), run_loadByte, if_pos inside, if_neg hm, hg.freeCount]
      exact congrArg (fun t => Except.ok (Config.freeByte s.freeCount, t)) (hg.withFree s _)
  · rw [run_loadByte, if_neg (by rwa [hg.par]), run_loadByte, if_neg inside]
    rfl

theorem commutes_storeByte (a : Nat) (v : Byte) : Commutes g (storeByte a v) := by
  intro s
  by_cases inside : a < 2 ^ s.par.addressBits
  · have poked : pokeByte (g s).par (g s).mem a v = pokeByte s.par s.mem a v := by rw [hg.par, hg.mem]
    rw [run_storeByte_fits inside, run_storeByte_fits (by rwa [hg.par]), poked]
    exact congrArg (fun t => Except.ok ((), t)) (hg.withMem s _)
  · rw [run_storeByte, if_neg (by rwa [hg.par]), run_storeByte, if_neg inside]
    rfl

theorem commutes_load : ∀ n a, Commutes g (load n a)
  | 0, _ => commutes_pure 0
  | n + 1, a => commutes_bind (commutes_loadByte hg a) fun _ => commutes_bind (commutes_load n (a + 1)) fun _ =>
      commutes_pure _

theorem commutes_store : ∀ n a v, Commutes g (store n a v)
  | 0, _, _ => commutes_pure ()
  | n + 1, a, _ => commutes_bind (commutes_storeByte hg a _) fun _ => commutes_store n (a + 1) _

theorem commutes_loadBytes : ∀ n a, Commutes g (loadBytes n a)
  | 0, _ => commutes_pure []
  | n + 1, a => commutes_bind (commutes_loadByte hg a) fun _ => commutes_bind (commutes_loadBytes n (a + 1)) fun _ =>
      commutes_pure _

theorem commutes_loadRows (n p : Nat) : ∀ h a, Commutes g (loadRows n p h a)
  | 0, _ => commutes_pure []
  | h + 1, a => commutes_bind (commutes_loadBytes hg n a) fun _ => commutes_bind (commutes_loadRows n p h (a + p)) fun _ =>
      commutes_pure _

theorem commutes_copyBytes (n d a : Nat) : Commutes g (copyBytes n d a) :=
  commutes_loopFrom (fun j => commutes_bind (commutes_loadByte hg _) fun v => commutes_storeByte hg (d + j) v) n 0

theorem commutes_clearBytes (n d : Nat) : Commutes g (clearBytes n d) :=
  commutes_loopFrom (fun j => commutes_storeByte hg (d + j) 0) n 0

theorem commutes_copyRows (n p d a h : Nat) : Commutes g (copyRows n p d a h) :=
  commutes_loopFrom (fun _ => commutes_copyBytes hg n _ _) h 0

theorem commutes_clearRows (n p d h : Nat) : Commutes g (clearRows n p d h) :=
  commutes_loopFrom (fun _ => commutes_clearBytes hg n _) h 0

theorem commutes_storeMask (merge : Bool) (a : Nat) (v : Byte) : Commutes g (storeMask merge a v) := by
  rw [storeMask]
  split
  · exact commutes_bind (commutes_loadByte hg a) fun _ => commutes_storeByte hg a _
  · exact commutes_storeByte hg a v

theorem commutes_copyLeft (d : Decode) (k : Nat) : Commutes g (copyLeft d k) := by
  rw [copyLeft]
  split
  · exact commutes_throw _
  · exact commutes_bind (commutes_load hg _ _) fun _ => commutes_store hg _ _ _

end

/-! Drawing -/

/-- A change that no drawing command sees or undoes. -/
structure DrawingBlind (g : State → State) : Prop extends MemoryBlind g where
  screens : ∀ s, (g s).screens = s.screens
  a : ∀ s, (g s).a = s.a
  lights : ∀ s, (g s).lights = s.lights
  setScreen : ∀ s v x, (g s).setScreen v x = g (s.setScreen v x)

section
variable {g : State → State} (hg : DrawingBlind g)
include hg

theorem DrawingBlind.screen (s : State) (v : BitVec 2) : (g s).screen v = s.screen v := by
  rw [State.screen, State.screen]
  congr 1
  exact hg.screens s

theorem DrawingBlind.operand (s : State) (i : Fin 8) : (g s).operand i = s.operand i := by
  rw [State.operand, State.operand]
  congr 1
  exact hg.a s

theorem DrawingBlind.operands (s : State) (i : Fin 8) : (g s).addrOperand i = s.addrOperand i
    ∧ (g s).countOperand i = s.countOperand i ∧ (g s).coordOperand i = s.coordOperand i := by
  simp only [State.addrOperand, State.countOperand, State.coordOperand, hg.operand, hg.par, and_self]

theorem markRegion_commutes (s : State) (v : BitVec 2) (l r t b : Int) :
    markRegion (g s) v l r t b = g (markRegion s v l r t b) := by
  rw [markRegion, markRegion]
  dsimp only
  rw [hg.screen, hg.par, hg.setScreen]
  split
  · rfl
  · split <;> rfl

theorem commutes_mark (v : BitVec 2) (l r t b : Int) : Commutes g (modify fun s => markRegion s v l r t b : M Unit) :=
  commutes_modify fun s => markRegion_commutes hg s v l r t b

theorem commutes_restoreBackground (v : BitVec 2) (x : VScreen) : Commutes g (restoreBackground v x) := by
  refine commutes_get_bind (fun s => ?_) fun s => ?_
  · simp only [hg.operands, hg.operand, hg.lights, hg.par]
  · dsimp only
    split
    · exact commutes_pure ()
    · split
      · exact commutes_bind (commutes_loopFrom (fun y => commutes_copyBytes hg.toMemoryBlind _ _ _) _ _) fun _ =>
          commutes_mark hg v _ _ _ _
      · exact commutes_bind (commutes_loopFrom (fun y => commutes_loopFrom
          (fun c => commutes_store hg.toMemoryBlind _ _ _) _ _) _ _) fun _ => commutes_mark hg v _ _ _ _

theorem commutes_blitPixel (sc : VScreen) (o : Blit) (y x : Nat) : Commutes g (blitPixel sc o y x) := by
  refine commutes_get_bind (fun s => by simp only [hg.par]) fun s => ?_
  refine commutes_bind (commutes_load hg.toMemoryBlind _ _) fun p => ?_
  split
  · exact commutes_pure ()
  · split
    · refine commutes_bind (commutes_loadByte hg.toMemoryBlind _) fun m => ?_
      split
      · exact commutes_pure ()
      · exact commutes_store hg.toMemoryBlind _ _ _
    · exact commutes_store hg.toMemoryBlind _ _ _

theorem commutes_blitMasked (v : BitVec 2) (x : VScreen) : Commutes g (blitMasked v x) := by
  refine commutes_get_bind (fun s => ?_) fun s => ?_
  · simp only [hg.operands, hg.operand]
  · dsimp only
    split
    · exact commutes_pure ()
    · exact commutes_bind (commutes_loopFrom (fun y => commutes_loopFrom (fun c => commutes_blitPixel hg _ _ _ _) _ _) _ _)
        fun _ => commutes_mark hg v _ _ _ _

end

/-! `VERB_PAL` (10_state.md R29) -/

/-- The unit with another table in `VERB_PAL`. -/
def State.withVerbPal (p : Vector Byte 256) (s : State) : State := { s with verbPal := p }

theorem drawingBlind_verbPal (p : Vector Byte 256) : DrawingBlind (State.withVerbPal p) where
  par _ := rfl
  mem _ := rfl
  freeCount _ := rfl
  withMem _ _ := rfl
  withFree _ _ := rfl
  screens _ := rfl
  a _ := rfl
  lights _ := rfl
  setScreen _ _ _ := rfl

section
variable (p : Vector Byte 256)

theorem unread_loadByte (a : Nat) : Commutes (State.withVerbPal p) (loadByte a) :=
  commutes_loadByte (drawingBlind_verbPal p).toMemoryBlind a

theorem unread_store (n a v : Nat) : Commutes (State.withVerbPal p) (store n a v) :=
  commutes_store (drawingBlind_verbPal p).toMemoryBlind n a v

theorem unread_raise (c : FaultCode) (info : Word) : Commutes (State.withVerbPal p) (raise c info) :=
  commutes_modify fun _ => rfl

theorem unread_setDecode (d : Decode) : Commutes (State.withVerbPal p) (setDecode d) := commutes_modify fun _ => rfl

theorem unread_currentDecode : Commutes (State.withVerbPal p) currentDecode := by
  intro s
  change (match s.dec with | some d => _ | none => _) = Except.map _ (match s.dec with | some d => _ | none => _)
  cases s.dec <;> rfl

theorem unread_nextByte : Commutes (State.withVerbPal p) nextByte :=
  commutes_bind (unread_currentDecode p) fun _ => commutes_bind (unread_loadByte p _) fun _ =>
    commutes_bind (unread_setDecode p _) fun _ => commutes_pure _

theorem unread_readBit : Commutes (State.withVerbPal p) readBit :=
  commutes_bind (unread_currentDecode p) fun _ => commutes_bind (unread_loadByte p _) fun _ =>
    commutes_bind (unread_setDecode p _) fun _ => commutes_pure _

theorem unread_runReader : ∀ r : Reader α, Commutes (State.withVerbPal p) (runReader r)
  | .done _ => commutes_pure _
  | .bit next => commutes_bind (unread_readBit p) fun b => unread_runReader (next b)

theorem unread_fetchCode : Commutes (State.withVerbPal p) fetchCode := by
  refine commutes_bind (unread_currentDecode p) fun d => ?_
  split
  iterate 4 exact commutes_bind (unread_nextByte p) fun _ => commutes_pure _
  iterate 3 exact unread_runReader p _

theorem unread_decodeIn (ph : Phase) : Commutes (State.withVerbPal p) (decodeIn ph) := by
  refine commutes_bind (unread_currentDecode p) fun d => ?_
  split
  · exact commutes_pure d
  · exact commutes_throw _

theorem unread_maskDecodeIn : Commutes (State.withVerbPal p) maskDecodeIn := by
  refine commutes_bind (unread_currentDecode p) fun d => ?_
  split
  · split
    · exact commutes_pure _
    · exact commutes_throw _
  · exact commutes_throw _

theorem unread_putPixel (d : Decode) (c : Byte) (k : Nat) : Commutes (State.withVerbPal p) (putPixel d c k) := by
  refine commutes_get_bind (fun s => rfl) fun s => ?_
  split
  · exact commutes_pure ()
  · refine commutes_get_bind (fun s => rfl) fun s => ?_
    split <;> exact unread_store p _ _ _

theorem unread_advance (n : Nat) : Commutes (State.withVerbPal p) (advance n) := by
  refine commutes_bind (unread_currentDecode p) fun d => ?_
  dsimp only
  split
  · exact unread_setDecode p _
  · refine commutes_modify fun s => ?_
    rw [State.decodeEnded, State.decodeEnded]
    split <;> rfl

theorem unread_loop {f : Nat → M Unit} (hf : ∀ j, Commutes (State.withVerbPal p) (f j)) (i n m : Nat) :
    Commutes (State.withVerbPal p) (loopFrom f i n >>= fun _ => advance m) :=
  commutes_bind (commutes_loopFrom hf n i) fun _ => unread_advance p m

theorem unread_colourCode (ph : Phase) (f : Decode → Decode) : Commutes (State.withVerbPal p) (colourCode ph f) :=
  commutes_bind (unread_decodeIn p ph) fun _ => commutes_bind (unread_setDecode p _) fun _ =>
    commutes_bind (unread_putPixel p _ _ _) fun _ => unread_advance p 1

theorem unread_extendedCount (n : Nat) : Commutes (State.withVerbPal p) (extendedCount n) := by
  rw [extendedCount]
  split
  · exact commutes_bind (unread_nextByte p) fun _ => commutes_pure _
  · exact commutes_pure _

theorem unread_egaPacket (d : Decode) (n : Nat) {put : Nat → M Unit} (hp : ∀ z, Commutes (State.withVerbPal p) (put z)) :
    Commutes (State.withVerbPal p) (egaPacket d n put) := by
  rw [egaPacket]
  split
  · exact commutes_throw _
  · exact unread_loop p hp 0 n n

theorem unread_familyBody (par : Params) (f : Family) (d : Decode) : Commutes (State.withVerbPal p) (familyBody par f d) := by
  cases familyBody_shape par f d with
  | supplied _ e =>
    rw [e]
    exact commutes_get_bind (fun s => rfl) fun s => commutes_bind (unread_setDecode p _) fun _ =>
      unread_loop p (fun k => unread_putPixel p _ _ _) _ _ _
  | raw _ _ e =>
    rw [e]
    exact commutes_bind (unread_setDecode p _) fun _ =>
      unread_loop p (fun k => commutes_bind (unread_nextByte p) fun c => unread_putPixel p _ _ _) _ _ _
  | packet _ _ e => rw [e]; exact unread_setDecode p d
  | bit _ _ e =>
    rw [e]
    exact commutes_bind (unread_nextByte p) fun _ => commutes_bind (unread_setDecode p _) fun _ =>
      commutes_bind (unread_putPixel p _ _ _) fun _ => unread_advance p 1

theorem unread_descriptorBody (b : Byte) : Commutes (State.withVerbPal p) (descriptorBody b) := by
  refine commutes_bind (unread_decodeIn p _) fun d => commutes_get_bind (fun s => rfl) fun s => ?_
  split
  · exact unread_familyBody p _ _ _
  · exact unread_raise p _ _

theorem execCode_unread (i : Instr) (s : State) :
    execCode i (s.withVerbPal p) = mapNext (State.withVerbPal p) (execCode i s) := by
  cases execCode_shape i with
  | command e => rw [e, e]; rfl
  | descriptor b e => rw [e, e]; exact runM_commutes (unread_descriptorBody p b) s
  | colour ph f _ _ e => rw [e, e]; exact runM_commutes (unread_colourCode p ph f) s
  | maskRun c e =>
    subst e
    refine runM_commutes (commutes_bind (unread_maskDecodeIn p) fun x => ?_) s
    dsimp only
    split
    · exact commutes_throw _
    · exact commutes_bind (unread_nextByte p) fun _ =>
        unread_loop p (fun r => commutes_storeMask (drawingBlind_verbPal p).toMemoryBlind _ _ _) _ _ _
  | maskLit c e =>
    subst e
    refine runM_commutes (commutes_bind (unread_maskDecodeIn p) fun x => ?_) s
    dsimp only
    split
    · exact commutes_throw _
    · exact unread_loop p (fun r => commutes_bind (unread_nextByte p) fun _ =>
        commutes_storeMask (drawingBlind_verbPal p).toMemoryBlind _ _ _) _ _ _
  | rle8Run n e =>
    subst e
    exact runM_commutes (commutes_bind (unread_decodeIn p _) fun _ => commutes_bind (unread_nextByte p) fun _ =>
      unread_loop p (fun k => unread_putPixel p _ _ _) _ _ _) s
  | rle8Lit n e =>
    subst e
    exact runM_commutes (commutes_bind (unread_decodeIn p _) fun _ =>
      unread_loop p (fun k => commutes_bind (unread_nextByte p) fun _ => unread_putPixel p _ _ _) _ _ _) s
  | egaRun n c e =>
    subst e
    exact runM_commutes (commutes_bind (unread_decodeIn p _) fun _ => commutes_bind (unread_extendedCount p _) fun _ =>
      unread_egaPacket p _ _ fun z => unread_putPixel p _ _ _) s
  | egaCopyleft n e =>
    subst e
    exact runM_commutes (commutes_bind (unread_decodeIn p _) fun _ => commutes_bind (unread_extendedCount p _) fun _ =>
      unread_egaPacket p _ _ fun z => commutes_copyLeft (drawingBlind_verbPal p).toMemoryBlind _ _) s
  | egaDither n e =>
    subst e
    exact runM_commutes (commutes_bind (unread_decodeIn p _) fun _ => commutes_bind (unread_nextByte p) fun _ =>
      commutes_bind (unread_extendedCount p _) fun _ => unread_egaPacket p _ _ fun z => unread_putPixel p _ _ _) s
  | mmrRun n e =>
    subst e
    exact runM_commutes (commutes_bind (unread_decodeIn p _) fun _ =>
      unread_loop p (fun k => unread_putPixel p _ _ _) _ _ _) s

theorem codeStep_unread (s : State) : codeStep (s.withVerbPal p) = mapNext (State.withVerbPal p) (codeStep s) := by
  rw [codeStep, codeStep]
  have fetched := unread_fetchCode p s
  rw [fetched]
  cases StateT.run fetchCode s with
  | ok x => exact execCode_unread p x.1 x.2
  | error e => exact (mapNext_stop e).symm

theorem runCodes_unread : ∀ (n : Nat) (s : State), runCodes n (s.withVerbPal p) = mapNext (State.withVerbPal p) (runCodes n s) := by
  intro n
  induction n with
  | zero =>
    intro s
    have dec : (s.withVerbPal p).dec = s.dec := rfl
    rw [runCodes, runCodes, dec]
    cases s.dec <;> rfl
  | succ n ih =>
    intro s
    have dec : (s.withVerbPal p).dec = s.dec := rfl
    rw [runCodes, runCodes, dec]
    cases s.dec with
    | none => rfl
    | some d =>
      dsimp only
      rw [codeStep_unread, andThen_commutes ih]

/-- A decode command whose checks do not see `VERB_PAL`. -/
theorem decodeCommand_unread {m : M Unit} (hm : Commutes (State.withVerbPal p) m) (s : State) :
    andThen (runM m ((s.withVerbPal p).setDec none)) finishDecode
      = mapNext (State.withVerbPal p) (andThen (runM m (s.setDec none)) finishDecode) := by
  have begun : runM m ((s.withVerbPal p).setDec none) = _ := runM_commutes hm (s.setDec none)
  rw [begun]
  exact andThen_commutes fun u => runCodes_unread p _ u

theorem unread_withScreen (v : BitVec 2) (w : Word) {body : VScreen → M Unit}
    (hb : ∀ x, Commutes (State.withVerbPal p) (body x)) : Commutes (State.withVerbPal p) (withScreen v w body) := by
  refine commutes_get_bind (fun s => rfl) fun s => ?_
  split
  · exact hb _
  · exact unread_raise p _ _

/-- A command on a screen whose body does not see `VERB_PAL`. -/
theorem screenCommand_unread {i : Instr} {v : BitVec 2} {w : Word} {body : State → VScreen → M Unit} {s : State}
    (command : ∀ s, exec i s = runM (withScreen v w (body s)) s) (same : ∀ s x, body (s.withVerbPal p) x = body s x)
    (hb : ∀ x, Commutes (State.withVerbPal p) (body s x)) :
    exec i (s.withVerbPal p) = mapNext (State.withVerbPal p) (exec i s) := by
  rw [command, command, funext (same s)]
  exact runM_commutes (unread_withScreen p v w hb) s

theorem unread_beginDecodeStrip (v : BitVec 2) : Commutes (State.withVerbPal p) (beginDecodeStrip v) := by
  refine unread_withScreen p _ _ fun x => commutes_get_bind (fun s => rfl) fun s => ?_
  split
  · exact unread_raise p _ _
  · split
    · exact commutes_throw _
    · split
      · exact unread_setDecode p _
      · exact commutes_get_bind (fun s => rfl) fun s => commutes_bind
          (commutes_loopFrom (fun k => unread_store p _ _ _) _ _) fun _ => commutes_modify fun _ => rfl

theorem unread_beginDecodeMask (merge : Bool) : Commutes (State.withVerbPal p) (beginDecodeMask merge) := by
  refine commutes_get_bind (fun s => rfl) fun s => ?_
  split
  · exact commutes_pure ()
  · exact unread_setDecode p _

theorem unread_lookupEntry (a i n l : Nat) : Commutes (State.withVerbPal p) (lookupEntry a i n l) := by
  refine commutes_bind (commutes_load (drawingBlind_verbPal p).toMemoryBlind _ _) fun off => ?_
  split
  · exact unread_raise p _ _
  · exact commutes_modify fun _ => rfl

theorem unread_emitRuns (v : BitVec 2) (x : VScreen) : ∀ rs, Commutes (State.withVerbPal p) (emitRuns v x rs)
  | [] => commutes_pure ()
  | _ :: rs => commutes_bind (commutes_get_bind (fun _ => rfl) fun _ => commutes_bind
      (commutes_loadRows (drawingBlind_verbPal p).toMemoryBlind _ _ _ _) fun _ => commutes_modify fun _ => rfl) fun _ =>
        unread_emitRuns v x rs

end

/-- Settles O24: each instruction is a computation that commutes with a change of `VERB_PAL`. -/
theorem verbPalIsUnread : Obligations.VerbPalIsUnread := by
  intro i s p
  have blind := drawingBlind_verbPal p
  show exec i (s.withVerbPal p) = mapNext (State.withVerbPal p) (exec i s)
  by_cases hc : ∃ c ∈ commandTable, ∃ v, i = c.2 v
  · obtain ⟨c, hc, v, rfl⟩ := hc
    simp only [commandTable, screenCommands, otherCommands, List.cons_append, List.nil_append, List.mem_cons,
      List.not_mem_nil, or_false] at hc
    rcases hc with rfl | rfl | rfl | rfl | rfl | rfl | rfl | rfl | rfl | rfl | rfl | rfl | rfl | rfl
    · exact decodeCommand_unread p (unread_beginDecodeStrip p v) s
    · exact screenCommand_unread p (fun _ => rfl) (fun _ _ => rfl) fun _ => commutes_modify fun s => markRegion_commutes blind s _ _ _ _ _
    · exact screenCommand_unread p (fun _ => rfl) (fun _ _ => rfl) fun x => commutes_bind (unread_emitRuns p v x _) fun _ => commutes_modify fun _ => rfl
    · exact screenCommand_unread p (fun _ => rfl) (fun _ _ => rfl) fun x => commutes_restoreBackground blind v x
    · exact screenCommand_unread p (fun _ => rfl) (fun _ _ => rfl) fun x => commutes_copyRows blind.toMemoryBlind _ _ _ _ _
    · exact screenCommand_unread p (fun _ => rfl) (fun _ _ => rfl) fun x => commutes_clearRows blind.toMemoryBlind _ _ _ _
    · refine screenCommand_unread p (fun _ => rfl) (fun _ _ => rfl) fun x => ?_
      split
      · dsimp only
        split
        · exact commutes_copyRows blind.toMemoryBlind _ _ _ _ _
        · exact commutes_clearRows blind.toMemoryBlind _ _ _ _
      · exact commutes_pure ()
    · exact screenCommand_unread p (fun _ => rfl) (fun _ _ => rfl) fun x => commutes_blitMasked blind v x
    · exact screenCommand_unread p (fun _ => rfl) (fun _ _ => rfl) fun x => commutes_modify fun _ => rfl
    · exact screenCommand_unread p (fun _ => rfl) (fun _ _ => rfl) fun x => commutes_modify fun _ => rfl
    · show execVsInit v _ = mapNext _ (execVsInit v s)
      have operand : (s.withVerbPal p).countOperand = s.countOperand := rfl
      have par : (s.withVerbPal p).par = s.par := rfl
      rw [execVsInit, execVsInit, operand, par]
      cases formatOf (s.countOperand 3) with
      | none => rfl
      | some f =>
        dsimp only
        split <;> rfl
    · exact decodeCommand_unread p (unread_beginDecodeMask p false) s
    · exact decodeCommand_unread p (unread_beginDecodeMask p true) s
    · show runM _ _ = mapNext _ (runM _ s)
      refine runM_commutes ?_ s
      split
      · exact unread_raise p _ _
      · split
        · exact unread_raise p _ _
        · exact unread_lookupEntry p _ _ _ _
  · have code := fun c hc' v e => hc ⟨c, hc', v, e⟩
    rw [exec_eq_execCode code, exec_eq_execCode code]
    exact execCode_unread p i s

end Sys2Proof.Machine
end

section
/-! The compositor's block commands: COPY8COL and CLEAR8COL copy and zero their blocks, COMPOSE_STRIP is one of the two
with the addresses of the strip, and stays inside the primary buffer (spec/44_compositor.md R160 to R162;
70_reset_and_hazards.md R216). -/

namespace Sys2Proof.Machine

/-! Blocks -/

/-- Only memory changed, and of it only addresses in `W`. -/
def Wrote (W : Nat → Prop) (s t : State) : Prop := onlyMemory s t ∧ sameOutside W s t

theorem frame_wrote (W : Nat → Prop) : Frame (Wrote W) where
  refl _ := ⟨rfl, fun _ _ => rfl⟩
  trans h g := ⟨onlyMemory_trans h.1 g.1, fun a ha => (g.2 a ha).trans (h.2 a ha)⟩

section
variable {W : Nat → Prop}

theorem wrote_loadByte (a : Nat) : Keeps (Wrote W) (loadByte a) :=
  keeps_loadByte (frame_wrote W) (fun _ _ => ⟨rfl, fun _ _ => rfl⟩) a

theorem wrote_storeByte {a : Nat} (v : Byte) (h : W a) : Keeps (Wrote W) (storeByte a v) := by
  intro s x t run
  obtain ⟨-, rfl⟩ := storeByte_spec run
  exact ⟨rfl, fun b hb => readByte_pokeByte_ne _ _ _ (fun e => hb (e ▸ h))⟩

theorem wrote_copyRows {n pitch dst src h : Nat} (inside : ∀ a, blockCovers dst pitch n h a → W a) :
    Keeps (Wrote W) (copyRows n pitch dst src h) :=
  keeps_loopFrom_range (frame_wrote W) h 0 fun y _ hy => keeps_loopFrom_range (frame_wrote W) n 0 fun j _ hj =>
    keeps_bind (frame_wrote W) (wrote_loadByte _) fun v => wrote_storeByte v (inside _ ⟨y, by omega, by omega, by omega⟩)

theorem wrote_clearRows {n pitch dst h : Nat} (inside : ∀ a, blockCovers dst pitch n h a → W a) :
    Keeps (Wrote W) (clearRows n pitch dst h) :=
  keeps_loopFrom_range (frame_wrote W) h 0 fun y _ hy => keeps_loopFrom_range (frame_wrote W) n 0 fun j _ hj =>
    wrote_storeByte 0 (inside _ ⟨y, by omega, by omega, by omega⟩)

end

/-- A copy of rows between two blocks that have no byte in common. -/
theorem runM_copyRows {s : State} {n pitch dst src h : Nat} (hwf : Memory.wf s.mem = true)
    (hd : blockReadable s.par dst pitch n h) (hs : blockReadable s.par src pitch n h)
    (apart : blocksDisjoint dst src pitch n h) (hn : n ≤ pitch) :
    ∃ t, runM (copyRows n pitch dst src h) s = .next t ∧ t = { s with mem := t.mem }
      ∧ (∀ y j, y < h → j < n → readByte t.mem (dst + y * pitch + j) = readByte s.mem (src + y * pitch + j))
      ∧ sameOutside (blockCovers dst pitch n h) s t := by
  obtain ⟨t, run, ⟨only, -⟩, bytes, outside⟩ := answers_next (copyRows_spec hwf hd hs apart hn)
  exact ⟨t, run, only, bytes, outside⟩

/-- A block that holds memory is zeroed. -/
theorem runM_clearRows {s : State} {n pitch dst h : Nat} (hwf : Memory.wf s.mem = true)
    (hd : blockReadable s.par dst pitch n h) :
    ∃ t, runM (clearRows n pitch dst h) s = .next t ∧ t = { s with mem := t.mem }
      ∧ (∀ a, blockCovers dst pitch n h a → readByte t.mem a = 0) ∧ sameOutside (blockCovers dst pitch n h) s t := by
  obtain ⟨t, run, ⟨only, -⟩, bytes, outside⟩ := answers_next (clearRows_spec hwf hd)
  exact ⟨t, run, only, bytes, outside⟩

/-! The commands on a valid screen -/

/-- COMPOSE_STRIP on a screen with a back buffer. -/
theorem exec_composeStrip_hasBack {s : State} {v : BitVec 2} (valid : (s.screen v).valid = true)
    (back : (s.screen v).hasBack = true) :
    exec (.composeStrip v) s =
      if s.lights then
        runM (copyRows (8 * bytesPerPixel (s.screen v).format) (s.screen v).pitch.toNat
          (pixAddr s.par (s.screen v) (8 * s.countOperand 0 : Nat) (s.countOperand 1))
          (backAddr s.par (s.screen v) (8 * s.countOperand 0 : Nat) (s.countOperand 1)) (s.countOperand 2)) s
      else
        runM (clearRows (8 * bytesPerPixel (s.screen v).format) (s.screen v).pitch.toNat
          (pixAddr s.par (s.screen v) (8 * s.countOperand 0 : Nat) (s.countOperand 1)) (s.countOperand 2)) s := by
  have body : exec (.composeStrip v) s = runM _ s := withScreen_valid valid _ _
  rw [body, if_pos back]
  exact runM_ite _ _ _ _

theorem exec_copy8col_valid {s : State} {v : BitVec 2} (valid : (s.screen v).valid = true) :
    exec (.copy8col v) s = runM (copyRows (8 * bytesPerPixel (s.screen v).format) (s.countOperand 1) (s.addrOperand 0)
      (s.addrOperand 2) (s.countOperand 3)) s :=
  withScreen_valid valid _ _

theorem exec_clear8col_valid {s : State} {v : BitVec 2} (valid : (s.screen v).valid = true) :
    exec (.clear8col v) s = runM (clearRows (8 * bytesPerPixel (s.screen v).format) (s.countOperand 1) (s.addrOperand 0)
      (s.countOperand 2)) s :=
  withScreen_valid valid _ _

theorem backAddr_lt (par : Params) (x : VScreen) (c y : Int) : backAddr par x c y < 2 ^ par.addressBits :=
  pixAddr_lt par { x with pix := x.back } c y

/-- An address the unit computed is what an operand register that holds it names, where `AW` is at most 32. -/
theorem operandAddress {par : Params} {a : Nat} (ha : a < 2 ^ par.addressBits) (h32 : par.addressBits ≤ 32) :
    (BitVec.ofNat 32 a).toNat % 2 ^ par.addressBits = a := by
  have fits : a < 2 ^ 32 := ha.trans_le (Nat.pow_le_pow_right (by decide) h32)
  rw [BitVec.toNat_ofNat, Nat.mod_eq_of_lt fits, Nat.mod_eq_of_lt ha]

/-- Settles O37: `copyRows_answers` says which bytes may change wherever the blocks fit, and `runM_copyRows` what the bytes
are where they hold memory and do not meet. -/
theorem copy8colCopies : Obligations.Copy8colCopies := by
  intro s v n dst pitch src h valid fitsD fitsS
  obtain ⟨t, run, only, outside⟩ := answers_next (copyRows_answers fitsS fitsD)
  refine ⟨t, (exec_copy8col_valid valid).trans run, only, outside, fun hwf hd hs apart hn => ?_⟩
  obtain ⟨u, run', -, bytes, -⟩ := runM_copyRows hwf hd hs apart hn
  have same : u = t := by simpa using run'.symm.trans run
  exact same ▸ bytes

/-- Settles O38. -/
theorem clear8colClears : Obligations.Clear8colClears := by
  intro s v n dst pitch h hwf valid hd
  rw [exec_clear8col_valid valid]
  exact runM_clearRows hwf hd

/-- Settles O39: the two arms of `exec_composeStrip_hasBack` are a copy and a clearing of rows. -/
theorem composeStripRefreshes : Obligations.ComposeStripRefreshes := by
  intro s v x n pitch d b h valid
  refine ⟨fun noBack => ?_, fun back hwf hd => ⟨fun lights hb apart hn => ?_, fun dark => ?_⟩⟩
  · have body : exec (.composeStrip v) s = runM _ s := withScreen_valid valid _ _
    rw [body, if_neg (by rw [noBack]; decide), runM_pure]
  · rw [exec_composeStrip_hasBack valid back, if_pos lights]
    exact runM_copyRows hwf hd hb apart hn
  · rw [exec_composeStrip_hasBack valid back, if_neg (by rw [dark]; decide)]
    exact runM_clearRows hwf hd

/-! The strip inside its buffer (70_reset_and_hazards.md R216) -/

/-- Under duties (a) and (d) of R216 the rows of a strip lie inside the primary buffer, and their addresses do not wrap. -/
theorem strip_inside_buffer {par : Params} {x : VScreen} {strip top height a : Nat} (scroll : scrollOk x)
    (on : stripOnScreen x strip top height) (fits : x.pix.toNat + x.pitch.toNat * x.height.toNat ≤ 2 ^ par.addressBits)
    (ha : blockCovers (pixAddr par x (8 * strip : Nat) top) x.pitch.toNat (8 * bytesPerPixel x.format) height a) :
    x.pix.toNat ≤ a ∧ a < x.pix.toNat + x.pitch.toNat * x.height.toNat := by
  obtain ⟨columns, rows⟩ := on
  obtain ⟨y, hy, low, high⟩ := ha
  have positive := bytesPerPixel_pos x.format
  have rowEnd : (x.xstart.toNat + 8 * strip) * bytesPerPixel x.format + 8 * bytesPerPixel x.format ≤ x.pitch.toNat := by
    rw [← Nat.add_mul]
    exact (Nat.mul_le_mul_right _ (by omega)).trans scroll
  have lastRow (z : Nat) (hz : top + z < x.height.toNat) :
      top * x.pitch.toNat + z * x.pitch.toNat + x.pitch.toNat ≤ x.pitch.toNat * x.height.toNat := by
    rw [← Nat.add_mul, ← Nat.succ_mul, Nat.mul_comm x.pitch.toNat]
    exact Nat.mul_le_mul_right _ hz
  have corner : pixAddr par x (8 * strip : Nat) top = pixelAt x.pix.toNat x (8 * strip) top := by
    refine pixAddr_eq ?_
    have first := lastRow 0 (by omega)
    rw [pixelAt]
    omega
  rw [corner, pixelAt] at low high
  have last := lastRow y (by omega)
  omega

/-- Settles O41: both arms write inside the block of the strip. -/
theorem composeStripStaysInBuffer : Obligations.ComposeStripStaysInBuffer := by
  intro s t v x valid scroll on fits h
  have inside := fun a => strip_inside_buffer (a := a) scroll on fits
  by_cases back : x.hasBack = true
  · rw [exec_composeStrip_hasBack valid back] at h
    split at h
    · exact keeps_next (wrote_copyRows inside) h
    · exact keeps_next (wrote_clearRows inside) h
  · have body : exec (.composeStrip v) s = runM _ s := withScreen_valid valid _ _
    rw [body, if_neg back, runM_pure] at h
    cases h
    exact (frame_wrote _).refl s

/-! COMPOSE_STRIP by other commands (44_compositor.md R162) -/

/-- The unit with other operands. -/
def State.withOperands (a : Vector Word 8) (s : State) : State := { s with a := a }

theorem memoryBlind_operands (a : Vector Word 8) : MemoryBlind (State.withOperands a) where
  par _ := rfl
  mem _ := rfl
  freeCount _ := rfl
  withMem _ _ := rfl
  withFree _ _ := rfl

/-- What sees no operand does the same under other ones. -/
theorem runM_withOperands {m : M Unit} (blind : ∀ a, Commutes (State.withOperands a) m) (s : State) (a : Vector Word 8) :
    mapNext (State.withOperands s.a) (runM m (s.withOperands a)) = runM m s :=
  (runM_commutes (blind s.a) (s.withOperands a)).symm

/-- COPY8COL given other operands. -/
theorem exec_copy8col_withOperands {s : State} {v : BitVec 2} (valid : (s.screen v).valid = true) (a : Vector Word 8) :
    mapNext (State.withOperands s.a) (exec (.copy8col v) (s.withOperands a)) =
      runM (copyRows (8 * bytesPerPixel (s.screen v).format) a[1].toNat (a[0].toNat % 2 ^ s.par.addressBits)
        (a[2].toNat % 2 ^ s.par.addressBits) a[3].toNat) s := by
  have run : exec (.copy8col v) (s.withOperands a) = _ := exec_copy8col_valid (s := s.withOperands a) valid
  rw [run]
  exact runM_withOperands (fun b => commutes_copyRows (memoryBlind_operands b) _ _ _ _ _) s a

/-- CLEAR8COL given other operands. -/
theorem exec_clear8col_withOperands {s : State} {v : BitVec 2} (valid : (s.screen v).valid = true) (a : Vector Word 8) :
    mapNext (State.withOperands s.a) (exec (.clear8col v) (s.withOperands a)) =
      runM (clearRows (8 * bytesPerPixel (s.screen v).format) a[1].toNat (a[0].toNat % 2 ^ s.par.addressBits)
        a[2].toNat) s := by
  have run : exec (.clear8col v) (s.withOperands a) = _ := exec_clear8col_valid (s := s.withOperands a) valid
  rw [run]
  exact runM_withOperands (fun b => commutes_clearRows (memoryBlind_operands b) _ _ _ _) s a

/-- Settles O40: the other command copies or clears the same rows, and does not see the operands it was given. -/
theorem composeStripIsCopyOrClear : Obligations.ComposeStripIsCopyOrClear := by
  intro s v x d b h valid back h32
  have atD : d.toNat % 2 ^ s.par.addressBits = _ := operandAddress (pixAddr_lt s.par x _ _) h32
  have atB : b.toNat % 2 ^ s.par.addressBits = _ := operandAddress (backAddr_lt s.par x _ _) h32
  rw [exec_composeStrip_hasBack valid back]
  by_cases lights : s.lights = true
  · rw [if_pos lights, if_pos lights]
    refine Eq.trans ?_ (exec_copy8col_withOperands valid _).symm
    simp only [Vector.getElem_set, if_true, if_false, Nat.reduceEqDiff, atD, atB]
    rfl
  · rw [if_neg lights, if_neg lights]
    refine Eq.trans ?_ (exec_clear8col_withOperands valid _).symm
    simp only [Vector.getElem_set, if_true, if_false, Nat.reduceEqDiff, atD]
    rfl

end Sys2Proof.Machine
end

section
/-! Rules of the whole machine: no decode runs out of steps, a command ends in the step that issues it, nothing of the
host's is written, who emits events, who writes `RESULT`, faults that leave no trace, and the frame of DECODE_STRIP
(spec/10_state.md R11 to R13; 30_encoding.md R78; 40_bitmap_codec.md R91, R109; 44_compositor.md R168; 60_exceptions.md
R198). -/

namespace Sys2Proof.Machine

/-! Every instruction is one of five kinds -/

/-- The commands that do their work in one computation, with no stream and no events. -/
def plainCommands : List (Nat × (BitVec 2 → Instr)) :=
  [(0x20, .markDirty), (0x30, .restoreBg), (0x31, .copy8col), (0x32, .clear8col), (0x33, .composeStrip), (0x35, .blitMasked),
   (0x40, .getPixels), (0x41, .getBackPixels), (0x01, .vsInit), (0x34, .stripLookup)]

/-- What an instruction is: a plain command, a command that runs a stream, FLUSH, or a code of a stream. -/
inductive InstrKind (i : Instr) : Prop where
  | plain (c : Nat × (BitVec 2 → Instr)) (hc : c ∈ plainCommands) (v : BitVec 2) (e : i = c.2 v)
  | strip (v : BitVec 2) (e : i = .decodeStrip v)
  | mask (v : BitVec 2) (merge : Bool) (e : i = if merge then .decodeMaskOr v else .decodeMask v)
  | flush (v : BitVec 2) (e : i = .flush v)
  | code (e : ∀ s, exec i s = execCode i s)

theorem plainCommands_eq :
    plainCommands = commandTable.filter fun c => decide (c.1 ∉ [0x10, 0x11, 0x12, 0x21]) := rfl

theorem instr_kind (i : Instr) : InstrKind i := by
  by_cases command : ∃ c ∈ commandTable, ∃ v, i = c.2 v
  · obtain ⟨c, hc, v, rfl⟩ := command
    by_cases kind : c.1 ∈ [0x10, 0x11, 0x12, 0x21]
    · have four : c ∈ commandTable.filter fun c => decide (c.1 ∈ [0x10, 0x11, 0x12, 0x21]) :=
        List.mem_filter.mpr ⟨hc, decide_eq_true kind⟩
      rw [commandTable_filter] at four
      simp only [List.mem_cons, List.not_mem_nil, or_false] at four
      rcases four with rfl | rfl | rfl | rfl
      · exact .strip v rfl
      · exact .flush v rfl
      · exact .mask v false rfl
      · exact .mask v true rfl
    · have plain : c ∈ plainCommands := plainCommands_eq ▸ List.mem_filter.mpr ⟨hc, decide_eq_true kind⟩
      exact .plain c plain v rfl
  · exact .code (exec_eq_execCode fun c hc v e => command ⟨c, hc, v, e⟩)

/-! DECODE_STRIP after its checks -/

/-- The decode that DECODE_STRIP starts on a screen of this format. -/
def startedStrip (s : State) (f : PixelFormat) : Decode :=
  newDecode .descriptor f (s.addrOperand 0) (s.countOperand 1) (s.addrOperand 2) (s.countOperand 3)

theorem legacyDecode_dec {f : PixelFormat} {s t : State} (h : runM (legacyDecode f) s = .next t) : t.dec = s.dec :=
  keeps_next (keeps_legacyDecode ⟨frame_part State.dec, fun _ _ => rfl, fun _ _ _ => rfl, fun _ _ => rfl⟩ f) h

/-- DECODE_STRIP on a valid screen: its checks in their order, then the stream or the open codec (40_bitmap_codec.md R90,
R96, R98, R99). -/
theorem exec_decodeStrip_valid {s : State} {v : BitVec 2} (valid : (s.screen v).valid = true) :
    exec (.decodeStrip v) s =
      if profileReserved s.profile then .next (s.raised .illegalCommand (commandWord 0x10 v))
      else if s.countOperand 3 = 0 then .refused .heightZero
      else if profileByDescriptor s.profile then finishDecode (s.setDec (some (startedStrip s (s.screen v).format)))
      else runM (legacyDecode (s.screen v).format) (s.setDec none) := by
  have command : exec (.decodeStrip v) s = andThen (runM (beginDecodeStrip v) (s.setDec none)) finishDecode := rfl
  have begun : runM (beginDecodeStrip v) (s.setDec none) = runM
      (if profileReserved s.profile then raise .illegalCommand (commandWord 0x10 v)
      else if s.countOperand 3 = 0 then throw (.refusal .heightZero)
      else if profileByDescriptor s.profile then setDecode (startedStrip s (s.screen v).format)
      else legacyDecode (s.screen v).format) (s.setDec none) :=
    (withScreen_valid (s := s.setDec none) valid _ _).trans rfl
  rw [command, begun]
  by_cases reserved : profileReserved s.profile = true
  · rw [if_pos reserved, if_pos reserved]
    exact finishDecode_idle rfl
  · rw [if_neg reserved, if_neg reserved]
    by_cases zero : s.countOperand 3 = 0
    · rw [if_pos zero, if_pos zero]
      rfl
    · rw [if_neg zero, if_neg zero]
      by_cases described : profileByDescriptor s.profile = true
      · rw [if_pos described, if_pos described]
        rfl
      · rw [if_neg described, if_neg described]
        cases run : runM (legacyDecode (s.screen v).format) (s.setDec none) with
        | next t => exact finishDecode_idle (legacyDecode_dec run)
        | fault r => rfl
        | refused r => rfl

/-! A decode to its end -/

/-- What a decode `d` in progress at `s` can have done when it has ended: it changed bytes of its strip alone, or it took the
fault of its descriptor and changed nothing. -/
inductive DecodeOutcome (d : Decode) (s t : State) : Prop where
  | produced (within : Within (stripBytes d) s t) (masks : ∀ merge, d.phase = .mask merge → t.result = s.result)
  | unknown (descriptor : d.phase = .descriptor) (n : Nat) (info : Word)
      (e : t = ({ s with freeCount := n } : State).raised .unknownDescriptor info)

theorem Further.stripBytes {d e : Decode} (h : Further d e) : stripBytes e = stripBytes d := by
  unfold Machine.stripBytes
  rw [h.dst, h.pitch, h.format, h.height]

theorem Further.phase {d e : Decode} (h : Further d e) (hp : d.phase ≠ .descriptor) : e.phase = d.phase := by
  rw [h.same hp]

/-- Only the first code of a decode reads a descriptor. -/
theorem Further.not_descriptor {d e : Decode} (h : Further d e) : e.phase ≠ .descriptor := by
  by_cases hp : d.phase = .descriptor
  · exact h.described hp
  · rwa [h.phase hp]

theorem Further.mask {d e : Decode} (h : Further d e) {merge : Bool} (hp : d.phase = .mask merge) :
    e.phase = .mask merge :=
  (h.phase (by rw [hp]; exact fun e => nomatch e)).trans hp

theorem onlyDecode_fault {s t : State} (h : onlyDecode s t) : t.fault = s.fault := by
  rw [h]

/-- A fetched code's bytes are read and the cursor moves; nothing else changes (20_memory.md R43). -/
theorem within_fetchCode {W : Nat → Prop} : Keeps (Within W) fetchCode := fun s i t h => by
  rw [fetchCode_frame h]
  exact ⟨rfl, fun _ _ => rfl⟩

/-- One code and what follows it: the code produces its part of the strip, or it is the descriptor and faults. -/
theorem codeStep_outcome {s u t : State} {d : Decode} (hd : s.dec = some d) (step : codeStep s = .next u)
    (idle : u.dec = none → t = u) (rest : ∀ e, u.dec = some e → DecodeOutcome e u t) : DecodeOutcome d s t := by
  obtain ⟨i, w, fetched, ran⟩ := codeStep_inv step
  obtain ⟨d', q, c, hd', -, -, hw, -⟩ := fetchCode_inv fetched
  obtain rfl : d = d' := by simpa [hd] using hd'
  cases execCode_effect ran with
  | unknown x hx hp info e =>
    obtain rfl : { d with p := q, b := c } = x := by simpa [hw] using hx
    rw [idle (by rw [e]; rfl)]
    refine .unknown hp w.freeCount info ?_
    rw [e, fetchCode_frame fetched]
    rfl
  | produced x hx within =>
    obtain rfl : { d with p := q, b := c } = x := by simpa [hw] using hx
    have soFar : Within (stripBytes d) s u := (frame_within _).trans (within_fetchCode s i w fetched) within
    have same (merge : Bool) (hp : d.phase = .mask merge) : u.result = s.result :=
      (execCode_mask_result hw hp ran).trans (by rw [fetchCode_frame fetched])
    rcases execCode_progress hw ran with ended | ⟨e, he, further⟩
    · rw [idle ended]
      exact .produced soFar same
    · cases rest e he with
      | unknown hp => exact absurd hp further.not_descriptor
      | produced within' masks' =>
        exact .produced ((frame_within _).trans soFar (further.stripBytes ▸ within'))
          fun merge hp => (masks' merge (further.mask hp)).trans (same merge hp)

theorem runCodes_outcome {n : Nat} {s t : State} {d : Decode} (hd : s.dec = some d) (h : runCodes n s = .next t) :
    DecodeOutcome d s t := by
  suffices all : (s.dec = none → t = s) ∧ ∀ d, s.dec = some d → DecodeOutcome d s t from all.2 d hd
  refine runCodes_induct (P := fun s t => (s.dec = none → t = s) ∧ ∀ d, s.dec = some d → DecodeOutcome d s t)
    (fun s idle => ⟨fun _ => rfl, fun d some => ?_⟩) (fun s u t d some step ih => ⟨fun idle => ?_, fun e he => ?_⟩) h
  · rw [idle] at some
    cases some
  · rw [some] at idle
    cases idle
  · exact codeStep_outcome he step ih.1 ih.2

/-- What DECODE_MASK and DECODE_MASK_OR can have done: bytes of their rows, and `RESULT` no more than the fault registers
(10_state.md R13). -/
theorem exec_decodeMask_outcome {s t : State} {v : BitVec 2} {merge : Bool}
    (h : exec (if merge then .decodeMaskOr v else .decodeMask v) s = .next t) :
    t.result = s.result ∧ t.fault = s.fault := by
  rw [exec_decodeMask] at h
  by_cases rows : 0 < s.countOperand 3
  · have begun : maskBegun s merge = s.setDec (some (startedMask s merge)) := by rw [maskBegun, if_pos rows]
    rw [begun] at h
    cases runCodes_outcome rfl h with
    | produced within masks => exact ⟨masks merge rfl, onlyDecode_fault within.1⟩
    | unknown descriptor => cases descriptor
  · have begun : maskBegun s merge = s.setDec none := by rw [maskBegun, if_neg rows]
    rw [begun, finishDecode_idle rfl] at h
    cases h
    exact ⟨rfl, rfl⟩

/-! Plain commands -/

/-- A relation that every part of a plain command keeps, but a fault. -/
structure ToleratesQuiet (R : State → State → Prop) : Prop extends ToleratesMarks R where
  screen : ∀ s v x, R s (s.setScreen v x)

/-- What a plain command does: it takes a fault and has written nothing, or it takes none. -/
inductive PlainOutcome (s t : State) : Prop where
  | faulted (n : Nat) (c : FaultCode) (info : Word) (e : t = ({ s with freeCount := n } : State).raised c info)
  | quiet (h : ∀ R, ToleratesQuiet R → R s t)

theorem withScreen_outcome {v : BitVec 2} {w : Word} {body : VScreen → M Unit} {s t : State}
    (h : runM (withScreen v w body) s = .next t) (quiet : ∀ R, ToleratesQuiet R → ∀ x, Keeps R (body x)) :
    PlainOutcome s t := by
  rcases withScreen_inv h with ⟨-, ran⟩ | ⟨-, rfl⟩
  · exact .quiet fun R hR => keeps_next (quiet R hR _) ran
  · exact .faulted s.freeCount .configError w rfl

theorem lookupEntry_outcome {s t : State} {table index width limit : Nat}
    (h : runM (lookupEntry table index width limit) s = .next t) : PlainOutcome s t := by
  obtain ⟨off, u, read, rest⟩ := run_bind_inv (runM_eq_next.mp h)
  have frame : Frame (fun s t : State => t = { s with freeCount := t.freeCount }) :=
    ⟨fun _ => rfl, fun h g => by rw [g, h]⟩
  have only := keeps_load frame (fun _ _ => rfl) width (table + index * width)
  have readOnly := only _ _ _ read
  split at rest
  · cases rest
    refine .faulted u.freeCount .offsetOutOfRange (BitVec.ofNat 32 off) ?_
    rw [← readOnly]
  · cases rest
    refine .quiet fun R hR => hR.trans ?_ (hR.result u _)
    rw [readOnly]
    exact hR.free s _

theorem exec_plain_outcome {c : Nat × (BitVec 2 → Instr)} (hc : c ∈ plainCommands) {v : BitVec 2} {s t : State}
    (h : exec (c.2 v) s = .next t) : PlainOutcome s t := by
  simp only [plainCommands, List.mem_cons, List.not_mem_nil, or_false] at hc
  rcases hc with rfl | rfl | rfl | rfl | rfl | rfl | rfl | rfl | rfl | rfl
  case inl => exact withScreen_outcome h fun R hR _ => keeps_modify fun s => hR.mark s _ _ _ _ _
  case inr.inl => exact withScreen_outcome h fun R hR _ => keeps_restoreBackground hR.toToleratesMarks _ _
  case inr.inr.inl => exact withScreen_outcome h fun R hR _ => keeps_copyRows hR.toToleratesWrites _ _ _ _ _
  case inr.inr.inr.inl => exact withScreen_outcome h fun R hR _ => keeps_clearRows hR.toToleratesWrites _ _ _ _
  case inr.inr.inr.inr.inl =>
    refine withScreen_outcome h fun R hR x => ?_
    split
    · dsimp only
      split
      · exact keeps_copyRows hR.toToleratesWrites _ _ _ _ _
      · exact keeps_clearRows hR.toToleratesWrites _ _ _ _
    · exact keeps_pure hR.toFrame ()
  case inr.inr.inr.inr.inr.inl => exact withScreen_outcome h fun R hR _ => keeps_blitMasked hR.toToleratesMarks _ _
  case inr.inr.inr.inr.inr.inr.inl => exact withScreen_outcome h fun R hR _ => keeps_modify fun s => hR.result s _
  case inr.inr.inr.inr.inr.inr.inr.inl => exact withScreen_outcome h fun R hR _ => keeps_modify fun s => hR.result s _
  case inr.inr.inr.inr.inr.inr.inr.inr.inl =>
    by_cases accepted : initAccepts s
    · obtain ⟨f, -, created⟩ := exec_vsInit_accepted v accepted
      cases created.symm.trans h
      exact .quiet fun R hR => hR.screen s _ _
    · cases (exec_vsInit_rejected v accepted).symm.trans h
      exact .faulted s.freeCount _ _ rfl
  case inr.inr.inr.inr.inr.inr.inr.inr.inr =>
    rw [exec_stripLookup] at h
    split at h
    · cases h
      exact .faulted s.freeCount _ _ rfl
    · split at h
      · cases h
        exact .faulted s.freeCount _ _ rfl
      · exact lookupEntry_outcome h

/-! Faults are precise (60_exceptions.md R198) -/

/-- What an instruction that faults leaves as it was. -/
def NothingWritten (s t : State) : Prop :=
  t.mem = s.mem ∧ t.screens = s.screens ∧ t.result = s.result ∧ t.display = s.display ∧ t.dec = none

theorem nothingWritten_raised (s : State) (n : Nat) (c : FaultCode) (info : Word) :
    NothingWritten s (({ s with freeCount := n } : State).raised c info) :=
  ⟨rfl, rfl, rfl, rfl, rfl⟩

theorem quiet_fault : ToleratesQuiet fun s t => t.fault = s.fault where
  toFrame := frame_part State.fault
  free _ _ := rfl
  mem _ _ _ := rfl
  result _ _ := rfl
  mark s v l r t b := by
    obtain ⟨_, _, e⟩ := markRegion_eq s v l r t b
    rw [e]
    rfl
  screen _ _ _ := rfl

/-- The three ways DECODE_STRIP can answer a state: a fault of its checks, the end of its stream, or the open codec. -/
theorem exec_decodeStrip_inv {s t : State} {v : BitVec 2} (h : exec (.decodeStrip v) s = .next t) :
    (∃ c info, t = s.raised c info)
      ∨ finishDecode (s.setDec (some (startedStrip s (s.screen v).format))) = .next t
      ∨ runM (legacyDecode (s.screen v).format) (s.setDec none) = .next t := by
  by_cases valid : (s.screen v).valid = true
  · rw [exec_decodeStrip_valid valid] at h
    split at h
    · cases h
      exact .inl ⟨_, _, rfl⟩
    · split at h
      · cases h
      · split at h
        · exact .inr (.inl h)
        · exact .inr (.inr h)
  · cases (exec_decodeStrip_invalid (by simpa using valid)).symm.trans h
    exact .inl ⟨_, _, rfl⟩

/-- The open codec writes the pixels of the strip and `RESULT` (40_bitmap_codec.md R91, R98). -/
theorem within_legacyDecode {s t : State} {f : PixelFormat} (h : runM (legacyDecode f) s = .next t) :
    Within (stripBytes (startedStrip s f)) s t := by
  have run := runM_eq_next.mp h
  rw [legacyDecode, run_get_bind] at run
  obtain ⟨_, u, drawn, done⟩ := run_bind_inv run
  cases done
  refine (frame_within _).trans ?_ (show Within _ u (u.setResult _) from ⟨rfl, fun _ _ => rfl⟩)
  refine keeps_loopFrom_range (frame_within _) _ _ (fun k _ hk => within_store _ fun a low high =>
    ⟨k / 8, ?_, ?_⟩) s () u drawn
  · change k < 0 + 8 * s.countOperand 3 at hk
    show k / 8 < s.countOperand 3
    omega
  · have column : k % 8 * bytesPerPixel f + bytesPerPixel f ≤ 8 * bytesPerPixel f := by
      rw [← Nat.succ_mul]
      exact Nat.mul_le_mul_right _ (by omega)
    change s.addrOperand 0 + k / 8 * s.countOperand 1 + k % 8 * bytesPerPixel f ≤ a at low
    change a < s.addrOperand 0 + k / 8 * s.countOperand 1 + k % 8 * bytesPerPixel f + bytesPerPixel f at high
    change s.addrOperand 0 + k / 8 * s.countOperand 1 ≤ a
      ∧ a < s.addrOperand 0 + k / 8 * s.countOperand 1 + 8 * bytesPerPixel f
    omega

/-- Settles O22: a fault is the last thing an instruction does, and what ran before it only read. -/
theorem faultsArePrecise : Obligations.FaultsArePrecise := by
  intro i s t sound h faulted
  suffices NothingWritten s t from this
  cases instr_kind i with
  | plain c hc v e =>
    subst e
    cases exec_plain_outcome hc h with
    | faulted n c info e => exact e ▸ nothingWritten_raised s n c info
    | quiet keeps => simp [keeps _ quiet_fault, sound] at faulted
  | strip v e =>
    subst e
    rcases exec_decodeStrip_inv h with ⟨c, info, rfl⟩ | ran | ran
    · exact nothingWritten_raised s s.freeCount c info
    · cases runCodes_outcome rfl ran with
      | produced within => simp [onlyDecode_fault within.1, sound] at faulted
      | unknown _ n info e => exact e ▸ nothingWritten_raised s n _ info
    · simp [onlyDecode_fault (within_legacyDecode ran).1, sound] at faulted
  | mask v merge e =>
    subst e
    simp [(exec_decodeMask_outcome h).2, sound] at faulted
  | flush v e =>
    subst e
    rcases execFlush_inv h with ⟨_, rfl⟩ | ⟨_, u, emitted, rfl⟩
    · exact nothingWritten_raised s s.freeCount _ _
    · have same : u.fault = s.fault :=
        keeps_emitRuns (frame_part State.fault) (fun _ _ => rfl) (fun _ _ => rfl) _ _ _ _ _ _ emitted
      simp [same, sound] at faulted
  | code e =>
    rw [e] at h
    cases execCode_effect h with
    | produced d hd within => simp [onlyDecode_fault within.1, sound] at faulted
    | unknown d hd hp info e => exact e ▸ nothingWritten_raised s s.freeCount _ info

/-- Settles O49: the strip's rows are what `runCodes_outcome` and `within_legacyDecode` confine the writes to. -/
theorem decodeStripFrame : Obligations.DecodeStripFrame := by
  intro s t v h
  rcases exec_decodeStrip_inv h with ⟨c, info, rfl⟩ | ran | ran
  · exact ⟨rfl, fun _ _ => rfl⟩
  · cases runCodes_outcome rfl ran with
    | produced within =>
      refine ⟨?_, within.2⟩
      have hd := runCodes_dec ran
      rw [within.1, ← hd]
      rfl
    | unknown _ n info e =>
      subst e
      exact ⟨rfl, fun _ _ => rfl⟩
  · have within := within_legacyDecode ran
    refine ⟨?_, within.2⟩
    have hd : t.dec = none := legacyDecode_dec ran
    rw [within.1, ← hd]
    rfl

/-! `RESULT` (10_state.md R13) -/

theorem drawingBlind_result (w : Word) : DrawingBlind fun s => s.setResult w where
  par _ := rfl
  mem _ := rfl
  freeCount _ := rfl
  withMem _ _ := rfl
  withFree _ _ := rfl
  screens _ := rfl
  a _ := rfl
  lights _ := rfl
  setScreen _ _ _ := rfl

/-- What does the same whatever `RESULT` holds, and hands it on, leaves it alone. -/
theorem result_of_commutes {m : M Unit} (blind : ∀ w, Commutes (fun s => s.setResult w) m) {s t : State}
    (h : runM m s = .next t) : t.result = s.result := by
  have same := runM_commutes (blind s.result) s
  rw [show s.setResult s.result = s from rfl, h] at same
  injection same with same
  rw [same]
  rfl

theorem withScreen_result {v : BitVec 2} {w : Word} {body : VScreen → M Unit} {s t : State}
    (h : runM (withScreen v w body) s = .next t) (blind : ∀ x u, Commutes (fun s => s.setResult u) (body x)) :
    t.result = s.result := by
  rcases withScreen_inv h with ⟨-, ran⟩ | ⟨-, rfl⟩
  · exact result_of_commutes (blind _) ran
  · rfl

/-- The plain commands that answer nothing. -/
theorem exec_plain_result {c : Nat × (BitVec 2 → Instr)} (hc : c ∈ plainCommands) (silent : c.1 ∉ [0x10, 0x21, 0x34, 0x40, 0x41])
    {v : BitVec 2} {s t : State} (h : exec (c.2 v) s = .next t) : t.result = s.result := by
  simp only [plainCommands, List.mem_cons, List.not_mem_nil, or_false] at hc
  have blind (w : Word) := drawingBlind_result w
  rcases hc with rfl | rfl | rfl | rfl | rfl | rfl | rfl | rfl | rfl | rfl
  case inl => exact withScreen_result h fun _ w => commutes_modify fun s => markRegion_commutes (blind w) s _ _ _ _ _
  case inr.inl => exact withScreen_result h fun _ w => commutes_restoreBackground (blind w) _ _
  case inr.inr.inl => exact withScreen_result h fun _ w => commutes_copyRows (blind w).toMemoryBlind _ _ _ _ _
  case inr.inr.inr.inl => exact withScreen_result h fun _ w => commutes_clearRows (blind w).toMemoryBlind _ _ _ _
  case inr.inr.inr.inr.inl =>
    refine withScreen_result h fun x w => ?_
    split
    · dsimp only
      split
      · exact commutes_copyRows (blind w).toMemoryBlind _ _ _ _ _
      · exact commutes_clearRows (blind w).toMemoryBlind _ _ _ _
    · exact commutes_pure ()
  case inr.inr.inr.inr.inr.inl => exact withScreen_result h fun _ w => commutes_blitMasked (blind w) _ _
  case inr.inr.inr.inr.inr.inr.inl => exact absurd (by decide) silent
  case inr.inr.inr.inr.inr.inr.inr.inl => exact absurd (by decide) silent
  case inr.inr.inr.inr.inr.inr.inr.inr.inl =>
    by_cases accepted : initAccepts s
    · obtain ⟨f, -, created⟩ := exec_vsInit_accepted v accepted
      cases created.symm.trans h
      rfl
    · cases (exec_vsInit_rejected v accepted).symm.trans h
      rfl
  case inr.inr.inr.inr.inr.inr.inr.inr.inr => exact absurd (by decide) silent

/-- Settles O21: the commands left are the plain ones that answer nothing and the mask decodes; and a fault writes no
`RESULT` (`faultsArePrecise`). -/
theorem resultWriters : Obligations.ResultWriters := by
  intro v s t c hc h
  refine ⟨fun silent => ?_, fun sound faulted => (faultsArePrecise _ s t sound h faulted).2.2.1⟩
  by_cases kind : c.1 ∈ [0x10, 0x11, 0x12, 0x21]
  · have four : c ∈ commandTable.filter fun c => decide (c.1 ∈ [0x10, 0x11, 0x12, 0x21]) :=
      List.mem_filter.mpr ⟨hc, decide_eq_true kind⟩
    rw [commandTable_filter] at four
    simp only [List.mem_cons, List.not_mem_nil, or_false] at four
    rcases four with rfl | rfl | rfl | rfl
    · exact absurd (by decide) silent
    · exact absurd (by decide) silent
    · exact (exec_decodeMask_outcome (merge := false) h).1
    · exact (exec_decodeMask_outcome (merge := true) h).1
  · exact exec_plain_result (plainCommands_eq ▸ List.mem_filter.mpr ⟨hc, decide_eq_true kind⟩) silent h

/-! What no instruction touches (10_state.md R11, R28 to R31; 44_compositor.md R168) -/

/-- A part of the state that no command and no code writes. -/
theorem tolerates_part {γ : Type} {f : State → γ} (free : ∀ s n, f { s with freeCount := n } = f s)
    (mem : ∀ s m, f { s with mem := m } = f s) (result : ∀ s w, f (s.setResult w) = f s)
    (dec : ∀ s d, f (s.setDec d) = f s) (screen : ∀ s v x, f (s.setScreen v x) = f s)
    (raised : ∀ s c info, f (s.raised c info) = f s) : ToleratesCommands fun s t => f t = f s where
  toFrame := frame_part f
  free := free
  mem s _ _ := mem s _
  result := result
  dec := dec
  raised s c info _ := raised s c info
  mark s v l r t b := by
    obtain ⟨_, _, e⟩ := markRegion_eq s v l r t b
    rw [e]
    exact screen _ _ _
  create s v _ _ := screen s v _

/-- The registers that are the host's to write, and what the model keeps of the host (10_state.md R11, R28 to R31). -/
def hostPart (s : State) :=
  (s.a, s.roomPal, s.verbPal, s.pal16, s.profile, s.lights, s.inbox, s.readData, s.par)

theorem exec_hostPart {i : Instr} {s t : State} (h : exec i s = .next t) : hostPart t = hostPart s := by
  by_cases flush : ∃ v, i = .flush v
  · obtain ⟨v, rfl⟩ := flush
    rcases execFlush_inv h with ⟨_, rfl⟩ | ⟨_, u, emitted, rfl⟩
    · rfl
    · show hostPart u = hostPart s
      exact keeps_emitRuns (frame_part hostPart) (fun _ _ => rfl) (fun _ _ => rfl) _ _ _ _ _ _ emitted
  · exact exec_tolerated (tolerates_part (fun _ _ => rfl) (fun _ _ => rfl) (fun _ _ => rfl) (fun _ _ => rfl)
      (fun _ _ _ => rfl) fun _ _ _ => rfl) (fun v e => flush ⟨v, e⟩) h

/-- Settles O19. -/
theorem execKeepsHostRegisters : Obligations.ExecKeepsHostRegisters := by
  intro i s t h
  simpa [hostPart] using exec_hostPart h

theorem exec_display {i : Instr} {s t : State} (other : ∀ v, i ≠ .flush v) (h : exec i s = .next t) :
    t.display = s.display :=
  exec_tolerated (tolerates_part (fun _ _ => rfl) (fun _ _ => rfl) (fun _ _ => rfl) (fun _ _ => rfl)
    (fun _ _ _ => rfl) fun _ _ _ => rfl) other h

/-- Settles O20: FLUSH appends the events of its runs (`emitRuns_inv`). -/
theorem onlyFlushEmits : Obligations.OnlyFlushEmits := by
  intro i s t h
  refine ⟨?_, fun other => exec_display other h⟩
  by_cases flush : ∃ v, i = .flush v
  · obtain ⟨v, rfl⟩ := flush
    rcases execFlush_inv h with ⟨_, rfl⟩ | ⟨_, u, emitted, rfl⟩
    · exact List.prefix_rfl
    · obtain ⟨es, e, -⟩ := emitRuns_inv emitted
      rw [e]
      exact List.prefix_append _ _
  · rw [exec_display (fun v e => flush ⟨v, e⟩) h]

/-! A step between commands (10_state.md R12) -/

/-- Settles O18: the host's own actions leave no decode, and a command ends in its step (`exec_command_dec`). -/
theorem commandsAreIndivisible : Obligations.CommandsAreIndivisible := by
  intro s t hd h
  cases step_inv h with
  | code d i u hd' =>
    rw [hd] at hd'
    cases hd'
  | idle _ _ ht => rw [ht, hd]
  | reset rest _ _ ht | illegal o w rest _ _ _ _ _ ht => rw [ht]; rfl
  | ignored o w rest _ _ _ _ ht | read o rest _ _ ht => rw [ht]; exact hd
  | command o w rest i _ _ _ _ hw he =>
    obtain ⟨c, hc, v, rfl, -⟩ := decodeCommand_mem hw
    exact exec_command_dec (s := { s with inbox := rest }) hc hd he
  | written o w rest _ _ _ ht => rw [ht, writeRegister_dec]; exact hd
  | stored a v rest _ _ ht => rw [ht, hostStore_eq]; exact hd

/-! Every decode ends (30_encoding.md R78, 40_bitmap_codec.md R109) -/

theorem stops_copyRows (n p d a h : Nat) : StopsOnly Ordinary (copyRows n p d a h) :=
  stops_loopFrom (fun _ => stops_loopFrom (fun _ => stops_bind (stops_loadByte _) fun v => stops_storeByte _ v) _ _) _ _

theorem stops_clearRows (n p d h : Nat) : StopsOnly Ordinary (clearRows n p d h) :=
  stops_loopFrom (fun _ => stops_loopFrom (fun _ => stops_storeByte _ _) _ _) _ _

theorem stops_withScreen (v : BitVec 2) (w : Word) {body : VScreen → M Unit} (hb : ∀ x, StopsOnly Ordinary (body x)) :
    StopsOnly Ordinary (withScreen v w body) :=
  stops_get_bind fun _ => stops_ite (hb _) (stops_modify _)

theorem stops_restoreBackground (v : BitVec 2) (x : VScreen) : StopsOnly Ordinary (restoreBackground v x) :=
  stops_get_bind fun _ => stops_ite (stops_pure ()) (stops_ite
    (stops_bind (stops_loopFrom (fun _ => stops_loopFrom (fun _ =>
      stops_bind (stops_loadByte _) fun v => stops_storeByte _ v) _ _) _ _) fun _ => stops_modify _)
    (stops_bind (stops_loopFrom (fun _ => stops_loopFrom (fun _ => stops_store _ _ _) _ _) _ _) fun _ => stops_modify _))

theorem stops_blitPixel (sc : VScreen) (o : Blit) (y x : Nat) : StopsOnly Ordinary (blitPixel sc o y x) :=
  stops_get_bind fun _ => stops_bind (stops_load _ _) fun _ => stops_ite (stops_pure ())
    (stops_ite (stops_bind (stops_loadByte _) fun _ => stops_ite (stops_pure ()) (stops_store _ _ _)) (stops_store _ _ _))

theorem stops_blitMasked (v : BitVec 2) (x : VScreen) : StopsOnly Ordinary (blitMasked v x) :=
  stops_get_bind fun _ => stops_ite (stops_pure ()) (stops_bind
    (stops_loopFrom (fun _ => stops_loopFrom (fun _ => stops_blitPixel _ _ _ _) _ _) _ _) fun _ => stops_modify _)

theorem stops_loadBytes : ∀ n a, StopsOnly Ordinary (loadBytes n a)
  | 0, _ => stops_pure []
  | n + 1, a => stops_bind (stops_loadByte a) fun _ => stops_bind (stops_loadBytes n (a + 1)) fun _ => stops_pure _

theorem stops_loadRows (n p : Nat) : ∀ h a, StopsOnly Ordinary (loadRows n p h a)
  | 0, _ => stops_pure []
  | h + 1, a => stops_bind (stops_loadBytes n a) fun _ => stops_bind (stops_loadRows n p h (a + p)) fun _ => stops_pure _

theorem stops_emitRuns (v : BitVec 2) (x : VScreen) : ∀ rs, StopsOnly Ordinary (emitRuns v x rs)
  | [] => stops_pure ()
  | _ :: rs => stops_bind (stops_get_bind fun _ => stops_bind (stops_loadRows _ _ _ _) fun _ => stops_modify _)
      fun _ => stops_emitRuns v x rs

theorem stops_lookupEntry (a i n l : Nat) : StopsOnly Ordinary (lookupEntry a i n l) :=
  stops_bind (stops_load _ _) fun _ => stops_ite (stops_modify _) (stops_modify _)

theorem stops_legacyDecode (f : PixelFormat) : StopsOnly Ordinary (legacyDecode f) :=
  stops_get_bind fun _ => stops_bind (stops_loopFrom (fun _ => stops_store _ _ _) _ _) fun _ => stops_modify _

theorem exec_plain_ordinary {c : Nat × (BitVec 2 → Instr)} (hc : c ∈ plainCommands) (v : BitVec 2) (s : State) :
    exec (c.2 v) s ≠ .refused .decodeOutOfFuel := by
  simp only [plainCommands, List.mem_cons, List.not_mem_nil, or_false] at hc
  rcases hc with rfl | rfl | rfl | rfl | rfl | rfl | rfl | rfl | rfl | rfl
  case inl => exact runM_ordinary (stops_withScreen _ _ fun _ => stops_modify _) s
  case inr.inl => exact runM_ordinary (stops_withScreen _ _ fun _ => stops_restoreBackground _ _) s
  case inr.inr.inl => exact runM_ordinary (stops_withScreen _ _ fun _ => stops_copyRows _ _ _ _ _) s
  case inr.inr.inr.inl => exact runM_ordinary (stops_withScreen _ _ fun _ => stops_clearRows _ _ _ _) s
  case inr.inr.inr.inr.inl =>
    exact runM_ordinary (stops_withScreen _ _ fun _ => stops_ite
      (stops_ite (stops_copyRows _ _ _ _ _) (stops_clearRows _ _ _ _)) (stops_pure ())) s
  case inr.inr.inr.inr.inr.inl => exact runM_ordinary (stops_withScreen _ _ fun _ => stops_blitMasked _ _) s
  case inr.inr.inr.inr.inr.inr.inl => exact runM_ordinary (stops_withScreen _ _ fun _ => stops_modify _) s
  case inr.inr.inr.inr.inr.inr.inr.inl => exact runM_ordinary (stops_withScreen _ _ fun _ => stops_modify _) s
  case inr.inr.inr.inr.inr.inr.inr.inr.inl =>
    by_cases accepted : initAccepts s
    · obtain ⟨f, -, created⟩ := exec_vsInit_accepted v accepted
      rw [created]
      exact fun e => nomatch e
    · rw [exec_vsInit_rejected v accepted]
      exact fun e => nomatch e
  case inr.inr.inr.inr.inr.inr.inr.inr.inr =>
    exact runM_ordinary (stops_ite (stops_modify _) (stops_ite (stops_modify _) (stops_lookupEntry _ _ _ _))) s

/-- Settles O23: the bound of `finishDecode` suffices (`finishDecode_ordinary`), and nothing else counts steps. -/
theorem decodesEnd : Obligations.DecodesEnd := by
  intro i s
  cases instr_kind i with
  | plain c hc v e =>
    subst e
    exact exec_plain_ordinary hc v s
  | strip v e =>
    subst e
    by_cases valid : (s.screen v).valid = true
    · rw [exec_decodeStrip_valid valid]
      split
      · exact fun e => nomatch e
      · split
        · exact fun e => nomatch e
        · split
          · exact finishDecode_ordinary _
          · exact runM_ordinary (stops_legacyDecode _) _
    · rw [exec_decodeStrip_invalid (by simpa using valid)]
      exact fun e => nomatch e
  | mask v merge e =>
    subst e
    rw [exec_decodeMask]
    exact finishDecode_ordinary _
  | flush v e =>
    subst e
    exact runM_ordinary (stops_withScreen _ _ fun x => stops_bind (stops_emitRuns _ _ _) fun _ => stops_modify _) s
  | code e =>
    rw [e]
    exact execCode_ordinary i s

end Sys2Proof.Machine
end

section
/-! Dirty tracking: which spans MARK_DIRTY widens, marks as one update of a screen's arrays that commutes with itself, and the
events of a FLUSH (spec/42_dirty_tracker.md R141 to R147). -/

namespace Sys2Proof.Machine

/-! MARK_DIRTY (42_dirty_tracker.md R141, R142) -/

theorem exec_markDirty_valid {s : State} {v : BitVec 2} (valid : (s.screen v).valid = true) :
    exec (.markDirty v) s = .next (markRegion s v (s.coordOperand 0) (s.coordOperand 1) (s.coordOperand 2) (s.coordOperand 3)) :=
  withScreen_valid valid _ _

/-! Marks as updates of one screen (42_dirty_tracker.md R142) -/

/-- Why a mark of a screen is ignored (42_dirty_tracker.md R142). -/
def markIgnored (clamp : Bool) (left right top bottom : Int) (x : VScreen) : Prop :=
  (left > right ∨ top > bottom) ∨ (max left 0 > min right (x.width.toNat - 1) ∧ clamp = false)
    ∨ max top 0 > min bottom x.height.toNat ∨ stripCount x = 0

/-- The arrays after a mark that is not ignored. -/
def widenedScreen (left right top bottom : Int) (x : VScreen) : VScreen :=
  { x with
    tdirty := lowerTops (min ((max left 0).toNat / 8) (stripCount x - 1))
      (min ((min right (x.width.toNat - 1)).toNat / 8) (stripCount x - 1)) (max top 0).toNat x.tdirty
    bdirty := raiseBottoms (min ((max left 0).toNat / 8) (stripCount x - 1))
      (min ((min right (x.width.toNat - 1)).toNat / 8) (stripCount x - 1)) (min bottom x.height.toNat).toNat x.bdirty }

open Classical in
/-- What a mark makes of the screen it is given to. -/
noncomputable def markedScreen (clamp : Bool) (left right top bottom : Int) (x : VScreen) : VScreen :=
  if markIgnored clamp left right top bottom x then x else widenedScreen left right top bottom x

theorem markedScreen_ignored {clamp : Bool} {l r t b : Int} {x : VScreen} (h : markIgnored clamp l r t b x) :
    markedScreen clamp l r t b x = x := if_pos h

theorem markedScreen_widened {clamp : Bool} {l r t b : Int} {x : VScreen} (h : ¬ markIgnored clamp l r t b x) :
    markedScreen clamp l r t b x = widenedScreen l r t b x := if_neg h

/-- Widening changes nothing that decides whether a mark is ignored. -/
theorem markIgnored_widened (clamp : Bool) (l r t b l' r' t' b' : Int) (x : VScreen) :
    markIgnored clamp l r t b (widenedScreen l' r' t' b' x) ↔ markIgnored clamp l r t b x := Iff.rfl

theorem markRegion_eq_markedScreen (s : State) (v : BitVec 2) (l r t b : Int) :
    markRegion s v l r t b = s.setScreen v (markedScreen s.par.clampOutside l r t b (s.screen v)) := by
  by_cases ignored : markIgnored s.par.clampOutside l r t b (s.screen v)
  · rw [markedScreen_ignored ignored, setScreen_self]
    exact markRegion_ignored ignored
  · rw [markedScreen_widened ignored]
    obtain ⟨h1, h2⟩ := not_or.mp ignored
    exact markRegion_widens h1 h2

/-- What a mark makes of entry `i` of `TDIRTY`. -/
def lowerEntry (lo hi t i : Nat) (x : Half) : Half := if lo ≤ i ∧ i ≤ hi ∧ t < x.toNat then BitVec.ofNat 16 t else x

/-- What a mark makes of entry `i` of `BDIRTY`. -/
def raiseEntry (lo hi b i : Nat) (x : Half) : Half := if lo ≤ i ∧ i ≤ hi ∧ x.toNat < b then BitVec.ofNat 16 b else x

theorem lowerTops_eq (lo hi t : Nat) (xs : List Half) : lowerTops lo hi t xs = xs.mapIdx (lowerEntry lo hi t) := rfl

theorem raiseBottoms_eq (lo hi b : Nat) (xs : List Half) : raiseBottoms lo hi b xs = xs.mapIdx (raiseEntry lo hi b) := rfl

theorem toNat_lowerEntry (lo hi t i : Nat) (x : Half) :
    (lowerEntry lo hi t i x).toNat = if lo ≤ i ∧ i ≤ hi then min x.toNat t else x.toNat := by
  have := x.isLt
  unfold lowerEntry
  split
  · rw [BitVec.toNat_ofNat, Nat.mod_eq_of_lt (by omega), if_pos (by omega)]
    omega
  · split <;> omega

theorem toNat_raiseEntry {b : Nat} (hb : b < 2 ^ 16) (lo hi i : Nat) (x : Half) :
    (raiseEntry lo hi b i x).toNat = if lo ≤ i ∧ i ≤ hi then max x.toNat b else x.toNat := by
  unfold raiseEntry
  split
  · rw [BitVec.toNat_ofNat, Nat.mod_eq_of_lt hb, if_pos (by omega)]
    omega
  · split <;> omega

theorem lowerTops_comm (lo hi t lo' hi' t' : Nat) (xs : List Half) :
    lowerTops lo hi t (lowerTops lo' hi' t' xs) = lowerTops lo' hi' t' (lowerTops lo hi t xs) := by
  simp only [lowerTops_eq, List.mapIdx_mapIdx]
  congr 1
  funext i x
  refine BitVec.eq_of_toNat_eq ?_
  simp only [Function.comp_apply, toNat_lowerEntry]
  split <;> split <;> omega

theorem lowerTops_idem (lo hi t : Nat) (xs : List Half) : lowerTops lo hi t (lowerTops lo hi t xs) = lowerTops lo hi t xs := by
  simp only [lowerTops_eq, List.mapIdx_mapIdx]
  congr 1
  funext i x
  refine BitVec.eq_of_toNat_eq ?_
  simp only [Function.comp_apply, toNat_lowerEntry]
  split <;> omega

theorem raiseBottoms_comm {b b' : Nat} (hb : b < 2 ^ 16) (hb' : b' < 2 ^ 16) (lo hi lo' hi' : Nat) (xs : List Half) :
    raiseBottoms lo hi b (raiseBottoms lo' hi' b' xs) = raiseBottoms lo' hi' b' (raiseBottoms lo hi b xs) := by
  simp only [raiseBottoms_eq, List.mapIdx_mapIdx]
  congr 1
  funext i x
  refine BitVec.eq_of_toNat_eq ?_
  simp only [Function.comp_apply, toNat_raiseEntry hb, toNat_raiseEntry hb']
  split <;> split <;> omega

theorem raiseBottoms_idem {b : Nat} (hb : b < 2 ^ 16) (lo hi : Nat) (xs : List Half) :
    raiseBottoms lo hi b (raiseBottoms lo hi b xs) = raiseBottoms lo hi b xs := by
  simp only [raiseBottoms_eq, List.mapIdx_mapIdx]
  congr 1
  funext i x
  refine BitVec.eq_of_toNat_eq ?_
  simp only [Function.comp_apply, toNat_raiseEntry hb]
  split <;> omega

/-- The clipped bottom is a row of the screen. -/
theorem clippedBottom_lt (bottom : Int) (x : VScreen) : (min bottom x.height.toNat).toNat < 2 ^ 16 := by
  have := x.height.isLt
  omega

theorem widenedScreen_comm (l r t b l' r' t' b' : Int) (x : VScreen) :
    widenedScreen l r t b (widenedScreen l' r' t' b' x) = widenedScreen l' r' t' b' (widenedScreen l r t b x) := by
  simp only [widenedScreen, stripCount, lowerTops_comm (t := (max t 0).toNat),
    raiseBottoms_comm (clippedBottom_lt b x) (clippedBottom_lt b' x)]

theorem widenedScreen_idem (l r t b : Int) (x : VScreen) :
    widenedScreen l r t b (widenedScreen l r t b x) = widenedScreen l r t b x := by
  simp only [widenedScreen, stripCount, lowerTops_idem, raiseBottoms_idem (clippedBottom_lt b x)]

theorem markedScreen_comm (clamp : Bool) (l r t b l' r' t' b' : Int) (x : VScreen) :
    markedScreen clamp l r t b (markedScreen clamp l' r' t' b' x) = markedScreen clamp l' r' t' b' (markedScreen clamp l r t b x) := by
  by_cases h : markIgnored clamp l r t b x
  · rw [markedScreen_ignored h]
    by_cases h' : markIgnored clamp l' r' t' b' x
    · rw [markedScreen_ignored h', markedScreen_ignored h]
    · rw [markedScreen_widened h', markedScreen_ignored ((markIgnored_widened ..).mpr h)]
  · rw [markedScreen_widened h]
    by_cases h' : markIgnored clamp l' r' t' b' x
    · rw [markedScreen_ignored h', markedScreen_widened h, markedScreen_ignored ((markIgnored_widened ..).mpr h')]
    · rw [markedScreen_widened h', markedScreen_widened (mt (markIgnored_widened ..).mp h),
        markedScreen_widened (mt (markIgnored_widened ..).mp h'), widenedScreen_comm]

theorem markedScreen_idem (clamp : Bool) (l r t b : Int) (x : VScreen) :
    markedScreen clamp l r t b (markedScreen clamp l r t b x) = markedScreen clamp l r t b x := by
  by_cases h : markIgnored clamp l r t b x
  · rw [markedScreen_ignored h, markedScreen_ignored h]
  · rw [markedScreen_widened h, markedScreen_widened (mt (markIgnored_widened ..).mp h), widenedScreen_idem]

/-- Settles O33: marks of two screens touch different arrays; marks of one screen commute entry by entry. -/
theorem marksCommute : Obligations.MarksCommute := by
  intro s v w l r t b l' r' t' b'
  simp only [markRegion_eq_markedScreen, setScreen_par]
  constructor
  · by_cases same : w = v
    · subst same
      rw [setScreen_setScreen, setScreen_setScreen, setScreen_screen, setScreen_screen, markedScreen_comm]
    · rw [setScreen_screen_ne _ same, setScreen_screen_ne _ (Ne.symm same), setScreen_comm _ (Ne.symm same)]
  · rw [setScreen_setScreen, setScreen_screen, markedScreen_idem]

/-! The spans a mark widens (42_dirty_tracker.md R141) -/

/-- The rectangle of a mark meets strip `i` of a screen. -/
def markMeets (x : VScreen) (left right top bottom : Int) (i : Nat) : Prop :=
  i < stripCount x ∧ left ≤ right ∧ top ≤ bottom ∧ left ≤ 8 * i + 7 ∧ 8 * i ≤ right ∧ 0 ≤ bottom ∧ top ≤ (x.height.toNat : Int)

/-- A mark that is ignored meets no strip. -/
theorem not_markMeets_of_ignored {x : VScreen} {left right top bottom : Int} {clamp : Bool}
    (h : markIgnored clamp left right top bottom x) (i : Nat) : ¬ markMeets x left right top bottom i := by
  rintro ⟨hi, columns, rows, hl, hr, hb, ht⟩
  unfold markIgnored at h
  unfold stripCount at hi h
  omega

/-- The strips a mark widens are those its rectangle meets, where it is not horizontally off the screen. -/
theorem widened_iff_markMeets {x : VScreen} {left right top bottom : Int} {clamp : Bool} (wide : x.width.toNat % 8 = 0)
    (h : ¬ markIgnored clamp left right top bottom x) (on : clamp = false ∨ 0 ≤ right ∧ left < (x.width.toNat : Int)) (i : Nat) :
    (min ((max left 0).toNat / 8) (stripCount x - 1) ≤ i
        ∧ i ≤ min ((min right (x.width.toNat - 1)).toNat / 8) (stripCount x - 1))
      ↔ markMeets x left right top bottom i := by
  obtain ⟨h1, h2⟩ := not_or.mp h
  have inside : max left 0 ≤ min right ((x.width.toNat : Int) - 1) := by
    rcases on with off | on
    · by_contra beyond
      exact h2 (.inl ⟨by omega, off⟩)
    · unfold stripCount at h2
      omega
  unfold markMeets
  unfold stripCount at h2 ⊢
  omega

/-- A strip the rectangle meets takes the minimum and the maximum; any other keeps its span. -/
theorem widenedScreen_spans {x : VScreen} {left right top bottom : Int} {clamp : Bool} {i : Nat}
    (wide : x.width.toNat % 8 = 0) (h : ¬ markIgnored clamp left right top bottom x)
    (on : clamp = false ∨ 0 ≤ right ∧ left < (x.width.toNat : Int)) (hi : i < x.tdirty.length ∧ i < x.bdirty.length) :
    (markMeets x left right top bottom i →
      (((widenedScreen left right top bottom x).tdirty.getD i 0).toNat : Int)
          = min ((x.tdirty.getD i 0).toNat : Int) (max top 0)
        ∧ (((widenedScreen left right top bottom x).bdirty.getD i 0).toNat : Int)
          = max ((x.bdirty.getD i 0).toNat : Int) (min bottom x.height.toNat))
    ∧ (¬ markMeets x left right top bottom i →
      (widenedScreen left right top bottom x).tdirty.getD i 0 = x.tdirty.getD i 0
        ∧ (widenedScreen left right top bottom x).bdirty.getD i 0 = x.bdirty.getD i 0) := by
  obtain ⟨h1, h2⟩ := not_or.mp h
  have height := x.height.isLt
  have tops := getD_lowerTops (lo := min ((max left 0).toNat / 8) (stripCount x - 1))
    (hi := min ((min right (x.width.toNat - 1)).toNat / 8) (stripCount x - 1)) (t := (max top 0).toNat) hi.1 (by omega)
  have bottoms := getD_raiseBottoms (lo := min ((max left 0).toNat / 8) (stripCount x - 1))
    (hi := min ((min right (x.width.toNat - 1)).toNat / 8) (stripCount x - 1)) (b := (min bottom x.height.toNat).toNat)
    hi.2 (clippedBottom_lt bottom x)
  have meets := widened_iff_markMeets wide h on i
  refine ⟨fun met => ?_, fun apart => ?_⟩
  · rw [if_pos (meets.mpr met)] at tops bottoms
    obtain ⟨-, -, -, -, -, low, high⟩ := met
    rw [widenedScreen]
    dsimp only
    omega
  · rw [if_neg (mt meets.mp apart)] at tops bottoms
    exact ⟨BitVec.eq_of_toNat_eq tops, BitVec.eq_of_toNat_eq bottoms⟩

/-- Settles O32: a mark that is ignored meets no strip, and one that is not widens the strips of `widenedScreen_spans`. -/
theorem markDirtyWidensSpans : Obligations.MarkDirtyWidensSpans := by
  intro s v x left right top bottom H valid ok on
  obtain ⟨topLength, bottomLength, live⟩ := ok
  obtain ⟨⟨wide, -, -⟩, -⟩ := live valid
  rw [exec_markDirty_valid valid, markRegion_eq_markedScreen]
  by_cases ignored : markIgnored s.par.clampOutside left right top bottom x
  · rw [markedScreen_ignored ignored]
    refine ⟨_, x.tdirty, x.bdirty, rfl, rfl, topLength, bottomLength, fun i _ => ?_⟩
    split
    case isTrue met => exact absurd met (not_markMeets_of_ignored ignored i)
    case isFalse => exact ⟨rfl, rfl⟩
  · rw [markedScreen_widened ignored]
    refine ⟨_, _, _, rfl, rfl, (length_lowerTops _ _ _ _).trans topLength, (length_raiseBottoms _ _ _ _).trans bottomLength,
      fun i hi => ?_⟩
    have spans := widenedScreen_spans wide ignored on (i := i) ⟨topLength.symm ▸ hi, bottomLength.symm ▸ hi⟩
    split
    case isTrue met => exact spans.1 met
    case isFalse apart => exact spans.2 apart

/-! FLUSH (42_dirty_tracker.md R144 to R147) -/

/-- What an event of a run holds depends on the parameters and memory alone. -/
theorem flushEvent_congr {s u : State} (hp : u.par = s.par) (hm : u.mem = s.mem) (v : BitVec 2) (x : VScreen) (r : DirtyRun) :
    flushEvent u v x r = flushEvent s v x r := by
  rw [flushEvent, flushEvent, hp, hm]

/-- The events of runs whose rectangles hold memory, in order. -/
theorem run_emitRuns_readable {v : BitVec 2} {x : VScreen} : ∀ {rs : List DirtyRun} {s : State},
    (∀ r ∈ rs, blockReadable s.par (pixAddr s.par x (8 * r.first : Nat) r.top) x.pitch.toNat
      (8 * r.len * bytesPerPixel x.format) (r.bottom - r.top)) →
    StateT.run (emitRuns v x rs) s = .ok ((), { s with display := s.display ++ rs.map (flushEvent s v x) })
  | [], s, _ => by
    rw [List.map_nil, List.append_nil]
    rfl
  | r :: rs, s, h => by
    have rest := run_emitRuns_readable (v := v) (s := s.addEvent (flushEvent s v x r))
      fun q hq => h q (List.mem_cons_of_mem r hq)
    rw [emitRuns, run_bind_ok (run_emitRun_readable (h r (by simp))), rest]
    have same : flushEvent (s.addEvent (flushEvent s v x r)) v x = flushEvent s v x :=
      funext fun q => flushEvent_congr rfl rfl v x q
    rw [same, addEvent_display, List.append_assoc]
    rfl

/-- Settles O34. -/
theorem flushEmitsRuns : Obligations.FlushEmitsRuns := by
  intro s v x runs valid h
  have body : exec (.flush v) s = runM _ s := withScreen_valid valid _ _
  rw [body, runM, run_bind_ok (run_emitRuns_readable h), run_modify]
  rfl

/-- A run of a screen: its strips are on the screen and hold one dirty span. -/
theorem run_on_screen {x : VScreen} {r : DirtyRun} (h : r ∈ coalesce 0 (dirtyPairs x)) :
    0 < r.len ∧ r.first + r.len ≤ stripCount x ∧ r.top < r.bottom
      ∧ ∀ j, r.first ≤ j → j < r.first + r.len → (x.tdirty.getD j 0).toNat = r.top ∧ (x.bdirty.getD j 0).toNat = r.bottom := by
  obtain ⟨-, len, last, span, pairs⟩ := coalesce_runs h
  rw [length_dirtyPairs, Nat.zero_add] at last
  refine ⟨len, last, span, fun j low high => ?_⟩
  have pair := (dirtyPairs_getElem? x (show j < stripCount x by omega)).symm.trans (pairs j low high)
  simpa using pair

/-- The rows of a run are rows of a good screen (10_state.md R26). -/
theorem run_bottom_le {n : Nat} {x : VScreen} (ok : screenOk n x) (valid : x.valid = true) {r : DirtyRun}
    (h : r ∈ coalesce 0 (dirtyPairs x)) : r.bottom ≤ x.height.toNat := by
  obtain ⟨len, last, span, pairs⟩ := run_on_screen h
  obtain ⟨top, bottom⟩ := pairs r.first (Nat.le_refl _) (by omega)
  obtain ⟨-, -, live⟩ := ok
  have good := stripSpanOk_iff.mp ((live valid).2 r.first (by omega))
  omega

/-- Two runs of a screen: the strips of one come before those of the other, or they are the same run. -/
theorem runs_apart {x : VScreen} {i j : Nat} {rs : List DirtyRun} (hrs : rs = coalesce 0 (dirtyPairs x)) (hi : i < rs.length)
    (hj : j < rs.length) (h : i < j) : rs[i].first + rs[i].len ≤ rs[j].first
      ∧ ¬ (rs[i].first + rs[i].len = rs[j].first ∧ rs[i].top = rs[j].top ∧ rs[i].bottom = rs[j].bottom) := by
  subst hrs
  exact List.pairwise_iff_getElem.mp coalesce_apart i j hi hj h

/-- The event of a run of a good screen. -/
theorem eventOf_facts {par : Params} {v : BitVec 2} {n : Nat} {x : VScreen} (ok : screenOk n x) (valid : x.valid = true)
    {r : DirtyRun} {e : DisplayEvent} (h : r ∈ coalesce 0 (dirtyPairs x)) (ev : EventOf par v x r e) :
    e.screen = v ∧ e.pitch = x.pitch.toNat ∧ e.buffer = pixAddr par x (e.x : Nat) (e.y : Nat)
      ∧ 0 < e.w ∧ 0 < e.h ∧ e.x % 8 = 0 ∧ e.w % 8 = 0 ∧ e.x + e.w ≤ x.width.toNat ∧ e.y + e.h ≤ x.height.toNat
      ∧ e.rows.length = e.h ∧ (∀ row ∈ e.rows, row.length = e.w * bytesPerPixel x.format)
      ∧ ∀ i, e.x ≤ 8 * i → 8 * i < e.x + e.w → (x.tdirty.getD i 0).toNat = e.y ∧ (x.bdirty.getD i 0).toNat = e.y + e.h := by
  obtain ⟨len, last, span, pairs⟩ := run_on_screen h
  have bottom := run_bottom_le ok valid h
  obtain ⟨hscreen, hbuffer, hpitch, hx, hy, hw, hh, hrows, hrow⟩ := ev
  unfold stripCount at last
  refine ⟨hscreen, hpitch, by rw [hx, hy, hbuffer], by omega, by omega, by omega, by omega, by omega, by omega,
    hrows.trans hh.symm, by rw [hw]; exact hrow, fun i low high => ?_⟩
  obtain ⟨htop, hbottom⟩ := pairs i (by omega) (by omega)
  exact ⟨by omega, by omega⟩

/-- Settles O35: `emitRuns_inv` pairs the events with the runs, in order; the rest is what the runs are. -/
theorem flushRectangles : Obligations.FlushRectangles := by
  intro s t v x n valid ok h
  rcases execFlush_inv h with ⟨invalid, -⟩ | ⟨-, u, emitted, ht⟩
  · exact absurd (invalid.symm.trans valid) (by decide)
  obtain ⟨es, hu, paired⟩ := emitRuns_inv emitted
  obtain ⟨rs, hrs⟩ : ∃ rs, rs = coalesce 0 (dirtyPairs x) := ⟨_, rfl⟩
  have paired' : List.Forall₂ (EventOf s.par v x) rs es := hrs ▸ paired
  obtain ⟨sameLength, events⟩ := List.forall₂_iff_get.mp paired'
  have event (i : Nat) (hi : i < es.length) : EventOf s.par v x (rs[i]'(sameLength ▸ hi)) es[i] := events i _ hi
  have ofRun (i : Nat) (hi : i < rs.length) : rs[i] ∈ coalesce 0 (dirtyPairs x) := hrs ▸ List.getElem_mem hi
  refine ⟨es, ?_, ?_, fun e he => ?_, List.pairwise_iff_getElem.mpr fun i j hi hj hij => ?_, fun i hi dirty => ?_,
    fun e he f hf meet => ?_, fun i hi => ?_⟩
  · rw [ht, hu]
    rfl
  · rw [ht, ← sameLength, hrs]
    rfl
  · obtain ⟨i, hi, rfl⟩ := List.getElem_of_mem he
    exact eventOf_facts ok valid (ofRun i (sameLength ▸ hi)) (event i hi)
  · have ei := event i hi
    have ej := event j hj
    have apart := (runs_apart hrs (sameLength ▸ hi) (sameLength ▸ hj) hij).1
    rw [ei.x, ei.w, ej.x]
    omega
  · obtain ⟨r, hr, low, high⟩ := coalesce_covers (i := 0) (dirtyPairs_getElem? x hi) (by simpa [stripDirty] using dirty)
    rw [← hrs] at hr
    obtain ⟨j, hj, rfl⟩ := List.getElem_of_mem hr
    have ej := event j (sameLength ▸ hj)
    refine ⟨es[j]'(sameLength ▸ hj), List.getElem_mem _, ?_⟩
    rw [ej.x, ej.w]
    omega
  · obtain ⟨i, hi, rfl⟩ := List.getElem_of_mem he
    obtain ⟨j, hj, rfl⟩ := List.getElem_of_mem hf
    have ei := event i hi
    have ej := event j hj
    have spanI := run_on_screen (ofRun i (sameLength ▸ hi))
    have spanJ := run_on_screen (ofRun j (sameLength ▸ hj))
    rw [ei.x, ei.w, ej.x] at meet
    rw [ei.y, ej.y, ei.h, ej.h]
    rintro ⟨top, rows⟩
    rcases Nat.lt_trichotomy i j with before | same | after
    · have apart := (runs_apart hrs (sameLength ▸ hi) (sameLength ▸ hj) before).2
      omega
    · subst same
      omega
    · have apart := (runs_apart hrs (sameLength ▸ hj) (sameLength ▸ hi) after).1
      omega
  · obtain ⟨topLength, bottomLength, live⟩ := ok
    have strips : stripCount x ≤ s.par.maxStrips := (live valid).1.2.1
    have hi' : i < stripCount x := hi
    rw [exec_flush_screen valid h, stripClean]
    have tops := getD_setFirst (n := stripCount x) (v := x.height) (xs := x.tdirty) (i := i) (by omega)
    have bottoms := getD_setFirst (n := stripCount x) (v := 0) (xs := x.bdirty) (i := i) (by omega)
    rw [if_pos hi'] at tops bottoms
    exact Bool.and_eq_true_iff.mpr ⟨beq_iff_eq.mpr tops, beq_iff_eq.mpr bottoms⟩

end Sys2Proof.Machine
end

section
/-! Drawing: a loop over the pixels of a clipped rectangle, said once, and the fill of RESTORE_BG and the selection of
BLIT_MASKED from it (spec/43_virtual_screen.md R154, R155; 44_compositor.md R166, R167; 60_exceptions.md R192). -/

namespace Sys2Proof.Machine

/-! A loop over the pixels of a rectangle -/

theorem memoryOnly_trans {s t u : State} (h : MemoryOnly s t) (g : MemoryOnly t u) : MemoryOnly s u :=
  ⟨by rw [g.1, h.1], g.2⟩

/-- Pixels of one row follow one another without overlap. -/
theorem columns_apart {base y : Nat} {x : VScreen} {c d : Nat} (h : c < d) :
    pixelAt base x c y + bytesPerPixel x.format ≤ pixelAt base x d y := by
  obtain ⟨k, rfl⟩ := Nat.exists_eq_add_of_lt h
  rw [Nat.add_assoc, pixelAt_col, Nat.succ_mul]
  omega

/-- Rows of a rectangle no wider than the pitch do not overlap. -/
theorem pixelRows_apart {base : Nat} {x : VScreen} {l n y z : Nat} (fits : n ≤ x.pitch.toNat) (h : y < z) :
    pixelAt base x l y + n ≤ pixelAt base x l z := by
  obtain ⟨k, rfl⟩ := Nat.exists_eq_add_of_lt h
  rw [Nat.add_assoc, pixelAt_row, Nat.succ_mul]
  omega

/-- A byte of a row of the rectangle is a byte of one of its pixels. -/
theorem pixelAt_split (base : Nat) (x : VScreen) (l y j : Nat) :
    pixelAt base x l y + j
      = pixelAt base x (l + j / bytesPerPixel x.format) y + j % bytesPerPixel x.format := by
  have parts := Nat.div_add_mod j (bytesPerPixel x.format)
  rw [pixelAt_col, Nat.mul_comm (j / _)]
  omega

/-- What a loop over the pixels of the rectangle `[l, l + w) x [t, t + h)` leaves, from what one round leaves: the round finds
the bytes outside the rectangle, and those of its own pixel, as they were. -/
theorem pixels_spec {s : State} {x : VScreen} {base l w t h : Nat} {f : Nat → Nat → M Unit} {val : Nat → Nat → Nat → Byte}
    (hwf : Memory.wf s.mem = true) (fits : w * bytesPerPixel x.format ≤ x.pitch.toNat)
    (pixel : ∀ c y u, l ≤ c → c < l + w → t ≤ y → y < t + h → MemoryOnly s u →
      sameOutside (blockCovers (pixelAt base x l t) x.pitch.toNat (w * bytesPerPixel x.format) h) s u →
      (∀ j, j < bytesPerPixel x.format → readByte u.mem (pixelAt base x c y + j) = readByte s.mem (pixelAt base x c y + j)) →
      Answers (f y c) u fun _ u' => MemoryOnly u u'
        ∧ (∀ j, j < bytesPerPixel x.format → readByte u'.mem (pixelAt base x c y + j) = val c y j)
        ∧ ∀ a, ¬ (pixelAt base x c y ≤ a ∧ a < pixelAt base x c y + bytesPerPixel x.format) →
            readByte u'.mem a = readByte u.mem a) :
    Answers (loopFrom (fun y => loopFrom (f y) l w) t h) s fun _ u => MemoryOnly s u
      ∧ (∀ c y j, l ≤ c → c < l + w → t ≤ y → y < t + h → j < bytesPerPixel x.format →
          readByte u.mem (pixelAt base x c y + j) = val c y j)
      ∧ sameOutside (blockCovers (pixelAt base x l t) x.pitch.toNat (w * bytesPerPixel x.format) h) s u := by
  have positive := bytesPerPixel_pos x.format
  have inRow {c y a : Nat} (hl : l ≤ c) (hc : c < l + w)
      (ha : pixelAt base x c y ≤ a ∧ a < pixelAt base x c y + bytesPerPixel x.format) :
      pixelAt base x l y ≤ a ∧ a < pixelAt base x l y + w * bytesPerPixel x.format := by
    have start := pixelAt_byte base x 0 hl (Nat.le_refl y)
    have last := rowByte_lt (l := l) (r := l + w) (B := bytesPerPixel x.format) (j := a - pixelAt base x c y) hl hc (by omega)
    rw [Nat.add_sub_cancel_left] at last
    rw [Nat.sub_self] at start
    omega
  have rows := rows_spec (s := s) (f := fun y => loopFrom (f y) l w) (n := w * bytesPerPixel x.format) (lo := t) (h := h)
    (D := pixelAt base x l)
    (val := fun y j => val (l + j / bytesPerPixel x.format) y (j % bytesPerPixel x.format)) hwf
    (fun y z _ hyz _ => .inl (pixelRows_apart fits hyz)) ?_
  · refine answers_mono rows fun _ u ⟨only, bytes, outside⟩ => ⟨only, fun c y j hl hc hy hy' hj => ?_, fun a ha => outside a ?_⟩
    · have at_ := pixelAt_byte base x j hl (Nat.le_refl y)
      have lt := rowByte_lt (r := l + w) hl hc hj
      rw [Nat.add_sub_cancel_left] at lt
      rw [Nat.sub_self, Nat.zero_mul, Nat.add_zero] at at_
      rw [at_, bytes y _ hy hy' lt, Nat.add_comm (_ * _), Nat.add_mul_div_right _ _ positive, Nat.add_mul_mod_self_right,
        Nat.div_eq_of_lt hj, Nat.mod_eq_of_lt hj]
      congr 1
      omega
    · intro y hy hy' inside
      refine ha ⟨y - t, by omega, ?_⟩
      rw [← pixelAt_row, Nat.add_sub_cancel' hy]
      exact inside
  · intro y u hy hy' only before
    have columns := rows_spec (s := u) (f := f y) (n := bytesPerPixel x.format) (lo := l) (h := w)
      (D := fun c => pixelAt base x c y) (val := fun c j => val c y j) only.2
      (fun c d _ hcd _ => .inl (columns_apart hcd)) ?_
    · refine answers_mono columns fun _ u' ⟨only', bytes, outside⟩ => ⟨only', fun j hj => ?_, fun a ha => outside a ?_⟩
      · rw [pixelAt_split]
        exact bytes _ _ (Nat.le_add_right _ _) (Nat.add_lt_add_left ((Nat.div_lt_iff_lt_mul positive).mpr hj) l)
          (Nat.mod_lt _ positive)
      · intro c hl hc inside
        exact ha (inRow hl hc inside)
    · intro c u' hl hc only' before'
      refine pixel c y u' hl hc hy hy' (memoryOnly_trans only only') (fun a ha => ?_) fun j hj => ?_
      · have notIn (z : Nat) (hz : t ≤ z) (hz' : z < t + h) :
            ¬ (pixelAt base x l z ≤ a ∧ a < pixelAt base x l z + w * bytesPerPixel x.format) := by
          intro inside
          refine ha ⟨z - t, by omega, ?_⟩
          rw [← pixelAt_row, Nat.add_sub_cancel' hz]
          exact inside
        rw [before' a fun d hd hdc inside => notIn y hy hy' (inRow hd (by omega) inside),
          before a fun z hz hzy => notIn z hz (by omega)]
      · have own : pixelAt base x c y ≤ pixelAt base x c y + j
            ∧ pixelAt base x c y + j < pixelAt base x c y + bytesPerPixel x.format := by omega
        have row := inRow hl hc own
        have leftOf (d : Nat) (_ : l ≤ d) (hdc : d < c) : ¬ (pixelAt base x d y ≤ pixelAt base x c y + j
            ∧ pixelAt base x c y + j < pixelAt base x d y + bytesPerPixel x.format) := by
          have := columns_apart (base := base) (y := y) (x := x) hdc
          omega
        have above (z : Nat) (_ : t ≤ z) (hzy : z < y) : ¬ (pixelAt base x l z ≤ pixelAt base x c y + j
            ∧ pixelAt base x c y + j < pixelAt base x l z + w * bytesPerPixel x.format) := by
          have := pixelRows_apart (base := base) (l := l) fits hzy
          omega
        rw [before' _ leftOf, before _ above]

/-! Storing one pixel -/

/-- A number stored where there is memory. -/
theorem store_pixel {s : State} {n a v : Nat} (hwf : Memory.wf s.mem = true) (hr : readable s.par a n) :
    Answers (store n a v) s fun _ u => MemoryOnly s u
      ∧ (∀ j, j < n → readByte u.mem (a + j) = BitVec.ofNat 8 (v / 2 ^ (8 * j)))
      ∧ ∀ b, ¬ (a ≤ b ∧ b < a + n) → readByte u.mem b = readByte s.mem b :=
  ⟨(), _, run_store_fits hr.1, ⟨rfl, wf_pokeBytes _ hwf _ _⟩, readByte_pokeNumber hwf hr⟩

/-- A pixel of a rectangle that holds memory holds memory, and its address does not wrap. -/
theorem pixel_readable {par : Params} {x : VScreen} {base l w t h c y : Nat}
    (block : blockReadable par (pixelAt base x l t) x.pitch.toNat (w * bytesPerPixel x.format) h)
    (hl : l ≤ c) (hc : c < l + w) (hy : t ≤ y) (hy' : y < t + h) :
    readable par (pixelAt base x c y) (bytesPerPixel x.format) := by
  have positive := bytesPerPixel_pos x.format
  have first := pixelAt_byte base x 0 hl hy
  have last := rowByte_lt (l := l) (r := l + w) (B := bytesPerPixel x.format) (j := bytesPerPixel x.format - 1) hl hc (by omega)
  rw [Nat.add_sub_cancel_left] at last
  exact readable_sub (block (y - t) (by omega)) (by omega) (by omega)

theorem readable_lt {par : Params} {a n : Nat} (h : readable par a n) (hn : 0 < n) : a < 2 ^ par.addressBits := by
  have := h.1
  omega

/-! RESTORE_BG's fill arm (43_virtual_screen.md R154) -/

/-- A byte of the low `n` bytes of a register. -/
theorem operandByte (w : Word) {n j : Nat} (hj : j < n) :
    BitVec.ofNat 8 (w.toNat % 2 ^ (8 * n) / 2 ^ (8 * j)) = w.extractLsb' (8 * j) 8 := by
  refine BitVec.eq_of_toNat_eq ?_
  obtain ⟨k, rfl⟩ := Nat.exists_eq_add_of_lt hj
  rw [BitVec.toNat_ofNat, BitVec.extractLsb'_toNat, Nat.shiftRight_eq_div_pow,
    show 8 * (j + k + 1) = 8 * j + (8 * k + 8) by omega, Nat.pow_add, Nat.mod_mul_right_div_self,
    Nat.mod_mod_of_dvd _ (Nat.pow_dvd_pow 2 (show 8 ≤ 8 * k + 8 by omega))]

/-- Settles O30: every pixel of the rectangle takes the fill, and the mark leaves memory alone. -/
theorem restoreBgFills : Obligations.RestoreBgFills := by
  intro s v l t r b x B dst hwf valid geometry noCopy hl ht hr hb hlr htb block
  obtain ⟨-, -, widthFits⟩ := geometry
  have fits : (r - l) * B ≤ x.pitch.toNat :=
    (Nat.mul_le_mul_right B (show r - l ≤ x.width.toNat by omega)).trans widthFits
  have arm : ¬ (x.hasBack && s.lights) = true := by rcases noCopy with e | e <;> rw [e] <;> simp
  have filled := pixels_spec (s := s) (x := x) (base := x.pix.toNat) (l := l) (w := r - l) (t := t) (h := b - t)
    (f := fun y c => store B (pixAddr s.par x c y) (pixelOperand x.format (s.operand 4)))
    (val := fun _ _ j => (s.operand 4).extractLsb' (8 * j) 8) hwf fits fun c y u hlc hcr hty hyb only _ _ => by
      have pixel := pixel_readable block hlc hcr hty hyb
      have corner : pixAddr s.par x c y = pixelAt x.pix.toNat x c y :=
        pixAddr_eq (readable_lt pixel (bytesPerPixel_pos _))
      rw [← only.par] at pixel
      rw [corner]
      refine answers_mono (store_pixel only.2 pixel) fun _ u' ⟨only', bytes, outside⟩ => ⟨only', fun j hj => ?_, outside⟩
      rw [bytes j hj]
      exact operandByte _ hj
  obtain ⟨u, run, marked, bytes, outside⟩ := drawn_then_marked (v := v) (l := l) (r := (r : Int) - 1) (t := t) (b := b)
    (Q := fun m => (∀ c y j, l ≤ c → c < l + (r - l) → t ≤ y → y < t + (b - t) → j < B →
        readByte m (pixelAt x.pix.toNat x c y + j) = (s.operand 4).extractLsb' (8 * j) 8)
      ∧ ∀ a, ¬ blockCovers dst x.pitch.toNat ((r - l) * B) (b - t) a → readByte m a = readByte s.mem a) filled
  refine ⟨u, ?_, marked, fun c y j hlc hcr hty hyb hj => bytes c y j hlc (by omega) hty (by omega) hj, outside⟩
  rw [exec_restoreBg_clipped valid hl ht hr hb hlr htb, restoreArm, if_neg arm]
  exact run

/-! BLIT_MASKED (44_compositor.md R166, R167) -/

/-- A byte of a number in memory. -/
theorem byte_of_numberAt {m : Memory} : ∀ {n a j : Nat}, j < n → BitVec.ofNat 8 (numberAt m a n / 2 ^ (8 * j)) = readByte m (a + j)
  | n + 1, a, 0, _ => by
    refine BitVec.eq_of_toNat_eq ?_
    have low := (readByte m a).isLt
    rw [numberAt, BitVec.toNat_ofNat, Nat.mul_zero, Nat.pow_zero, Nat.div_one, Nat.add_zero a]
    omega
  | n + 1, a, j + 1, h => by
    have low := (readByte m a).isLt
    rw [numberAt, show 8 * (j + 1) = 8 + 8 * j by omega, Nat.pow_add, ← Nat.div_div_eq_div_mul,
      show ((readByte m a).toNat + 2 ^ 8 * numberAt m (a + 1) n) / 2 ^ 8 = numberAt m (a + 1) n by omega,
      byte_of_numberAt (by omega), show a + 1 + j = a + (j + 1) by omega]

theorem numberAt_congr {m m' : Memory} : ∀ {n a : Nat}, (∀ j, j < n → readByte m' (a + j) = readByte m (a + j)) →
    numberAt m' a n = numberAt m a n
  | 0, _, _ => rfl
  | n + 1, a, h => by
    have rest : numberAt m' (a + 1) n = numberAt m (a + 1) n := numberAt_congr fun j hj => by
      have := h (j + 1) (by omega)
      rwa [show a + (j + 1) = a + 1 + j by omega] at this
    rw [numberAt, numberAt, rest, show readByte m' a = readByte m a from h 0 (by omega)]

/-- The operands of BLIT_MASKED as the unit reads them. -/
def blitOperands (s : State) : Blit :=
  { src := s.addrOperand 0, srcPitch := s.countOperand 1, x := s.coordOperand 2, y := s.coordOperand 3,
    mask := s.addrOperand 5, stride := s.countOperand 6, control := s.operand 7 }

/-- BLIT_MASKED where the clipped rectangle `[x0, x1) x [y0, y1)` is not empty: it draws pixel by pixel and marks. -/
theorem exec_blitMasked_clipped {s : State} {v : BitVec 2} {x0 y0 x1 y1 : Nat} (valid : (s.screen v).valid = true)
    (hx0 : (x0 : Int) = max (s.coordOperand 2) 0) (hy0 : (y0 : Int) = max (s.coordOperand 3) 0)
    (hx1 : (x1 : Int) = min (s.coordOperand 2 + spriteWidth (s.operand 4)) ((s.screen v).width.toNat : Int))
    (hy1 : (y1 : Int) = min (s.coordOperand 3 + spriteHeight (s.operand 4)) ((s.screen v).height.toNat : Int))
    (hx : x0 < x1) (hy : y0 < y1) :
    exec (.blitMasked v) s = runM (loopFrom (fun y => loopFrom (blitPixel (s.screen v) (blitOperands s) y) x0 (x1 - x0)) y0 (y1 - y0)
      >>= fun _ => modify fun u => markRegion u v x0 ((x1 : Int) - 1) y0 y1) s := by
  have notEmpty : ¬ ((x0 : Int) ≥ x1 ∨ (y0 : Int) ≥ y1) := by omega
  have columns : ((x1 : Int) - x0).toNat = x1 - x0 := by omega
  have rows : ((y1 : Int) - y0).toNat = y1 - y0 := by omega
  have body : exec (.blitMasked v) s = runM (blitMasked v (s.screen v)) s := withScreen_valid valid _ _
  rw [body, runM, runM, blitMasked, run_get_bind]
  dsimp only
  rw [← hx0, ← hy0, ← hx1, ← hy1, if_neg notEmpty, columns, rows]
  rfl

/-- The address of the sprite's pixel for the one in column `c`, row `y` of the screen. -/
def spriteAddr (s : State) (x : VScreen) (c y : Nat) : Nat :=
  s.addrOperand 0 + ((y : Int) - s.coordOperand 3).toNat * s.countOperand 1
    + ((c : Int) - s.coordOperand 2).toNat * bytesPerPixel x.format

/-- The sprite's pixel is the key colour (44_compositor.md R166). -/
abbrev isKey (s : State) (x : VScreen) (c y : Nat) : Prop :=
  keyEnabled (s.operand 7) = true
    ∧ numberAt s.mem (spriteAddr s x c y) (bytesPerPixel x.format) = pixelOperand x.format (s.operand 7)

/-- The mask bit of the pixel is 1 (44_compositor.md R166, R167). -/
abbrev isMasked (s : State) (x : VScreen) (c y : Nat) : Prop :=
  maskEnabled (s.operand 7) = true
    ∧ maskBit x c (readByte s.mem (maskAddr (s.addrOperand 5) (s.countOperand 6) x c y)) = true

section
variable {s u : State} {x : VScreen} {c y : Nat} (par : u.par = s.par)
  (sprite : readable s.par (spriteAddr s x c y) (bytesPerPixel x.format))
  (spriteSame : ∀ j, j < bytesPerPixel x.format → readByte u.mem (spriteAddr s x c y + j) = readByte s.mem (spriteAddr s x c y + j))
  (mask : (s.operand 7).getLsbD 16 = true → readable s.par (maskAddr (s.addrOperand 5) (s.countOperand 6) x c y) 1
    ∧ readByte u.mem (maskAddr (s.addrOperand 5) (s.countOperand 6) x c y)
      = readByte s.mem (maskAddr (s.addrOperand 5) (s.countOperand 6) x c y))
include par sprite spriteSame

/-- One pixel of BLIT_MASKED up to its key test. -/
theorem run_blitPixel : StateT.run (blitPixel x (blitOperands s) y c) u = StateT.run
    (if keyEnabled (s.operand 7) ∧ numberAt s.mem (spriteAddr s x c y) (bytesPerPixel x.format)
        = pixelOperand x.format (s.operand 7) then pure ()
    else if maskEnabled (s.operand 7) then do
      let m ← loadByte (maskAddr (s.addrOperand 5) (s.countOperand 6) x c y)
      if maskBit x c m then pure ()
      else store (bytesPerPixel x.format) (pixAddr u.par x c y) (numberAt s.mem (spriteAddr s x c y) (bytesPerPixel x.format))
    else store (bytesPerPixel x.format) (pixAddr u.par x c y)
      (numberAt s.mem (spriteAddr s x c y) (bytesPerPixel x.format))) u := by
  have read : StateT.run (load (bytesPerPixel x.format) (spriteAddr s x c y)) u
      = .ok (numberAt s.mem (spriteAddr s x c y) (bytesPerPixel x.format), u) := by
    rw [run_load_readable (par ▸ sprite), numberAt_congr spriteSame]
  rw [blitPixel, run_get_bind]
  exact run_bind_ok read _

include mask

/-- The key test and then the mask test leave the pixel, or it takes the sprite's. -/
theorem run_blitPixel_cases :
    (isKey s x c y ∨ isMasked s x c y → StateT.run (blitPixel x (blitOperands s) y c) u = .ok ((), u))
    ∧ (¬ (isKey s x c y ∨ isMasked s x c y) → StateT.run (blitPixel x (blitOperands s) y c) u = StateT.run
        (store (bytesPerPixel x.format) (pixAddr s.par x c y)
          (numberAt s.mem (spriteAddr s x c y) (bytesPerPixel x.format))) u) := by
  rw [run_blitPixel par sprite spriteSame, par]
  by_cases key : isKey s x c y
  · rw [if_pos key]
    exact ⟨fun _ => rfl, fun h => absurd (.inl key) h⟩
  · rw [if_neg key]
    by_cases enabled : maskEnabled (s.operand 7) = true
    · obtain ⟨there, same⟩ := mask enabled
      have mapped := there.2 0 Nat.zero_lt_one
      have read := run_loadByte_mapped (s := u) (par ▸ readable_lt there Nat.zero_lt_one) (par ▸ mapped)
      rw [if_pos enabled, run_bind_ok read, same]
      by_cases bit : maskBit x c (readByte s.mem (maskAddr (s.addrOperand 5) (s.countOperand 6) x c y)) = true
      · rw [if_pos bit]
        exact ⟨fun _ => rfl, fun h => absurd (.inr ⟨enabled, bit⟩) h⟩
      · rw [if_neg bit]
        exact ⟨fun h => absurd h (not_or.mpr ⟨key, fun m => bit m.2⟩), fun _ => rfl⟩
    · rw [if_neg enabled]
      exact ⟨fun h => absurd h (not_or.mpr ⟨key, fun m => enabled m.1⟩), fun _ => rfl⟩

end

/-- What one round leaves of its pixel. -/
theorem blitPixel_spec {s u : State} {x : VScreen} {c y : Nat} (par : u.par = s.par) (hwf : Memory.wf u.mem = true)
    (sprite : readable s.par (spriteAddr s x c y) (bytesPerPixel x.format))
    (spriteSame : ∀ j, j < bytesPerPixel x.format →
      readByte u.mem (spriteAddr s x c y + j) = readByte s.mem (spriteAddr s x c y + j))
    (mask : (s.operand 7).getLsbD 16 = true → readable s.par (maskAddr (s.addrOperand 5) (s.countOperand 6) x c y) 1
      ∧ readByte u.mem (maskAddr (s.addrOperand 5) (s.countOperand 6) x c y)
        = readByte s.mem (maskAddr (s.addrOperand 5) (s.countOperand 6) x c y))
    (pixel : readable s.par (pixelAt x.pix.toNat x c y) (bytesPerPixel x.format))
    (own : ∀ j, j < bytesPerPixel x.format →
      readByte u.mem (pixelAt x.pix.toNat x c y + j) = readByte s.mem (pixelAt x.pix.toNat x c y + j)) :
    Answers (blitPixel x (blitOperands s) y c) u fun _ u' => MemoryOnly u u'
      ∧ (∀ j, j < bytesPerPixel x.format → readByte u'.mem (pixelAt x.pix.toNat x c y + j)
          = if isKey s x c y ∨ isMasked s x c y then readByte s.mem (pixelAt x.pix.toNat x c y + j)
            else readByte s.mem (spriteAddr s x c y + j))
      ∧ ∀ a, ¬ (pixelAt x.pix.toNat x c y ≤ a ∧ a < pixelAt x.pix.toNat x c y + bytesPerPixel x.format) →
          readByte u'.mem a = readByte u.mem a := by
  obtain ⟨stays, taken⟩ := run_blitPixel_cases par sprite spriteSame mask
  by_cases stay : isKey s x c y ∨ isMasked s x c y
  · refine ⟨(), u, stays stay, memoryOnly_refl hwf, fun j hj => ?_, fun _ _ => rfl⟩
    rw [if_pos stay, own j hj]
  · obtain ⟨_, u', run, only, bytes, outside⟩ := store_pixel (s := u) (a := pixelAt x.pix.toNat x c y)
      (v := numberAt s.mem (spriteAddr s x c y) (bytesPerPixel x.format)) hwf (par ▸ pixel)
    have corner : pixAddr s.par x c y = pixelAt x.pix.toNat x c y := pixAddr_eq (readable_lt pixel (bytesPerPixel_pos _))
    refine ⟨(), u', ?_, only, fun j hj => ?_, outside⟩
    · rw [taken stay, corner]
      exact run
    · rw [if_neg stay, bytes j hj, byte_of_numberAt hj]

/-- Settles O43: `blitPixel_spec` for every pixel of the rectangle, and the mark leaves memory alone. -/
theorem blitMaskedSelects : Obligations.BlitMaskedSelects := by
  intro s v x0 y0 x1 y1 x B control sprite maskByte dst written hwf valid geometry hx0 hy0 hx1 hy1 hx hy block sources
  obtain ⟨-, -, widthFits⟩ := geometry
  have fits : (x1 - x0) * B ≤ x.pitch.toNat :=
    (Nat.mul_le_mul_right B (show x1 - x0 ≤ x.width.toNat by omega)).trans widthFits
  have drawn := pixels_spec (s := s) (x := x) (base := x.pix.toNat) (l := x0) (w := x1 - x0) (t := y0) (h := y1 - y0)
    (f := fun y c => blitPixel x (blitOperands s) y c) hwf fits fun c y u hc hc' hy hy' only outside own => by
      obtain ⟨there, apart, masked⟩ := sources c y hc (by omega) hy (by omega)
      exact blitPixel_spec only.par only.2 there (fun j hj => outside _ (apart j hj))
        (fun enabled => ⟨(masked enabled).1, outside _ (masked enabled).2⟩) (pixel_readable block hc hc' hy hy') own
  obtain ⟨u, run, marked, bytes, outside⟩ := drawn_then_marked (v := v) (l := x0) (r := (x1 : Int) - 1) (t := y0) (b := y1)
    (Q := fun m => (∀ c y j, x0 ≤ c → c < x0 + (x1 - x0) → y0 ≤ y → y < y0 + (y1 - y0) → j < B →
        readByte m (pixelAt x.pix.toNat x c y + j)
          = if isKey s x c y ∨ isMasked s x c y then readByte s.mem (pixelAt x.pix.toNat x c y + j)
            else readByte s.mem (spriteAddr s x c y + j))
      ∧ ∀ a, ¬ written a → readByte m a = readByte s.mem a) drawn
  refine ⟨u, ?_, marked, fun c y j hc hc' hy hy' hj => bytes c y j hc (by omega) hy (by omega) hj, outside⟩
  rw [exec_blitMasked_clipped valid hx0 hy0 hx1 hy1 hx hy]
  exact run

/-! Empty rectangles (60_exceptions.md R192) -/

/-- Settles O31: both commands test the clipped rectangle before they draw or mark. -/
theorem emptyRectanglesDoNothing : Obligations.EmptyRectanglesDoNothing := by
  intro s v x valid
  constructor
  · intro empty
    have body : exec (.restoreBg v) s = runM (restoreBackground v x) s := withScreen_valid valid _ _
    rw [body, runM, restoreBackground, run_get_bind]
    dsimp only
    rw [if_pos empty]
    rfl
  · intro empty
    have body : exec (.blitMasked v) s = runM (blitMasked v x) s := withScreen_valid valid _ _
    rw [body, runM, blitMasked, run_get_bind]
    dsimp only
    rw [if_pos (by simpa [spriteWidth, spriteHeight] using empty)]
    rfl

end Sys2Proof.Machine
end

section
/-! Mask codes one by one, and why a merge done twice is done once (spec/41_mask_codec.md R131 to R136). -/

namespace Sys2Proof.Machine

/-! The two codes (41_mask_codec.md R131, R134, R136) -/

/-- A count of 0 is refused before anything is read. -/
theorem exec_mask_zero {s : State} {d : Decode} {merge : Bool} (hd : s.dec = some d) (hp : d.phase = .mask merge)
    (hk : d.k < d.height) :
    exec (.maskRun 0) s = .refused .maskCountZero ∧ exec (.maskLit 0) s = .refused .maskCountZero := by
  have started := run_maskDecodeIn hd hp (by rwa [decodeTotal_mask hp])
  constructor
  · have code : exec (.maskRun 0) s = execMaskRun 0 s := rfl
    rw [code, execMaskRun, runM, run_bind_ok started]
    rfl
  · have code : exec (.maskLit 0) s = execMaskLit 0 s := rfl
    rw [code, execMaskLit, runM, run_bind_ok started]
    rfl

/-- Settles O46. -/
theorem maskCodesRun : Obligations.MaskCodesRun := by
  intro s d merge count n value hd hp hk
  refine ⟨fun zero => zero ▸ exec_mask_zero hd hp hk, fun positive rows => ⟨fun there => ?_, fun there apart => ?_,
    fun a bs length apart => readByte_pokeRows fun i hi => apart i (length ▸ hi)⟩⟩
  · exact execMaskRun_eq hd hp hk positive rfl there rfl rows
  · exact execMaskLit_eq hd hp hk positive rfl there rfl rows apart

/-! A merge done twice (41_mask_codec.md R132) -/

/-- Writing the byte that is there changes nothing. -/
theorem pokeByte_self {m : Memory} (par : Params) (hwf : Memory.wf m = true) (a : Nat) :
    pokeByte par m a (readByte m a) = m := by
  refine wf_ext (wf_pokeByte par hwf a _) hwf fun b => ?_
  unfold pokeByte
  split
  · rw [readByte_writeByte hwf]
    split
    · next e => rw [e]
    · rfl
  · rfl

/-- The bits of `v` are set in the byte at `a`. -/
def HasBits (m : Memory) (a : Nat) (v : Byte) : Prop := readByte m a ||| v = readByte m a

theorem hasBits_pokeOr {par : Params} {m : Memory} {a : Nat} {v : Byte} (hwf : Memory.wf m = true)
    (there : mapped par a = true) : HasBits (pokeByte par m a (readByte m a ||| v)) a v := by
  rw [HasBits, readByte_pokeByte_self hwf there, BitVec.or_assoc, BitVec.or_self]

/-- OR clears no bit. -/
theorem hasBits_mono {par : Params} {m : Memory} {a b : Nat} {v w : Byte} (hwf : Memory.wf m = true)
    (there : mapped par b = true) (h : HasBits m a v) : HasBits (pokeByte par m b (readByte m b ||| w)) a v := by
  by_cases same : a = b
  · subst same
    rw [HasBits, readByte_pokeByte_self hwf there, BitVec.or_assoc, BitVec.or_comm w, ← BitVec.or_assoc, h]
  · rwa [HasBits, readByte_pokeByte_ne _ _ _ same]

section
variable {par : Params} {dst stride : Nat}

theorem wf_pokeRows (merge : Bool) : ∀ (vs : List Byte) {m : Memory} (r : Nat), Memory.wf m = true →
    Memory.wf (pokeRows par merge dst stride m r vs) = true
  | [], _, _, h => h
  | _ :: vs, _, r, h => wf_pokeRows merge vs (r + 1) (wf_pokeByte par h _ _)

theorem hasBits_pokeRows_mono {a : Nat} {v : Byte} : ∀ {vs : List Byte} {m : Memory} {r : Nat}, Memory.wf m = true →
    (∀ i, i < vs.length → mapped par (dst + (r + i) * stride) = true) → HasBits m a v →
    HasBits (pokeRows par true dst stride m r vs) a v
  | [], _, _, _, _, h => h
  | w :: vs, m, r, hwf, there, h => by
    refine hasBits_pokeRows_mono (r := r + 1) (wf_pokeByte par hwf _ _) (fun i hi => ?_)
      (hasBits_mono hwf (there 0 (Nat.zero_lt_succ _)) h)
    rw [Nat.add_assoc, Nat.add_comm 1]
    exact there (i + 1) (Nat.succ_lt_succ hi)

/-- Every row holds the bits merged into it. -/
theorem hasBits_pokeRows : ∀ {vs : List Byte} {m : Memory} {r i : Nat} (_ : Memory.wf m = true)
    (_ : ∀ i, i < vs.length → mapped par (dst + (r + i) * stride) = true) (hi : i < vs.length),
    HasBits (pokeRows par true dst stride m r vs) (dst + (r + i) * stride) vs[i]
  | v :: vs, m, r, i, hwf, there, hi => by
    have rest (j : Nat) (hj : j < vs.length) : mapped par (dst + (r + 1 + j) * stride) = true := by
      rw [Nat.add_assoc, Nat.add_comm 1]
      exact there (j + 1) (Nat.succ_lt_succ hj)
    have first : mapped par (dst + r * stride) = true := there 0 (Nat.zero_lt_succ _)
    cases i with
    | zero => exact hasBits_pokeRows_mono (vs := vs) (r := r + 1) (wf_pokeByte par hwf _ _) rest (hasBits_pokeOr hwf first)
    | succ i =>
      have := hasBits_pokeRows (wf_pokeByte par hwf (dst + r * stride) (readByte m (dst + r * stride) ||| v)) rest
        (Nat.lt_of_succ_lt_succ hi)
      rwa [Nat.add_assoc, Nat.add_comm 1] at this

/-- Merging bits that are there changes nothing. -/
theorem pokeRows_of_hasBits : ∀ {vs : List Byte} {m : Memory} {r : Nat} (_ : Memory.wf m = true)
    (_ : ∀ i (hi : i < vs.length), HasBits m (dst + (r + i) * stride) vs[i]),
    pokeRows par true dst stride m r vs = m
  | [], _, _, _, _ => rfl
  | v :: vs, m, r, hwf, h => by
    have first : readByte m (dst + r * stride) ||| v = readByte m (dst + r * stride) := h 0 (Nat.zero_lt_succ _)
    rw [pokeRows, if_pos rfl, first, pokeByte_self par hwf]
    refine pokeRows_of_hasBits hwf fun i hi => ?_
    have := h (i + 1) (Nat.succ_lt_succ hi)
    rwa [Nat.add_assoc, Nat.add_comm 1]

end

/-- Settles O45: the second decode reads the same stream, and merges into every row bits the row has. -/
theorem maskOrTwice : Obligations.MaskOrTwice := by
  intro s t v stream rows fuel dst stride src h hwf decoded there bytes rowsThere apart first
  obtain ⟨once, length, outside⟩ := maskDecodesRefine s v true stream rows fuel decoded there bytes rowsThere apart
  obtain rfl : { s with mem := pokeRows s.par true dst stride s.mem 0 rows, dec := none } = t := by
    simpa using once.symm.trans first
  have kept (j : Nat) (hj : j < stream.length) :
      readByte (pokeRows s.par true dst stride s.mem 0 rows) (src + j) = stream.getD j 0 := by
    rw [outside _ fun r hr e => apart r j hr hj e.symm]
    exact bytes j hj
  obtain ⟨twice, -, -⟩ := maskDecodesRefine { s with mem := pokeRows s.par true dst stride s.mem 0 rows, dec := none } v true
    stream rows fuel decoded there kept rowsThere apart
  have mappedRows (i : Nat) (hi : i < rows.length) : mapped s.par (dst + (0 + i) * stride) = true := by
    rw [Nat.zero_add]
    exact (rowsThere i (Nat.lt_of_lt_of_eq hi length)).2 0 Nat.zero_lt_one
  have absorbed : pokeRows s.par true dst stride (pokeRows s.par true dst stride s.mem 0 rows) 0 rows
      = pokeRows s.par true dst stride s.mem 0 rows :=
    pokeRows_of_hasBits (wf_pokeRows true rows 0 hwf) fun i hi => hasBits_pokeRows hwf mappedRows hi
  refine twice.trans (congrArg _ ?_)
  exact congrArg (fun m => { s with mem := m, dec := none }) absorbed

end Sys2Proof.Machine
end

section
/-! What each code of a bitmap stream does, where its bytes are there and its pixels fit (spec/40_bitmap_codec.md R100 to
R107; 30_encoding.md R67 to R75). -/

namespace Sys2Proof.Machine

/-! Bitmap decodes -/

/-- A bitmap decode produces `8 * height` pixels (40_bitmap_codec.md R91). -/
theorem decodeTotal_of_phase {d : Decode} {ph : Phase} (hp : d.phase = ph) (hm : ∀ merge, ph ≠ .mask merge) :
    decodeTotal d = 8 * d.height :=
  decodeTotal_bitmap fun merge => hp ▸ hm merge

theorem setDec_self {s : State} {d : Decode} (hd : s.dec = some d) : s.setDec (some d) = s := by
  rw [State.setDec, ← hd]

/-- What a code is said to do: it answers the painted state, and no byte outside its pixels changes. -/
theorem next_afterPixels {o : Answer} {s : State} {d e : Decode} {cs : List Byte} {n : Nat} (h : o = .next (afterPixels s e cs))
    (hn : cs.length = n) (same : ∀ a, pixelsCover e e.k n a ↔ pixelsCover d d.k n a) :
    ∃ t, o = .next t ∧ t = afterPixels s e cs ∧ sameOutside (pixelsCover d d.k n) s t := by
  subst hn
  exact ⟨_, h, rfl, fun a ha => sameOutside_afterPixels s e cs a (mt (same a).mp ha)⟩

/-! Codes of one pixel (40_bitmap_codec.md R101 to R105) -/

/-- A code that gives the next pixel colour `c` and leaves the increment `n`. -/
theorem exec_colour {s : State} {d : Decode} {i : Instr} {ph : Phase} {f : Decode → Decode} {c n : Byte}
    (code : exec i s = runM (colourCode ph f) s) (hf : f d = { d with colour := c, inc := n }) (hm : ∀ merge, ph ≠ .mask merge)
    (hd : s.dec = some d) (hp : d.phase = ph) (hk : d.k < 8 * d.height) (fits : pixelsFit s.par d d.k 1) :
    ∃ t, exec i s = .next t ∧ t = afterPixels s { d with colour := c, inc := n } [c]
      ∧ sameOutside (pixelsCover d d.k 1) s t := by
  refine next_afterPixels ?_ rfl fun _ => Iff.rfl
  rw [code, runM_colourCode hd hp (by rwa [decodeTotal_of_phase hp hm]) (by rw [hf]) fits, hf]

/-- Settles O54. -/
theorem zigzagCodesRun : Obligations.ZigzagCodesRun := by
  intro s d i next d' code hd hp hk fits
  have hm : ∀ merge, Phase.zigzag ≠ .mask merge := fun _ e => nomatch e
  rcases code with rfl | ⟨shift, value, rfl⟩ | rfl | rfl
  · exact exec_colour (f := fun d => d) rfl rfl hm hd hp hk fits
  · exact exec_colour (f := fun d => { d with colour := value, inc := 0xFF#8 }) rfl rfl hm hd hp hk fits
  · exact exec_colour (f := fun d => { d with colour := d.colour + d.inc }) rfl rfl hm hd hp hk fits
  · exact exec_colour (f := fun d => { d with colour := d.colour + -d.inc, inc := -d.inc }) rfl
      (by rw [← BitVec.sub_eq_add_neg]; rfl) hm hd hp hk fits

/-- The source's delta table, as the numbers it is written in (30_encoding.md R73). -/
theorem deltaTable_eq (j : BitVec 3) :
    deltaTable j = BitVec.ofInt 8 (([-4, -3, -2, -1, 1, 2, 3, 4] : List Int).getD j.toNat 0) := by
  revert j
  decide

/-- The delta of MMR_DELTA as a number (30_encoding.md R72). -/
theorem runDelta_eq (v : BitVec 3) : v.zeroExtend 8 - 4#8 = BitVec.ofInt 8 ((v.toNat : Int) - 4) := by
  revert v
  decide

/-- Settles O56. -/
theorem majminDeltaCodesRun : Obligations.MajminDeltaCodesRun := by
  intro s d i c code hd hp hk fits
  have hm : ∀ merge, Phase.majminDelta ≠ .mask merge := fun _ e => nomatch e
  rcases code with ⟨rfl, rfl⟩ | ⟨shift, rfl⟩ | ⟨j, rfl, rfl⟩
  · exact exec_colour (f := fun d => d) rfl rfl hm hd hp hk fits
  · exact exec_colour (f := fun d => { d with colour := c }) rfl rfl hm hd hp hk fits
  · exact exec_colour (f := fun d => { d with colour := d.colour + deltaTable j }) rfl (by rw [deltaTable_eq]) hm hd hp hk fits

/-! Runs and literals -/

/-- Pixels painted over a decode whose cursor has moved, and the code's end. -/
theorem run_painted {s : State} {d e : Decode} {f : Nat → M Unit} {i n m : Nat} {u : State} {cs : List Byte}
    (drawn : StateT.run (loopFrom f i n) u = .ok ((), { s with mem := paintPixels s d s.mem d.k cs, dec := some e }))
    (hm : cs.length = m)
    (same : d.dst = e.dst ∧ d.pitch = e.pitch ∧ d.format = e.format ∧ d.height = e.height ∧ d.order = e.order
      ∧ d.transparent = e.transparent) (hk : d.k = e.k) :
    StateT.run (loopFrom f i n >>= fun _ => advance m) u = .ok ((), afterPixels s e cs) := by
  rw [run_bind_ok drawn]
  exact run_advance_painted hm same hk

/-- Painting does not look at the decode in progress. -/
theorem paintPixels_setDec (s : State) (x : Option Decode) (d : Decode) (m : Memory) (k : Nat) (cs : List Byte) :
    paintPixels (s.setDec x) d m k cs = paintPixels s d m k cs :=
  paintPixels_congr (s := s) (t := s.setDec x) (d := d) (e := d) rfl rfl rfl ⟨rfl, rfl, rfl, rfl, rfl, rfl⟩ cs m k

/-- A run of one colour over a decode whose cursor is at `q`. -/
theorem run_paintedRun {s : State} {d : Decode} {q n : Nat} (c : Byte) (fits : pixelsFit s.par d d.k n) :
    StateT.run (loopFrom (putPixel d c) d.k n >>= fun _ => advance n) (s.setDec (some { d with p := q }))
      = .ok ((), afterPixels s { d with p := q } (List.replicate n c)) := by
  refine run_painted (d := d) ?_ (List.length_replicate ..) ⟨rfl, rfl, rfl, rfl, rfl, rfl⟩ rfl
  rw [run_paintRun (s := s.setDec (some { d with p := q })) c fits, paintPixels_setDec]
  rfl

/-- Settles O55. -/
theorem majminRunCodesRun : Obligations.MajminRunCodesRun := by
  intro s d hd hp hk
  have hm : ∀ merge, Phase.majminRun ≠ .mask merge := fun _ e => nomatch e
  have total := decodeTotal_of_phase hp hm
  constructor
  · intro i c code fits
    rcases code with ⟨rfl, rfl⟩ | ⟨shift, rfl⟩ | ⟨v, rfl, rfl⟩
    · exact exec_colour (f := fun d => d) rfl rfl hm hd hp hk fits
    · exact exec_colour (f := fun d => { d with colour := c }) rfl rfl hm hd hp hk fits
    · exact exec_colour (f := fun d => { d with colour := d.colour + (v.zeroExtend 8 - 4#8) }) rfl (by rw [runDelta_eq]) hm hd
        hp hk fits
  · intro n reps fits
    refine next_afterPixels ?_ (List.length_replicate ..) fun _ => Iff.rfl
    have code : exec (.mmrRun n) s = execMmrRun n s := rfl
    have cut : cutShort d (if n = 0 then 256 else n.toNat) = reps := by rw [cutShort, total]
    have drawn := run_paintedRun (q := d.p) d.colour fits
    rw [code, execMmrRun]
    refine runM_of_ok ?_
    rw [run_bind_ok (run_decodeIn hd hp (total.symm ▸ hk))]
    dsimp only
    rw [setDec_self (show s.dec = some { d with p := d.p } from hd)] at drawn
    rw [cut]
    exact drawn

/-- Settles O57. -/
theorem rle8CodesRun : Obligations.Rle8CodesRun := by
  intro s d len n hd hp hk fits
  have total := decodeTotal_of_phase hp fun _ e => nomatch e
  have cut : cutShort d (len.toNat + 1) = n := by rw [cutShort, total]
  have started := run_decodeIn hd hp (total.symm ▸ hk)
  refine ⟨fun there => next_afterPixels ?_ (List.length_replicate ..) fun _ => Iff.rfl,
    fun there apart => next_afterPixels ?_ (by simp) fun _ => Iff.rfl⟩
  · have code : exec (.rle8Run len) s = execRle8Run len s := rfl
    rw [code, execRle8Run]
    refine runM_of_ok ?_
    rw [run_bind_ok started, run_bind_ok (run_nextByte hd there), cut]
    exact run_paintedRun _ fits
  · have code : exec (.rle8Lit len) s = execRle8Lit len s := rfl
    rw [code, execRle8Lit]
    refine runM_of_ok ?_
    rw [run_bind_ok started, cut]
    exact run_painted (run_paintLiterals hd there fits apart) (by simp) ⟨rfl, rfl, rfl, rfl, rfl, rfl⟩ rfl

/-! Packets of EGA_RLE (40_bitmap_codec.md R107) -/

/-- The count of a packet, and the cursor past it. -/
theorem run_extendedCount {s : State} {d : Decode} {field : Nat} (hd : s.dec = some d)
    (there : readable s.par d.p (if field = 0 then 1 else 0)) :
    StateT.run (extendedCount field) s = .ok (if field = 0 then (readByte s.mem d.p).toNat else field,
      s.setDec (some { d with p := d.p + if field = 0 then 1 else 0 })) := by
  rw [extendedCount]
  by_cases zero : field = 0
  · rw [if_pos zero] at there
    rw [if_pos zero, if_pos zero, if_pos zero, run_bind_ok (run_nextByte hd there)]
    rfl
  · rw [if_neg zero, if_neg zero, if_neg zero, Nat.add_zero, setDec_self hd]
    rfl

/-- A packet past the end of the strip is refused (93_implementation_defined.md U6). -/
theorem run_egaPacket_refused {d : Decode} {n : Nat} {put : Nat → M Unit} {s : State} (h : decodeTotal d < d.k + n) :
    StateT.run (egaPacket d n put) s = .error (.refusal .egaOverrun) := by
  rw [egaPacket, if_pos h]
  rfl

/-- A packet of colours that fits, over a decode whose cursor is at `q`. -/
theorem run_egaPacket_colours {s : State} {d : Decode} {q n : Nat} (f : Nat → Byte) (room : d.k + n ≤ decodeTotal d)
    (fits : pixelsFit s.par d d.k n) :
    StateT.run (egaPacket d n fun z => putPixel d (f z) (d.k + z)) (s.setDec (some { d with p := q }))
      = .ok ((), afterPixels s { d with p := q } ((List.range n).map f)) := by
  rw [egaPacket, if_neg (by omega)]
  refine run_painted (d := d) ?_ (by simp) ⟨rfl, rfl, rfl, rfl, rfl, rfl⟩ rfl
  have drawn := run_paintLoop (s := s.setDec (some { d with p := q })) (d := d) f (i := 0) (k := d.k) (m := s.mem) fits
  rw [paintPixels_setDec] at drawn
  rw [List.range_eq_range']
  exact drawn

/-- Pixel `k` has a left neighbour, and it is in memory (40_bitmap_codec.md R107). -/
def hasLeft (par : Params) (d : Decode) (k : Nat) : Prop :=
  bytesPerPixel d.format ≤ pixelAddr d k ∧ readable par (pixelAddr d k - bytesPerPixel d.format) (bytesPerPixel d.format)

/-- A pixel that has a left neighbour in memory takes its bytes. -/
theorem run_copyLeft {s : State} {d : Decode} {k : Nat} (left : hasLeft s.par d k) (fits : pixelsFit s.par d k 1) :
    StateT.run (copyLeft d k) s = .ok ((), { s with mem := paintLeft s.par d s.mem k 1 }) := by
  obtain ⟨inside, source⟩ := left
  have last : pixelAddr d k + bytesPerPixel d.format ≤ 2 ^ s.par.addressBits := fits 0 Nat.zero_lt_one
  rw [copyLeft, if_neg (Nat.not_lt.mpr inside), run_bind_ok (run_load_readable source), run_store_fits last]
  rfl

theorem paintLeft_succ (par : Params) (d : Decode) (m : Memory) (k n : Nat) :
    paintLeft par d m k (n + 1) = paintLeft par d (paintLeft par d m k 1) (k + 1) n := rfl

/-- One of the pixels that fit. -/
theorem pixelFits {par : Params} {d : Decode} {k n j : Nat} (fits : pixelsFit par d k n) (hj : j < n) :
    pixelsFit par d (k + j) 1 := fun i hi => by
  rw [Nat.lt_one_iff.mp hi]
  exact fits j hj

theorem run_copyLefts {s : State} {d : Decode} {k : Nat} : ∀ {n i : Nat} {m : Memory},
    (∀ j, i ≤ j → j < i + n → hasLeft s.par d (k + j) ∧ pixelsFit s.par d (k + j) 1) →
    StateT.run (loopFrom (fun z => copyLeft d (k + z)) i n) { s with mem := m }
      = .ok ((), { s with mem := paintLeft s.par d m (k + i) n })
  | 0, _, _, _ => rfl
  | n + 1, i, m, h => by
    obtain ⟨left, fits⟩ := h i (Nat.le_refl i) (by omega)
    rw [loopFrom, run_bind_ok (run_copyLeft (s := { s with mem := m }) left fits), paintLeft_succ]
    exact run_copyLefts (i := i + 1) fun j hj hj' => h j (by omega) (by omega)

/-- Copies from the left touch the bytes of their pixels only. -/
theorem readByte_paintLeft {par : Params} {d : Decode} {a : Nat} : ∀ {n k : Nat} {m : Memory}, ¬ pixelsCover d k n a →
    readByte (paintLeft par d m k n) a = readByte m a
  | 0, _, _, _ => rfl
  | n + 1, k, m, h => by
    have first : ¬ pixelCovers d k a := fun covers => h ⟨0, Nat.zero_lt_succ n, covers⟩
    have rest : ¬ pixelsCover d (k + 1) n a := by
      rintro ⟨j, hj, covers⟩
      refine h ⟨j + 1, Nat.succ_lt_succ hj, ?_⟩
      rwa [Nat.add_comm j, ← Nat.add_assoc]
    rw [paintLeft, readByte_paintLeft rest]
    refine readByte_pokeBytes_outside _ _ _ _ ?_
    rw [bytesOf_length]
    unfold pixelCovers at first
    omega

/-- A packet of copies that fits, over a decode whose cursor is at `q`. -/
theorem run_egaPacket_copies {s : State} {d : Decode} {q n : Nat} (room : d.k + n ≤ decodeTotal d)
    (fits : pixelsFit s.par d d.k n) (left : ∀ j, j < n → hasLeft s.par d (d.k + j)) :
    StateT.run (egaPacket d n fun z => copyLeft d (d.k + z)) (s.setDec (some { d with p := q }))
      = .ok ((), afterCode s { d with p := q } n (paintLeft s.par d s.mem d.k n)) := by
  have drawn := run_copyLefts (s := s.setDec (some { d with p := q })) (d := d) (k := d.k) (n := n) (i := 0) (m := s.mem)
    fun j _ hj => ⟨left j (by omega), pixelFits fits (by omega)⟩
  rw [egaPacket, if_neg (by omega)]
  refine (run_bind_ok drawn _).trans ?_
  rw [run_advance_afterCode (d := { d with p := q }) rfl]
  exact congrArg (fun u => Except.ok ((), u)) ((afterCode_setDec { s with mem := _ } _ _ _ _).trans (afterCode_mem s _ _ _ _))

/-- The colours of a dithered run as the nibbles of its byte (30_encoding.md R75). -/
theorem ditherColour_eq (pair : Byte) (z : Nat) :
    ditherColour pair z = BitVec.ofNat 8 (if z % 2 = 1 then pair.toNat % 16 else pair.toNat / 16) := by
  unfold ditherColour
  split
  · revert pair
    decide
  · revert pair
    decide

section
variable {s : State} {d : Decode} (hd : s.dec = some d) (hp : d.phase = .ega) (hk : d.k < decodeTotal d)
include hd hp hk

/-- EGA_RUN once its count is known. -/
theorem exec_egaRun_counted {f : BitVec 3} {colour : BitVec 4} {n q : Nat}
    (counted : StateT.run (extendedCount f.toNat) s = .ok (n, s.setDec (some { d with p := q }))) :
    (decodeTotal d < d.k + n → exec (.egaRun f colour) s = .refused .egaOverrun)
    ∧ (d.k + n ≤ decodeTotal d → pixelsFit s.par d d.k n →
      exec (.egaRun f colour) s = .next (afterPixels s { d with p := q } (List.replicate n (colour.zeroExtend 8)))) := by
  have code : exec (.egaRun f colour) s = execEgaRun f colour s := rfl
  rw [code, execEgaRun, runM, run_bind_ok (run_decodeIn hd hp hk), run_bind_ok counted]
  refine ⟨fun past => by rw [run_egaPacket_refused past]; rfl, fun room fits => ?_⟩
  rw [run_egaPacket_colours (fun _ => colour.zeroExtend 8) room fits, List.map_const', List.length_range]

/-- EGA_COPYLEFT once its count is known. -/
theorem exec_egaCopyleft_counted {f : BitVec 6} {n q : Nat}
    (counted : StateT.run (extendedCount f.toNat) s = .ok (n, s.setDec (some { d with p := q }))) :
    (decodeTotal d < d.k + n → exec (.egaCopyleft f) s = .refused .egaOverrun)
    ∧ (d.k + n ≤ decodeTotal d → pixelsFit s.par d d.k n → (∀ j, j < n → hasLeft s.par d (d.k + j)) →
      exec (.egaCopyleft f) s = .next (afterCode s { d with p := q } n (paintLeft s.par d s.mem d.k n))) := by
  have code : exec (.egaCopyleft f) s = execEgaCopyleft f s := rfl
  rw [code, execEgaCopyleft, runM, run_bind_ok (run_decodeIn hd hp hk), run_bind_ok counted]
  refine ⟨fun past => by rw [run_egaPacket_refused past]; rfl, fun room fits left => ?_⟩
  rw [run_egaPacket_copies room fits left]

/-- EGA_DITHER once its colours and its count are known. -/
theorem exec_egaDither_counted {f : BitVec 6} {n q : Nat} (there : readable s.par d.p 1)
    (counted : StateT.run (extendedCount f.toNat) (s.setDec (some { d with p := d.p + 1 }))
      = .ok (n, s.setDec (some { d with p := q }))) :
    (decodeTotal d < d.k + n → exec (.egaDither f) s = .refused .egaOverrun)
    ∧ (d.k + n ≤ decodeTotal d → pixelsFit s.par d d.k n →
      exec (.egaDither f) s = .next (afterPixels s { d with p := q } ((List.range n).map fun z =>
        BitVec.ofNat 8 (if z % 2 = 1 then (readByte s.mem d.p).toNat % 16 else (readByte s.mem d.p).toNat / 16)))) := by
  have code : exec (.egaDither f) s = execEgaDither f s := rfl
  rw [code, execEgaDither, runM, run_bind_ok (run_decodeIn hd hp hk), run_bind_ok (run_nextByte hd there), run_bind_ok counted]
  refine ⟨fun past => by rw [run_egaPacket_refused past]; rfl, fun room fits => ?_⟩
  rw [run_egaPacket_colours (ditherColour (readByte s.mem d.p)) room fits, funext (ditherColour_eq _)]

end

/-- A packet that fits what is left of the strip. -/
theorem room_fits {k n total : Nat} (hk : k < total) (h : n ≤ total - k) : k + n ≤ total := by omega

/-- A packet that does not. -/
theorem room_past {k n total : Nat} (h : ¬ n ≤ total - k) : total < k + n := by omega

/-- Settles O58: each packet reads its count and is then refused or drawn. -/
theorem egaCodesRun : Obligations.EgaCodesRun := by
  intro s d byte count more room hd hp hk
  have total := decodeTotal_of_phase hp fun _ e => nomatch e
  have hk' : d.k < decodeTotal d := total.symm ▸ hk
  refine ⟨fun f colour there => ?_, fun f there => ?_, fun f there => ?_⟩
  · obtain ⟨refused, drawn⟩ := exec_egaRun_counted (colour := colour) hd hp hk' (run_extendedCount hd there)
    intro n d'
    split
    case isTrue inside =>
      exact fun fits => next_afterPixels (drawn (by rw [total]; exact room_fits hk inside) fits) (List.length_replicate ..) fun _ => Iff.rfl
    case isFalse past => exact refused (by rw [total]; exact room_past past)
  · obtain ⟨refused, drawn⟩ := exec_egaCopyleft_counted hd hp hk' (run_extendedCount hd there)
    intro n d' w
    split
    case isTrue inside =>
      intro left
      have fits : pixelsFit s.par d d.k n := fun j hj => by
        obtain ⟨low, there⟩ := left j hj
        have last := there.1
        omega
      have source : ∀ j, j < n → hasLeft s.par d (d.k + j) := fun j hj =>
        ⟨(left j hj).1, readable_sub (left j hj).2 (Nat.le_refl _) (by omega)⟩
      refine ⟨_, drawn (by rw [total]; exact room_fits hk inside) fits source, rfl, fun a ha => ?_⟩
      rw [mem_afterCode]
      exact readByte_paintLeft ha
    case isFalse past => exact refused (by rw [total]; exact room_past past)
  · have first := readable_sub there (Nat.le_refl _) (m := 1) (by omega)
    have field := readable_sub there (b := d.p + 1) (m := more f.toNat) (by omega) (by omega)
    obtain ⟨refused, drawn⟩ := exec_egaDither_counted hd hp hk' first
      (run_extendedCount (s := s.setDec (some { d with p := d.p + 1 })) (d := { d with p := d.p + 1 }) rfl field)
    intro n d'
    split
    case isTrue inside =>
      exact fun fits => next_afterPixels (drawn (by rw [total]; exact room_fits hk inside) fits) (by simp) fun _ => Iff.rfl
    case isFalse past => exact refused (by rw [total]; exact room_past past)

/-! Descriptors (40_bitmap_codec.md R90, R100, R101; 30_encoding.md R67, R68) -/

section
variable {s : State} {d : Decode} {i : Instr} {b : Byte} (hi : isDescriptor i b) (hd : s.dec = some d)
  (hp : d.phase = .descriptor) (hk : d.k < 8 * d.height)
include hi hd hp hk

/-- A byte that `DESC_MAP` holds runs the body of its family. -/
theorem exec_described {e : DescEntry} (he : descEntry s.par.descMap b = some e) :
    exec i s = runM (familyBody s.par e.family (describedBy d e)) s := by
  have total := decodeTotal_of_phase hp fun _ e => nomatch e
  rw [exec_descriptor hi, runM, run_descriptorBody hd hp (total.symm ▸ hk), he]
  rfl

/-- A byte that `DESC_MAP` does not hold faults (30_encoding.md R68). -/
theorem exec_undescribed (he : descEntry s.par.descMap b = none) :
    exec i s = .next (s.raised .unknownDescriptor (b.zeroExtend 32)) := by
  have total := decodeTotal_of_phase hp fun _ e => nomatch e
  rw [exec_descriptor hi, runM, run_descriptorBody hd hp (total.symm ▸ hk), he]

end

/-- The value of an entry is the byte that selects it. -/
theorem descEntry_value {m : List DescEntry} {b : Byte} {e : DescEntry} (h : descEntry m b = some e) : e.value = b := by
  have := List.find?_some h
  simpa using this

/-- What a family that is not supplied runs (40_bitmap_codec.md R100 to R107). -/
theorem familyBody_raw {par : Params} {d : Decode} (hs : bodySupplied par .raw = false) : familyBody par .raw d = rawBody d := by
  rw [familyBody, if_neg (by rw [hs]; decide)]

theorem familyBody_packet {par : Params} {f : Family} {d : Decode} (hs : bodySupplied par f = false)
    (hf : f = .rle8 ∨ f = .egaRle) : familyBody par f d = packetBody d := by
  rcases hf with rfl | rfl <;> rw [familyBody, if_neg (by rw [hs]; decide)]

theorem familyBody_bit {par : Params} {f : Family} {d : Decode} (hs : bodySupplied par f = false) (hf : f ∈ bitFamilies) :
    familyBody par f d = bitBody d := by
  simp only [bitFamilies, List.mem_cons, List.not_mem_nil, or_false] at hf
  rcases hf with rfl | rfl | rfl <;> rw [familyBody, if_neg (by rw [hs]; decide)]

theorem familyBody_supplied {par : Params} {f : Family} {d : Decode} (hs : bodySupplied par f = true) :
    familyBody par f d = suppliedBody f d := by
  unfold familyBody
  rw [if_pos hs]

/-- Settles O52. -/
theorem otherDescriptorsStart : Obligations.OtherDescriptorsStart := by
  intro s d i b hi hd hp hk
  refine ⟨fun e he hf hs => ?_, exec_undescribed hi hd hp hk⟩
  rw [exec_described hi hd hp hk he, familyBody_packet hs hf]
  rfl

/-- RAW: the rest of the strip takes the payload's bytes (40_bitmap_codec.md R100). -/
theorem runM_rawBody {s : State} {w : Decode} {n : Nat} (hn : decodeTotal w - w.k = n) (there : readable s.par w.p n)
    (fits : pixelsFit s.par w w.k n) (apart : ∀ j, j < n → ¬ pixelsCover w w.k n (w.p + j)) :
    runM (rawBody w) s
      = .next (afterPixels s { w with p := w.p + n } ((List.range n).map fun j => readByte s.mem (w.p + j))) := by
  refine runM_of_ok ?_
  rw [rawBody, hn]
  have drawn := run_paintLiterals (s := s.setDec (some w)) (d := w) (e := w) rfl there fits apart
  rw [paintPixels_setDec] at drawn
  exact run_painted drawn (by simp) ⟨rfl, rfl, rfl, rfl, rfl, rfl⟩ rfl

/-- A supplied body: the rest of the strip takes its colours (00_scope.md R4). -/
theorem runM_suppliedBody {s : State} {w : Decode} {n : Nat} (f : Family) (hn : decodeTotal w - w.k = n)
    (fits : pixelsFit s.par w w.k n) :
    runM (suppliedBody f w) s = .next (afterPixels s w ((List.range' w.k n).map
      (Config.suppliedColour f w.order w.shift (codecArgs s w.format w.dst w.pitch w.p w.height)))) := by
  refine runM_of_ok ?_
  rw [suppliedBody, run_get_bind, hn]
  have drawn := run_paintLoop (s := s.setDec (some w)) (d := w)
    (Config.suppliedColour f w.order w.shift (codecArgs s w.format w.dst w.pitch w.p w.height)) (n := n) (i := w.k) (k := 0)
    (m := s.mem) (by rwa [Nat.zero_add])
  rw [paintPixels_setDec] at drawn
  simp only [Nat.zero_add] at drawn
  exact run_painted drawn (by simp) ⟨rfl, rfl, rfl, rfl, rfl, rfl⟩ rfl

/-- A bit-coded family: the initial colour, given to the first pixel (40_bitmap_codec.md R101). -/
theorem runM_bitBody {s : State} {d w : Decode} (hd : s.dec = some d) (hw : w.p = d.p) (there : readable s.par d.p 1)
    (fits : pixelsFit s.par w w.k 1) :
    runM (bitBody w) s = .next (afterPixels s { w with p := d.p + 1, colour := readByte s.mem d.p, inc := 0xFF#8 }
      [readByte s.mem d.p]) := by
  have pixel := fits 0 Nat.zero_lt_one
  refine runM_of_ok ?_
  have drawn := run_putPixel (s := s.setDec (some { w with p := d.p + 1, colour := readByte s.mem d.p, inc := 0xFF#8 })) (d := w)
    (readByte s.mem d.p) pixel
  rw [bitBody, run_bind_ok (run_nextByte hd there), hw, run_bind_ok (run_setDecode _ _)]
  refine (run_bind_ok drawn _).trans ?_
  exact run_advance_painted (s := s) (d := w) (cs := [readByte s.mem d.p]) rfl ⟨rfl, rfl, rfl, rfl, rfl, rfl⟩ rfl

/-- Settles O51. -/
theorem wholeStripDescriptors : Obligations.WholeStripDescriptors := by
  intro s d i b e n w raw hi he hd hp hk fits
  have total : decodeTotal w = 8 * d.height := decodeTotal_bitmap (d := w) (familyPhase_bitmap e.family)
  have left : decodeTotal w - w.k = n := congrArg (· - d.k) total
  refine ⟨fun hf hs there apart => next_afterPixels ?_ (by simp) fun _ => Iff.rfl,
    fun hs => next_afterPixels ?_ (by simp) fun _ => Iff.rfl⟩
  · rw [exec_described hi hd hp hk he, hf, familyBody_raw (hf ▸ hs)]
    exact runM_rawBody left there fits apart
  · rw [exec_described hi hd hp hk he, familyBody_supplied hs, runM_suppliedBody e.family left fits, ← descEntry_value he]
    rfl

/-- Settles O53. -/
theorem bitDescriptorsStart : Obligations.BitDescriptorsStart := by
  intro s d i b e c w hi he hf hs hd hp hk there fits
  refine next_afterPixels ?_ rfl fun _ => Iff.rfl
  rw [exec_described hi hd hp hk he, familyBody_bit hs hf]
  exact runM_bitBody hd rfl there fits

end Sys2Proof.Machine
end

section
/-! DECODE_STRIP: its checks, the open codec, and what the pixels of a strip hold in the end (spec/40_bitmap_codec.md R91, R94
to R100, R108). -/

namespace Sys2Proof.Machine

/-! The first step of a strip (40_bitmap_codec.md R90, R96, R99) -/

/-- A step of a decode is the fetched code's. -/
theorem codeStep_exec {s t : State} {i : Instr} (h : StateT.run fetchCode s = .ok (i, t)) : codeStep s = exec i t := by
  rw [codeStep_of_fetch h, exec_eq_execCode (fetchCode_stream h)]

/-- A code whose table reads a whole byte is fetched with that byte alone. -/
theorem run_byteCode {s : State} {d : Decode} (hd : s.dec = some d) (there : readable s.par d.p 1) (f : Byte → Instr) :
    StateT.run (do
      let c ← nextByte
      pure (f c)) s = .ok (f (readByte s.mem d.p), s.setDec (some { d with p := d.p + 1 })) := by
  rw [run_bind_ok (run_nextByte hd there), run_pure]

theorem run_fetchCode_descriptor {s : State} {d : Decode} (hd : s.dec = some d) (hp : d.phase = .descriptor)
    (there : readable s.par d.p 1) :
    StateT.run fetchCode s = .ok (decodeDescriptor (readByte s.mem d.p), s.setDec (some { d with p := d.p + 1 })) :=
  Eq.trans (by rw [fetchCode, run_bind_ok (run_currentDecode hd), hp]) (run_byteCode hd there decodeDescriptor)

/-- A fetched descriptor byte is the descriptor of that byte (30_encoding.md R67, R68). -/
theorem isDescriptor_decodeDescriptor (c : Byte) : isDescriptor (decodeDescriptor c) c := by
  obtain ⟨named, -, others⟩ := descriptorBytesDecode
  by_cases name : c.toNat ∈ descriptorRows.map DescRow.value
  · obtain ⟨row, hrow, value⟩ := List.mem_map.mp name
    have byte : c = BitVec.ofNat 8 row.value := by rw [value, BitVec.ofNat_toNat, BitVec.setWidth_eq]
    exact .inl ⟨row, hrow, byte ▸ (named row hrow).1, value.symm⟩
  · exact .inr (others c name).1

theorem profileByDescriptor_of {p : BitVec 3} (h : p = 0 ∨ p = 5) :
    profileByDescriptor p = true ∧ profileReserved p = false := by
  rcases h with rfl | rfl <;> decide

/-- Under Default and HE a strip of some height is the run of its stream. -/
theorem exec_decodeStrip_started {s : State} {v : BitVec 2} (valid : (s.screen v).valid = true)
    (profile : s.profile = 0 ∨ s.profile = 5) (rows : s.countOperand 3 ≠ 0) :
    exec (.decodeStrip v) s = finishDecode (s.setDec (some (startedStrip s (s.screen v).format))) := by
  obtain ⟨described, free⟩ := profileByDescriptor_of profile
  rw [exec_decodeStrip_valid valid, if_neg (by rw [free]; decide), if_neg rows, if_pos described]

/-- The state in which the descriptor of a strip runs: the cursor is past it. -/
def atDescriptor (s : State) (f : PixelFormat) : State :=
  s.setDec (some { startedStrip s f with p := s.addrOperand 2 + 1 })

/-- A strip does what its descriptor does, and then the codes that follow. -/
theorem exec_decodeStrip_descriptor {s t : State} {v : BitVec 2} (valid : (s.screen v).valid = true)
    (profile : s.profile = 0 ∨ s.profile = 5) (rows : s.countOperand 3 ≠ 0) (there : readable s.par (s.addrOperand 2) 1)
    (h : exec (decodeDescriptor (readByte s.mem (s.addrOperand 2))) (atDescriptor s (s.screen v).format) = .next t) :
    exec (.decodeStrip v) s = finishDecode t := by
  have fetched := run_fetchCode_descriptor (s := s.setDec (some (startedStrip s (s.screen v).format))) rfl rfl there
  rw [exec_decodeStrip_started valid profile rows]
  exact finishDecode_codeStep rfl ((codeStep_exec fetched).trans h)

/-- Settles O47: the checks of `exec_decodeStrip_valid`, and the first code of the stream. -/
theorem decodeStripChecks : Obligations.DecodeStripChecks := by
  intro s v src valid
  split
  case isTrue reserved =>
    rw [exec_decodeStrip_valid valid, if_pos (by simpa [profileReserved] using reserved)]
  case isFalse free =>
    split
    case isTrue zero =>
      rw [exec_decodeStrip_valid valid, if_neg (by simpa [profileReserved] using free), if_pos zero]
    case isFalse rows =>
      intro profile there unknown
      have faulted := exec_undescribed (s := atDescriptor s (s.screen v).format) (isDescriptor_decodeDescriptor _) rfl rfl
        (show 0 < 8 * s.countOperand 3 by omega) unknown
      rw [exec_decodeStrip_descriptor valid profile rows there faulted]
      exact finishDecode_idle rfl

/-! Pixels of a strip lie apart where its rows do -/

/-- Two cells of a block of rows of 8 pixels (00_scope.md R8). -/
theorem cells_apart {pitch w h x y x' y' : Nat} (fits : 8 * w ≤ pitch ∨ h = 1) (hx : x < 8) (hx' : x' < 8) (hy : y < h)
    (hy' : y' < h) (ne : ¬ (x = x' ∧ y = y')) :
    y * pitch + x * w + w ≤ y' * pitch + x' * w ∨ y' * pitch + x' * w + w ≤ y * pitch + x * w := by
  have inRow {z z' : Nat} (hz : z < z') : z * w + w ≤ z' * w := by
    rw [← Nat.succ_mul]
    exact Nat.mul_le_mul_right w hz
  have above {z z' a a' : Nat} (hz : z < z') (hz' : z' < h) (ha : a < 8) :
      z * pitch + a * w + w ≤ z' * pitch + a' * w := by
    have cells := inRow (z := a) (z' := 8) ha
    have rows : z * pitch + pitch ≤ z' * pitch := by
      rw [← Nat.succ_mul]
      exact Nat.mul_le_mul_right pitch hz
    omega
  rcases Nat.lt_trichotomy y y' with hlt | same | hgt
  · exact .inl (above hlt hy' hx)
  · subst same
    rcases Nat.lt_or_gt_of_ne (fun e => ne ⟨e, rfl⟩) with hlt | hgt
    · have := inRow hlt
      omega
    · have := inRow hgt
      omega
  · exact .inr (above hgt hy hx')

/-! The open codec (40_bitmap_codec.md R98) -/

theorem exec_decodeStrip_legacy {s : State} {v : BitVec 2} (valid : (s.screen v).valid = true) (low : 1 ≤ s.profile.toNat)
    (high : s.profile.toNat ≤ 4) (rows : s.countOperand 3 ≠ 0) :
    exec (.decodeStrip v) s = runM (legacyDecode (s.screen v).format) (s.setDec none) := by
  have free : ¬ profileReserved s.profile = true := by
    unfold profileReserved
    simp only [decide_eq_true_eq]
    omega
  have noDescriptor : ¬ profileByDescriptor s.profile = true := by
    unfold profileByDescriptor
    generalize s.profile = p at low high
    revert p
    decide
  rw [exec_decodeStrip_valid valid, if_neg free, if_neg rows, if_neg noDescriptor]

/-- The stores of the open codec, one a pixel. -/
def legacyPixels (g : CodecArgs) (n : Nat) : M Unit :=
  loopFrom (fun k => store g.bytes (g.dst + k / 8 * g.pitch + k % 8 * g.bytes) (Config.legacyPixel g k).toNat) 0 n

theorem runM_legacyDecode {s t : State} {f : PixelFormat}
    (h : StateT.run (legacyPixels (legacyArgs s f) (8 * s.countOperand 3)) (s.setDec none) = .ok ((), t)) :
    runM (legacyDecode f) (s.setDec none) = .next (t.setResult (transparencyResult (Config.legacyFlag (legacyArgs s f)))) := by
  refine runM_of_ok ?_
  rw [legacyDecode, run_get_bind]
  exact run_bind_ok h _

/-- A pixel of the strip, as the open codec stores it, lies in a row of the strip. -/
theorem legacyPixel_fits {par : Params} {dst pitch w h k : Nat} (fits : blockFits par dst pitch (8 * w) h) (hk : k < 8 * h) :
    dst + k / 8 * pitch + k % 8 * w + w ≤ 2 ^ par.addressBits := by
  have row := fits (k / 8) (by omega)
  have column : k % 8 * w + w ≤ 8 * w := by
    rw [← Nat.succ_mul]
    exact Nat.mul_le_mul_right w (by omega)
  omega

theorem legacyPixel_readable {par : Params} {dst pitch w h k : Nat} (there : blockReadable par dst pitch (8 * w) h)
    (hk : k < 8 * h) : readable par (dst + k / 8 * pitch + k % 8 * w) w := by
  have column : k % 8 * w + w ≤ 8 * w := by
    rw [← Nat.succ_mul]
    exact Nat.mul_le_mul_right w (by omega)
  exact readable_sub (there (k / 8) (by omega)) (by omega) (by omega)

/-- A byte of a 16-bit value. -/
theorem halfByte (w : Half) (j : Nat) : BitVec.ofNat 8 (w.toNat / 2 ^ (8 * j)) = w.extractLsb' (8 * j) 8 := by
  refine BitVec.eq_of_toNat_eq ?_
  rw [BitVec.toNat_ofNat, BitVec.extractLsb'_toNat, Nat.shiftRight_eq_div_pow]

/-- Settles O50: every store fits, so the codec ends; and where the pixels lie apart in memory each keeps its bytes. -/
theorem legacyProfilesDecode : Obligations.LegacyProfilesDecode := by
  intro s v x w dst pitch h g valid low high rows fits
  have stored : Answers (legacyPixels g (8 * h)) (s.setDec none) fun _ t => t = { s.setDec none with mem := t.mem } := by
    refine answers_loopFrom (fun _ t => t = { s.setDec none with mem := t.mem }) _ 0 rfl fun k t _ hk only => ?_
    have par : t.par = s.par := by rw [only]; rfl
    refine ⟨(), _, run_store_fits (par ▸ legacyPixel_fits fits (by omega)), ?_⟩
    rw [only]
  obtain ⟨_, t, run, only⟩ := stored
  have ran := runM_legacyDecode run
  refine ⟨_, (exec_decodeStrip_legacy valid low high (by omega)).trans ran, ?_, (within_legacyDecode ran).2,
    fun hwf apart there => ?_⟩
  · rw [only]
    rfl
  · have kept := rows_spec (s := s.setDec none)
      (f := fun k => store g.bytes (g.dst + k / 8 * g.pitch + k % 8 * g.bytes) (Config.legacyPixel g k).toNat) (n := w) (lo := 0)
      (h := 8 * h) (D := fun k => dst + k / 8 * pitch + k % 8 * w)
      (val := fun k b => (Config.legacyPixel g k).extractLsb' (8 * b) 8) hwf (fun j k _ hjk hk => ?_)
      fun k u _ hk only _ => ?_
    · obtain ⟨_, u, run', _, bytes, _⟩ := kept
      obtain rfl : u = t := by simpa using run'.symm.trans run
      exact fun k b hk hb => bytes k b (Nat.zero_le k) (by omega) hb
    · have cells := cells_apart (y := j / 8) (y' := k / 8) (x := j % 8) (x' := k % 8) apart (by omega) (by omega) (by omega)
        (by omega) (by omega)
      omega
    · refine answers_mono (store_pixel only.2 (only.par ▸ legacyPixel_readable there (by omega)))
        fun _ u' ⟨only', bytes, outside⟩ => ⟨only', fun b hb => ?_, outside⟩
      exact (bytes b hb).trans (halfByte _ _)

/-! What painted pixels hold (40_bitmap_codec.md R91, R94, R108) -/

/-- The bytes a colour is stored as, one by one. -/
theorem colourBytes_getElem (s : State) (f : PixelFormat) (c : Byte) {b : Nat} (h : b < (colourBytes s f c).length) :
    (colourBytes s f c)[b] = paletteByte s f c b := by
  cases f with
  | indexed8 =>
    obtain rfl : b = 0 := by simpa [colourBytes] using h
    rfl
  | rgb16 => exact (bytesOf_getElem h).trans (halfByte _ _)

theorem skipsStore_iff {par : Params} {d : Decode} {c : Byte} :
    skipsStore par d c = true ↔ par.transpSkip = true ∧ d.transparent = true ∧ c = par.transpColour := by
  simp [skipsStore, and_assoc]

/-- A painted pixel takes its colour's bytes, but where `TRANSP_SKIP` leaves it. -/
theorem readByte_paintPixel_self {s : State} {d : Decode} {m : Memory} {k b : Nat} {c : Byte} (hwf : Memory.wf m = true)
    (there : readable s.par (pixelAddr d k) (bytesPerPixel d.format)) (hb : b < bytesPerPixel d.format) :
    readByte (paintPixel s d m k c) (pixelAddr d k + b) = pixelByte s d (readByte m (pixelAddr d k + b)) c b := by
  rw [paintPixel, pixelByte]
  by_cases skip : skipsStore s.par d c = true
  · rw [if_pos skip, if_pos (skipsStore_iff.mp skip)]
  · rw [if_neg skip, if_neg (mt skipsStore_iff.mpr skip)]
    have inside : b < (colourBytes s d.format c).length := by rwa [length_colourBytes]
    rw [readByte_pokeBytes_inside hwf _ _ inside (there.2 b hb), colourBytes_getElem]

/-- The pixels of a strip whose rows do not overlap lie apart (20_memory.md R50). -/
theorem pixels_apart {d : Decode} (fits : 8 * bytesPerPixel d.format ≤ d.pitch ∨ d.height = 1) {j k : Nat}
    (hj : j < 8 * d.height) (hk : k < 8 * d.height) (ne : j ≠ k) :
    pixelAddr d j + bytesPerPixel d.format ≤ pixelAddr d k ∨ pixelAddr d k + bytesPerPixel d.format ≤ pixelAddr d j := by
  obtain ⟨xj, yj⟩ := position_lt (o := d.order) hj
  obtain ⟨xk, yk⟩ := position_lt (o := d.order) hk
  have differ : ¬ ((position d.order d.height j).1 = (position d.order d.height k).1
      ∧ (position d.order d.height j).2 = (position d.order d.height k).2) := by
    cases d.order with
    | row =>
      simp only [position]
      omega
    | column =>
      simp only [position]
      rintro ⟨column, row⟩
      have partsJ := Nat.div_add_mod j d.height
      have partsK := Nat.div_add_mod k d.height
      rw [column, row] at partsJ
      omega
  have cells := cells_apart fits xj xk yj yk differ
  simp only [pixelAddr]
  omega

/-- A pixel that is apart from those painted keeps its bytes. -/
theorem readByte_paintPixels_other {s : State} {d : Decode} (fits : 8 * bytesPerPixel d.format ≤ d.pitch ∨ d.height = 1)
    {m : Memory} {cs : List Byte} {k j b : Nat} (hk : k + cs.length ≤ 8 * d.height) (hj : j < k) (hb : b < bytesPerPixel d.format) :
    readByte (paintPixels s d m k cs) (pixelAddr d j + b) = readByte m (pixelAddr d j + b) := by
  refine readByte_paintPixels ?_
  rintro ⟨i, hi, covers⟩
  have apart := pixels_apart fits (j := j) (k := k + i) (by omega) (by omega) (by omega)
  unfold pixelCovers at covers
  omega

/-- What the pixels of a strip hold after their colours were given to them in order. -/
theorem readByte_paintPixels_self {s : State} {d : Decode} (fits : 8 * bytesPerPixel d.format ≤ d.pitch ∨ d.height = 1)
    (there : ∀ k, k < 8 * d.height → readable s.par (pixelAddr d k) (bytesPerPixel d.format)) :
    ∀ {cs : List Byte} {m : Memory} {k j b : Nat}, Memory.wf m = true → k + cs.length ≤ 8 * d.height → j < cs.length →
      b < bytesPerPixel d.format → readByte (paintPixels s d m k cs) (pixelAddr d (k + j) + b)
        = pixelByte s d (readByte m (pixelAddr d (k + j) + b)) (cs.getD j 0) b
  | c :: cs, m, k, 0, b, hwf, hk, _, hb => by
    rw [List.length_cons] at hk
    rw [paintPixels, Nat.add_zero k, readByte_paintPixels_other fits (by omega) (Nat.lt_add_one k) hb,
      readByte_paintPixel_self hwf (there k (by omega)) hb]
    rfl
  | c :: cs, m, k, j + 1, b, hwf, hk, hj, hb => by
    rw [List.length_cons] at hk hj
    have later := readByte_paintPixels_self fits there (k := k + 1) (j := j) (wf_paintPixel (s := s) (d := d) hwf k c)
      (show k + 1 + cs.length ≤ _ by omega) (by omega) hb
    rw [Nat.add_assoc, Nat.add_comm 1] at later
    have untouched : readByte (paintPixel s d m k c) (pixelAddr d (k + (j + 1)) + b)
        = readByte m (pixelAddr d (k + (j + 1)) + b) := by
      refine readByte_paintPixel m c ?_
      have apart := pixels_apart fits (j := k) (k := k + (j + 1)) (by omega) (by omega) (by omega)
      unfold pixelCovers
      omega
    rw [paintPixels, later, untouched]
    rfl

/-! A RAW strip (40_bitmap_codec.md R100) -/

/-- The last pixels of a strip end the decode. -/
theorem afterPixels_last {s : State} {d : Decode} {cs : List Byte} (hm : ∀ merge, d.phase ≠ .mask merge)
    (last : decodeTotal d ≤ d.k + cs.length) :
    afterPixels s d cs = { s with mem := paintPixels s d s.mem d.k cs, result := transparencyResult d.transparent, dec := none } := by
  rw [afterPixels, afterCode, if_neg (by omega), decodeEnded_bitmap _ hm]
  rfl

/-- The decode of a strip whose descriptor has the entry `e`, at its first payload byte. -/
def describedStrip (s : State) (f : PixelFormat) (e : DescEntry) : Decode :=
  describedBy { startedStrip s f with p := s.addrOperand 2 + 1 } e

/-- A strip whose descriptor ends it. -/
theorem exec_decodeStrip_whole {s t : State} {v : BitVec 2} (valid : (s.screen v).valid = true)
    (profile : s.profile = 0 ∨ s.profile = 5) (rows : s.countOperand 3 ≠ 0) (there : readable s.par (s.addrOperand 2) 1)
    {e : DescEntry} (he : descEntry s.par.descMap (readByte s.mem (s.addrOperand 2)) = some e)
    (h : runM (familyBody s.par e.family (describedStrip s (s.screen v).format e)) (atDescriptor s (s.screen v).format) = .next t) :
    exec (.decodeStrip v) s = finishDecode t := by
  refine exec_decodeStrip_descriptor valid profile rows there ?_
  rw [exec_described (s := atDescriptor s (s.screen v).format) (isDescriptor_decodeDescriptor _) rfl rfl
    (show 0 < 8 * s.countOperand 3 by omega) he]
  exact h

/-- What a whole strip leaves: its colours in memory, and `T` in `RESULT`. -/
theorem afterPixels_strip {s : State} {f : PixelFormat} {e : DescEntry} {d : Decode} {q : Nat} {cs : List Byte}
    (hd : d = describedBy (startedStrip s f) e) (hcs : cs.length = 8 * s.countOperand 3) :
    afterPixels (atDescriptor s f) { describedStrip s f e with p := q } cs
      = { s with mem := paintPixels s d s.mem 0 cs, result := transparencyResult e.transparent, dec := none } := by
  have whole : decodeTotal { describedStrip s f e with p := q } ≤ 0 + cs.length := by
    rw [decodeTotal_bitmap (familyPhase_bitmap e.family), hcs, Nat.zero_add]
    exact Nat.le_refl _
  rw [afterPixels_last (familyPhase_bitmap e.family) whole, hd]
  have painted : paintPixels (atDescriptor s f) { describedStrip s f e with p := q } s.mem 0 cs
      = paintPixels s (describedBy (startedStrip s f) e) s.mem 0 cs :=
    paintPixels_congr (s := s) (t := atDescriptor s f) (d := describedBy (startedStrip s f) e)
      (e := { describedStrip s f e with p := q }) rfl rfl rfl
      ⟨rfl, rfl, rfl, rfl, rfl, rfl⟩ cs s.mem 0
  exact congrArg (fun m => ({ s with mem := m, result := transparencyResult e.transparent, dec := none } : State)) painted

/-- A RAW strip whose payload is in memory and apart from its pixels. -/
theorem exec_rawStrip {s : State} {v : BitVec 2} {e : DescEntry} {d : Decode}
    (hd : d = describedBy (startedStrip s (s.screen v).format) e) (valid : (s.screen v).valid = true)
    (profile : s.profile = 0 ∨ s.profile = 5) (rows : s.countOperand 3 ≠ 0)
    (he : descEntry s.par.descMap (readByte s.mem (s.addrOperand 2)) = some e) (hf : e.family = .raw)
    (hs : bodySupplied s.par e.family = false) (there : readable s.par (s.addrOperand 2) (1 + 8 * s.countOperand 3))
    (fits : pixelsFit s.par d 0 (8 * s.countOperand 3))
    (apart : ∀ j, j < 8 * s.countOperand 3 → ¬ pixelsCover d 0 (8 * s.countOperand 3) (s.addrOperand 2 + 1 + j)) :
    exec (.decodeStrip v) s = .next { s with
      mem := paintPixels s d s.mem 0 ((List.range (8 * s.countOperand 3)).map fun j => readByte s.mem (s.addrOperand 2 + 1 + j)),
      result := transparencyResult e.transparent, dec := none } := by
  subst hd
  have first := readable_sub there (Nat.le_refl _) (m := 1) (by omega)
  have payload := readable_sub there (b := s.addrOperand 2 + 1) (m := 8 * s.countOperand 3) (by omega) (by omega)
  have drawn := runM_rawBody (s := atDescriptor s (s.screen v).format) (w := describedStrip s (s.screen v).format e)
    (n := 8 * s.countOperand 3)
    (congrArg (· - 0) (decodeTotal_bitmap (d := describedStrip s (s.screen v).format e) (familyPhase_bitmap e.family)))
    payload fits apart
  rw [afterPixels_strip rfl (by simp)] at drawn
  rw [exec_decodeStrip_whole valid profile rows first he (by rw [hf, familyBody_raw (hf ▸ hs)]; exact drawn)]
  exact finishDecode_idle rfl

/-- Settles O60: `paintPixel` for one pixel, and `exec_rawStrip` for a strip. -/
theorem stripPixelsTakeTheirColours : Obligations.StripPixelsTakeTheirColours := by
  constructor
  · intro s d c k w hwf there
    exact ⟨_, run_putPixel c there.1, rfl, fun b hb => readByte_paintPixel_self hwf there hb,
      fun a ha => readByte_paintPixel s.mem c ha⟩
  · intro s v e x w h src d he hf hs valid profile rows hwf fits there pixels apart
    have inside : pixelsFit s.par d 0 (8 * h) := fun j hj => (pixels _ (by omega)).1
    refine ⟨_, exec_rawStrip rfl valid profile (by omega) he hf hs there inside apart, rfl, fun k b hk hb => ?_, fun a ha => ?_⟩
    · have byte := readByte_paintPixels_self (s := s) (d := d) fits pixels
        (cs := (List.range (8 * h)).map fun j => readByte s.mem (src + 1 + j)) (k := 0) (j := k) hwf (by simp [d]; rfl)
        (by simpa using hk) hb
      rw [Nat.zero_add] at byte
      refine byte.trans ?_
      simp [hk]
    · refine readByte_paintPixels ?_
      rw [List.length_map, List.length_range]
      exact ha

end Sys2Proof.Machine
end

section
/-! The steps of a decode: a fetch reads the bits of its code and no others, and a decode command is its checks and then its
steps (spec/10_state.md R12, R15; 20_memory.md R43). -/

namespace Sys2Proof.Machine

/-! Reading bits from memory (20_memory.md R43) -/

theorem getD_bitsOf : ∀ (n w j : Nat), j < n → (bitsOf n w).getD j false = w.testBit j
  | n + 1, w, 0, _ => by
    rw [bitsOf, List.getD_cons_zero, Nat.testBit_zero]
    rfl
  | n + 1, w, j + 1, h => by
    rw [bitsOf, List.getD_cons_succ, getD_bitsOf n (w / 2) j (by omega), Nat.testBit_succ]

/-- The first of the bits at a position. -/
theorem bitsAt_head {m : Memory} {p b : Nat} {x : Bool} {bits : List Bool} (h : bitsAt m p b (x :: bits)) (hb : b < 8) :
    (readByte m p).getLsbD b = x := by
  have first := h 0 (Nat.zero_lt_succ _)
  rwa [Nat.add_zero, Nat.div_eq_of_lt hb, Nat.mod_eq_of_lt hb, Nat.add_zero] at first

/-- The bits after the first are at the next position. -/
theorem bitsAt_tail {m : Memory} {p b : Nat} {x : Bool} {bits : List Bool} (h : bitsAt m p b (x :: bits)) :
    bitsAt m (p + (b + 1) / 8) ((b + 1) % 8) bits := by
  intro n hn
  have later := h (n + 1) (Nat.succ_lt_succ hn)
  rw [List.getD_cons_succ] at later
  rw [← later, show p + (b + 1) / 8 + ((b + 1) % 8 + n) / 8 = p + (b + (n + 1)) / 8 by omega,
    show ((b + 1) % 8 + n) % 8 = (b + (n + 1)) % 8 by omega]

/-- The bit reader `n` bits further on. -/
def Decode.skipBits (d : Decode) (n : Nat) : Decode := { d with p := d.p + (d.b + n) / 8, b := (d.b + n) % 8 }

theorem skipBits_zero {d : Decode} (hb : d.b < 8) : d.skipBits 0 = d := by
  rw [Decode.skipBits, Nat.add_zero, Nat.div_eq_of_lt hb, Nat.mod_eq_of_lt hb]
  rfl

theorem skipBits_succ (d : Decode) (n : Nat) : (d.skipBits 1).skipBits n = d.skipBits (n + 1) := by
  simp only [Decode.skipBits]
  congr 1 <;> omega

/-- A reader on bits in memory does what it does on a list of them, and needs the bytes that hold them. -/
theorem run_runReader_bits {α : Type} {x : α} : ∀ {r : Reader α} {bits : List Bool} {s : State} {d : Decode},
    runReaderOnBits r bits = some (x, []) → s.dec = some d → d.b < 8 → bitsAt s.mem d.p d.b bits →
    readable s.par d.p ((d.b + bits.length + 7) / 8) →
    StateT.run (runReader r) s = .ok (x, s.setDec (some (d.skipBits bits.length)))
  | .done y, bits, s, d, h, hd, hb, _, _ => by
    cases h
    rw [List.length_nil, skipBits_zero hb, setDec_self hd]
    rfl
  | .bit next, [], s, d, h, _, _, _, _ => by cases h
  | .bit next, y :: bits, s, d, h, hd, hb, stored, there => by
    rw [List.length_cons] at there
    have first := readable_sub there (Nat.le_refl _) (m := 1) (by omega)
    have read := run_readBit hd hb first
    rw [bitsAt_head stored hb] at read
    have rest := run_runReader_bits (r := next y) (bits := bits) (s := s.setDec (some (d.skipBits 1))) (d := d.skipBits 1) h rfl
      (Nat.mod_lt _ (by decide)) (bitsAt_tail stored)
      (readable_sub there (by simp only [Decode.skipBits]; omega) (by simp only [Decode.skipBits]; omega))
    rw [runReader, run_bind_ok read]
    rw [skipBits_succ] at rest
    exact rest

/-- The byte at a position where the bits of a byte are. -/
theorem readByte_of_bitsAt {m : Memory} {p : Nat} {c : Byte} (h : bitsAt m p 0 (bitsOf 8 c.toNat)) : readByte m p = c := by
  refine BitVec.eq_of_getLsbD_eq fun n hn => ?_
  have bit := h n (by rwa [bitsOf_length])
  rw [getD_bitsOf 8 _ n hn, Nat.zero_add, Nat.div_eq_of_lt hn, Nat.mod_eq_of_lt hn, Nat.add_zero] at bit
  exact bit

/-! Fetching a code (30_encoding.md R64 to R77) -/

/-- What `fetchCode` runs in each phase. -/
def phaseFetch (d : Decode) : M Instr :=
  match d.phase with
  | .descriptor => do
    let c ← nextByte
    pure (decodeDescriptor c)
  | .mask _ => do
    let c ← nextByte
    pure (decodeMaskControl c)
  | .rle8 => do
    let c ← nextByte
    pure (decodeRle8Control c)
  | .ega => do
    let c ← nextByte
    pure (decodeEgaControl c)
  | .zigzag => runReader (zigzagReader d.shift)
  | .majminRun => runReader (majminRunReader d.shift)
  | .majminDelta => runReader (majminDeltaReader d.shift)

theorem run_fetchCode {s : State} {d : Decode} (hd : s.dec = some d) : StateT.run fetchCode s = StateT.run (phaseFetch d) s := by
  rw [fetchCode, run_bind_ok (run_currentDecode hd)]
  rfl

/-- A byte code whose bits are at the cursor. -/
theorem run_byteCode_bits {s : State} {d : Decode} {i : Instr} {sp : Space} {f : Byte → Instr} (hd : s.dec = some d)
    (hb : d.b = 0) (decoded : decodeByteOf sp f (encode i) = .ok (i, [])) (stored : bitsAt s.mem d.p d.b (encode i))
    (there : readable s.par d.p ((d.b + (encode i).length + 7) / 8)) :
    StateT.run (do
      let c ← nextByte
      pure (f c)) s = .ok (i, s.setDec (some (d.skipBits (encode i).length))) := by
  obtain ⟨c, hc, bits⟩ := decodeByteOf_inv decoded
  rw [List.append_nil] at bits
  have eight : (encode i).length = 8 := by rw [bits, bitsOf_length]
  rw [hb] at stored
  rw [bits] at stored
  rw [hb, eight] at there
  have moved : d.skipBits (encode i).length = { d with p := d.p + 1 } := by
    simp only [Decode.skipBits, hb, eight]
  rw [run_byteCode hd there f, readByte_of_bitsAt stored, ← hc, moved]

/-- The fetch of a code whose bits are at the cursor. -/
theorem run_fetchCode_encoded {s : State} {d : Decode} {i : Instr} (hd : s.dec = some d) (hb : d.b < 8)
    (bytes : byteCoded d.phase = true → d.b = 0) (wf : i.wf = true) (space : spaceOf d.shift i = phaseSpace d)
    (stored : bitsAt s.mem d.p d.b (encode i)) (there : readable s.par d.p ((d.b + (encode i).length + 7) / 8)) :
    StateT.run fetchCode s = .ok (i, s.setDec (some (d.skipBits (encode i).length))) := by
  have decoded := decodeEncode i d.shift [] wf
  rw [List.append_nil, space] at decoded
  rw [run_fetchCode hd, phaseFetch]
  rw [phaseSpace] at decoded
  cases hp : d.phase <;> rw [hp] at decoded bytes
  case descriptor => exact run_byteCode_bits hd (bytes rfl) decoded stored there
  case mask => exact run_byteCode_bits hd (bytes rfl) decoded stored there
  case rle8 => exact run_byteCode_bits hd (bytes rfl) decoded stored there
  case ega => exact run_byteCode_bits hd (bytes rfl) decoded stored there
  case zigzag => exact run_runReader_bits (decodeBitsOf_inv decoded) hd hb stored there
  case majminRun => exact run_runReader_bits (decodeBitsOf_inv decoded) hd hb stored there
  case majminDelta => exact run_runReader_bits (decodeBitsOf_inv decoded) hd hb stored there

/-- Settles O6: `run_fetchCode_encoded` is the fetch of the step. -/
theorem stepRunsStreamCode : Obligations.StepRunsStreamCode := by
  intro s d i hd hb bytes wf space stored there
  rw [step_decode hd, run_fetchCode_encoded hd hb bytes wf space stored there]
  rfl

/-! A command and its steps (10_state.md R12) -/

/-- Inside a decode a step is a code of its stream. -/
theorem step_eq_codeStep {s : State} {d : Decode} (hd : s.dec = some d) : step s = codeStep s := by
  rw [step_decode hd]
  cases h : StateT.run fetchCode s with
  | ok x => exact (codeStep_exec h).symm
  | error e => rw [codeStep, h]

/-- A run of some steps begins with a step that answers. -/
theorem coreRun_succ_eq_next {M : Host.Core} {n : Nat} {s w : M.State} :
    M.run (n + 1) s = .next w ↔ ∃ t, M.step s = .next t ∧ M.run n t = .next w := by
  rw [Host.Core.run]
  split
  next t h =>
    rw [h]
    simp only [Host.Outcome.next.injEq, exists_eq_left']
  next r h =>
    rw [h]
    simp only [reduceCtorEq, false_and, exists_false]
  next r h =>
    rw [h]
    simp only [reduceCtorEq, false_and, exists_false]

theorem run_succ_eq_next {n : Nat} {s w : State} :
    core.run (n + 1) s = .next w ↔ ∃ t, step s = .next t ∧ core.run n t = .next w :=
  coreRun_succ_eq_next (M := core)

/-- Between commands a run stays between commands (10_state.md R12). -/
theorem run_dec : ∀ {n : Nat} {s w : State}, s.dec = none → core.run n s = .next w → w.dec = none
  | 0, _, _, hd, h => by
    cases h
    exact hd
  | _ + 1, _, _, hd, h => by
    obtain ⟨t, steps, rest⟩ := run_succ_eq_next.mp h
    exact run_dec (commandsAreIndivisible _ t hd steps) rest

/-- What a decode comes to is what it comes to from any of its steps. -/
theorem finishDecode_run : ∀ {n : Nat} {u w : State}, core.run n u = .next w → w.dec ≠ none → finishDecode u = finishDecode w
  | 0, _, _, h, _ => by
    cases h
    rfl
  | n + 1, u, w, h, hw => by
    obtain ⟨t, steps, rest⟩ := run_succ_eq_next.mp h
    cases hd : u.dec with
    | none => exact absurd (run_dec (commandsAreIndivisible u t hd steps) rest) hw
    | some d => exact (finishDecode_codeStep hd ((step_eq_codeStep hd).symm.trans steps)).trans (finishDecode_run rest hw)

/-- A decode that ends does so after some steps. -/
theorem run_of_runCodes {n : Nat} {u t : State} (h : runCodes n u = .next t) : ∃ k, core.run k u = .next t :=
  runCodes_induct (P := fun s t => ∃ k, core.run k s = .next t) (fun _ _ => ⟨0, rfl⟩)
    (fun _ _ _ _ hd steps ⟨k, rest⟩ => ⟨k + 1, run_succ_eq_next.mpr ⟨_, (step_eq_codeStep hd).trans steps, rest⟩⟩) h

/-- A step that stops is how the decode stops. -/
theorem finishDecode_stops {w : State} (hw : w.dec ≠ none) :
    (∀ r, step w = .fault r → finishDecode w = .fault r) ∧ (∀ r, step w = .refused r → finishDecode w = .refused r) := by
  obtain ⟨d, hd⟩ := Option.ne_none_iff_exists'.mp hw
  obtain ⟨k, fuel⟩ := Nat.exists_eq_add_of_lt (codeFuel_pos hd)
  rw [finishDecode, fuel, Nat.zero_add, runCodes_succ hd, step_eq_codeStep hd]
  exact ⟨fun r h => by rw [h]; rfl, fun r h => by rw [h]; rfl⟩

/-- A decode command, from its checks `m`. -/
theorem decodeCommand_steps {i : Instr} {m : M Unit} {s : State}
    (command : exec i s = andThen (runM m (s.setDec none)) finishDecode) :
    (∀ t, exec i s = .next t → ∃ u n, runM m (s.setDec none) = .next u ∧ core.run n u = .next t ∧ t.dec = none)
      ∧ (∀ r, runM m (s.setDec none) = .fault r → exec i s = .fault r)
      ∧ (∀ r, runM m (s.setDec none) = .refused r → exec i s = .refused r)
      ∧ ∀ u, runM m (s.setDec none) = .next u →
        (u.dec = none → exec i s = .next u)
        ∧ ∀ (n : Nat) (w : State), core.run n u = .next w → w.dec ≠ none →
          (∀ t, step w = .next t → t.dec = none → exec i s = .next t)
          ∧ (∀ r, step w = .fault r → exec i s = .fault r)
          ∧ (∀ r, step w = .refused r → exec i s = .refused r) := by
  refine ⟨fun t h => ?_, fun r h => by rw [command, h]; rfl, fun r h => by rw [command, h]; rfl, fun u h => ?_⟩
  · obtain ⟨u, begun, finished⟩ := andThen_eq_next.mp (command.symm.trans h)
    obtain ⟨n, steps⟩ := run_of_runCodes finished
    exact ⟨u, n, begun, steps, runCodes_dec finished⟩
  · rw [command, h, andThen_next]
    refine ⟨finishDecode_idle, fun n w steps hw => ?_⟩
    rw [finishDecode_run steps hw]
    refine ⟨fun t last ended => ?_, finishDecode_stops hw⟩
    obtain ⟨d, hd⟩ := Option.ne_none_iff_exists'.mp hw
    rw [finishDecode_codeStep hd ((step_eq_codeStep hd).symm.trans last), finishDecode_idle ended]

/-- Settles O7. -/
theorem decodeCommandsAreTheirSteps : Obligations.DecodeCommandsAreTheirSteps := by
  intro v s x hx
  simp only [List.mem_cons, List.not_mem_nil, or_false] at hx
  rcases hx with rfl | rfl | rfl
  · exact decodeCommand_steps rfl
  · exact decodeCommand_steps rfl
  · exact decodeCommand_steps rfl

end Sys2Proof.Machine
end

section
/-! A strip from its descriptor to its last pixel, and the strips of the family ZIGZAG (spec/40_bitmap_codec.md R91, R92, R101 to
R103). -/

namespace Sys2Proof.Machine

/-! A strip in progress -/

/-- A strip decode that has produced `d.k` pixels: in progress, or ended with the last of them (40_bitmap_codec.md R92). -/
def inStrip (s : State) (d : Decode) : State := if d.k < decodeTotal d then s.setDec (some d) else s.decodeEnded d

/-- Pixels leave the strip so many pixels further on. -/
theorem afterPixels_inStrip (s : State) (d : Decode) (cs : List Byte) :
    afterPixels s d cs = inStrip { s with mem := paintPixels s d s.mem d.k cs } { d with k := d.k + cs.length } := rfl

theorem afterCode_inStrip (s : State) (d : Decode) (n : Nat) (m : Memory) :
    afterCode s d n m = inStrip { s with mem := m } { d with k := d.k + n } := rfl

theorem inStrip_more {s : State} {d : Decode} (hk : d.k < decodeTotal d) : inStrip s d = s.setDec (some d) := if_pos hk

/-- The strip does not depend on the decode that was in progress before. -/
theorem inStrip_setDec (s : State) (x : Option Decode) (d : Decode) : inStrip (s.setDec x) d = inStrip s d :=
  afterCode_setDec s d 0 s.mem x

/-- A strip in progress does its next code, and then what follows. -/
theorem finishDecode_inStrip {s t : State} {d : Decode} (hk : d.k < decodeTotal d)
    (h : codeStep (s.setDec (some d)) = .next t) : finishDecode (inStrip s d) = finishDecode t := by
  rw [inStrip_more hk]
  exact finishDecode_codeStep rfl h

/-- The strip with all its pixels. -/
theorem finishDecode_inStrip_all {s : State} {d : Decode} (hm : ∀ merge, d.phase ≠ .mask merge) (hk : decodeTotal d ≤ d.k) :
    finishDecode (inStrip s d) = .next { s with result := transparencyResult d.transparent, dec := none } := by
  have ended : inStrip s d = { s with result := transparencyResult d.transparent, dec := none } := by
    rw [inStrip, if_neg (by omega), decodeEnded_bitmap s hm]
    rfl
  rw [ended]
  exact finishDecode_idle rfl

/-- Some of the pixels that fit. -/
theorem pixelsFit_part {par : Params} {d : Decode} {k n total : Nat} (fits : pixelsFit par d 0 total) (h : k + n ≤ total) :
    pixelsFit par d k n := fun j hj => by
  have pixel := fits (k + j) (by omega)
  rwa [Nat.zero_add] at pixel

/-- Some of the pixels of the strip. -/
theorem pixelsCover_part {d : Decode} {k n total a : Nat} (covers : pixelsCover d k n a) (h : k + n ≤ total) :
    pixelsCover d 0 total a := by
  obtain ⟨j, hj, pixel⟩ := covers
  exact ⟨k + j, by omega, by rwa [Nat.zero_add]⟩

/-- The decode with `n` more pixels produced, its colour and its increment then `x`. -/
def Decode.produced (d : Decode) (n : Nat) (x : Byte × Byte) : Decode := { d with k := d.k + n, colour := x.1, inc := x.2 }

/-! Bits at a position -/

/-- Bits stay where the bytes that hold them do. -/
theorem bitsAt_congr {m m' : Memory} {p b : Nat} {bits : List Bool} (h : bitsAt m p b bits)
    (same : ∀ j, j < (b + bits.length + 7) / 8 → readByte m' (p + j) = readByte m (p + j)) : bitsAt m' p b bits := by
  intro n hn
  rw [same _ (by omega)]
  exact h n hn

/-- The bits of a code at the front. -/
theorem bitsAt_left {m : Memory} {p b : Nat} {xs ys : List Bool} (h : bitsAt m p b (xs ++ ys)) : bitsAt m p b xs := by
  intro n hn
  rw [h n (by rw [List.length_append]; omega), List.getD_append _ _ _ _ hn]

/-- The bits after a code. -/
theorem bitsAt_right {m : Memory} {p b : Nat} {xs ys : List Bool} (h : bitsAt m p b (xs ++ ys)) :
    bitsAt m (p + (b + xs.length) / 8) ((b + xs.length) % 8) ys := by
  intro n hn
  have later := h (xs.length + n) (by rw [List.length_append]; omega)
  rw [List.getD_append_right _ _ _ _ (Nat.le_add_right ..), Nat.add_sub_cancel_left] at later
  rw [← later, show p + (b + xs.length) / 8 + ((b + xs.length) % 8 + n) / 8 = p + (b + (xs.length + n)) / 8 by omega,
    show ((b + xs.length) % 8 + n) % 8 = (b + (xs.length + n)) % 8 by omega]

/-! ZIGZAG (40_bitmap_codec.md R101 to R103) -/

/-- The codes of 30_encoding.md R71. -/
def IsZigzagCode (i : Instr) : Prop :=
  i = .zzKeep ∨ (∃ shift value, i = .zzLiteral shift value) ∨ i = .zzStep ∨ i = .zzTurn

theorem zigzagReader_gives (n : Nat) : ReaderGives IsZigzagCode (zigzagReader n)
  | false => .inl rfl
  | true => fun
    | false => readerGives_readBits n fun _ => .inr (.inl ⟨_, _, rfl⟩)
    | true => fun
      | false => .inr (.inr (.inl rfl))
      | true => .inr (.inr (.inr rfl))

/-- A ZIGZAG payload is read code by code. -/
theorem run_fetchCode_zigzag {s : State} {d : Decode} (hd : s.dec = some d) (hp : d.phase = .zigzag) :
    StateT.run fetchCode s = StateT.run (runReader (zigzagReader d.shift)) s := by
  rw [run_fetchCode hd, phaseFetch, hp]

/-- One ZIGZAG code whose bits are at the cursor. -/
theorem codeStep_zigzag {s : State} {d : Decode} {i : Instr} {next : Byte × Byte} (hp : d.phase = .zigzag) (hb : d.b < 8)
    (hk : d.k < decodeTotal d) (wf : i.wf = true) (space : spaceOf d.shift i = .zigzag d.shift)
    (stored : bitsAt s.mem d.p d.b (encode i)) (there : readable s.par d.p ((d.b + (encode i).length + 7) / 8))
    (fits : pixelsFit s.par d d.k 1) (hnext : next = zigzagAfter (d.colour, d.inc) i) :
    codeStep (s.setDec (some d)) = .next (inStrip { s with mem := paintPixel s d s.mem d.k next.1 }
      ((d.skipBits (encode i).length).produced 1 next)) := by
  subst hnext
  have bitmap : decodeTotal d = 8 * d.height := decodeTotal_of_phase hp fun _ e => nomatch e
  have fetched := run_fetchCode_encoded (s := s.setDec (some d)) rfl hb (by rw [hp]; nofun) wf
    (by rw [space, phaseSpace, hp]) stored there
  have code := runReader_gives (zigzagReader_gives d.shift)
    ((run_fetchCode_zigzag (s := s.setDec (some d)) rfl hp).symm.trans fetched)
  obtain ⟨t, ran, after, -⟩ := zigzagCodesRun (s.setDec (some (d.skipBits (encode i).length))) (d.skipBits (encode i).length) i code rfl hp (bitmap ▸ hk) fits
  refine ((codeStep_exec fetched).trans ran).trans ?_
  rw [after, afterPixels_inStrip]
  exact congrArg Host.Outcome.next (inStrip_setDec { s with mem := _ } _ _)

theorem zigzagColours_tail (x : Byte × Byte) (codes : List Instr) :
    zigzagColours x codes = x.1 :: (zigzagColours x codes).tail := by
  cases codes <;> rfl

/-- The codes that are left of a ZIGZAG strip, when their bits are at the cursor and apart from the strip's pixels. -/
theorem finishDecode_zigzag : ∀ {codes : List Instr} {s : State} {d : Decode} {total : Nat}, d.phase = .zigzag → d.b < 8 →
    (∀ i ∈ codes, i.wf = true ∧ spaceOf d.shift i = .zigzag d.shift) → decodeTotal d = total → d.k + codes.length = total →
    bitsAt s.mem d.p d.b (codes.flatMap encode) → readable s.par d.p ((d.b + (codes.flatMap encode).length + 7) / 8) →
    pixelsFit s.par d 0 total →
    (∀ j, j < (d.b + (codes.flatMap encode).length + 7) / 8 → ¬ pixelsCover d 0 total (d.p + j)) →
    finishDecode (inStrip s d) = .next { s with
      mem := paintPixels s d s.mem d.k (zigzagColours (d.colour, d.inc) codes).tail,
      result := transparencyResult d.transparent, dec := none }
  | [], s, d, _, hp, _, _, all, count, _, _, _, _ =>
    finishDecode_inStrip_all (fun _ e => nomatch hp.symm.trans e) (Nat.le_of_eq (all.trans count.symm))
  | i :: codes, s, d, total, hp, hb, coded, all, count, stored, there, fits, apart => by
    obtain ⟨wf, space⟩ := coded i List.mem_cons_self
    rw [List.length_cons] at count
    rw [List.flatMap_cons] at stored
    rw [List.flatMap_cons, List.length_append] at there apart
    have left : d.k + 1 + codes.length = total := by omega
    have more : d.k < decodeTotal d := by omega
    have step := codeStep_zigzag hp hb more wf space (bitsAt_left stored)
      (readable_sub there (Nat.le_refl _) (Nat.add_le_add_left (by omega) _)) (pixelsFit_part fits (all ▸ more)) rfl
    have stays : ∀ j, j < (d.b + ((encode i).length + (codes.flatMap encode).length) + 7) / 8 →
        readByte (paintPixel s d s.mem d.k (zigzagAfter (d.colour, d.inc) i).1) (d.p + j) = readByte s.mem (d.p + j) :=
      fun j hj => readByte_paintPixel _ _ fun covers => apart j hj ⟨d.k, all ▸ more, by rwa [Nat.zero_add]⟩
    have rest := finishDecode_zigzag (codes := codes) (s := { s with mem := paintPixel s d s.mem d.k (zigzagAfter (d.colour, d.inc) i).1 })
      (d := (d.skipBits (encode i).length).produced 1 (zigzagAfter (d.colour, d.inc) i)) hp (Nat.mod_lt _ (by decide))
      (fun c hc => coded c (List.mem_cons_of_mem i hc)) all left
      (bitsAt_right (bitsAt_congr stored (by rwa [List.length_append])))
      (readable_sub there (Nat.le_add_right ..) (by simp only [Decode.produced, Decode.skipBits]; omega)) fits
      fun j hj => by
        simp only [Decode.produced, Decode.skipBits] at hj ⊢
        rw [Nat.add_assoc]
        exact apart _ (by omega)
    refine (finishDecode_inStrip more step).trans (rest.trans ?_)
    have colours : (zigzagColours (d.colour, d.inc) (i :: codes)).tail = (zigzagAfter (d.colour, d.inc) i).1
        :: (zigzagColours (zigzagAfter (d.colour, d.inc) i) codes).tail := zigzagColours_tail _ codes
    rw [colours]
    refine congrArg (fun m => Host.Outcome.next ({ s with mem := m, result := _, dec := none } : State)) ?_
    exact paintPixels_congr (s := s) (t := { s with mem := paintPixel s d s.mem d.k (zigzagAfter (d.colour, d.inc) i).1 }) (d := d)
      (e := (d.skipBits (encode i).length).produced 1 (zigzagAfter (d.colour, d.inc) i)) rfl rfl rfl
      ⟨rfl, rfl, rfl, rfl, rfl, rfl⟩ _ _ _

/-! From the descriptor on -/

/-- Settles O59: the initial colour, and then the codes by `finishDecode_zigzag`. -/
theorem zigzagStripDecodes : Obligations.ZigzagStripDecodes := by
  intro s v e codes x h src d bits size he hf hs coded count valid profile there stored fits apart
  have first : readable s.par src 1 := readable_sub there (Nat.le_refl _) (by omega)
  have colour : readable s.par (src + 1) 1 := readable_sub there (by omega) (by omega)
  have more : 1 ≤ 8 * h := by omega
  let w := describedStrip s (s.screen v).format e
  have phase : w.phase = .zigzag := congrArg familyPhase hf
  have total : decodeTotal w = 8 * h := decodeTotal_of_phase phase fun _ e => nomatch e
  have begun := runM_bitBody (s := atDescriptor s (s.screen v).format) (w := w) rfl rfl colour (pixelsFit_part fits more)
  rw [afterPixels_inStrip] at begun
  have strip := exec_decodeStrip_whole valid profile (by omega) first he
    (by rw [familyBody_bit hs (by rw [hf]; decide)]; exact begun)
  let c := readByte s.mem (src + 1)
  let t : State := { atDescriptor s (s.screen v).format with
    mem := paintPixels (atDescriptor s (s.screen v).format) { w with p := src + 1 + 1, colour := c, inc := 0xFF#8 } s.mem 0 [c] }
  have painted : t.mem = paintPixel s d s.mem 0 c :=
    paintPixels_congr (s := s) (t := atDescriptor s (s.screen v).format) (d := d)
      (e := { w with p := src + 1 + 1, colour := c, inc := 0xFF#8 }) rfl rfl rfl ⟨rfl, rfl, rfl, rfl, rfl, rfl⟩ [c] s.mem 0
  have unpainted : ∀ j, j < size → readByte t.mem (src + j) = readByte s.mem (src + j) := fun j hj => by
    rw [painted]
    exact readByte_paintPixel _ _ fun covers => apart j hj ⟨0, more, covers⟩
  have payload : readable s.par (src + 2) ((0 + bits.length + 7) / 8) := readable_sub there (by omega) (by omega)
  have kept : bitsAt t.mem (src + 2) 0 bits := bitsAt_congr stored fun j hj => by
    rw [Nat.add_assoc]
    exact unpainted (2 + j) (by omega)
  have clear : ∀ j, j < (0 + bits.length + 7) / 8 → ¬ pixelsCover d 0 (8 * h) (src + 2 + j) := fun j hj => by
    rw [Nat.add_assoc]
    exact apart (2 + j) (by omega)
  have rest := finishDecode_zigzag (codes := codes) (s := t) (d := { w with p := src + 1 + 1, colour := c, inc := 0xFF#8, k := 1 })
    phase (Nat.zero_lt_succ 7) coded total ((Nat.add_comm ..).trans count) kept payload fits clear
  refine (strip.trans rest).trans ?_
  rw [zigzagColours_tail (c, 0xFF#8)]
  refine congrArg (fun m => Host.Outcome.next ({ s with mem := m, result := transparencyResult e.transparent, dec := none } : State)) ?_
  rw [painted]
  exact paintPixels_congr (s := s) (t := t) (d := d) (e := { w with p := src + 1 + 1, colour := c, inc := 0xFF#8, k := 1 })
    rfl rfl rfl ⟨rfl, rfl, rfl, rfl, rfl, rfl⟩ _ _ _

end Sys2Proof.Machine
end

section
/-! DECODE_STRIP of any stream: every code answers, wherever the cursor is below the end of memory, and gives at least one
pixel a colour (spec/40_bitmap_codec.md R90 to R94; 20_memory.md R57). -/

namespace Sys2Proof.Machine

/-! Reads below the end of memory (20_memory.md R57) -/

/-- A byte that may hold no memory is read all the same. -/
theorem loadByte_answers {s : State} {a : Nat} (h : a < 2 ^ s.par.addressBits) :
    Answers (loadByte a) s fun _ t => ∃ f, t = { s with freeCount := f } := by
  by_cases hm : mapped s.par a = true
  · exact ⟨_, s, run_loadByte_mapped h hm, s.freeCount, rfl⟩
  · exact ⟨_, _, by rw [run_loadByte, if_pos h, if_neg hm], _, rfl⟩

theorem nextByte_answers {s : State} {d : Decode} (hd : s.dec = some d) (h : d.p < 2 ^ s.par.addressBits) :
    Answers nextByte s fun _ t => ∃ f, t = { s with freeCount := f, dec := some { d with p := d.p + 1 } } := by
  obtain ⟨c, _, read, f, rfl⟩ := loadByte_answers h
  exact ⟨c, _, by rw [nextByte, run_bind_ok (run_currentDecode hd), run_bind_ok read]; rfl, f, rfl⟩

theorem readBit_answers {s : State} {d : Decode} (hd : s.dec = some d) (hb : d.b < 8) (h : d.p < 2 ^ s.par.addressBits) :
    Answers readBit s fun _ t => ∃ f, t = { s with freeCount := f, dec := some (d.skipBits 1) } := by
  obtain ⟨c, _, read, f, rfl⟩ := loadByte_answers h
  have moved : (if d.b = 7 then { d with b := 0, p := d.p + 1 } else { d with b := d.b + 1 }) = d.skipBits 1 := by
    rw [Decode.skipBits]
    split
    case isTrue last => rw [last]
    case isFalse inside => rw [show (d.b + 1) / 8 = 0 by omega, show (d.b + 1) % 8 = d.b + 1 by omega]; rfl
  refine ⟨c.getLsbD d.b, _, ?_, f, rfl⟩
  rw [readBit, run_bind_ok (run_currentDecode hd), run_bind_ok read, moved]
  rfl

/-- A reader that asks for no more than `n` bits. -/
def ReadsAtMost {α : Type} : Reader α → Nat → Prop
  | .done _, _ => True
  | .bit next, n => 0 < n ∧ ∀ b, ReadsAtMost (next b) (n - 1)

theorem readsAtMost_mono {α : Type} : ∀ {r : Reader α} {n m : Nat}, ReadsAtMost r n → n ≤ m → ReadsAtMost r m
  | .done _, _, _, _, _ => trivial
  | .bit _, _, _, ⟨pos, rest⟩, le => ⟨by omega, fun b => readsAtMost_mono (rest b) (by omega)⟩

theorem readsAtMost_readBits {α : Type} {m : Nat} : ∀ (n : Nat) {k : Nat → Reader α}, (∀ v, ReadsAtMost (k v) m) →
    ReadsAtMost (readBits n k) (n + m)
  | 0, _, h => readsAtMost_mono (h 0) (by omega)
  | n + 1, _, h => ⟨by omega, fun b =>
    readsAtMost_mono (readsAtMost_readBits n fun v => h (b.toNat + 2 * v)) (by omega)⟩

/-- The bits a reader asks for are below the end of memory. -/
theorem runReader_answers {α : Type} : ∀ {r : Reader α} {n : Nat} {s : State} {d : Decode}, ReadsAtMost r n →
    s.dec = some d → d.b < 8 → 8 * d.p + d.b + n ≤ 8 * 2 ^ s.par.addressBits →
    Answers (runReader r) s fun _ t => ∃ m f, m ≤ n ∧ t = { s with freeCount := f, dec := some (d.skipBits m) }
  | .done x, n, s, d, _, hd, hb, _ => ⟨x, s, rfl, 0, s.freeCount, Nat.zero_le n, by rw [skipBits_zero hb, ← hd]⟩
  | .bit next, n, s, d, ⟨pos, reads⟩, hd, hb, room => by
    rw [runReader]
    refine answers_bind (readBit_answers hd hb (by omega)) ?_
    rintro x _ ⟨f, rfl⟩
    refine answers_mono (runReader_answers (d := d.skipBits 1) (reads x) rfl (Nat.mod_lt _ (by decide))
      (by simp only [Decode.skipBits]; omega)) ?_
    rintro y _ ⟨m, f', hm, rfl⟩
    exact ⟨m + 1, f', by omega, by rw [skipBits_succ]⟩

/-! Colours the stream gives, whatever it is -/

theorem paintPixels_freeCount (s : State) (f : Nat) (d : Decode) (m : Memory) (k : Nat) (cs : List Byte) :
    paintPixels { s with freeCount := f } d m k cs = paintPixels s d m k cs :=
  paintPixels_congr (s := s) (t := { s with freeCount := f }) (d := d) (e := d) rfl rfl rfl ⟨rfl, rfl, rfl, rfl, rfl, rfl⟩ cs m k

/-- Literal colours, one byte a pixel. -/
theorem paintLiterals_answers {d : Decode} : ∀ {n k : Nat} {s : State} {e : Decode}, s.dec = some e →
    e.p + n ≤ 2 ^ s.par.addressBits → pixelsFit s.par d k n →
    Answers (loopFrom (fun k => do
        let c ← nextByte
        putPixel d c k) k n) s fun _ t => ∃ cs f, cs.length = n
          ∧ t = { s with mem := paintPixels s d s.mem k cs, freeCount := f, dec := some { e with p := e.p + n } }
  | 0, k, s, e, he, _, _ => ⟨(), s, rfl, [], s.freeCount, rfl, (setDec_self he).symm⟩
  | n + 1, k, s, e, he, room, fits => by
    rw [loopFrom]
    refine answers_bind (P := fun _ t => ∃ c f,
      t = { s with mem := paintPixel s d s.mem k c, freeCount := f, dec := some { e with p := e.p + 1 } }) ?_ ?_
    · refine answers_bind (nextByte_answers he (by omega)) ?_
      rintro c _ ⟨f, rfl⟩
      exact ⟨(), _, run_putPixel (s := { s with freeCount := f, dec := _ }) c (fits 0 (Nat.zero_lt_succ n)), c, f, rfl⟩
    · rintro _ _ ⟨c, f, rfl⟩
      refine answers_mono (paintLiterals_answers (n := n) (k := k + 1) (e := { e with p := e.p + 1 }) rfl
        (show e.p + 1 + n ≤ 2 ^ s.par.addressBits by omega) fun j hj => by rw [Nat.add_assoc]; exact fits (1 + j) (by omega)) ?_
      rintro _ _ ⟨cs, f', hcs, rfl⟩
      refine ⟨c :: cs, f', congrArg Nat.succ hcs, ?_⟩
      rw [Nat.add_assoc, Nat.add_comm 1]
      refine congrArg (fun m => ({ s with mem := m, freeCount := f', dec := some { e with p := e.p + (n + 1) } } : State)) ?_
      exact paintPixels_congr (s := s) (t := { s with mem := paintPixel s d s.mem k c, freeCount := f, dec := _ }) (d := d) (e := d)
        rfl rfl rfl ⟨rfl, rfl, rfl, rfl, rfl, rfl⟩ cs _ _

/-- Literal colours for the next pixels, and the end of their code. -/
theorem literals_answers {s : State} {d : Decode} {n : Nat} (hd : s.dec = some d) (room : d.p + n ≤ 2 ^ s.par.addressBits)
    (fits : pixelsFit s.par d d.k n) :
    ∃ cs f, cs.length = n ∧ StateT.run (loopFrom (fun k => do
      let c ← nextByte
      putPixel d c k) d.k n >>= fun _ => advance n) s
        = .ok ((), afterPixels { s with freeCount := f } { d with p := d.p + n } cs) := by
  obtain ⟨_, _, drawn, cs, f, hcs, rfl⟩ := paintLiterals_answers (d := d) hd room fits
  refine ⟨cs, f, hcs, ?_⟩
  rw [← paintPixels_freeCount s f] at drawn
  exact run_painted (s := { s with freeCount := f }) (e := { d with p := d.p + n }) drawn hcs ⟨rfl, rfl, rfl, rfl, rfl, rfl⟩ rfl

/-! What one code comes to -/

/-- Where a strip decode stands: what is left of the strip needs no byte past the end of memory, at most two bytes a pixel,
and fits. -/
structure StripReady (s : State) (d : Decode) : Prop where
  bitmap : ∀ merge, d.phase ≠ .mask merge
  width : d.shift ≤ 9
  bit : d.b < 8
  byte : d.phase = .rle8 → d.b = 0
  inside : d.k ≤ decodeTotal d
  room : 8 * d.p + d.b + 16 * (decodeTotal d - d.k) ≤ 8 * 2 ^ s.par.addressBits
  fits : pixelsFit s.par d 0 (decodeTotal d)

/-- The state after `n` pixels took some colours, with the cursor at most two bytes a pixel further on. -/
def Drawn (s : State) (d : Decode) (n : Nat) (t : State) : Prop :=
  ∃ q b x cs f, cs.length = n ∧ b < 8 ∧ (d.phase = .rle8 → b = 0) ∧ 8 * q + b ≤ 8 * d.p + d.b + 16 * n
    ∧ t = inStrip { s with mem := paintPixels s d s.mem d.k cs, freeCount := f } ({ d with p := q, b := b }.produced n x)

/-- A code that gives pixels their colours has drawn them. -/
theorem drawn_of_afterPixels {s : State} {d : Decode} {q b f : Nat} {x : Byte × Byte} {y : Option Decode} {cs : List Byte}
    (hb : b < 8) (byte : d.phase = .rle8 → b = 0) (room : 8 * q + b ≤ 8 * d.p + d.b + 16 * cs.length) :
    Drawn s d cs.length
      (afterPixels { s with freeCount := f, dec := y } { d with p := q, b := b, colour := x.1, inc := x.2 } cs) := by
  refine ⟨q, b, x, cs, f, rfl, hb, byte, room, ?_⟩
  rw [afterPixels_inStrip]
  refine (inStrip_setDec { s with mem := _, freeCount := f } y _).trans ?_
  refine congrArg (fun m => inStrip { s with mem := m, freeCount := f } ({ d with p := q, b := b }.produced cs.length x)) ?_
  exact paintPixels_congr (s := s) (t := { s with freeCount := f, dec := y }) (d := d)
    (e := { d with p := q, b := b, colour := x.1, inc := x.2 }) rfl rfl rfl ⟨rfl, rfl, rfl, rfl, rfl, rfl⟩ cs _ _

/-- A bit-coded instruction of phase `ph` gives at least one more pixel its colour, whatever the decode. -/
def Draws (ph : Phase) (i : Instr) : Prop :=
  ∀ (s : State) (d : Decode), s.dec = some d → d.phase = ph → d.k < 8 * d.height → pixelsFit s.par d 0 (8 * d.height) →
    ∃ (x : Byte × Byte) (cs : List Byte), 0 < cs.length ∧ d.k + cs.length ≤ 8 * d.height
      ∧ exec i s = .next (afterPixels s { d with colour := x.1, inc := x.2 } cs)

theorem draws_zigzag {i : Instr} (h : IsZigzagCode i) : Draws .zigzag i := by
  intro s d hd hp hk fits
  obtain ⟨_, ran, rfl, -⟩ := zigzagCodesRun s d i h hd hp hk (pixelsFit_part fits hk)
  exact ⟨_, [_], Nat.zero_lt_one, hk, ran⟩

theorem readerGives_mono {α : Type} {P Q : α → Prop} (h : ∀ x, P x → Q x) : ∀ {r : Reader α}, ReaderGives P r → ReaderGives Q r
  | .done x, given => h x given
  | .bit _, given => fun b => readerGives_mono h (given b)

/-- A MAJMIN_RUN code of one pixel. -/
theorem draws_majminRun {i : Instr} (c : Byte → Byte) (h : ∀ d : Decode, i = .mmrKeep ∧ c d.colour = d.colour
    ∨ (∃ shift, i = .mmrLiteral shift (c d.colour))
    ∨ ∃ v : BitVec 3, i = .mmrDelta v ∧ c d.colour = d.colour + BitVec.ofInt 8 ((v.toNat : Int) - 4)) : Draws .majminRun i := by
  intro s d hd hp hk fits
  obtain ⟨_, ran, rfl, -⟩ := (majminRunCodesRun s d hd hp hk).1 i (c d.colour) (h d) (pixelsFit_part fits hk)
  exact ⟨(c d.colour, d.inc), [_], Nat.zero_lt_one, hk, ran⟩

theorem draws_mmrRun (n : Byte) : Draws .majminRun (.mmrRun n) := by
  intro s d hd hp hk fits
  have pos : 0 < (if n = 0 then 256 else n.toNat) := by
    split
    case isTrue => decide
    case isFalse nonzero => exact Nat.pos_of_ne_zero fun h => nonzero (BitVec.eq_of_toNat_eq h)
  obtain ⟨_, ran, rfl, -⟩ := (majminRunCodesRun s d hd hp hk).2 n (pixelsFit_part (total := 8 * d.height) fits (by omega))
  exact ⟨(d.colour, d.inc), _, by rw [List.length_replicate]; omega, by rw [List.length_replicate]; omega, ran⟩

theorem draws_majminDelta {i : Instr} (c : Byte → Byte) (h : ∀ d : Decode, i = .mmdKeep ∧ c d.colour = d.colour
    ∨ (∃ shift, i = .mmdLiteral shift (c d.colour))
    ∨ ∃ j : BitVec 3, i = .mmdDelta j
      ∧ c d.colour = d.colour + BitVec.ofInt 8 (([-4, -3, -2, -1, 1, 2, 3, 4] : List Int).getD j.toNat 0)) :
    Draws .majminDelta i := by
  intro s d hd hp hk fits
  obtain ⟨_, ran, rfl, -⟩ := majminDeltaCodesRun s d i (c d.colour) (h d) hd hp hk (pixelsFit_part fits hk)
  exact ⟨(c d.colour, d.inc), [_], Nat.zero_lt_one, hk, ran⟩

/-! The bit-coded families (30_encoding.md R71 to R73) -/

theorem draws_zigzagReader (n : Nat) : ReaderGives (Draws .zigzag) (zigzagReader n) :=
  readerGives_mono (fun _ => draws_zigzag) (zigzagReader_gives n)

theorem draws_majminRunReader (n : Nat) : ReaderGives (Draws .majminRun) (majminRunReader n)
  | false => draws_majminRun id fun _ => .inl ⟨rfl, rfl⟩
  | true => fun
    | false => readerGives_readBits n fun _ => draws_majminRun (fun _ => _) fun _ => .inr (.inl ⟨_, rfl⟩)
    | true => by
      dsimp only
      rw [if_pos rfl]
      refine readerGives_readBits 3 fun v => ?_
      split
      · exact readerGives_readBits 8 fun m => draws_mmrRun _
      · exact draws_majminRun (fun c => c + BitVec.ofInt 8 (((BitVec.ofNat 3 v).toNat : Int) - 4)) fun _ =>
          .inr (.inr ⟨_, rfl, rfl⟩)

theorem draws_majminDeltaReader (n : Nat) : ReaderGives (Draws .majminDelta) (majminDeltaReader n)
  | false => draws_majminDelta id fun _ => .inl ⟨rfl, rfl⟩
  | true => fun
    | false => readerGives_readBits n fun _ => draws_majminDelta (fun _ => _) fun _ => .inr (.inl ⟨_, rfl⟩)
    | true => by
      dsimp only
      rw [if_pos rfl]
      refine readerGives_readBits 3 fun v => ?_
      exact draws_majminDelta
        (fun c => c + BitVec.ofInt 8 (([-4, -3, -2, -1, 1, 2, 3, 4] : List Int).getD (BitVec.ofNat 3 v).toNat 0)) fun _ =>
          .inr (.inr ⟨_, rfl, rfl⟩)

theorem readsAtMost_zigzag {n : Nat} (hn : n ≤ 14) : ReadsAtMost (zigzagReader n) 16 :=
  ⟨by decide, fun
    | false => trivial
    | true => ⟨by decide, fun
      | false => readsAtMost_mono (readsAtMost_readBits (m := 0) n fun _ => trivial) hn
      | true => ⟨by decide, fun _ => trivial⟩⟩⟩

theorem readsAtMost_majminRun {n : Nat} (hn : n ≤ 14) : ReadsAtMost (majminRunReader n) 16 :=
  ⟨by decide, fun
    | false => trivial
    | true => ⟨by decide, fun
      | false => readsAtMost_mono (readsAtMost_readBits (m := 0) n fun _ => trivial) hn
      | true => by
        dsimp only
        rw [if_pos rfl]
        refine readsAtMost_mono (n := 3 + 8) (readsAtMost_readBits 3 fun v => ?_) (by decide)
        split
        · exact readsAtMost_readBits (m := 0) 8 fun _ => trivial
        · trivial⟩⟩

theorem readsAtMost_majminDelta {n : Nat} (hn : n ≤ 14) : ReadsAtMost (majminDeltaReader n) 16 :=
  ⟨by decide, fun
    | false => trivial
    | true => ⟨by decide, fun
      | false => readsAtMost_mono (readsAtMost_readBits (m := 0) n fun _ => trivial) hn
      | true => by
        dsimp only
        rw [if_pos rfl]
        refine readsAtMost_mono (n := 3 + 0) (readsAtMost_readBits 3 fun v => ?_) (by decide)
        trivial⟩⟩

/-- A bit-coded family's next code draws at least one pixel. -/
theorem codeStep_bits {s : State} {d : Decode} {r : Reader Instr} (ready : StripReady s d) (hk : d.k < decodeTotal d)
    (fetch : phaseFetch d = runReader r) (bits : d.phase ≠ .rle8) (reads : ReadsAtMost r 16)
    (draws : ReaderGives (Draws d.phase) r) :
    ∃ n t, 0 < n ∧ d.k + n ≤ decodeTotal d ∧ codeStep (s.setDec (some d)) = .next t ∧ Drawn s d n t := by
  have room := ready.room
  have bitmap := decodeTotal_bitmap ready.bitmap
  obtain ⟨i, _, read, m, f, hm, rfl⟩ := runReader_answers (s := s.setDec (some d)) reads rfl ready.bit (by
    show 8 * d.p + d.b + 16 ≤ 8 * 2 ^ s.par.addressBits
    omega)
  obtain ⟨x, cs, pos, le, ran⟩ := runReader_gives draws read { s with freeCount := f, dec := some (d.skipBits m) } (d.skipBits m) rfl rfl (bitmap ▸ hk) (bitmap ▸ ready.fits)
  have fetched : StateT.run fetchCode (s.setDec (some d)) = _ :=
    (run_fetchCode rfl).trans ((congrArg (StateT.run · (s.setDec (some d))) fetch).trans read)
  refine ⟨cs.length, _, pos, by rw [bitmap]; exact le, (codeStep_exec fetched).trans ran, ?_⟩
  refine drawn_of_afterPixels (d := d) (Nat.mod_lt _ (by decide)) (fun h => absurd h bits) ?_
  show 8 * (d.p + (d.b + m) / 8) + (d.b + m) % 8 ≤ 8 * d.p + d.b + 16 * cs.length
  omega

/-! RLE8 (30_encoding.md R74) -/

theorem run_rle8Run {s : State} {d : Decode} {len : BitVec 7} {n : Nat} (hd : s.dec = some d) (hp : d.phase = .rle8)
    (hk : d.k < decodeTotal d) (hn : cutShort d (len.toNat + 1) = n) (room : d.p + 1 ≤ 2 ^ s.par.addressBits)
    (fits : pixelsFit s.par d d.k n) :
    ∃ cs f, cs.length = n ∧ exec (.rle8Run len) s = .next (afterPixels { s with freeCount := f } { d with p := d.p + 1 } cs) := by
  obtain ⟨c, _, read, f, rfl⟩ := nextByte_answers hd room
  have code : exec (.rle8Run len) s = execRle8Run len s := rfl
  refine ⟨List.replicate n c, f, List.length_replicate .., ?_⟩
  rw [code, execRle8Run]
  refine runM_of_ok ?_
  rw [run_bind_ok (run_decodeIn hd hp hk), run_bind_ok read, hn]
  exact run_paintedRun (s := { s with freeCount := f }) c fits

theorem run_rle8Lit {s : State} {d : Decode} {len : BitVec 7} {n : Nat} (hd : s.dec = some d) (hp : d.phase = .rle8)
    (hk : d.k < decodeTotal d) (hn : cutShort d (len.toNat + 1) = n) (room : d.p + n ≤ 2 ^ s.par.addressBits)
    (fits : pixelsFit s.par d d.k n) :
    ∃ cs f, cs.length = n ∧ exec (.rle8Lit len) s = .next (afterPixels { s with freeCount := f } { d with p := d.p + n } cs) := by
  obtain ⟨cs, f, hcs, drawn⟩ := literals_answers hd room fits
  have code : exec (.rle8Lit len) s = execRle8Lit len s := rfl
  refine ⟨cs, f, hcs, ?_⟩
  rw [code, execRle8Lit]
  refine runM_of_ok ?_
  rw [run_bind_ok (run_decodeIn hd hp hk), hn]
  exact drawn

/-- A packet of RLE8, once its control byte is read: at least one pixel, and no more than a byte for each. -/
theorem exec_rle8Control {s : State} {d : Decode} (c : Byte) (hd : s.dec = some d) (hp : d.phase = .rle8)
    (hk : d.k < decodeTotal d) (room : d.p + (decodeTotal d - d.k) ≤ 2 ^ s.par.addressBits)
    (fits : pixelsFit s.par d 0 (decodeTotal d)) :
    ∃ q cs f, 0 < cs.length ∧ d.k + cs.length ≤ decodeTotal d ∧ q ≤ d.p + cs.length
      ∧ exec (decodeRle8Control c) s = .next (afterPixels { s with freeCount := f } { d with p := q } cs) := by
  rw [decodeRle8Control]
  generalize c.extractLsb' 1 7 = len
  have cut : 0 < cutShort d (len.toNat + 1) ∧ cutShort d (len.toNat + 1) ≤ decodeTotal d - d.k := by
    rw [cutShort]
    omega
  obtain ⟨pos, le⟩ := cut
  have part := pixelsFit_part (k := d.k) fits (show d.k + cutShort d (len.toNat + 1) ≤ decodeTotal d by omega)
  split
  · obtain ⟨cs, f, hcs, ran⟩ := run_rle8Run (len := len) hd hp hk rfl (by omega) part
    exact ⟨d.p + 1, cs, f, by omega, by omega, by omega, ran⟩
  · obtain ⟨cs, f, hcs, ran⟩ := run_rle8Lit (len := len) hd hp hk rfl (by omega) part
    exact ⟨_, cs, f, by omega, by omega, by rw [hcs], ran⟩

/-- A packet of RLE8 draws at least one pixel. -/
theorem codeStep_rle8 {s : State} {d : Decode} (ready : StripReady s d) (hp : d.phase = .rle8) (hk : d.k < decodeTotal d) :
    ∃ n t, 0 < n ∧ d.k + n ≤ decodeTotal d ∧ codeStep (s.setDec (some d)) = .next t ∧ Drawn s d n t := by
  have room := ready.room
  have whole := ready.byte hp
  obtain ⟨c, _, read, f, rfl⟩ := nextByte_answers (s := s.setDec (some d)) rfl (show d.p < 2 ^ s.par.addressBits by omega)
  have fetch : phaseFetch d = nextByte >>= fun c => pure (decodeRle8Control c) := by rw [phaseFetch, hp]
  have fetched : StateT.run fetchCode (s.setDec (some d)) = .ok (decodeRle8Control c,
      { s with freeCount := f, dec := some { d with p := d.p + 1 } }) := by
    rw [run_fetchCode rfl, fetch]
    exact run_bind_ok read _
  obtain ⟨q, cs, f', pos, le, hq, ran⟩ := exec_rle8Control (s := { s with freeCount := f, dec := some { d with p := d.p + 1 } })
    c rfl hp hk (show d.p + 1 + (decodeTotal d - d.k) ≤ 2 ^ s.par.addressBits by omega) ready.fits
  have moved : q ≤ d.p + 1 + cs.length := hq
  exact ⟨cs.length, _, pos, le, (codeStep_exec fetched).trans ran,
    drawn_of_afterPixels (d := d) (b := d.b) (x := (d.colour, d.inc)) ready.bit ready.byte (by omega)⟩

end Sys2Proof.Machine
end

section
/-! DECODE_STRIP of any stream, to the end of the strip (spec/40_bitmap_codec.md R90 to R94, R108, R109). -/

namespace Sys2Proof.Machine

/-! To the end of the strip -/

/-- What a strip in progress comes to: every pixel left has a colour, and `RESULT` the flag `T`. -/
def Completes (s : State) (d : Decode) (t : State) : Prop :=
  ∃ cs f, cs.length = decodeTotal d - d.k
    ∧ finishDecode t = .next { s with mem := paintPixels s d s.mem d.k cs, freeCount := f,
                                      result := transparencyResult d.transparent, dec := none }

/-- Pixels that were drawn, and what their strip then comes to. -/
theorem completes_drawn {s t : State} {d : Decode} {n : Nat} (drawn : Drawn s d n t) (ready : StripReady s d)
    (le : d.k + n ≤ decodeTotal d) (rest : ∀ u e, StripReady u e → e.phase = d.phase → e.k = d.k + n →
      decodeTotal e = decodeTotal d → Completes u e (inStrip u e)) : Completes s d t := by
  obtain ⟨q, b, x, cs, f, hcs, hb, byte, moved, rfl⟩ := drawn
  have room := ready.room
  obtain ⟨ds, f', hds, finished⟩ := rest { s with mem := paintPixels s d s.mem d.k cs, freeCount := f }
    ({ d with p := q, b := b }.produced n x)
    { bitmap := ready.bitmap, width := ready.width, bit := hb, byte := byte, inside := le, fits := ready.fits
      room := by
        show 8 * q + b + 16 * (decodeTotal d - (d.k + n)) ≤ 8 * 2 ^ s.par.addressBits
        omega } rfl rfl rfl
  refine ⟨cs ++ ds, f', ?_, finished.trans ?_⟩
  · rw [List.length_append, hds]
    show cs.length + (decodeTotal d - (d.k + n)) = decodeTotal d - d.k
    omega
  · rw [paintPixels_append, hcs]
    refine congrArg (fun m => Host.Outcome.next ({ s with
      mem := m, freeCount := f', result := transparencyResult d.transparent, dec := none } : State)) ?_
    exact paintPixels_congr (s := s) (t := { s with mem := paintPixels s d s.mem d.k cs, freeCount := f }) (d := d)
      (e := { d with p := q, b := b }.produced n x) rfl rfl rfl ⟨rfl, rfl, rfl, rfl, rfl, rfl⟩ ds _ _

/-- The families whose payload is a list of codes, but for EGA_RLE. -/
def codedPhases : List Phase := [.zigzag, .majminRun, .majminDelta, .rle8]

theorem codeStep_drawn {s : State} {d : Decode} (ready : StripReady s d) (hk : d.k < decodeTotal d) (coded : d.phase ∈ codedPhases) :
    ∃ n t, 0 < n ∧ d.k + n ≤ decodeTotal d ∧ codeStep (s.setDec (some d)) = .next t ∧ Drawn s d n t := by
  have width : d.shift ≤ 14 := Nat.le_trans ready.width (by decide)
  simp only [codedPhases, List.mem_cons, List.not_mem_nil, or_false] at coded
  rcases coded with hp | hp | hp | hp
  · exact codeStep_bits ready hk (by rw [phaseFetch, hp]) (by rw [hp]; decide) (readsAtMost_zigzag width)
      (hp ▸ draws_zigzagReader d.shift)
  · exact codeStep_bits ready hk (by rw [phaseFetch, hp]) (by rw [hp]; decide) (readsAtMost_majminRun width)
      (hp ▸ draws_majminRunReader d.shift)
  · exact codeStep_bits ready hk (by rw [phaseFetch, hp]) (by rw [hp]; decide) (readsAtMost_majminDelta width)
      (hp ▸ draws_majminDeltaReader d.shift)
  · exact codeStep_rle8 ready hp hk

/-- Code by code, a strip comes to its end. -/
theorem completes_ready (s : State) (d : Decode) (ready : StripReady s d)
    (coded : d.k < decodeTotal d → d.phase ∈ codedPhases) : Completes s d (inStrip s d) := by
  by_cases hk : d.k < decodeTotal d
  · obtain ⟨n, t, pos, le, step, drawn⟩ := codeStep_drawn ready hk (coded hk)
    have finished : Completes s d t := completes_drawn drawn ready le fun u e ready' phase count total =>
      completes_ready u e ready' fun _ => phase ▸ coded hk
    rwa [Completes, finishDecode_inStrip hk step]
  · exact ⟨[], s.freeCount, by rw [Nat.sub_eq_zero_of_le (Nat.le_of_not_lt hk)]; rfl,
      finishDecode_inStrip_all ready.bitmap (Nat.le_of_not_lt hk)⟩
termination_by decodeTotal d - d.k
decreasing_by omega

/-! What the descriptor leaves -/

/-- RAW, whatever bytes the payload has. -/
theorem runM_rawBody_drawn {s : State} {w : Decode} (ready : StripReady s w) :
    ∃ t, runM (rawBody w) s = .next t ∧ Drawn s w (decodeTotal w - w.k) t := by
  have room := ready.room
  have inside := ready.inside
  obtain ⟨cs, f, hcs, drawn⟩ := literals_answers (s := s.setDec (some w)) (d := w) (n := decodeTotal w - w.k) rfl
    (show w.p + _ ≤ 2 ^ s.par.addressBits by omega) (pixelsFit_part ready.fits (by omega))
  refine ⟨_, runM_of_ok drawn, ?_⟩
  rw [← hcs]
  exact drawn_of_afterPixels (d := w) (b := w.b) (x := (w.colour, w.inc)) ready.bit ready.byte (by omega)

/-- A supplied body. -/
theorem runM_suppliedBody_drawn {s : State} {w : Decode} (f : Family) (ready : StripReady s w) :
    ∃ t, runM (suppliedBody f w) s = .next t ∧ Drawn s w (decodeTotal w - w.k) t := by
  have inside := ready.inside
  refine ⟨_, runM_suppliedBody f rfl (pixelsFit_part ready.fits (by omega)), ?_⟩
  have drawn := drawn_of_afterPixels (s := s) (d := w) (q := w.p) (b := w.b) (f := s.freeCount) (x := (w.colour, w.inc)) (y := s.dec)
    (cs := (List.range' w.k (decodeTotal w - w.k)).map
      (Config.suppliedColour f w.order w.shift (codecArgs s w.format w.dst w.pitch w.p w.height))) ready.bit ready.byte (by omega)
  rwa [List.length_map, List.length_range'] at drawn

/-- A bit-coded family: the initial colour, whatever byte it is. -/
theorem runM_bitBody_drawn {s : State} {d w : Decode} (hd : s.dec = some d) (hw : d.p = w.p) (ready : StripReady s w)
    (hk : w.k < decodeTotal w) : ∃ t, runM (bitBody w) s = .next t ∧ Drawn s w 1 t := by
  have room := ready.room
  have pixel := pixelsFit_part ready.fits hk 0 Nat.zero_lt_one
  obtain ⟨c, _, read, f, rfl⟩ := nextByte_answers hd (by omega)
  refine ⟨afterPixels { s with freeCount := f } { w with p := w.p + 1, colour := c, inc := 0xFF#8 } [c], runM_of_ok ?_, ?_⟩
  · rw [bitBody, run_bind_ok read, run_bind_ok (run_setDecode _ _)]
    refine (run_bind_ok (run_putPixel (s := { s with freeCount := f, dec := _ }) (d := w) c pixel) _).trans ?_
    exact run_advance_painted (s := { s with freeCount := f }) (d := w) (cs := [c]) rfl ⟨rfl, rfl, rfl, rfl, rfl, rfl⟩ rfl
  · exact drawn_of_afterPixels (d := w) (b := w.b) (x := (c, 0xFF#8)) (cs := [c]) ready.bit ready.byte (by show _ ≤ _ + 16 * 1; omega)

/-- A family whose payload is packets has drawn nothing yet. -/
theorem drawn_packetBody {s : State} {w : Decode} (ready : StripReady s w) (hk : w.k < decodeTotal w) :
    ∃ t, runM (packetBody w) s = .next t ∧ Drawn s w 0 t :=
  ⟨s.setDec (some w), rfl, w.p, w.b, (w.colour, w.inc), [], s.freeCount, rfl, ready.bit, ready.byte, by omega,
    (inStrip_more (s := s) hk).symm⟩

/-- Whatever the family, but for the EGA_RLE of the spec, the strip is complete or goes on code by code. -/
theorem runM_familyBody_drawn {s : State} {d w : Decode} {f : Family} (hd : s.dec = some d) (hw : d.p = w.p)
    (ready : StripReady s w) (hk : w.k < decodeTotal w) (phase : w.phase = familyPhase f)
    (family : f ≠ .egaRle ∨ bodySupplied s.par f = true) :
    ∃ n t, w.k + n ≤ decodeTotal w ∧ runM (familyBody s.par f w) s = .next t ∧ Drawn s w n t
      ∧ (w.k + n < decodeTotal w → w.phase ∈ codedPhases) := by
  have whole : w.k + (decodeTotal w - w.k) = decodeTotal w := by omega
  by_cases hs : bodySupplied s.par f = true
  · obtain ⟨t, ran, drawn⟩ := runM_suppliedBody_drawn f ready
    exact ⟨_, t, Nat.le_of_eq whole, by rwa [familyBody_supplied hs], drawn, fun h => absurd h (by omega)⟩
  · have unsupplied : bodySupplied s.par f = false := Bool.eq_false_iff.mpr hs
    cases f
    case raw =>
      obtain ⟨t, ran, drawn⟩ := runM_rawBody_drawn ready
      exact ⟨_, t, Nat.le_of_eq whole, by rwa [familyBody_raw unsupplied], drawn, fun h => absurd h (by omega)⟩
    case rle8 =>
      obtain ⟨t, ran, drawn⟩ := drawn_packetBody ready hk
      exact ⟨0, t, by omega, by rwa [familyBody_packet unsupplied (.inl rfl)], drawn, fun _ => by rw [phase]; decide⟩
    case egaRle => exact absurd rfl (family.resolve_right hs)
    case added n => exact absurd rfl hs
    all_goals
      obtain ⟨t, ran, drawn⟩ := runM_bitBody_drawn hd hw ready hk
      exact ⟨1, t, hk, by rwa [familyBody_bit unsupplied (by decide)], drawn, fun _ => by rw [phase]; decide⟩

/-! DECODE_STRIP -/

/-- A strip of any stream whose family is not EGA_RLE. -/
theorem exec_anyStrip {s : State} {v : BitVec 2} {e : DescEntry} {d : Decode}
    (hd : d = describedBy (startedStrip s (s.screen v).format) e) (valid : (s.screen v).valid = true)
    (profile : s.profile = 0 ∨ s.profile = 5) (rows : 0 < s.countOperand 3) (there : readable s.par (s.addrOperand 2) 1)
    (he : descEntry s.par.descMap (readByte s.mem (s.addrOperand 2)) = some e) (fits : pixelsFit s.par d 0 (8 * s.countOperand 3))
    (family : e.family ≠ .egaRle ∨ bodySupplied s.par e.family = true)
    (room : s.addrOperand 2 + 2 + 16 * s.countOperand 3 ≤ 2 ^ s.par.addressBits) :
    ∃ cs f, cs.length = 8 * s.countOperand 3 ∧ exec (.decodeStrip v) s = .next { s with
      mem := paintPixels s d s.mem 0 cs, freeCount := f, result := transparencyResult e.transparent, dec := none } := by
  subst hd
  have total : decodeTotal (describedStrip s (s.screen v).format e) = 8 * s.countOperand 3 :=
    decodeTotal_bitmap (familyPhase_bitmap e.family)
  have ready : StripReady (atDescriptor s (s.screen v).format) (describedStrip s (s.screen v).format e) :=
    { bitmap := familyPhase_bitmap e.family
      width := Nat.le_of_lt_succ (Nat.mod_lt _ (by decide))
      bit := Nat.zero_lt_succ 7
      byte := fun _ => rfl
      inside := Nat.zero_le _
      room := by
        rw [total]
        show 8 * (s.addrOperand 2 + 1) + 0 + 16 * (8 * s.countOperand 3 - 0) ≤ 8 * 2 ^ s.par.addressBits
        omega
      fits := by rw [total]; exact fits }
  obtain ⟨n, t, le, ran, drawn, coded⟩ := runM_familyBody_drawn (s := atDescriptor s (s.screen v).format)
    (w := describedStrip s (s.screen v).format e) rfl rfl ready
    (by rw [total]; show 0 < _; omega) rfl family
  obtain ⟨cs, f, hcs, finished⟩ := completes_drawn drawn ready le fun u e' ready' phase count all =>
    completes_ready u e' ready' fun more => phase ▸ coded (by omega)
  refine ⟨cs, f, hcs.trans (congrArg (· - 0) total), ?_⟩
  rw [exec_decodeStrip_whole valid profile (by omega) there he ran]
  refine finished.trans ?_
  refine congrArg (fun m => Host.Outcome.next ({ s with
    mem := m, freeCount := f, result := transparencyResult e.transparent, dec := none } : State)) ?_
  exact paintPixels_congr (s := s) (t := atDescriptor s (s.screen v).format) (d := describedBy (startedStrip s (s.screen v).format) e)
    (e := describedStrip s (s.screen v).format e) rfl rfl rfl ⟨rfl, rfl, rfl, rfl, rfl, rfl⟩ cs _ _

end Sys2Proof.Machine
end

section
/-! Strips of the family EGA_RLE, and O48 (spec/40_bitmap_codec.md R91 to R94, R107; 30_encoding.md R75). -/

namespace Sys2Proof.Machine

/-! A payload in memory -/

/-- The bytes of a list are in memory from `p` on, at no address of `W`. -/
def Supplies (s : State) (W : Nat → Prop) (p : Nat) (bytes : List Byte) : Prop :=
  readable s.par p bytes.length ∧ ∀ j, j < bytes.length → readByte s.mem (p + j) = bytes.getD j 0 ∧ ¬ W (p + j)

theorem supplies_cons {s : State} {W : Nat → Prop} {p : Nat} {c : Byte} {rest : List Byte} (h : Supplies s W p (c :: rest)) :
    readable s.par p 1 ∧ readByte s.mem p = c ∧ Supplies s W (p + 1) rest := by
  obtain ⟨there, bytes⟩ := h
  rw [List.length_cons] at there bytes
  refine ⟨readable_sub there (Nat.le_refl p) (by omega), (bytes 0 (Nat.zero_lt_succ _)).1,
    readable_sub there (by omega) (by omega), fun j hj => ?_⟩
  have later := bytes (j + 1) (Nat.succ_lt_succ hj)
  rwa [List.getD_cons_succ, Nat.add_comm j, ← Nat.add_assoc] at later

/-- A payload stays where only bytes of `W` change. -/
theorem supplies_congr {s t : State} {W : Nat → Prop} {p : Nat} {bytes : List Byte} (h : Supplies s W p bytes)
    (par : t.par = s.par) (same : ∀ a, ¬ W a → readByte t.mem a = readByte s.mem a) : Supplies t W p bytes := by
  obtain ⟨there, stored⟩ := h
  refine ⟨par ▸ there, fun j hj => ?_⟩
  obtain ⟨byte, apart⟩ := stored j hj
  exact ⟨(same _ apart).trans byte, apart⟩

/-! Pixels of a payload -/

theorem paintEga_append (s : State) (d : Decode) : ∀ (ps qs : List (Option Byte)) (m : Memory) (k : Nat),
    paintEga s d m k (ps ++ qs) = paintEga s d (paintEga s d m k ps) (k + ps.length) qs
  | [], _, _, _ => rfl
  | p :: ps, qs, m, k => by
    rw [List.length_cons, show k + (ps.length + 1) = k + 1 + ps.length by omega]
    cases p with
    | none => exact paintEga_append s d ps qs _ _
    | some c => exact paintEga_append s d ps qs _ _

theorem paintEga_colours (s : State) (d : Decode) : ∀ (cs : List Byte) (m : Memory) (k : Nat),
    paintEga s d m k (cs.map some) = paintPixels s d m k cs
  | [], _, _ => rfl
  | _ :: cs, _, _ => paintEga_colours s d cs _ _

theorem paintEga_copies (s : State) (d : Decode) : ∀ (n : Nat) (m : Memory) (k : Nat),
    paintEga s d m k (List.replicate n none) = paintLeft s.par d m k n
  | 0, _, _ => rfl
  | n + 1, _, _ => paintEga_copies s d n _ _

/-- Painting does not look at the cursor. -/
theorem paintEga_congr {s t : State} {d e : Decode} (hp : t.par = s.par) (hr : t.roomPal = s.roomPal) (h16 : t.pal16 = s.pal16)
    (hd : e.dst = d.dst ∧ e.pitch = d.pitch ∧ e.format = d.format ∧ e.height = d.height ∧ e.order = d.order
      ∧ e.transparent = d.transparent) : ∀ (ps : List (Option Byte)) (m : Memory) (k : Nat),
    paintEga t e m k ps = paintEga s d m k ps
  | [], _, _ => rfl
  | some c :: ps, m, k => by rw [paintEga, paintEga, paintPixel_congr hp hr h16 hd, paintEga_congr hp hr h16 hd ps]
  | none :: ps, m, k => by
    have left : paintLeft t.par e m k 1 = paintLeft s.par d m k 1 := by
      obtain ⟨dst, pitch, format, height, order, -⟩ := hd
      simp only [paintLeft, pixelAddr, dst, pitch, format, height, order, hp]
    rw [paintEga, paintEga, left, paintEga_congr hp hr h16 hd ps]

/-- Bytes outside the pixels stay. -/
theorem readByte_paintEga {s : State} {d : Decode} {a : Nat} : ∀ {ps : List (Option Byte)} {m : Memory} {k : Nat},
    ¬ pixelsCover d k ps.length a → readByte (paintEga s d m k ps) a = readByte m a
  | [], _, _, _ => rfl
  | p :: ps, m, k, h => by
    have first : ¬ pixelsCover d k 1 a := fun ⟨j, hj, covers⟩ => h ⟨j, by rw [List.length_cons]; omega, covers⟩
    have rest : ¬ pixelsCover d (k + 1) ps.length a := fun ⟨j, hj, covers⟩ =>
      h ⟨j + 1, Nat.succ_lt_succ hj, by rwa [Nat.add_comm j, ← Nat.add_assoc]⟩
    cases p with
    | none => exact (readByte_paintEga rest).trans (readByte_paintLeft first)
    | some c => exact (readByte_paintEga rest).trans (readByte_paintPixel m c fun covers => first ⟨0, Nat.zero_lt_one, covers⟩)

/-- The pixels of a payload that has some are those of its first packet, and then the others. -/
theorem egaPixels_packet {fuel room : Nat} {bytes : List Byte} {pixels : List (Option Byte)}
    (h : egaPixels (fuel + 1) (room + 1) bytes = some pixels) :
    ∃ ps rest more, egaPacketPixels bytes = some (ps, rest) ∧ ps.length ≤ room + 1
      ∧ egaPixels fuel (room + 1 - ps.length) rest = some more ∧ pixels = ps ++ more := by
  rw [egaPixels] at h
  split at h
  case h_1 => cases h
  case h_2 ps rest packet =>
    split at h
    case isTrue => cases h
    case isFalse le =>
      obtain ⟨more, rest', eq⟩ := Option.map_eq_some_iff.mp h
      exact ⟨ps, rest, more, packet, Nat.le_of_not_lt le, rest', eq.symm⟩

theorem length_egaPixels : ∀ {fuel room : Nat} {bytes : List Byte} {pixels : List (Option Byte)},
    egaPixels fuel room bytes = some pixels → pixels.length = room
  | _, 0, _, pixels, h => by
    rw [egaPixels] at h
    cases h
    rfl
  | 0, _ + 1, _, _, h => by cases h
  | fuel + 1, room + 1, bytes, pixels, h => by
    obtain ⟨ps, rest, more, _, le, rest', rfl⟩ := egaPixels_packet h
    rw [List.length_append, length_egaPixels rest']
    omega

/-! Packets (30_encoding.md R75) -/

/-- The three control bytes and their fields. -/
theorem decodeEgaControl_run {c : Byte} (h : c.toNat < 128) : decodeEgaControl c = .egaRun (c.extractLsb' 4 3) (c.extractLsb' 0 4)
    ∧ (c.extractLsb' 4 3).toNat = c.toNat / 16 ∧ (c.extractLsb' 0 4).zeroExtend 8 = BitVec.ofNat 8 (c.toNat % 16) := by
  revert c
  decide

theorem decodeEgaControl_copyleft {c : Byte} (h : 128 ≤ c.toNat) (h' : c.toNat < 192) :
    decodeEgaControl c = .egaCopyleft (c.extractLsb' 0 6) ∧ (c.extractLsb' 0 6).toNat = c.toNat % 64 := by
  revert c
  decide

theorem decodeEgaControl_dither {c : Byte} (h : 192 ≤ c.toNat) :
    decodeEgaControl c = .egaDither (c.extractLsb' 0 6) ∧ (c.extractLsb' 0 6).toNat = c.toNat % 64 := by
  revert c
  decide

/-- A control byte is fetched with that byte alone. -/
theorem run_fetchCode_ega {s : State} {d : Decode} (hd : s.dec = some d) (hp : d.phase = .ega) (there : readable s.par d.p 1) :
    StateT.run fetchCode s = .ok (decodeEgaControl (readByte s.mem d.p), s.setDec (some { d with p := d.p + 1 })) := by
  have fetch : phaseFetch d = nextByte >>= fun c => pure (decodeEgaControl c) := by rw [phaseFetch, hp]
  rw [run_fetchCode hd, fetch]
  exact run_byteCode hd there decodeEgaControl

/-- The count of a packet whose bytes are supplied. -/
theorem run_egaCount {s : State} {d : Decode} {W : Nat → Prop} {bytes rest : List Byte} {field n : Nat} (hd : s.dec = some d)
    (supplied : Supplies s W d.p bytes) (h : egaCount field bytes = some (n, rest)) :
    ∃ q, StateT.run (extendedCount field) s = .ok (n, s.setDec (some { d with p := q })) ∧ Supplies s W q rest := by
  unfold egaCount at h
  split at h
  case isTrue given =>
    cases h
    refine ⟨d.p, ?_, supplied⟩
    rw [extendedCount, if_neg given, show ({ d with p := d.p } : Decode) = d from rfl, setDec_self hd]
    rfl
  case isFalse extended =>
    cases bytes with
    | nil => cases h
    | cons c bytes =>
      cases h
      obtain ⟨there, byte, more⟩ := supplies_cons supplied
      refine ⟨d.p + 1, ?_, more⟩
      rw [extendedCount, if_pos (not_not.mp extended), run_bind_ok (run_nextByte hd there), byte]
      rfl

/-- The state a packet with pixels `ps` leaves, and the bytes after it. -/
def PacketDone (s : State) (W : Nat → Prop) (d : Decode) (ps : List (Option Byte)) (rest : List Byte) (o : Answer) : Prop :=
  ∃ q, o = .next (inStrip { s with mem := paintEga s d s.mem d.k ps } { d with p := q, k := d.k + ps.length })
    ∧ Supplies s W q rest

/-- A packet of colours. -/
theorem packetDone_colours {s : State} {W : Nat → Prop} {d : Decode} {q q' : Nat} {cs : List Byte} {rest : List Byte} {o : Answer}
    (h : o = .next (afterPixels (s.setDec (some { d with p := q' })) { d with p := q } cs)) (supplied : Supplies s W q rest) :
    PacketDone s W d (cs.map some) rest o := by
  refine ⟨q, h.trans ?_, supplied⟩
  rw [afterPixels_inStrip, List.length_map, paintEga_colours]
  refine congrArg Host.Outcome.next ((inStrip_setDec { s with mem := _ } (some { d with p := q' }) _).trans ?_)
  refine congrArg (fun m => inStrip { s with mem := m } { d with p := q, k := d.k + cs.length }) ?_
  exact paintPixels_congr (s := s) (t := s.setDec (some { d with p := q' })) (d := d) (e := { d with p := q }) rfl rfl rfl
    ⟨rfl, rfl, rfl, rfl, rfl, rfl⟩ cs _ _

/-- A packet of copies. -/
theorem packetDone_copies {s : State} {W : Nat → Prop} {d : Decode} {q q' n : Nat} {rest : List Byte} {o : Answer}
    (h : o = .next (afterCode (s.setDec (some { d with p := q' })) { d with p := q } n
      (paintLeft s.par { d with p := q' } s.mem d.k n))) (supplied : Supplies s W q rest) :
    PacketDone s W d (List.replicate n none) rest o := by
  refine ⟨q, h.trans ?_, supplied⟩
  rw [afterCode_inStrip, List.length_replicate]
  refine congrArg Host.Outcome.next ((inStrip_setDec { s with mem := _ } (some { d with p := q' }) _).trans ?_)
  refine congrArg (fun m => inStrip { s with mem := m } { d with p := q, k := d.k + n }) ?_
  rw [← paintEga_copies s { d with p := q' }]
  exact paintEga_congr (s := s) (t := s) (d := d) (e := { d with p := q' }) rfl rfl rfl ⟨rfl, rfl, rfl, rfl, rfl, rfl⟩ _ _ _

/-- The packet at the front of a list, by its control byte. -/
theorem egaPacketPixels_inv {c : Byte} {bytes rest : List Byte} {ps : List (Option Byte)}
    (h : egaPacketPixels (c :: bytes) = some (ps, rest)) :
    (∃ n, c.toNat < 128 ∧ egaCount (c.toNat / 16) bytes = some (n, rest)
        ∧ ps = (List.replicate n (BitVec.ofNat 8 (c.toNat % 16))).map some)
      ∨ (∃ n, 128 ≤ c.toNat ∧ c.toNat < 192 ∧ egaCount (c.toNat % 64) bytes = some (n, rest) ∧ ps = List.replicate n none)
      ∨ ∃ n pair bytes', 192 ≤ c.toNat ∧ bytes = pair :: bytes' ∧ egaCount (c.toNat % 64) bytes' = some (n, rest)
        ∧ ps = ((List.range n).map fun z =>
          BitVec.ofNat 8 (if z % 2 = 1 then (pair : Byte).toNat % 16 else pair.toNat / 16)).map some := by
  unfold egaPacketPixels at h
  dsimp only at h
  split at h
  case isTrue low =>
    obtain ⟨⟨n, _⟩, counted, eq⟩ := Option.map_eq_some_iff.mp h
    cases eq
    exact .inl ⟨n, low, counted, List.map_replicate.symm⟩
  case isFalse high =>
    split at h
    case isTrue middle =>
      obtain ⟨⟨n, _⟩, counted, eq⟩ := Option.map_eq_some_iff.mp h
      cases eq
      exact .inr (.inl ⟨n, Nat.le_of_not_lt high, middle, counted, rfl⟩)
    case isFalse top =>
      cases bytes with
      | nil => cases h
      | cons pair bytes =>
        obtain ⟨⟨n, _⟩, counted, eq⟩ := Option.map_eq_some_iff.mp h
        cases eq
        exact .inr (.inr ⟨n, pair, bytes, Nat.le_of_not_lt top, rfl, counted, List.map_map.symm⟩)

/-- The packet at the cursor of an EGA_RLE strip, when it fits what is left. -/
theorem codeStep_ega {s : State} {d : Decode} {W : Nat → Prop} {bytes rest : List Byte} {ps : List (Option Byte)}
    (hp : d.phase = .ega) (hk : d.k < decodeTotal d) (supplied : Supplies s W d.p bytes)
    (packet : egaPacketPixels bytes = some (ps, rest)) (room : d.k + ps.length ≤ decodeTotal d)
    (fits : pixelsFit s.par d d.k ps.length)
    (left : ∀ j, j < ps.length → ps.getD j none = none → hasLeft s.par d (d.k + j)) :
    PacketDone s W d ps rest (codeStep (s.setDec (some d))) := by
  cases bytes with
  | nil => cases packet
  | cons c bytes =>
    obtain ⟨there, byte, more⟩ := supplies_cons supplied
    have fetched := run_fetchCode_ega (s := s.setDec (some d)) rfl hp there
    rw [show readByte (s.setDec (some d)).mem d.p = c from byte] at fetched
    rw [codeStep_exec fetched]
    rcases egaPacketPixels_inv packet with ⟨n, low, counted, rfl⟩ | ⟨n, high, low, counted, rfl⟩ |
      ⟨n, pair, bytes, high, rfl, counted, rfl⟩
    · obtain ⟨instr, field, colour⟩ := decodeEgaControl_run low
      rw [List.length_map, List.length_replicate] at room fits
      obtain ⟨q, run, after⟩ := run_egaCount (s := s.setDec (some { d with p := d.p + 1 })) rfl more (field ▸ counted)
      have drawn := (exec_egaRun_counted (d := { d with p := d.p + 1 }) (colour := c.extractLsb' 0 4) rfl hp hk run).2 room fits
      rw [instr, ← colour]
      exact packetDone_colours drawn after
    · obtain ⟨instr, field⟩ := decodeEgaControl_copyleft high low
      rw [List.length_replicate] at room fits left
      obtain ⟨q, run, after⟩ := run_egaCount (s := s.setDec (some { d with p := d.p + 1 })) rfl more (field ▸ counted)
      have drawn := (exec_egaCopyleft_counted (d := { d with p := d.p + 1 }) rfl hp hk run).2 room fits fun j hj => left j hj (by simp [hj])
      rw [instr]
      exact packetDone_copies drawn after
    · obtain ⟨instr, field⟩ := decodeEgaControl_dither high
      obtain ⟨there', byte', more'⟩ := supplies_cons more
      rw [List.length_map, List.length_map, List.length_range] at room fits
      obtain ⟨q, run, after⟩ := run_egaCount (s := s.setDec (some { d with p := d.p + 1 + 1 })) rfl more' (field ▸ counted)
      have drawn := (exec_egaDither_counted (s := s.setDec (some { d with p := d.p + 1 })) rfl hp hk there' run).2 room fits
      rw [instr, ← byte']
      exact packetDone_colours drawn after

/-! The strip -/

/-- What is left of an EGA_RLE strip whose payload is supplied apart from its pixels. -/
theorem finishDecode_ega : ∀ {fuel room : Nat} {bytes : List Byte} {pixels : List (Option Byte)} {s : State} {d : Decode}
    {total : Nat}, egaPixels fuel room bytes = some pixels → d.phase = .ega → decodeTotal d = total → d.k + room = total →
    Supplies s (pixelsCover d 0 total) d.p bytes → pixelsFit s.par d 0 total →
    (∀ j, j < room → pixels.getD j none = none → hasLeft s.par d (d.k + j)) →
    finishDecode (inStrip s d) = .next { s with
      mem := paintEga s d s.mem d.k pixels, result := transparencyResult d.transparent, dec := none }
  | _, 0, _, pixels, s, d, total, h, hp, all, count, _, _, _ => by
    rw [egaPixels] at h
    cases h
    exact finishDecode_inStrip_all (fun _ e => nomatch hp.symm.trans e) (Nat.le_of_eq (all.trans count.symm))
  | 0, _ + 1, _, _, _, _, _, h, _, _, _, _, _, _ => by cases h
  | fuel + 1, room + 1, bytes, pixels, s, d, total, h, hp, all, count, supplied, fits, left => by
    obtain ⟨ps, rest, more, packet, le, rest', rfl⟩ := egaPixels_packet h
    have inside : d.k + ps.length ≤ total := by omega
    obtain ⟨q, step, after⟩ := codeStep_ega hp (by omega) supplied packet (by omega) (pixelsFit_part fits inside)
      fun j hj none' => left j (by omega) (by rwa [List.getD_append _ _ _ _ hj])
    have unchanged : ∀ a, ¬ pixelsCover d 0 total a → readByte (paintEga s d s.mem d.k ps) a = readByte s.mem a :=
      fun a ha => readByte_paintEga fun covers => ha (pixelsCover_part covers inside)
    have finished := finishDecode_ega (s := { s with mem := paintEga s d s.mem d.k ps })
      (d := { d with p := q, k := d.k + ps.length }) rest' hp all (show d.k + ps.length + (room + 1 - ps.length) = total by omega)
      (supplies_congr after rfl unchanged) fits fun j hj none' => by
        have later := left (ps.length + j) (by omega)
          (by rwa [List.getD_append_right _ _ _ _ (Nat.le_add_right ..), Nat.add_sub_cancel_left])
        rwa [← Nat.add_assoc] at later
    refine (finishDecode_inStrip (by omega) step).trans (finished.trans ?_)
    rw [paintEga_append]
    refine congrArg (fun m => Host.Outcome.next ({ s with
      mem := m, result := transparencyResult d.transparent, dec := none } : State)) ?_
    exact paintEga_congr (s := s) (t := { s with mem := paintEga s d s.mem d.k ps }) (d := d)
      (e := { d with p := q, k := d.k + ps.length }) rfl rfl rfl ⟨rfl, rfl, rfl, rfl, rfl, rfl⟩ more _ _

/-- An EGA_RLE strip whose payload is supplied apart from its pixels. -/
theorem exec_egaStrip {s : State} {v : BitVec 2} {e : DescEntry} {d : Decode} {fuel : Nat} {stream : List Byte}
    {pixels : List (Option Byte)} (hd : d = describedBy (startedStrip s (s.screen v).format) e)
    (valid : (s.screen v).valid = true) (profile : s.profile = 0 ∨ s.profile = 5) (rows : 0 < s.countOperand 3)
    (there : readable s.par (s.addrOperand 2) 1)
    (he : descEntry s.par.descMap (readByte s.mem (s.addrOperand 2)) = some e) (hf : e.family = .egaRle)
    (hs : bodySupplied s.par e.family = false) (fits : pixelsFit s.par d 0 (8 * s.countOperand 3))
    (h : egaPixels fuel (8 * s.countOperand 3) stream = some pixels)
    (supplied : Supplies s (pixelsCover d 0 (8 * s.countOperand 3)) (s.addrOperand 2 + 1) stream)
    (left : ∀ k, k < 8 * s.countOperand 3 → pixels.getD k none = none → hasLeft s.par d k) :
    exec (.decodeStrip v) s = .next { s with
      mem := paintEga s d s.mem 0 pixels, result := transparencyResult e.transparent, dec := none } := by
  subst hd
  have phase : (describedStrip s (s.screen v).format e).phase = .ega := congrArg familyPhase hf
  have total : decodeTotal (describedStrip s (s.screen v).format e) = 8 * s.countOperand 3 :=
    decodeTotal_of_phase phase fun _ e => nomatch e
  have begun : runM (familyBody s.par e.family (describedStrip s (s.screen v).format e)) (atDescriptor s (s.screen v).format)
      = .next (inStrip s (describedStrip s (s.screen v).format e)) := by
    rw [familyBody_packet hs (.inr hf), inStrip_more (by rw [total]; show 0 < _; omega)]
    rfl
  rw [exec_decodeStrip_whole valid profile (by omega) there he begun, finishDecode_ega h phase total (Nat.zero_add _) supplied fits
    fun j hj none' => (Nat.zero_add j).symm ▸ left j hj none']
  refine congrArg (fun m => Host.Outcome.next ({ s with
    mem := m, result := transparencyResult e.transparent, dec := none } : State)) ?_
  exact paintEga_congr (s := s) (t := s) (d := describedBy (startedStrip s (s.screen v).format) e)
    (e := describedStrip s (s.screen v).format e) rfl rfl rfl ⟨rfl, rfl, rfl, rfl, rfl, rfl⟩ pixels _ _

/-- Settles O48: `exec_anyStrip` for the families whose codes always answer, `exec_egaStrip` for EGA_RLE. -/
theorem decodeStripWritesStrip : Obligations.DecodeStripWritesStrip := by
  intro s v e x w h src d valid profile rows there he fits
  constructor
  · intro family room
    obtain ⟨cs, f, hcs, ran⟩ := exec_anyStrip rfl valid profile rows there he fits family room
    refine ⟨_, cs, ran, hcs, rfl, fun a ha => readByte_paintPixels (hcs ▸ ha), fun hwf apart pixels k b hk hb => ?_⟩
    have byte := readByte_paintPixels_self (s := s) (d := d) apart pixels (cs := cs) (k := 0) (j := k) hwf
      ((Nat.zero_add _).trans_le (Nat.le_of_eq hcs)) (hcs ▸ hk) hb
    rwa [Nat.zero_add] at byte
  · intro hf hs fuel stream pixels decoded payload stored apart left
    have length := length_egaPixels decoded
    exact ⟨exec_egaStrip rfl valid profile rows there he hf hs fits decoded ⟨payload, fun j hj => ⟨stored j hj, apart j hj⟩⟩ left,
      length, fun a ha => readByte_paintEga (length ▸ ha)⟩

end Sys2Proof.Machine
end
